-- ==== Sys2Proof/Word.lean ====
section
/-! DEFINITION. The machine's bit-vector words: bytes, 32-bit bus and register words, 64-bit response entries
(spec/00_scope.md R9, R12; spec/20_memory.md R66, R67). -/

namespace Sys2Proof

/-- One byte, as a host that views a word as bytes sees it (R66). -/
abbrev Byte := BitVec 8

/-- "A 'word' is 32 bits" (R9): every register, RAM word and bus transfer. -/
abbrev Word := BitVec 32

/-- The encoding of one binary64 response entry (R12, R41). -/
abbrev DWord := BitVec 64

end Sys2Proof
end

