-- ==== Sys2Proof/Config.lean ====
section
/-! DEFINITION. What an instantiation of the block fixes (spec/00_scope.md R8, spec/20_memory.md R80), and the free
values: constants without a body, for what the spec leaves open (spec/93_implementation_defined.md part 1). -/

namespace Sys2Proof.Config

/-- BUF_DEPTH: words per channel in the sample RAM, at the value "this hardware takes" (R8; notes/assumptions/1.md). -/
def bufDepth : Nat := 4096

/-- RESP_DEPTH: entries in the response RAM, at the value "this hardware takes" (R8; notes/assumptions/1.md). -/
def respDepth : Nat := 4096

/-- FREE VALUE. The byte that the sample RAM holds at an address nothing has written, in the run with a given number
(R52 and spec/93 U15: "may hold any 32-bit pattern"; notes/assumptions/3.md). -/
opaque sampleByte : (run address : Nat) → Byte

/-- FREE VALUE. The byte that the response RAM holds at an address nothing has written, in the run with a given number
(R52 and spec/93 U16: "may hold any 64-bit pattern"; notes/assumptions/3.md). -/
opaque respByte : (run address : Nat) → Byte

/-- FREE VALUE. The sign and payload of the NaN that a coefficient slot would receive, by the derivation's inputs and
the slot's number. No derivation from a reachable state makes a NaN (R126); notes/assumptions/4.md. -/
opaque nanCoefficient : (inputs : List Word) → (slot : Nat) → Nat

/-- FREE VALUE. Which end of the enclosure an elementary function rounds when its last working precision still leaves
two candidates, by function and argument (notes/assumptions/5.md). -/
opaque undecided : (function significand : Nat) → (exponent : Int) → Bool

end Sys2Proof.Config
end

