-- ==== Sys2Proof/Machine/Fp.lean ====
section
/-! DEFINITION. IEEE 754 arithmetic in binary32 and binary64: round to nearest, ties to even, gradual underflow,
every operation rounded on its own (spec/00_scope.md R12, R13, R16). A datum is held decoded, as an exact dyadic
number, an infinity or a NaN; a NaN has no encoding until one is stored (notes/assumptions/4.md). -/

namespace Sys2Proof.Machine

/-- A binary interchange format: the widths of its exponent and fraction fields (R12). -/
structure Fmt where
  ebits : Nat
  mbits : Nat
  deriving DecidableEq, Repr

/-- binary32: sign bit 31, biased exponent 30:23, fraction 22:0 (R12). -/
def f32 : Fmt := ⟨8, 23⟩

/-- binary64: sign bit 63, biased exponent 62:52, fraction 51:0 (R12). -/
def f64 : Fmt := ⟨11, 52⟩

/-- The exponent of the least positive datum: every finite datum is an integer multiple of `2 ^ qmin`. -/
def Fmt.qmin (f : Fmt) : Int := 2 - (2 : Int) ^ (f.ebits - 1) - f.mbits

/-- The magnitude code of infinity (all exponent bits set, fraction zero). Codes below it are the finite magnitudes,
in rising order. -/
def Fmt.infCode (f : Fmt) : Nat := (2 ^ f.ebits - 1) * 2 ^ f.mbits

/-- The significand and exponent `(m, e)` of a finite magnitude code: its value is `m * 2 ^ e`. -/
def Fmt.unpackMag (f : Fmt) (mag : Nat) : Nat × Int :=
  if mag < 2 ^ f.mbits then (mag, f.qmin)
  else (2 ^ f.mbits + mag % 2 ^ f.mbits, f.qmin + (mag / 2 ^ f.mbits : Nat) - 1)

/-- `m * 2 ^ e` as a fraction of naturals. -/
def fraction (m : Nat) (e : Int) : Nat × Nat := (m * 2 ^ e.toNat, 2 ^ (-e).toNat)

/-- The exponent `e` with `2 ^ e ≤ num / den < 2 ^ (e + 1)`, for positive `num` and `den`. -/
def floorLog2 (num den : Nat) : Int :=
  let e : Int := (Nat.log2 num : Int) - (Nat.log2 den : Int)
  if num * 2 ^ (-e).toNat < den * 2 ^ e.toNat then e - 1 else e

/-- `num / den` rounded to the nearest integer, ties to even. -/
def roundDivEven (num den : Nat) : Nat :=
  let q := num / den
  let r := num % den
  if 2 * r < den ∨ (2 * r = den ∧ q % 2 = 0) then q else q + 1

/-- Round to nearest, ties to even (R13): the magnitude code nearest to the fraction `num / den`, with overflow to
infinity and gradual underflow to subnormals. -/
def Fmt.roundMag (f : Fmt) (num den : Nat) : Nat :=
  if num = 0 then 0
  else
    let q : Int := max (floorLog2 num den - f.mbits) f.qmin
    let n := roundDivEven (num * 2 ^ (-q).toNat) (den * 2 ^ q.toNat)
    min ((q - f.qmin).toNat * 2 ^ f.mbits + n) f.infCode

/-- A decoded floating-point datum: a NaN, an infinity, or the exact finite value `± m * 2 ^ e` (R12). -/
inductive Fp where
  | nan
  | inf (neg : Bool)
  | fin (neg : Bool) (m : Nat) (e : Int)
  deriving DecidableEq, Repr

namespace Fp

/-- The datum with a given sign and magnitude code. -/
def ofMag (f : Fmt) (neg : Bool) (mag : Nat) : Fp :=
  if mag < f.infCode then .fin neg (f.unpackMag mag).1 (f.unpackMag mag).2 else .inf neg

/-- `rn(± num / den)` (R13). -/
def round (f : Fmt) (neg : Bool) (num den : Nat) : Fp := ofMag f neg (f.roundMag num den)

/-- `isNaN` (R16). -/
def isNaN : Fp → Bool
  | .nan => true
  | _ => false

/-- `finite` (R16): neither NaN nor infinite. -/
def isFinite : Fp → Bool
  | .fin _ _ _ => true
  | _ => false

/-- The sign bit of a number that is not a NaN. -/
def sign : Fp → Bool
  | .nan => false
  | .inf neg => neg
  | .fin neg _ _ => neg

/-- `neg(a)` flips the sign (R13). -/
def neg : Fp → Fp
  | .nan => .nan
  | .inf s => .inf (!s)
  | .fin s m e => .fin (!s) m e

/-- The signed integer `± m * 2 ^ (e - base)`, for `base ≤ e`. -/
def aligned (neg : Bool) (m : Nat) (e base : Int) : Int :=
  let v : Int := (m * 2 ^ (e - base).toNat : Nat)
  if neg then -v else v

/-- `add(a, b) = rn(a + b)` (R13). An exact zero sum is `+0` unless both operands are negative. -/
def add (f : Fmt) : Fp → Fp → Fp
  | .nan, _ => .nan
  | .inf _, .nan => .nan
  | .inf s, .inf t => if s = t then .inf s else .nan
  | .inf s, .fin _ _ _ => .inf s
  | .fin _ _ _, .nan => .nan
  | .fin _ _ _, .inf t => .inf t
  | .fin s m e, .fin t n d =>
    let base := min e d
    let sum := aligned s m e base + aligned t n d base
    if sum = 0 then .fin (s && t) 0 f.qmin
    else
      let p := fraction sum.natAbs base
      round f (decide (sum < 0)) p.1 p.2

/-- `sub(a, b) = rn(a - b)` (R13). -/
def sub (f : Fmt) (a b : Fp) : Fp := add f a (neg b)

/-- `mul(a, b) = rn(a * b)` (R13). -/
def mul (f : Fmt) : Fp → Fp → Fp
  | .nan, _ => .nan
  | .inf _, .nan => .nan
  | .inf s, .inf t => .inf (s != t)
  | .inf s, .fin t n _ => if n = 0 then .nan else .inf (s != t)
  | .fin _ _ _, .nan => .nan
  | .fin s m _, .inf t => if m = 0 then .nan else .inf (s != t)
  | .fin s m e, .fin t n d =>
    let p := fraction (m * n) (e + d)
    round f (s != t) p.1 p.2

/-- `div(a, b) = rn(a / b)` (R13). -/
def div (f : Fmt) : Fp → Fp → Fp
  | .nan, _ => .nan
  | .inf _, .nan => .nan
  | .inf _, .inf _ => .nan
  | .inf s, .fin t _ _ => .inf (s != t)
  | .fin _ _ _, .nan => .nan
  | .fin s _ _, .inf t => .fin (s != t) 0 f.qmin
  | .fin s m e, .fin t n d =>
    if n = 0 then (if m = 0 then .nan else .inf (s != t))
    else
      let p := fraction m (e - d)
      round f (s != t) p.1 (p.2 * n)

/-- Integer square root by binary digits: the largest `r < 2 ^ fuel + r₀` above `r₀` with `r * r ≤ n`, adding one bit at a
time from `2 ^ (fuel - 1)` down. -/
def isqrtLoop (n : Nat) : Nat → Nat → Nat
  | 0, r => r
  | k + 1, r => if (r + 2 ^ k) * (r + 2 ^ k) ≤ n then isqrtLoop n k (r + 2 ^ k) else isqrtLoop n k r

/-- The integer square root. -/
def isqrt (n : Nat) : Nat := isqrtLoop n (Nat.log2 n / 2 + 1) 0

/-- `sqrt(a) = rn(√a)` (R13). The significand is scaled to at least twice the precision plus four bits, its integer
root taken, and a half added below the last place when the root is not exact: no rounding boundary lies between that
and the exact root. -/
def sqrt (f : Fmt) : Fp → Fp
  | .nan => .nan
  | .inf s => if s then .nan else .inf false
  | .fin s m e =>
    if m = 0 then .fin s 0 f.qmin
    else if s then .nan
    else
      let odd : Nat := (e % 2).toNat
      let k := f.mbits + 3
      let n := m * 2 ^ (2 * k + odd)
      let r := isqrt n
      let sticky := if r * r = n then 0 else 1
      let p := fraction (2 * r + sticky) ((e - odd) / 2 - k - 1)
      round f false p.1 p.2

/-- The IEEE comparison `a < b` (R16): false on a NaN, and `-0 = +0`. -/
def lt : Fp → Fp → Bool
  | .nan, _ => false
  | .inf _, .nan => false
  | .inf s, .inf t => s && !t
  | .inf s, .fin _ _ _ => s
  | .fin _ _ _, .nan => false
  | .fin _ _ _, .inf t => !t
  | .fin s m e, .fin t n d => decide (aligned s m e (min e d) < aligned t n d (min e d))

/-- The IEEE comparison `a ≤ b` (R16). -/
def le (a b : Fp) : Bool := !a.isNaN && !b.isNaN && !lt b a

/-- The smaller of two data (R13: never applied to a NaN). -/
def min (a b : Fp) : Fp := if lt b a then b else a

/-- The larger of two data (R13: never applied to a NaN). -/
def max (a b : Fp) : Fp := if lt a b then b else a

/-- An integer below `2 ^ 24` converts exactly (R15). -/
def ofNat (n : Nat) : Fp := .fin false n 0

/-- The datum with a given encoding (R12). -/
def decodeBits (f : Fmt) (bits : Nat) : Fp :=
  let mag := bits % 2 ^ (f.ebits + f.mbits)
  let neg := decide (bits / 2 ^ (f.ebits + f.mbits) % 2 = 1)
  if mag ≤ f.infCode then ofMag f neg mag else .nan

/-- The encoding of a datum (R12). `nanBits` supplies a NaN's sign and payload, which IEEE 754 leaves open: its low
`mbits - 1` bits are the payload and the next bit the sign; the quiet bit is set (notes/assumptions/4.md). -/
def encodeBits (f : Fmt) (nanBits : Nat) : Fp → Nat
  | .nan => (nanBits / 2 ^ (f.mbits - 1) % 2) * 2 ^ (f.ebits + f.mbits) + f.infCode + 2 ^ (f.mbits - 1)
      + nanBits % 2 ^ (f.mbits - 1)
  | .inf s => s.toNat * 2 ^ (f.ebits + f.mbits) + f.infCode
  | .fin s m e => s.toNat * 2 ^ (f.ebits + f.mbits) + f.roundMag (fraction m e).1 (fraction m e).2

end Fp

/-- A word read "as f32" (R12). -/
def ofF32 (w : Word) : Fp := Fp.decodeBits f32 w.toNat

/-- The binary32 encoding of a datum. -/
def toF32 (nanBits : Nat) (a : Fp) : Word := BitVec.ofNat 32 (Fp.encodeBits f32 nanBits a)

/-- An f64 read from its encoding (R12). -/
def ofF64 (d : DWord) : Fp := Fp.decodeBits f64 d.toNat

/-- The binary64 encoding of a datum. -/
def toF64 (nanBits : Nat) (a : Fp) : DWord := BitVec.ofNat 64 (Fp.encodeBits f64 nanBits a)

/-- `add32` (R13). -/
def add32 : Fp → Fp → Fp := Fp.add f32
/-- `sub32` (R13). -/
def sub32 : Fp → Fp → Fp := Fp.sub f32
/-- `mul32` (R13). -/
def mul32 : Fp → Fp → Fp := Fp.mul f32
/-- `div32` (R13). -/
def div32 : Fp → Fp → Fp := Fp.div f32
/-- `sqrt32` (R13). -/
def sqrt32 : Fp → Fp := Fp.sqrt f32
/-- `add64` (R13). -/
def add64 : Fp → Fp → Fp := Fp.add f64
/-- `sub64` (R13). -/
def sub64 : Fp → Fp → Fp := Fp.sub f64
/-- `mul64` (R13). -/
def mul64 : Fp → Fp → Fp := Fp.mul f64
/-- `div64` (R13). -/
def div64 : Fp → Fp → Fp := Fp.div f64
/-- `sqrt64` (R13). -/
def sqrt64 : Fp → Fp := Fp.sqrt f64

end Sys2Proof.Machine
end

