-- ==== Sys2Proof/Machine/Elementary.lean ====
section
/-! DEFINITION. The eight elementary functions, correctly rounded (spec/00_scope.md R14). Each encloses the exact real
result between two fractions at a working precision, by a power series with a bound on what it leaves out, and rounds
both ends; while they round apart, the precision is doubled (notes/assumptions/5.md). -/

namespace Sys2Proof.Machine

/-! ## Interval arithmetic -/

/-- The real interval from `lo / 2 ^ p` to `hi / 2 ^ p`, at a working precision `p` that goes beside it. -/
structure Ival where
  lo : Int
  hi : Int
  deriving DecidableEq, Repr

/-- `⌊a / b⌋`, for positive `b`. -/
def floorDiv (a : Int) (b : Nat) : Int := a / (b : Int)

/-- `⌈a / b⌉`, for positive `b`. -/
def ceilDiv (a : Int) (b : Nat) : Int := -((-a) / (b : Int))

namespace Ival

/-- An enclosure of `num / den`. -/
def ofFraction (p : Nat) (num : Int) (den : Nat) : Ival :=
  ⟨floorDiv (num * (2 ^ p : Nat)) den, ceilDiv (num * (2 ^ p : Nat)) den⟩

/-- The number 0. -/
def zero : Ival := ⟨0, 0⟩

/-- The number 1. -/
def one (p : Nat) : Ival := ⟨(2 ^ p : Nat), (2 ^ p : Nat)⟩

/-- Sums. -/
def add (a b : Ival) : Ival := ⟨a.lo + b.lo, a.hi + b.hi⟩

/-- Negatives. -/
def neg (a : Ival) : Ival := ⟨-a.hi, -a.lo⟩

/-- Differences. -/
def sub (a b : Ival) : Ival := a.add b.neg

/-- Products with a whole number. -/
def scale (k : Int) (a : Ival) : Ival := if 0 ≤ k then ⟨k * a.lo, k * a.hi⟩ else ⟨k * a.hi, k * a.lo⟩

/-- Quotients by a positive whole number. -/
def divNat (a : Ival) (n : Nat) : Ival := ⟨floorDiv a.lo n, ceilDiv a.hi n⟩

/-- Products. -/
def mul (p : Nat) (a b : Ival) : Ival :=
  ⟨floorDiv (min (min (a.lo * b.lo) (a.lo * b.hi)) (min (a.hi * b.lo) (a.hi * b.hi))) (2 ^ p),
   ceilDiv (max (max (a.lo * b.lo) (a.lo * b.hi)) (max (a.hi * b.lo) (a.hi * b.hi))) (2 ^ p)⟩

/-- Quotients by positive numbers (`0 < b.lo`). -/
def div (p : Nat) (a b : Ival) : Ival :=
  ⟨floorDiv (a.lo * (2 ^ p : Nat)) (if 0 ≤ a.lo then b.hi else b.lo).toNat,
   ceilDiv (a.hi * (2 ^ p : Nat)) (if 0 ≤ a.hi then b.lo else b.hi).toNat⟩

/-- The larger endpoint magnitude. -/
def mag (a : Ival) : Int := max (a.lo.natAbs : Int) (a.hi.natAbs : Int)

/-- The interval widened by `d` on either side. -/
def widen (a : Ival) (d : Int) : Ival := ⟨a.lo - d, a.hi + d⟩

/-- The part of the interval between -1 and 1. -/
def unit (p : Nat) (a : Ival) : Ival := ⟨max a.lo (-(2 ^ p : Nat)), min a.hi (2 ^ p : Nat)⟩

end Ival

/-! ## Rounding an enclosure -/

/-- The real interval from `lo / den` to `hi / den`. -/
structure Encl where
  lo : Int
  hi : Int
  den : Nat
  deriving DecidableEq, Repr

/-- An interval at precision `p` as an enclosure. -/
def Ival.toEncl (p : Nat) (a : Ival) : Encl := ⟨a.lo, a.hi, 2 ^ p⟩

/-- An enclosure that decides nothing. -/
def Encl.undecided : Encl := ⟨-1, 1, 1⟩

/-- The datum that every number of the enclosure rounds to, where there is one of one sign. -/
def Encl.rounded (f : Fmt) (x : Encl) : Option Fp :=
  if 0 < x.lo then
    let a := f.roundMag x.lo.toNat x.den
    if a = f.roundMag x.hi.toNat x.den then some (Fp.ofMag f false a) else none
  else if x.hi < 0 then
    let a := f.roundMag (-x.hi).toNat x.den
    if a = f.roundMag (-x.lo).toNat x.den then some (Fp.ofMag f true a) else none
  else none

/-- The rounding of one end of an enclosure. -/
def Encl.roundEnd (f : Fmt) (x : Int) (den : Nat) : Fp :=
  Fp.ofMag f (decide (x < 0)) (f.roundMag x.natAbs den)

/-- Round the number that `encl p` encloses at every precision `p`, doubling the precision until it decides. Where even
the last precision leaves two candidates, the free value `upper` says which end is rounded (notes/assumptions/5.md). -/
def refine (f : Fmt) (upper : Bool) (encl : Nat → Encl) : (fuel p : Nat) → Fp
  | 0, p => Encl.roundEnd f (if upper then (encl p).hi else (encl p).lo) (encl p).den
  | fuel + 1, p =>
    match (encl p).rounded f with
    | some r => r
    | none => refine f upper encl fuel (2 * p)

/-- How often the precision is doubled. -/
def refineFuel : Nat := 6

/-- The first working precision: 70 bits for binary32, 128 for binary64. -/
def basePrecision (f : Fmt) : Nat := 2 * f.mbits + 24

/-! ## Sine, cosine and tangent -/

/-- The Taylor series of cosine and sine at `u` together, from term `j` on: `t` is the term `± u ^ (2 j) / (2 j)!`, and
`c` and `s` the sums so far. The result is the two sums and the first term left out. -/
def cosSinTerms (p : Nat) (u : Ival) : (count j : Nat) → (t c s : Ival) → Ival × Ival × Ival
  | 0, _, t, c, s => (c, s, t)
  | count + 1, j, t, c, s =>
    let t1 := (Ival.mul p t u).divNat (2 * j + 1)
    cosSinTerms p u count (j + 1) ((Ival.mul p t1 u).divNat (2 * j + 2)).neg (c.add t) (s.add t1)

/-- Cosine and sine of `2 ^ count` times an angle, from those of the angle, by doubling. -/
def doubleAngle (p : Nat) : (count : Nat) → (c s : Ival) → Ival × Ival
  | 0, c, s => (c, s)
  | count + 1, c, s =>
    doubleAngle p count ((Ival.mul p c c).sub (Ival.mul p s s)) ((Ival.mul p c s).scale 2)

/-- How often `m * 2 ^ e` must be halved to lie below 1/16. -/
def halvings (m : Nat) (e : Int) : Nat := ((Nat.log2 m : Int) + e + 5).toNat

/-- The precision of an angle's computation: two bits are lost at each doubling, and a small angle's sine is small. -/
def anglePrecision (m : Nat) (e : Int) (p : Nat) : Nat :=
  p + 2 * halvings m e + 8 + (-((Nat.log2 m : Int) + e)).toNat

/-- Enclosures of cosine and sine of the angle `m * 2 ^ e`, at precision `p`. -/
def cosSin (m : Nat) (e : Int) (p : Nat) : Ival × Ival :=
  let k := halvings m e
  let x := fraction m (e - k)
  let r := cosSinTerms p (Ival.ofFraction p x.1 x.2) (p / 10 + 6) 0 (Ival.one p) Ival.zero Ival.zero
  let d := 2 * r.2.2.mag
  let cs := doubleAngle p k (r.1.widen d) (r.2.1.widen d)
  (cs.1.unit p, cs.2.unit p)

/-- An enclosure of the cosine of `m * 2 ^ e`. -/
def cosEncl (m : Nat) (e : Int) (p : Nat) : Encl :=
  (cosSin m e (anglePrecision m e p)).1.toEncl (anglePrecision m e p)

/-- An enclosure of the sine of `m * 2 ^ e`. -/
def sinEncl (m : Nat) (e : Int) (p : Nat) : Encl :=
  (cosSin m e (anglePrecision m e p)).2.toEncl (anglePrecision m e p)

/-- An enclosure of the tangent of `m * 2 ^ e`: sine over cosine, once the cosine's sign is known. -/
def tanEncl (m : Nat) (e : Int) (p : Nat) : Encl :=
  let q := anglePrecision m e p
  let cs := cosSin m e q
  if 0 < cs.1.lo then (Ival.div q cs.2 cs.1).toEncl q
  else if cs.1.hi < 0 then (Ival.div q cs.2.neg cs.1.neg).toEncl q
  else Encl.undecided

/-- `cos(x)`, correctly rounded (R14). -/
def Fp.cos (f : Fmt) : Fp → Fp
  | .nan => .nan
  | .inf _ => .nan
  | .fin _ m e =>
    if m = 0 then Fp.round f false 1 1
    else refine f (Config.undecided 0 m e) (cosEncl m e) refineFuel (basePrecision f)

/-- `sin(x)`, correctly rounded (R14). -/
def Fp.sin (f : Fmt) : Fp → Fp
  | .nan => .nan
  | .inf _ => .nan
  | .fin s m e =>
    if m = 0 then .fin s 0 f.qmin
    else
      let r := refine f (Config.undecided 1 m e) (sinEncl m e) refineFuel (basePrecision f)
      if s then r.neg else r

/-- `tan(x)`, correctly rounded (R14). -/
def Fp.tan (f : Fmt) : Fp → Fp
  | .nan => .nan
  | .inf _ => .nan
  | .fin s m e =>
    if m = 0 then .fin s 0 f.qmin
    else
      let r := refine f (Config.undecided 2 m e) (tanEncl m e) refineFuel (basePrecision f)
      if s then r.neg else r

/-! ## Logarithms -/

/-- The series `z + z ^ 3 / 3 + z ^ 5 / 5 + …` from term `j` on: `t` is `z ^ (2 j + 1)` and `acc` the sum so far. The
result is the sum and the first power left out. -/
def artanhTerms (p : Nat) (z2 : Ival) : (count j : Nat) → (t acc : Ival) → Ival × Ival
  | 0, _, t, acc => (acc, t)
  | count + 1, j, t, acc => artanhTerms p z2 count (j + 1) (Ival.mul p t z2) (acc.add (t.divNat (2 * j + 1)))

/-- `2 artanh z = ln ((1 + z) / (1 - z))` by `count` terms, for `z` between -1/2 and 1/2. -/
def twoArtanh (p count : Nat) (z : Ival) : Ival :=
  let r := artanhTerms p (Ival.mul p z z) count 0 z Ival.zero
  (r.1.widen (2 * r.2.mag)).scale 2

/-- `ln 2 = 2 artanh (1/3)`. -/
def lnTwo (p : Nat) : Ival := twoArtanh p (p / 3 + 2) (Ival.ofFraction p 1 3)

/-- `ln 10 = 3 ln 2 + 2 artanh (1/9)`. -/
def lnTen (p : Nat) : Ival := ((lnTwo p).scale 3).add (twoArtanh p (p / 6 + 2) (Ival.ofFraction p 1 9))

/-- An enclosure of the decimal logarithm of `2 ^ k * num / den`, for `num / den` near 1. -/
def log10Encl (k : Int) (num den : Nat) (p0 : Nat) : Encl :=
  let p := p0 + 16
  let z := Ival.ofFraction p ((num : Int) - den) (num + den)
  let l := ((lnTwo p).scale k).add (twoArtanh p (p / 4 + 2) z)
  if 0 < (lnTen p).lo then (Ival.div p l (lnTen p)).toEncl p else Encl.undecided

/-- The exponent `b` with `m / 2 ^ b` above 3/4 and at most 3/2. -/
def log10Shift (m : Nat) : Nat := if 3 * 2 ^ Nat.log2 m < 2 * m then Nat.log2 m + 1 else Nat.log2 m

/-- `log10(x)`, correctly rounded (R14), with `m * 2 ^ e` taken as `2 ^ (e + log10Shift m) * (m / 2 ^ log10Shift m)`. -/
def Fp.log10 (f : Fmt) : Fp → Fp
  | .nan => .nan
  | .inf s => if s then .nan else .inf false
  | .fin s m e =>
    if m = 0 then .inf true
    else if s then .nan
    else if (fraction m e).1 = (fraction m e).2 then .fin false 0 f.qmin
    else
      refine f (Config.undecided 3 m e) (log10Encl (e + log10Shift m) m (2 ^ log10Shift m)) refineFuel (basePrecision f)

/-! ## Powers of ten -/

/-- The exponential series at `u` from term `n` on: `t` is `u ^ n / n!` and `acc` the sum so far. The result is the sum
and the first term left out. -/
def expTerms (p : Nat) (u : Ival) : (count n : Nat) → (t acc : Ival) → Ival × Ival
  | 0, _, t, acc => (acc, t)
  | count + 1, n, t, acc => expTerms p u count (n + 1) ((Ival.mul p t u).divNat (n + 1)) (acc.add t)

/-- The `2 ^ count`-th power. -/
def squares (p : Nat) : (count : Nat) → Ival → Ival
  | 0, a => a
  | count + 1, a => squares p count (Ival.mul p a a)

/-- `10 ^ (num / den) = (exp (num / den * ln 10 / 32)) ^ 32`, for `num / den` from 0 to 1. -/
def exp10Fraction (p num den : Nat) : Ival :=
  let u := (Ival.mul p (Ival.ofFraction p num den) (lnTen p)).divNat 32
  let r := expTerms p u (p / 5 + 4) 0 (Ival.one p) Ival.zero
  squares p 5 (r.1.widen (2 * r.2.mag))

/-- An enclosure of `10 ^ (n + num / den)`. -/
def exp10Encl (n : Int) (num den : Nat) (p0 : Nat) : Encl :=
  let p := p0 + 16
  let r := exp10Fraction p num den
  ⟨r.lo * (10 ^ n.toNat : Nat), r.hi * (10 ^ n.toNat : Nat), 2 ^ p * 10 ^ (-n).toNat⟩

/-- The signed numerator of `± m * 2 ^ e` over `(fraction m e).2`. -/
def signedNumerator (s : Bool) (m : Nat) (e : Int) : Int := if s then -((fraction m e).1 : Int) else (fraction m e).1

/-- The whole part of `± m * 2 ^ e`. -/
def wholePart (s : Bool) (m : Nat) (e : Int) : Int := floorDiv (signedNumerator s m e) (fraction m e).2

/-- The fractional part of `± m * 2 ^ e`, over `(fraction m e).2`. -/
def fractionalPart (s : Bool) (m : Nat) (e : Int) : Nat :=
  (signedNumerator s m e - wholePart s m e * (fraction m e).2).toNat

/-- `10 ^ x`, correctly rounded (R14): overflow and underflow past ±400, exact at whole numbers, else by the whole and
fractional parts of `x`. -/
def Fp.exp10 (f : Fmt) : Fp → Fp
  | .nan => .nan
  | .inf s => if s then .fin false 0 f.qmin else .inf false
  | .fin s m e =>
    if 400 * (fraction m e).2 < (fraction m e).1 then (if s then .fin false 0 f.qmin else .inf false)
    else if fractionalPart s m e = 0 then
      Fp.round f false (10 ^ (wholePart s m e).toNat) (10 ^ (-wholePart s m e).toNat)
    else
      refine f (Config.undecided (if s then 5 else 4) m e)
        (exp10Encl (wholePart s m e) (fractionalPart s m e) (fraction m e).2) refineFuel (basePrecision f)

/-! ## The eight functions -/

/-- `sin32` (R14). -/
def sin32 : Fp → Fp := Fp.sin f32
/-- `cos32` (R14). -/
def cos32 : Fp → Fp := Fp.cos f32
/-- `tan32` (R14). -/
def tan32 : Fp → Fp := Fp.tan f32
/-- `exp10_32` (R14). -/
def exp10_32 : Fp → Fp := Fp.exp10 f32
/-- `cos64` (R14). -/
def cos64 : Fp → Fp := Fp.cos f64
/-- `sin64` (R14). -/
def sin64 : Fp → Fp := Fp.sin f64
/-- `log10_64` (R14). -/
def log10_64 : Fp → Fp := Fp.log10 f64
/-- `exp10_64` (R14). -/
def exp10_64 : Fp → Fp := Fp.exp10 f64

end Sys2Proof.Machine
end

