-- ==== Sys2Proof/Machine/Constants.lean ====
section
/-! DEFINITION. The fixed constants (spec/00_scope.md R8, R17) and the Q ROM (spec/40_coefficient_calculator.md R120),
by their encodings. -/

namespace Sys2Proof.Machine

/-- F_LO = 20.0 (R17). -/
def F_LO : Word := 0x41A00000
/-- F_HI = 20000.0 (R17). -/
def F_HI : Word := 0x469C4000
/-- K049 = rn32(0.49) (R17). -/
def K049 : Word := 0x3EFAE148
/-- PI32 = rn32(π) (R17). -/
def PI32 : Word := 0x40490FDB
/-- TWO_PI32 = 2 × PI32 (R17). -/
def TWO_PI32 : Word := 0x40C90FDB
/-- TWO_PI64 = rn64(2π) (R17). -/
def TWO_PI64 : DWord := 0x401921FB54442D18
/-- G_LO = −24.0 (R17). -/
def G_LO : Word := 0xC1C00000
/-- G_HI = +24.0 (R17). -/
def G_HI : Word := 0x41C00000
/-- Q_LO = rn32(0.1) (R17). -/
def Q_LO : Word := 0x3DCCCCCD
/-- Q_HI = 10.0 (R17). -/
def Q_HI : Word := 0x41200000
/-- DB_FLOOR = −100.0 (R17). -/
def DB_FLOOR : DWord := 0xC059000000000000
/-- FS_MIN = 8000.0 (R8). -/
def FS_MIN : Word := 0x45FA0000
/-- FS_MAX = 384000.0 (R8). -/
def FS_MAX : Word := 0x48BB8000

/-- 1.0 in any format. -/
def one : Fp := Fp.ofNat 1
/-- 2.0 in any format. -/
def two : Fp := Fp.ofNat 2
/-- 20.0 in any format. -/
def twenty : Fp := Fp.ofNat 20

/-- `QROM[N]`, the quality factors of an `N`-section Butterworth cascade, for `N` from 1 to 4 (R120). -/
def qrom : Nat → List Word
  | 1 => [0x3F3504F3]
  | 2 => [0x3F0A8BD4, 0x3FA73D75]
  | 3 => [0x3F0483EE, 0x3F3504F3, 0x3FF746EA]
  | 4 => [0x3F0281F7, 0x3F19F1BD, 0x3F6664D7, 0x402406CF]
  | _ => []

end Sys2Proof.Machine
end

