-- ==== Sys2Proof/Syntax.lean ====
section
/-! DEFINITION. The commands of BQCE-1, one constructor per row of spec/opcode_table.json, and the bus transactions
that carry them (spec/30_encoding.md R92, R93, R98; spec/20_memory.md R60, R63, R64). -/

namespace Sys2Proof

/-- The two bus ports, each with its own address space and host agent (R6, R60, R69). -/
inductive Port where
  /-- The audio port. -/
  | a
  /-- The control port. -/
  | c
  deriving DecidableEq, Repr

/-- The six commands. An argument is a whole number as an assembler reads it; it must be below `2 ^ 24` (R91, R98). -/
inductive Instr where
  /-- A.NOP (R180). -/
  | aNop
  /-- A.PREPARE `m`: initialise at the rate in A_FS with block limit `m` (R181). -/
  | aPrepare (m : Nat)
  /-- A.PROCESS_BLOCK `n`: filter frames `0 .. n - 1` in place (R182). -/
  | aProcessBlock (n : Nat)
  /-- C.NOP (R200). -/
  | cNop
  /-- C.UPDATE: the control-rate tick (R201). -/
  | cUpdate
  /-- C.GET_RESPONSE `w`: evaluate the response at `w` points (R221). -/
  | cGetResponse (w : Nat)
  deriving DecidableEq, Repr

/-- The port whose command register takes the command (R92, R93). -/
def Instr.port : Instr → Port
  | .aNop => .a
  | .aPrepare _ => .a
  | .aProcessBlock _ => .a
  | .cNop => .c
  | .cUpdate => .c
  | .cGetResponse _ => .c

/-- The command's argument; 0 where the ARG field must be 0 (R92, R93). -/
def Instr.arg : Instr → Nat
  | .aNop => 0
  | .aPrepare m => m
  | .aProcessBlock n => n
  | .cNop => 0
  | .cUpdate => 0
  | .cGetResponse w => w

/-- One bus transaction at a platform address, which is its port's base plus an offset (R63, R64, R80). Every transfer is
one word (R67). -/
inductive Txn where
  | read (addr : Word)
  | write (addr value : Word)
  deriving DecidableEq, Repr

/-- A line of a program text: a transaction of one port's host (R98). -/
structure Line where
  port : Port
  txn : Txn
  deriving DecidableEq, Repr

end Sys2Proof
end

