-- ==== Sys2Proof/WellFormed.lean ====
section
/-! DEFINITION. Which commands have an encoding (spec/30_encoding.md R90, R98). -/

namespace Sys2Proof

/-- A command is well formed when its argument fits the 24-bit ARG field: "must be below 2^24. An assembler refuses a
larger value rather than truncate it" (R98). -/
def Instr.wellFormed (i : Instr) : Bool := decide (i.arg < 2 ^ 24)

end Sys2Proof
end

