-- ==== Sys2Proof/Decode.lean ====
section
/-! DEFINITION. The command decoder, total on every word and rejecting by name, and the encoder
(spec/30_encoding.md R90 to R96). -/

namespace Sys2Proof

/-- Why a command word is illegal (R94). -/
inductive DecodeError where
  /-- The opcode is not listed for the port. -/
  | unknownOpcode
  /-- The opcode is one whose ARG "must be 0" and the ARG is not 0. -/
  | argumentNotZero
  /-- Fewer bytes than one word: no command word is there to decode (R90, R95). -/
  | tooFewBytes
  deriving DecidableEq, Repr

/-- The OPC field, bits 7:0 (R90). -/
def opcField (w : Word) : Nat := w.toNat % 2 ^ 8

/-- The ARG field, bits 31:8, unsigned (R90, R91). -/
def argField (w : Word) : Nat := w.toNat / 2 ^ 8

/-- A command whose ARG must be 0 (R94). -/
def withoutArgument (arg : Nat) (i : Instr) : Except DecodeError Instr :=
  if arg = 0 then .ok i else .error .argumentNotZero

/-- `decodeA` (R92, R96). -/
def decodeA (w : Word) : Except DecodeError Instr :=
  if opcField w = 0x00 then withoutArgument (argField w) .aNop
  else if opcField w = 0x01 then .ok (.aPrepare (argField w))
  else if opcField w = 0x02 then .ok (.aProcessBlock (argField w))
  else .error .unknownOpcode

/-- `decodeC` (R93, R96). -/
def decodeC (w : Word) : Except DecodeError Instr :=
  if opcField w = 0x00 then withoutArgument (argField w) .cNop
  else if opcField w = 0x10 then withoutArgument (argField w) .cUpdate
  else if opcField w = 0x11 then .ok (.cGetResponse (argField w))
  else .error .unknownOpcode

/-- "A decoder needs only the port and the word to determine the command" (R90). -/
def decode (p : Port) (w : Word) : Except DecodeError Instr :=
  match p with
  | .a => decodeA w
  | .c => decodeC w

/-- The word whose bytes lie at rising addresses, least significant first (R66). -/
def wordOfBytes (b0 b1 b2 b3 : Byte) : Word := b3 ++ b2 ++ b1 ++ b0

/-- Byte `i` of a word, at byte address `a + i` (R66). -/
def byteOf (w : Word) (i : Nat) : Byte := w.extractLsb' (8 * i) 8

/-- The decoder on bytes, as a host that views a word as bytes lays them out (R66): the command and the bytes after
it. -/
def decodeBytes (p : Port) : List Byte → Except DecodeError (Instr × List Byte)
  | b0 :: b1 :: b2 :: b3 :: rest =>
    match decode p (wordOfBytes b0 b1 b2 b3) with
    | .ok i => .ok (i, rest)
    | .error e => .error e
  | _ => .error .tooFewBytes

/-- The opcode of a command (R92, R93). -/
def opcode : Instr → Nat
  | .aNop => 0x00
  | .aPrepare _ => 0x01
  | .aProcessBlock _ => 0x02
  | .cNop => 0x00
  | .cUpdate => 0x10
  | .cGetResponse _ => 0x11

/-- The command word (R90): ARG in bits 31:8, OPC in bits 7:0. -/
def encode (i : Instr) : Word := BitVec.ofNat 32 (i.arg * 2 ^ 8 + opcode i)

/-- The command word at bits `nbits - 1 .. 0` of `w`, every bit above them 0. -/
def tableWord (nbits w : Nat) : Word := BitVec.ofNat 32 (w % 2 ^ nbits)

/-- The port that a word of the opcode table is written to: port A where port A's decoder takes it, else port C where
port C's does, else port A. The word alone does not name the port, and 0x00000000 is a command of both
(notes/assumptions/6.md). -/
def tablePort (w : Word) : Port :=
  match decodeA w with
  | .ok _ => .a
  | .error _ =>
    match decodeC w with
    | .ok _ => .c
    | .error _ => .a

/-- The instruction the decoder reads from a word of spec/opcode_table.json, laid out as its four bytes. -/
def decodeTableWord (nbits w : Nat) : Option Instr :=
  let v := tableWord nbits w
  match decodeBytes (tablePort v) [byteOf v 0, byteOf v 1, byteOf v 2, byteOf v 3] with
  | .ok (i, _) => some i
  | .error _ => none

end Sys2Proof
end

