-- ==== Sys2Proof/Machine/State.lean ====
section
/-! DEFINITION. The architectural state (spec/10_state.md R22), as plain data, with the bus side of the two hosts that
drive the block (spec/20_memory.md R69, R70), and the state after reset (R52). -/

namespace Sys2Proof.Machine

/-- The two delay registers of one stage of one channel (R23). -/
structure Delay where
  r0 : Word
  r1 : Word
  deriving DecidableEq, Repr

/-- A coefficient set `[b0, b1, b2, a1, a2]`, five f32 words, with `a0 = 1` implied (R24). -/
structure Coefs where
  b0 : Word
  b1 : Word
  b2 : Word
  a1 : Word
  a2 : Word
  deriving DecidableEq, Repr

/-- A configuration: the bypass flags (true is bypassed) and coefficient sets of positions 0 to 8 (R26). -/
structure Configuration where
  byp : Vector Bool 9
  coef : Vector Coefs 9
  deriving DecidableEq, Repr

/-- The seven parameter words, in the order of R47. -/
structure Params where
  pf : Word
  pg : Word
  pq : Word
  lf : Word
  hf : Word
  ls : Word
  hs : Word
  deriving DecidableEq, Repr

/-- The names of the seven parameter registers, in address order (R47). -/
inductive Field where
  | pf | pg | pq | lf | hf | ls | hs
  deriving DecidableEq, Repr

/-- AERR, the sticky error bits of port A (R37, R42). -/
structure AErr where
  unprepared : Bool
  illegalCmd : Bool
  badFs : Bool
  badBlock : Bool
  badAccess : Bool
  deriving DecidableEq, Repr

/-- CERR, the sticky error bits of port C (R38, R45). -/
structure CErr where
  illegalCmd : Bool
  badWidth : Bool
  badFs : Bool
  badAccess : Bool
  deriving DecidableEq, Repr

/-- BLK, the progress of an A.PROCESS_BLOCK: frames `k .. n - 1` are yet to run while busy (R39;
notes/assumptions/9.md). -/
structure Blk where
  busy : Bool
  n : Nat
  k : Nat
  deriving DecidableEq, Repr

/-- Where the platform puts each port's space on its bus: A_BASE and C_BASE (R80; spec/93 U21). -/
structure Bases where
  a : Word
  c : Word
  deriving DecidableEq, Repr

/-- A RAM: (byte address, byte) pairs, addresses strictly rising. An address that is not listed has not been written
since reset and has no value here (notes/assumptions/3.md). -/
abbrev Memory := List Host.Cell

/-- What a port returns to its host when a transaction completes: the word read, or the completion of a write (R69). -/
inductive Reply where
  | data (w : Word)
  | done
  deriving DecidableEq, Repr

/-- Who moves next in the interleaving (R70), and the reset input, which is outside it (R270). -/
inductive Turn where
  /-- Agent A: its next frame or end step while a block is in flight, else its host's next transaction. -/
  | a
  /-- Agent C: its host's next transaction. -/
  | c
  /-- The reset input is asserted. -/
  | reset
  deriving DecidableEq, Repr

/-- No event of the block stops it: nothing traps and nothing hangs (R249, R250, R280). So there is no fault. -/
inductive Fault where
  deriving DecidableEq, Repr

/-- Why the model, not the block, would have no meaning for a command. -/
inductive Refusal where
  /-- Raised by `exec`'s arm for a command that has no meaning yet; safe. Every command has one, so nothing raises it. -/
  | notModelled (mnemonic : String)
  deriving DecidableEq, Repr

/-- The state of the block (R22), and below it the model's own fields: the two hosts' side of the bus. -/
structure State where
  /-- S[ch][pos], channel 0 left and 1 right (R23). -/
  delay : Vector (Vector Delay 9) 2
  /-- ACTIVE, the configuration both channels use (R26). -/
  active : Configuration
  /-- SNAP, the response snapshot (R27). -/
  snap : Configuration
  /-- P, the parameter registers (R30). -/
  params : Params
  /-- LAST, the last applied snapshot (R31). -/
  last : Params
  /-- DIRTY (R32). -/
  dirty : Bool
  /-- PARAM_CLAMPED (R33). -/
  paramClamped : Bool
  /-- ENG_FS (R34). -/
  engFs : Word
  /-- MAXBLOCK (R34). -/
  maxBlock : Word
  /-- PREPARED (R34). -/
  prepared : Bool
  /-- A_FS (R35). -/
  aFs : Word
  /-- C_RESP_FS (R35). -/
  cRespFs : Word
  /-- FAULT, bit `ch * 9 + pos` (R36). -/
  fault : BitVec 18
  /-- AERR (R37). -/
  aErr : AErr
  /-- CERR (R38). -/
  cErr : CErr
  /-- BLK (R39). -/
  blk : Blk
  /-- The sample RAM, at its port A byte addresses (R40, R81). -/
  ramA : Memory
  /-- The response RAM, at its port C byte addresses (R41, R82). -/
  ramC : Memory
  /-- The model's own: who moves next, soonest first; when empty, only a block in flight moves (R70, R74;
  notes/assumptions/8.md). -/
  turns : List Turn
  /-- The model's own: the audio host's transactions not yet accepted, in program order (R69). -/
  pendingA : List Txn
  /-- The model's own: the control host's transactions not yet accepted, in program order (R69). -/
  pendingC : List Txn
  /-- The model's own: what port A has returned to its host, newest first (R69). -/
  repliesA : List Reply
  /-- The model's own: what port C has returned to its host, newest first (R69). -/
  repliesC : List Reply
  /-- The model's own: how many reset events came before this run, which numbers the RAMs' free contents (R52, R270). -/
  run : Nat
  /-- The model's own: the platform's base addresses, a parameter that no step changes (R80; notes/assumptions/2.md). -/
  bases : Bases
  deriving DecidableEq, Repr

/-- IDENT, the identity coefficient set (R25). -/
def Coefs.ident : Coefs := ⟨0x3F800000, 0, 0, 0, 0⟩

/-- The reset configuration: every cut stage bypassed, the peak active, every slot IDENT (R52). -/
def Configuration.reset : Configuration :=
  ⟨#v[true, true, true, true, false, true, true, true, true], Vector.replicate 9 Coefs.ident⟩

/-- The reset parameters (R47): 1000, 0, 1, 20 and 20000, and both slope codes 0. -/
def Params.reset : Params := ⟨0x447A0000, 0x00000000, 0x3F800000, 0x41A00000, 0x469C4000, 0, 0⟩

/-- No block in flight (R39). -/
def Blk.idle : Blk := ⟨false, 0, 0⟩

/-- Every register +0.0 (R52, R181). -/
def zeroDelay : Vector (Vector Delay 9) 2 := Vector.replicate 2 (Vector.replicate 9 ⟨0, 0⟩)

/-- The block right after reset (R52, R270). The hosts have issued nothing, and no one is scheduled to
move. -/
def State.reset : State where
  delay := zeroDelay
  active := Configuration.reset
  snap := Configuration.reset
  params := Params.reset
  last := Params.reset
  dirty := false
  paramClamped := false
  engFs := 0
  maxBlock := 0
  prepared := false
  aFs := 0
  cRespFs := 0
  fault := 0
  aErr := ⟨false, false, false, false, false⟩
  cErr := ⟨false, false, false, false⟩
  blk := Blk.idle
  ramA := []
  ramC := []
  turns := []
  pendingA := []
  pendingC := []
  repliesA := []
  repliesC := []
  run := 0
  bases := ⟨0, 0⟩

end Sys2Proof.Machine
end

