-- ==== Sys2Proof/Machine/Ops.lean ====
section
/-! DEFINITION. Named operations over the RAMs and the registers, and the block's one error mechanism: raising a sticky
error bit, which is all that an error does here (spec/00_scope.md R10; spec/60_exceptions.md R241, R249, R250: no state
is saved, no mode changes, no control is transferred, and there is nothing to return from). -/

namespace Sys2Proof.Machine

/-- The outcome of a command or a step. -/
abbrev Out := Host.Outcome State Fault Refusal

/-- `f` after an outcome's next state. -/
def onNext (o : Out) (f : State → State) : Out :=
  match o with
  | .next s => .next (f s)
  | .fault r => .fault r
  | .refused r => .refused r

/-! ## Memory -/

/-- The canonical form: addresses strictly rising. An address that is not listed has no value, so no listed byte can
equal it (notes/assumptions/3.md). -/
abbrev Memory.wf (m : Memory) : Prop := m.Pairwise (fun x y => x.1 < y.1)

/-- The byte written at an address, if one was. -/
def Memory.read : Memory → Nat → Option Byte
  | [], _ => none
  | c :: m, a => if c.1 = a then some c.2 else Memory.read m a

/-- Write one byte, keeping the addresses rising. -/
def Memory.write : Memory → Nat → Byte → Memory
  | [], a, v => [(a, v)]
  | c :: m, a, v =>
    if a < c.1 then (a, v) :: c :: m
    else if a = c.1 then (a, v) :: m
    else c :: Memory.write m a v

/-- The byte at an address: the one written, else the free value that stands for the unwritten RAM. -/
def Memory.byteAt (m : Memory) (free : Nat → Byte) (a : Nat) : Byte := (m.read a).getD (free a)

/-- The word at a byte address, little-endian (R66). -/
def Memory.loadWord (m : Memory) (free : Nat → Byte) (a : Nat) : Word :=
  wordOfBytes (m.byteAt free a) (m.byteAt free (a + 1)) (m.byteAt free (a + 2)) (m.byteAt free (a + 3))

/-- Store a word at a byte address, little-endian (R66). -/
def Memory.storeWord (m : Memory) (a : Nat) (w : Word) : Memory :=
  (((m.write a (byteOf w 0)).write (a + 1) (byteOf w 1)).write (a + 2) (byteOf w 2)).write (a + 3) (byteOf w 3)

/-- Store an f64 as two words, the low word at the lower address (R66). -/
def Memory.storeDWord (m : Memory) (a : Nat) (d : DWord) : Memory :=
  (m.storeWord a (d.extractLsb' 0 32)).storeWord (a + 4) (d.extractLsb' 32 32)

/-- The word at an address of the sample RAM (R81). -/
def State.sampleWord (s : State) (a : Nat) : Word := s.ramA.loadWord (Config.sampleByte s.run) a

/-- Store a word in the sample RAM (R81). -/
def State.storeSample (s : State) (a : Nat) (w : Word) : State := { s with ramA := s.ramA.storeWord a w }

/-- The word at an address of the response RAM (R82). -/
def State.respWord (s : State) (a : Nat) : Word := s.ramC.loadWord (Config.respByte s.run) a

/-! ## Errors -/

/-- The sticky error bits of both ports, by name (R242, R243). -/
inductive ErrorBit where
  | aUnprepared | aIllegalCmd | aBadFs | aBadBlock | aBadAccess
  | cIllegalCmd | cBadWidth | cBadFs | cBadAccess
  deriving DecidableEq, Repr

/-- `raise Error(port, BIT)`: set one sticky error bit and nothing else (R10, R241). -/
def raiseError (e : ErrorBit) (s : State) : State :=
  match e with
  | .aUnprepared => { s with aErr := { s.aErr with unprepared := true } }
  | .aIllegalCmd => { s with aErr := { s.aErr with illegalCmd := true } }
  | .aBadFs => { s with aErr := { s.aErr with badFs := true } }
  | .aBadBlock => { s with aErr := { s.aErr with badBlock := true } }
  | .aBadAccess => { s with aErr := { s.aErr with badAccess := true } }
  | .cIllegalCmd => { s with cErr := { s.cErr with illegalCmd := true } }
  | .cBadWidth => { s with cErr := { s.cErr with badWidth := true } }
  | .cBadFs => { s with cErr := { s.cErr with badFs := true } }
  | .cBadAccess => { s with cErr := { s.cErr with badAccess := true } }

/-- Raise an error bit where its check found an error (R244: every applicable bit of a command's list). -/
def raiseIf (b : Bool) (e : ErrorBit) (s : State) : State := if b then raiseError e s else s

/-- `raise-access(port)` (R65). -/
def raiseAccess (p : Port) (s : State) : State :=
  match p with
  | .a => raiseError .aBadAccess s
  | .c => raiseError .cBadAccess s

/-- Executing ILLEGAL (R94, R96). -/
def raiseIllegal (p : Port) (s : State) : State :=
  match p with
  | .a => raiseError .aIllegalCmd s
  | .c => raiseError .cIllegalCmd s

/-! ## Registers -/

/-- A parameter word by its field. -/
def Params.get (p : Params) : Field → Word
  | .pf => p.pf
  | .pg => p.pg
  | .pq => p.pq
  | .lf => p.lf
  | .hf => p.hf
  | .ls => p.ls
  | .hs => p.hs

/-- A parameter file with one word replaced. -/
def Params.set (p : Params) (f : Field) (v : Word) : Params :=
  match f with
  | .pf => { p with pf := v }
  | .pg => { p with pg := v }
  | .pq => { p with pq := v }
  | .lf => { p with lf := v }
  | .hf => { p with hf := v }
  | .ls => { p with ls := v }
  | .hs => { p with hs := v }

/-- The seven words in address order. -/
def Params.toList (p : Params) : List Word := [p.pf, p.pg, p.pq, p.lf, p.hf, p.ls, p.hs]

/-- A P_* write: the word is stored whole and unchecked, and DIRTY is set, even by an equal word (R32, R47). -/
def setParam (f : Field) (v : Word) (s : State) : State := { s with params := s.params.set f v, dirty := true }

/-- COMMIT (R203): the whole configuration to ACTIVE and SNAP in one step, and PARAM_CLAMPED set if a clamp occurred. -/
def commit (cfg : Configuration) (clamped : Bool) (s : State) : State :=
  { s with active := cfg, snap := cfg, paramClamped := s.paramClamped || clamped }

/-- A delay register by its number (R23). -/
def Delay.get (d : Delay) (r : Fin 2) : Word := if r = 0 then d.r0 else d.r1

/-- A coefficient by its index: 0 is b0, 1 b1, 2 b2, 3 a1, 4 a2 (R24, R50). -/
def Coefs.get (c : Coefs) (j : Fin 5) : Word := #v[c.b0, c.b1, c.b2, c.a1, c.a2][j]

/-- BLK at the start of a block of `n` frames (R182). -/
def startBlock (n : Nat) (s : State) : State := { s with blk := ⟨true, n, 0⟩ }

/-- BLK after a frame (R182). -/
def advanceBlock (s : State) : State := { s with blk := { s.blk with k := s.blk.k + 1 } }

/-- BLK at the end of a block (R182). -/
def endBlock (s : State) : State := { s with blk := Blk.idle }

/-- A port's transaction completes with a reply to its host (R69). -/
def reply (p : Port) (r : Reply) (s : State) : State :=
  match p with
  | .a => { s with repliesA := r :: s.repliesA }
  | .c => { s with repliesC := r :: s.repliesC }

end Sys2Proof.Machine
end

