-- ==== Sys2Proof/Machine/Operands.lean ====
section
/-! DEFINITION. Operand forms: the operand registers and their check, the RAMs' effective addresses, and the two address
maps (spec/30_encoding.md R91; spec/20_memory.md R61, R62, R81, R82; spec/10_state.md R43, R50, R51). -/

namespace Sys2Proof.Machine

/-- A sample rate that A.PREPARE and C.GET_RESPONSE accept: finite, and from FS_MIN to FS_MAX inclusive (R181, R221). -/
def legalRate (w : Word) : Bool :=
  (ofF32 w).isFinite && (ofF32 FS_MIN).le (ofF32 w) && (ofF32 w).le (ofF32 FS_MAX)

/-! ## Effective addresses -/

/-- The port A byte address of SAMPLE_L[k] (channel 0) or SAMPLE_R[k] (channel 1) (R81). -/
def sampleAddr (ch : Fin 2) (k : Nat) : Nat := 0x10000 + 0x10000 * ch.val + 4 * k

/-- The port C byte address of the low word of RESP[i]; the high word is 4 above it (R82). -/
def respAddr (i : Nat) : Nat := 0x10000 + 8 * i

/-! ## Address maps -/

/-- What stands at a port A address (R61). -/
inductive ItemA where
  | status | cmd | fs | engFs | maxBlock | fault | bufDepth
  | delay (ch : Fin 2) (pos : Fin 9) (r : Fin 2)
  /-- A word of the A_DELAY window that is no delay register (R51). -/
  | delayReserved
  | sample (ch : Fin 2) (k : Nat)
  deriving DecidableEq, Repr

/-- What stands at a port C address (R62). -/
inductive ItemC where
  | id | version | status | cmd | respFs | respDepth | bypass
  | param (f : Field)
  | lastParam (f : Field)
  | coef (pos : Fin 9) (j : Fin 5)
  /-- A word of the C_COEF window that is no coefficient (R50, R51). -/
  | coefReserved
  | resp (i : Nat) (high : Bool)
  deriving DecidableEq, Repr

/-- The A_DELAY window, by the offset into it (R43, R51). -/
def delayItem (off : Nat) : ItemA :=
  if off % 0x80 / 8 < 9 then
    .delay (Fin.ofNat 2 (off / 0x80)) (Fin.ofNat 9 (off % 0x80 / 8)) (Fin.ofNat 2 (off % 8 / 4))
  else .delayReserved

/-- The port A address map at an aligned address; none where nothing is mapped (R61). -/
def mapA (a : Nat) : Option ItemA :=
  if a = 0x0000 then some .status
  else if a = 0x0004 then some .cmd
  else if a = 0x0008 then some .fs
  else if a = 0x000C then some .engFs
  else if a = 0x0010 then some .maxBlock
  else if a = 0x0014 then some .fault
  else if a = 0x0018 then some .bufDepth
  else if 0x0100 ≤ a ∧ a < 0x0200 then some (delayItem (a - 0x0100))
  else if sampleAddr 0 0 ≤ a ∧ a < sampleAddr 0 Config.bufDepth then some (.sample 0 ((a - sampleAddr 0 0) / 4))
  else if sampleAddr 1 0 ≤ a ∧ a < sampleAddr 1 Config.bufDepth then some (.sample 1 ((a - sampleAddr 1 0) / 4))
  else none

/-- The seven parameter registers, by the offset from the first of them (R47, R48). -/
def fieldAt (off : Nat) : Option Field :=
  match off with
  | 0x00 => some .pf
  | 0x04 => some .pg
  | 0x08 => some .pq
  | 0x0C => some .lf
  | 0x10 => some .hf
  | 0x14 => some .ls
  | 0x18 => some .hs
  | _ => none

/-- The C_COEF window, by the offset into it (R50, R51). -/
def coefItem (off : Nat) : ItemC :=
  if off % 0x20 / 4 < 5 then .coef (Fin.ofNat 9 (off / 0x20)) (Fin.ofNat 5 (off % 0x20 / 4))
  else .coefReserved

/-- The port C address map at an aligned address; none where nothing is mapped (R62). -/
def mapC (a : Nat) : Option ItemC :=
  if a = 0x0000 then some .id
  else if a = 0x0004 then some .version
  else if a = 0x0008 then some .status
  else if a = 0x000C then some .cmd
  else if 0x0010 ≤ a ∧ a < 0x002C then (fieldAt (a - 0x0010)).map .param
  else if a = 0x0030 then some .respFs
  else if a = 0x0034 then some .respDepth
  else if 0x0050 ≤ a ∧ a < 0x006C then (fieldAt (a - 0x0050)).map .lastParam
  else if a = 0x0080 then some .bypass
  else if 0x0200 ≤ a ∧ a < 0x0320 then some (coefItem (a - 0x0200))
  else if respAddr 0 ≤ a ∧ a < respAddr Config.respDepth then
    some (.resp ((a - respAddr 0) / 8) (decide (a % 8 = 4)))
  else none

/-- The item at a port A address: none for a misaligned or unmapped one (R63, R65, R68). -/
def itemA (addr : Word) : Option ItemA := if addr.toNat % 4 = 0 then mapA addr.toNat else none

/-- The item at a port C address: none for a misaligned or unmapped one (R63, R65, R68). -/
def itemC (addr : Word) : Option ItemC := if addr.toNat % 4 = 0 then mapC addr.toNat else none

/-- The base of a port's space on the platform's bus (R80). -/
def Bases.at (b : Bases) : Port → Word
  | .a => b.a
  | .c => b.c

/-- The platform address of an offset in a port's space: "addresses every item as base plus offset" (R80). -/
def busAddress (b : Bases) (p : Port) (offset : Word) : Word := b.at p + offset

/-- The offset in a port's space of a platform address (R80). -/
def portOffset (b : Bases) (p : Port) (address : Word) : Word := address - b.at p

end Sys2Proof.Machine
end

