-- ==== Sys2Proof/Machine/Coefficients.lean ====
section
/-! DEFINITION. The coefficient calculator and the derivation (spec/40_coefficient_calculator.md R110 to R131): pure
functions of a parameter snapshot, a sample rate and the current configuration. -/

namespace Sys2Proof.Machine

/-! ## Clamping -/

/-- The upper frequency bound `fhi` (R112), as a word. -/
def upperFrequency (fs : Word) : Word :=
  toF32 0 (Fp.min (ofF32 F_HI) (mul32 (ofF32 K049) (ofF32 fs)))

/-- One float field through NaN replacement and the range clamp (R113 to R116, R118): the word, and whether it
changed. A word in range is kept bit for bit. -/
def clampFloat (lo hi dflt v : Word) : Word × Bool :=
  let isNan := (ofF32 v).isNaN
  let u := if isNan then dflt else v
  if (ofF32 u).lt (ofF32 lo) then (lo, true)
  else if (ofF32 hi).lt (ofF32 u) then (hi, true)
  else (u, isNan)

/-- One slope code (R117): a code above 3 becomes 3. -/
def clampSlope (v : Word) : Nat × Bool := if 3 < v.toNat then (3, true) else (v.toNat, false)

/-- The parameters after CLAMP: five f32 words in range and two codes 0 to 3 (R118). -/
structure Clamped where
  pf : Word
  pg : Word
  pq : Word
  lf : Word
  hf : Word
  ls : Nat
  hs : Nat
  deriving DecidableEq, Repr

/-- CLAMP (R118), each field on its own. The designs below see its fields only, which keep their elementary functions
in the domains of R126. -/
def clamp (p : Params) (fs : Word) : Clamped × Bool :=
  let fhi := upperFrequency fs
  let pf := clampFloat F_LO fhi Params.reset.pf p.pf
  let pg := clampFloat G_LO G_HI Params.reset.pg p.pg
  let pq := clampFloat Q_LO Q_HI Params.reset.pq p.pq
  let lf := clampFloat F_LO fhi Params.reset.lf p.lf
  let hf := clampFloat F_LO fhi Params.reset.hf p.hf
  let ls := clampSlope p.ls
  let hs := clampSlope p.hs
  (⟨pf.1, pg.1, pq.1, lf.1, hf.1, ls.1, hs.1⟩, pf.2 || pg.2 || pq.2 || lf.2 || hf.2 || ls.2 || hs.2)

/-! ## Designs -/

/-- A coefficient set as a design computes it, before its words are stored (R24, R125). -/
structure Section where
  b0 : Fp
  b1 : Fp
  b2 : Fp
  a1 : Fp
  a2 : Fp
  deriving DecidableEq, Repr

/-- The angle `w` of PEAK (R119). -/
def peakAngle (f fs : Fp) : Fp := div32 (mul32 (ofF32 TWO_PI32) f) fs

/-- The width term `alpha` of PEAK (R119). -/
def peakAlpha (f q fs : Fp) : Fp := div32 (sin32 (peakAngle f fs)) (mul32 q two)

/-- PEAK (R119). -/
def peak (f gdB q fs : Fp) : Section :=
  let g := exp10_32 (div32 gdB twenty)
  let a := sqrt32 g
  let alpha := peakAlpha f q fs
  let c2 := mul32 two.neg (cos32 (peakAngle f fs))
  let aA := mul32 alpha a
  let aoA := div32 alpha a
  let b0r := add32 one aA
  let b2r := sub32 one aA
  let a0r := add32 one aoA
  let a2r := sub32 one aoA
  ⟨div32 b0r a0r, div32 c2 a0r, div32 b2r a0r, div32 c2 a0r, div32 a2r a0r⟩

/-- HPSEC (R122). -/
def hpSection (f q fs : Fp) : Section :=
  let n := tan32 (div32 (mul32 (ofF32 PI32) f) fs)
  let n2 := mul32 n n
  let iqn := mul32 (div32 one q) n
  let c1 := div32 one (add32 (add32 one iqn) n2)
  let a2 := mul32 c1 (add32 (sub32 one iqn) n2)
  ⟨c1, mul32 c1 two.neg, c1, mul32 (mul32 c1 two) (sub32 n2 one), a2⟩

/-- LPSEC (R123). -/
def lpSection (f q fs : Fp) : Section :=
  let n := div32 one (tan32 (div32 (mul32 (ofF32 PI32) f) fs))
  let n2 := mul32 n n
  let iqn := mul32 (div32 one q) n
  let c1 := div32 one (add32 (add32 one iqn) n2)
  let a2 := mul32 c1 (add32 (sub32 one iqn) n2)
  ⟨c1, mul32 c1 two, c1, mul32 (mul32 c1 two) (sub32 one n2), a2⟩

/-- LOWCUT (R124): `c + 1` high-pass sections, section 0 nearest the input (R121). -/
def lowCut (f : Fp) (c : Nat) (fs : Fp) : List Section := (qrom (c + 1)).map fun q => hpSection f (ofF32 q) fs

/-- HIGHCUT (R124): `c + 1` low-pass sections (R121). -/
def highCut (f : Fp) (c : Nat) (fs : Fp) : List Section := (qrom (c + 1)).map fun q => lpSection f (ofF32 q) fs

/-! ## Placing results in a configuration -/

/-- The words of a designed section for a slot. Only a NaN, which no reachable state makes, has its bits from the free
value (notes/assumptions/4.md). -/
def Section.store (inputs : List Word) (pos : Nat) (c : Section) : Coefs :=
  ⟨toF32 (Config.nanCoefficient inputs (5 * pos)) c.b0, toF32 (Config.nanCoefficient inputs (5 * pos + 1)) c.b1,
   toF32 (Config.nanCoefficient inputs (5 * pos + 2)) c.b2, toF32 (Config.nanCoefficient inputs (5 * pos + 3)) c.a1,
   toF32 (Config.nanCoefficient inputs (5 * pos + 4)) c.a2⟩

/-- SETBYPASSED (R127). -/
def setBypassed (cfg : Configuration) (pos : Nat) (b : Bool) : Configuration :=
  { cfg with byp := cfg.byp.setIfInBounds pos b }

/-- SETSLOPE (R128): stages `0 .. n - 1` of the cascade at `base` active, the rest bypassed. -/
def setSlope (cfg : Configuration) (base n : Nat) : Configuration :=
  setBypassed (setBypassed (setBypassed (setBypassed cfg base (decide (n ≤ 0))) (base + 1) (decide (n ≤ 1)))
    (base + 2) (decide (n ≤ 2))) (base + 3) (decide (n ≤ 3))

/-- SETCOEFFICIENTS (R129). -/
def setCoefficients (cfg : Configuration) (pos : Nat) (c : Coefs) : Configuration :=
  { cfg with coef := cfg.coef.setIfInBounds pos c }

/-- APPLYCOEFFICIENTS (R129): one slot after another from `base`, and no other slot. -/
def applyCoefficients (inputs : List Word) (cfg : Configuration) (base : Nat) : List Section → Configuration
  | [] => cfg
  | c :: cs => applyCoefficients inputs (setCoefficients cfg base (c.store inputs base)) (base + 1) cs

/-- DERIVE (R130): the configuration for a snapshot at a rate, built over the current one, and the clamp flag. It is a
function of the three, with 1 to 4 active stages a cut; only bypassed slots keep the current one's words (R131). -/
def derive (p : Params) (fs : Word) (cur : Configuration) : Configuration × Bool :=
  let q := clamp p fs
  let rate := ofF32 fs
  let inputs := fs :: p.toList
  let low := setSlope (applyCoefficients inputs cur 0 (lowCut (ofF32 q.1.lf) q.1.ls rate)) 0 (q.1.ls + 1)
  let mid := setBypassed
    (setCoefficients low 4 ((peak (ofF32 q.1.pf) (ofF32 q.1.pg) (ofF32 q.1.pq) rate).store inputs 4)) 4 false
  let high := setSlope (applyCoefficients inputs mid 5 (highCut (ofF32 q.1.hf) q.1.hs rate)) 5 (q.1.hs + 1)
  (high, q.2)

end Sys2Proof.Machine
end

