-- ==== Sys2Proof/Machine/Flags.lean ====
section
/-! DEFINITION. The status flags: the status words as software reads them, the FAULT bits, and the write-1-to-clear
writes (spec/10_state.md R36, R42, R43, R45, R49, R51, R54; spec/60_exceptions.md R245). -/

namespace Sys2Proof.Machine

/-- A bit of a register word. -/
def bitAt (b : Bool) (i : Nat) : Nat := if b then 2 ^ i else 0

/-- A_STATUS.FAULT_ANY: some FAULT bit is set (R36, R42). -/
def State.faultAny (s : State) : Bool := s.fault != 0

/-- A_STATUS (R42); reserved bits read 0 (R51). -/
def State.aStatus (s : State) : Word :=
  BitVec.ofNat 32 (bitAt s.prepared 0 + bitAt s.aErr.unprepared 8 + bitAt s.aErr.illegalCmd 9 + bitAt s.aErr.badFs 10
    + bitAt s.aErr.badBlock 11 + bitAt s.aErr.badAccess 12 + bitAt s.faultAny 16)

/-- C_STATUS (R45); reserved bits read 0 (R51). -/
def State.cStatus (s : State) : Word :=
  BitVec.ofNat 32 (bitAt s.dirty 0 + bitAt s.paramClamped 1 + bitAt s.prepared 2 + bitAt s.cErr.illegalCmd 8
    + bitAt s.cErr.badWidth 9 + bitAt s.cErr.badFs 10 + bitAt s.cErr.badAccess 11)

/-- C_BYPASS: bit `pos` is ACTIVE.byp[pos] (R49). -/
def State.cBypass (s : State) : Word :=
  BitVec.ofNat 32 (s.active.byp.toList.foldr (fun b rest => b.toNat + 2 * rest) 0)

/-- The FAULT bit of a stage, `ch * 9 + pos` (R36, R245). -/
def faultBit (ch : Fin 2) (pos : Fin 9) : BitVec 18 := 1#18 <<< (ch.val * 9 + pos.val)

/-- A write to A_FAULT: a 1 clears its bit, a 0 leaves it (R43, R64). -/
def clearFaults (v : Word) (s : State) : State := { s with fault := s.fault &&& ~~~(v.setWidth 18) }

/-- A write to C_STATUS: bit 1 written 1 clears PARAM_CLAMPED, and every other bit is ignored (R45, R64). -/
def clearClamped (v : Word) (s : State) : State :=
  { s with paramClamped := s.paramClamped && !v.getLsbD 1 }

end Sys2Proof.Machine
end

