-- ==== Sys2Proof/Machine/Datapath.lean ====
section
/-! DEFINITION. The audio-rate datapath: stage, cascade, channel chain and frame
(spec/41_biquad_stage_and_cascade.md R150 to R156). -/

namespace Sys2Proof.Machine

/-- What one stage makes of one sample: its output, its registers, and whether it faulted. -/
structure StageResult where
  y : Word
  delay : Delay
  faulted : Bool
  deriving DecidableEq, Repr

/-- STAGE (R150) and STAGEFAULT (R151): the transposed direct form II, each operation rounded on its own. A stage that
meets a non-finite value keeps its registers and returns `x`, or +0.0 where `x` is not finite. -/
def stage (c : Coefs) (d : Delay) (xw : Word) : StageResult :=
  let x := ofF32 xw
  let y := add32 (mul32 (ofF32 c.b0) x) (ofF32 d.r0)
  let t0 := add32 (sub32 (mul32 (ofF32 c.b1) x) (mul32 (ofF32 c.a1) y)) (ofF32 d.r1)
  let t1 := sub32 (mul32 (ofF32 c.b2) x) (mul32 (ofF32 c.a2) y)
  if x.isFinite && y.isFinite && t0.isFinite && t1.isFinite then ⟨toF32 0 y, ⟨toF32 0 t0, toF32 0 t1⟩, false⟩
  else ⟨if x.isFinite then xw else 0, d, true⟩

/-- A sample on its way through one channel: the channel's registers, the FAULT bits, and the sample. -/
structure Flow where
  delay : Vector Delay 9
  fault : BitVec 18
  x : Word
  deriving DecidableEq, Repr

/-- One position: the identity where bypassed, else its stage (R150 to R152). -/
def position (cfg : Configuration) (ch : Fin 2) (v : Flow) (pos : Fin 9) : Flow :=
  if cfg.byp[pos] then v
  else
    let r := stage cfg.coef[pos] v.delay[pos] v.x
    ⟨v.delay.set pos r.delay, if r.faulted then v.fault ||| faultBit ch pos else v.fault, r.y⟩

/-- CASCADE (R153) at position 0: the low cut. -/
def lowCascade (cfg : Configuration) (ch : Fin 2) (v : Flow) : Flow := [0, 1, 2, 3].foldl (position cfg ch) v

/-- CASCADE (R153) at position 5: the high cut. -/
def highCascade (cfg : Configuration) (ch : Fin 2) (v : Flow) : Flow := [5, 6, 7, 8].foldl (position cfg ch) v

/-- CHAIN (R154): low cut, then peak, then high cut. -/
def chain (cfg : Configuration) (ch : Fin 2) (v : Flow) : Flow :=
  highCascade cfg ch (position cfg ch (lowCascade cfg ch v) 4)

/-- What channel `ch` makes of its sample of frame `k` in a state, with a given set of FAULT bits (R155). -/
def channelFlow (s : State) (ch : Fin 2) (k : Nat) (fault : BitVec 18) : Flow :=
  chain s.active ch ⟨s.delay[ch], fault, s.sampleWord (sampleAddr ch k)⟩

/-- FRAME (R156): both inputs are read before either output is written. -/
def frame (k : Nat) (s : State) : State :=
  let l := channelFlow s 0 k s.fault
  let r := channelFlow s 1 k l.fault
  let s' := { s with delay := #v[l.delay, r.delay], fault := r.fault }
  (s'.storeSample (sampleAddr 0 k) l.x).storeSample (sampleAddr 1 k) r.x

end Sys2Proof.Machine
end

