-- ==== Sys2Proof/Machine/AudioPort.lean ====
section
/-! DEFINITION. The port A commands (spec/42_audio_port_commands.md R180 to R182), each as its atomic start; the frame
and end steps of a block are in Machine/Ports.lean. -/

namespace Sys2Proof.Machine

/-- A.NOP (R180): "It has no effect on any state." -/
def execANop (s : State) : Out := .next s

/-- A.PREPARE `m` (R181). The rate and the block limit are checked together (R244); a failed A.PREPARE leaves every
other element as it was. -/
def execAPrepare (m : Nat) (s : State) : Out :=
  let badFs := !legalRate s.aFs
  let badBlock := decide (m = 0 ∨ Config.bufDepth < m)
  if badFs || badBlock then .next (raiseIf badBlock .aBadBlock (raiseIf badFs .aBadFs s))
  else
    let cfg := derive s.last s.aFs s.active
    .next (commit cfg.1 cfg.2
      { s with engFs := s.aFs, maxBlock := BitVec.ofNat 32 m, prepared := true, delay := zeroDelay })

/-- A.PROCESS_BLOCK `n`, its start (R182): the checks in the order of R244, and BLK. -/
def execAProcessBlock (n : Nat) (s : State) : Out :=
  if !s.prepared then .next (raiseError .aUnprepared s)
  else if s.maxBlock.toNat < n then .next (raiseError .aBadBlock s)
  else if n = 0 then .next s
  else .next (startBlock n s)

end Sys2Proof.Machine
end

