-- ==== Sys2Proof/Machine/Evaluator.lean ====
section
/-! DEFINITION. The frequency-response evaluator, in binary64 (spec/44_response_evaluator.md R220 to R225). -/

namespace Sys2Proof.Machine

/-- `w64` of a coefficient or rate word: a decoded datum is exact, so widening an f32 leaves it as it is (R13). -/
def w64 (w : Word) : Fp := ofF32 w

/-- `L0 = log10_64(20.0)` (R222). -/
def logLow : Fp := log10_64 twenty

/-- `L1 = log10_64(20000.0)` (R222). -/
def logHigh : Fp := log10_64 (Fp.ofNat 20000)

/-- FREQ (R222): point `i` of `w`. -/
def freq (i w : Nat) : Fp :=
  exp10_64 (add64 (mul64 (div64 (Fp.ofNat i) (Fp.ofNat w)) (sub64 logHigh logLow)) logLow)

/-- STAGEMAG (R223): the magnitude of one stage's transfer function at a frequency. -/
def stageMag (c : Coefs) (f fsE : Fp) : Fp :=
  let b0 := w64 c.b0
  let b1 := w64 c.b1
  let b2 := w64 c.b2
  let a1 := w64 c.a1
  let a2 := w64 c.a2
  let th := div64 (mul64 (ofF64 TWO_PI64) f) fsE
  let zr := cos64 th
  let zi := (sin64 th).neg
  let z2r := sub64 (mul64 zr zr) (mul64 zi zi)
  let z2i := add64 (mul64 zr zi) (mul64 zi zr)
  let nr := add64 (add64 b0 (mul64 b1 zr)) (mul64 b2 z2r)
  let ni := add64 (mul64 b1 zi) (mul64 b2 z2i)
  let dr := add64 (add64 one (mul64 a1 zr)) (mul64 a2 z2r)
  let di := add64 (mul64 a1 zi) (mul64 a2 z2i)
  let n2 := add64 (mul64 nr nr) (mul64 ni ni)
  let d2 := add64 (mul64 dr dr) (mul64 di di)
  sqrt64 (div64 n2 d2)

/-- One factor of MAG: a bypassed position contributes nothing (R224). -/
def magFactor (cfg : Configuration) (f fsE : Fp) (m : Fp) (pos : Fin 9) : Fp :=
  if cfg.byp[pos] then m else mul64 m (stageMag cfg.coef[pos] f fsE)

/-- MAG (R224): the product over positions 0 to 8 in signal order. -/
def mag (cfg : Configuration) (f fsE : Fp) : Fp := [0, 1, 2, 3, 4, 5, 6, 7, 8].foldl (magFactor cfg f fsE) one

/-- DB (R225): decibels with the −100 dB floor. -/
def db (m : Fp) : Fp :=
  if (Fp.fin false 0 0).lt m then
    match m with
    | .inf s => .inf s
    | _ => Fp.max (ofF64 DB_FLOOR) (mul64 (log10_64 m) twenty)
  else ofF64 DB_FLOOR

/-- The value that C.GET_RESPONSE writes to `RESP[i]` for width `w` (R221). -/
def response (cfg : Configuration) (fsE : Word) (w i : Nat) : DWord := toF64 0 (db (mag cfg (freq i w) (w64 fsE)))

/-- `RESP[i] .. RESP[i + count - 1]` written in rising order (R221). -/
def writeResponses (f : Nat → DWord) : (count i : Nat) → Memory → Memory
  | 0, _, m => m
  | count + 1, i, m => writeResponses f count (i + 1) (m.storeDWord (respAddr i) (f i))

end Sys2Proof.Machine
end

