-- ==== Sys2Proof/Machine/ControlPort.lean ====
section
/-! DEFINITION. The port C commands (spec/43_update_protocol.md R200, R201; spec/44_response_evaluator.md R221), each one
atomic step. -/

namespace Sys2Proof.Machine

/-- C.NOP (R200): "It has no effect on any state." -/
def execCNop (s : State) : Out := .next s

/-- C.UPDATE (R201): nothing while unprepared or clean; else the snapshot, the derivation and the commit in one step. -/
def execCUpdate (s : State) : Out :=
  if !s.prepared then .next s
  else if !s.dirty then .next s
  else
    let cfg := derive s.params s.engFs s.active
    .next (commit cfg.1 cfg.2 { s with dirty := false, last := s.params })

/-- C.GET_RESPONSE `w` (R221): both checks (R244), then `RESP[0 .. w - 1]` from SNAP alone. -/
def execCGetResponse (w : Nat) (s : State) : Out :=
  let badWidth := decide (Config.respDepth < w)
  let badFs := !legalRate s.cRespFs
  if badWidth || badFs then .next (raiseIf badFs .cBadFs (raiseIf badWidth .cBadWidth s))
  else .next { s with ramC := writeResponses (response s.snap s.cRespFs w) w 0 s.ramC }

end Sys2Proof.Machine
end

