-- ==== Sys2Proof/Machine/Dispatch.lean ====
section
/-! DEFINITION. `execute` (spec/30_encoding.md R101): one arm per command. -/

namespace Sys2Proof.Machine

def exec (i : Instr) (s : State) : Host.Outcome State Fault Refusal :=
  match i with
  -- port A (spec/42_audio_port_commands.md)
  | .aNop => Sys2Proof.Machine.execANop s
  | .aPrepare m => Sys2Proof.Machine.execAPrepare m s
  | .aProcessBlock n => Sys2Proof.Machine.execAProcessBlock n s
  -- port C (spec/43_update_protocol.md, spec/44_response_evaluator.md)
  | .cNop => Sys2Proof.Machine.execCNop s
  | .cUpdate => Sys2Proof.Machine.execCUpdate s
  | .cGetResponse w => Sys2Proof.Machine.execCGetResponse w s

end Sys2Proof.Machine
end

