-- ==== Sys2Proof/Machine/Bus.lean ====
section
/-! DEFINITION. The bus transactions MemRead and MemWrite on both ports (spec/20_memory.md R63 to R67), and the dispatch
of a command write (spec/30_encoding.md R101). -/

namespace Sys2Proof.Machine

/-- The word that a mapped port A item reads as; a reserved word and the write-only A_CMD read 0 (R42, R43, R51, R63). -/
def readItemA (s : State) : ItemA → Word
  | .status => s.aStatus
  | .cmd => 0
  | .fs => s.aFs
  | .engFs => s.engFs
  | .maxBlock => s.maxBlock
  | .fault => s.fault.setWidth 32
  | .bufDepth => BitVec.ofNat 32 Config.bufDepth
  | .delay ch pos r => s.delay[ch][pos].get r
  | .delayReserved => 0
  | .sample ch k => s.sampleWord (sampleAddr ch k)

/-- The word that a mapped port C item reads as (R44 to R51, R63, R66). -/
def readItemC (s : State) : ItemC → Word
  | .id => 0x42514345
  | .version => 0x00010000
  | .status => s.cStatus
  | .cmd => 0
  | .respFs => s.cRespFs
  | .respDepth => BitVec.ofNat 32 Config.respDepth
  | .bypass => s.cBypass
  | .param f => s.params.get f
  | .lastParam f => s.last.get f
  | .coef pos j => s.active.coef[pos].get j
  | .coefReserved => 0
  | .resp i high => s.respWord (respAddr i + if high then 4 else 0)

/-- MemRead (R63): the word returned and the state after it. An illegal read returns 0 and sets ERR_BAD_ACCESS (R65). -/
def memRead (p : Port) (addr : Word) (s : State) : Word × State :=
  match p with
  | .a =>
    match itemA addr with
    | some it => (readItemA s it, s)
    | none => (0, raiseAccess .a s)
  | .c =>
    match itemC addr with
    | some it => (readItemC s it, s)
    | none => (0, raiseAccess .c s)

/-- A write to a command register (R101): the command it decodes to, or ILLEGAL's error (R96). -/
def writeCommand (p : Port) (v : Word) (s : State) : Out :=
  match decode p v with
  | .ok i => exec i s
  | .error _ => .next (raiseIllegal p s)

/-- A write to a mapped port A item; an item that is not writable is an illegal access (R64, R65). -/
def writeItemA (it : ItemA) (v : Word) (s : State) : Out :=
  match it with
  | .cmd => writeCommand .a v s
  | .fs => .next { s with aFs := v }
  | .fault => .next (clearFaults v s)
  | .sample ch k => .next (s.storeSample (sampleAddr ch k) v)
  | .status => .next (raiseAccess .a s)
  | .engFs => .next (raiseAccess .a s)
  | .maxBlock => .next (raiseAccess .a s)
  | .bufDepth => .next (raiseAccess .a s)
  | .delay _ _ _ => .next (raiseAccess .a s)
  | .delayReserved => .next (raiseAccess .a s)

/-- A write to a mapped port C item; an item that is not writable is an illegal access (R64, R65). -/
def writeItemC (it : ItemC) (v : Word) (s : State) : Out :=
  match it with
  | .cmd => writeCommand .c v s
  | .respFs => .next { s with cRespFs := v }
  | .param f => .next (setParam f v s)
  | .status => .next (clearClamped v s)
  | .id => .next (raiseAccess .c s)
  | .version => .next (raiseAccess .c s)
  | .respDepth => .next (raiseAccess .c s)
  | .bypass => .next (raiseAccess .c s)
  | .lastParam _ => .next (raiseAccess .c s)
  | .coef _ _ => .next (raiseAccess .c s)
  | .coefReserved => .next (raiseAccess .c s)
  | .resp _ _ => .next (raiseAccess .c s)

/-- MemWrite (R64). An illegal write changes nothing and sets ERR_BAD_ACCESS (R65). -/
def memWrite (p : Port) (addr v : Word) (s : State) : Out :=
  match p with
  | .a =>
    match itemA addr with
    | some it => writeItemA it v s
    | none => .next (raiseAccess .a s)
  | .c =>
    match itemC addr with
    | some it => writeItemC it v s
    | none => .next (raiseAccess .c s)

end Sys2Proof.Machine
end

