-- ==== Sys2Proof/Machine/Ports.lean ====
section
/-! DEFINITION. The two agents' atomic steps and the reset event (spec/20_memory.md R69, R70, R74;
spec/42_audio_port_commands.md R182; spec/70_reset_and_hazards.md R270). -/

namespace Sys2Proof.Machine

/-- The frame step or the end step of the block in flight (R182). At the end the A_CMD write completes, and port A is
released. -/
def blockStep (s : State) : State :=
  if s.blk.k < s.blk.n then advanceBlock (frame s.blk.k s) else reply .a .done (endBlock s)

/-- A write's completion: at once, unless it is a port A write that put a block in flight (R69, R182). -/
def completeWrite (p : Port) (s : State) : State :=
  match p with
  | .a => if s.blk.busy then s else reply .a .done s
  | .c => reply .c .done s

/-- One transaction of a port's host, at the offset in the port's space that its address stands for (R63, R64, R80). -/
def perform (p : Port) (t : Txn) (s : State) : Out :=
  match t with
  | .read addr => let r := memRead p (portOffset s.bases p addr) s; .next (reply p (.data r.1) r.2)
  | .write addr v => onNext (memWrite p (portOffset s.bases p addr) v s) (completeWrite p)

/-- Agent A's turn. While a block is in flight port A is stalled, and the turn is a frame or the end step (R69); else it
is the audio host's next transaction, if it has one. -/
def audioTurn (s : State) : Out :=
  if s.blk.busy then .next (blockStep s)
  else
    match s.pendingA with
    | [] => .next s
    | t :: rest => perform .a t { s with pendingA := rest }

/-- Agent C's turn: the control host's next transaction, if it has one. A block in flight does not stall it (R69). -/
def controlTurn (s : State) : Out :=
  match s.pendingC with
  | [] => .next s
  | t :: rest => perform .c t { s with pendingC := rest }

/-- With no one scheduled, only the step that "is not a host's choice" is taken: the block in flight moves on (R74). -/
def internalTurn (s : State) : State := if s.blk.busy then blockStep s else s

/-- The reset event (R270): every state element at its reset value, and the block in flight and its A_CMD write lost.
What the hosts have yet to issue is theirs (notes/assumptions/7.md), and the bases are the platform's (R80). -/
def resetEvent (s : State) : State :=
  { State.reset with
    turns := s.turns, pendingA := s.pendingA, pendingC := s.pendingC, repliesA := s.repliesA, repliesC := s.repliesC,
    run := s.run + 1, bases := s.bases }

end Sys2Proof.Machine
end

