-- ==== Sys2Proof/Machine/Step.lean ====
section
/-! DEFINITION. One step of the interleaving (spec/20_memory.md R70), and how a command word is put where the next step
takes it. The block fetches nothing (R77): a command runs when a host writes it to its port's command register. -/

namespace Sys2Proof.Machine

/-- One step: the turn at the head of the schedule, or the block's own progress where no turn is scheduled. -/
def step (s : State) : Host.Outcome State Fault Refusal :=
  match s.turns with
  | [] => .next (internalTurn s)
  | .a :: rest => audioTurn { s with turns := rest }
  | .c :: rest => controlTurn { s with turns := rest }
  | .reset :: rest => .next (resetEvent { s with turns := rest })

/-- The state whose very next step is the write of a command word to its port's command register (A_CMD at offset
0x0004, C_CMD at offset 0x000C): the write is the host's next transaction, the host's agent has the next turn, and,
on port A, no block is in flight to stall it. -/
def State.withFetchWord (s : State) (nbits w : Nat) : State :=
  let v := tableWord nbits w
  match tablePort v with
  | .a =>
    { s with
      turns := .a :: s.turns, pendingA := .write (busAddress s.bases .a 0x0004) v :: s.pendingA, blk := Blk.idle }
  | .c => { s with turns := .c :: s.turns, pendingC := .write (busAddress s.bases .c 0x000C) v :: s.pendingC }

end Sys2Proof.Machine
end

