-- ==== Sys2Proof/Machine/Assembler.lean ====
section
/-! DEFINITION. The assembler's view: command mnemonics and pseudo-instructions as the transactions they stand for, and
the running of a program text line by line (spec/30_encoding.md R98, R99). -/

namespace Sys2Proof.Machine

/-! ## Base transactions -/

/-- `A.WR <addr>, <value>` and `C.WR <addr>, <value>` (R98), at the platform address of the offset (R80). -/
def wr (b : Bases) (p : Port) (offset value : Word) : Line := ⟨p, .write (busAddress b p offset) value⟩

/-- `A.RD <addr>` and `C.RD <addr>` (R98). -/
def rd (b : Bases) (p : Port) (offset : Word) : Line := ⟨p, .read (busAddress b p offset)⟩

/-- `f32(<decimal>)`: the encoding of rn32 of the decimal `± num / den` (R98). -/
def f32Literal (neg : Bool) (num den : Nat) : Word := toF32 0 (Fp.round f32 neg num den)

/-- The address of a P_* register (R47). -/
def paramAddr : Field → Word
  | .pf => 0x0010
  | .pg => 0x0014
  | .pq => 0x0018
  | .lf => 0x001C
  | .hf => 0x0020
  | .ls => 0x0024
  | .hs => 0x0028

/-! ## Command mnemonics -/

/-- The command register of a port (R90). -/
def cmdAddr : Port → Word
  | .a => 0x0004
  | .c => 0x000C

/-- A command mnemonic: the write of its word to its port's command register. "An assembler refuses a larger value
rather than truncate it" (R98). -/
def command (b : Bases) (i : Instr) : Option Line :=
  if i.wellFormed then some (wr b i.port (cmdAddr i.port) (encode i)) else none

/-! ## Pseudo-instructions -/

/-- `A.PREP fs, m` (R99), `fs` as its word. -/
def aPrep (b : Bases) (fs : Word) (m : Nat) : Option (List Line) :=
  (command b (.aPrepare m)).map fun l => [wr b .a 0x0008 fs, l]

/-- `A.LOAD L, k, v0, v1, …` (channel 0) and `A.LOAD R, …` (channel 1) (R99). -/
def aLoad (b : Bases) (ch : Fin 2) (k : Nat) : List Word → List Line
  | [] => []
  | v :: vs => wr b .a (BitVec.ofNat 32 (sampleAddr ch k)) v :: aLoad b ch (k + 1) vs

/-- `A.CLRFAULT` (R99). -/
def aClrFault (b : Bases) : Line := wr b .a 0x0014 0x0003FFFF

/-- `C.SETP field, value` (R99). -/
def cSetP (b : Bases) (f : Field) (v : Word) : Line := wr b .c (paramAddr f) v

/-- `C.SETPARAMS pf, pg, pq, lf, hf, ls, hs` (R99): seven writes in address order. -/
def cSetParams (b : Bases) (p : Params) : List Line :=
  [cSetP b .pf p.pf, cSetP b .pg p.pg, cSetP b .pq p.pq, cSetP b .lf p.lf, cSetP b .hf p.hf, cSetP b .ls p.ls,
   cSetP b .hs p.hs]

/-- `C.RESP w, fs` (R99), `fs` as its word. -/
def cResp (b : Bases) (w : Nat) (fs : Word) : Option (List Line) :=
  (command b (.cGetResponse w)).map fun l => [wr b .c 0x0030 fs, l]

/-- `C.CLRCLAMP` (R99). -/
def cClrClamp (b : Bases) : Line := wr b .c 0x0008 0x00000002

/-! ## Running a program text -/

/-- At most `count` steps of the block in flight, up to its end step (R182). -/
def drain : (count : Nat) → State → State
  | 0, s => s
  | count + 1, s => if s.blk.busy then drain count (blockStep s) else s

/-- A port's host waits until its port accepts a transaction: port A until the block in flight, every frame left of it,
and its end step are done; port C not at all (R69). -/
def wait (p : Port) (s : State) : State :=
  match p with
  | .a => drain (s.blk.n - s.blk.k + 1) s
  | .c => s

/-- One line from its issue to its completion, which for a command is when "the command it issues has finished" (R69). -/
def runLine (l : Line) (s : State) : Out := onNext (perform l.port l.txn (wait l.port s)) (wait l.port)

/-- A program text run in the order written, each line complete before the next starts: the order a program may state
(R98), and one of the interleavings of R70. -/
def issue : List Line → State → Out
  | [], s => .next s
  | l :: ls, s =>
    match runLine l s with
    | .next u => issue ls u
    | .fault r => .fault r
    | .refused r => .refused r

/-- The transactions of one port's lines, in the order written (R98). -/
def portTxns (p : Port) : List Line → List Txn
  | [] => []
  | l :: ls => if l.port = p then l.txn :: portTxns p ls else portTxns p ls

/-- A program text handed to the two hosts: "Lines of one port run in the order written", and the turns interleave those
of different ports (R98, R70). -/
def State.load (ls : List Line) (s : State) : State :=
  { s with pendingA := s.pendingA ++ portTxns .a ls, pendingC := s.pendingC ++ portTxns .c ls }

end Sys2Proof.Machine
end

