-- ==== Sys2Proof/Safety.lean ====
section
/-! DEFINITION. What counts as a safe state, and the terms that claims are stated in: the whole-state invariant, the
address lists of spec/20_memory.md R61 to R64 written out, the reading of a memory by bytes, and the real number that a
datum stands for (spec/00_scope.md R12, R13). -/

namespace Sys2Proof.Machine

/-! ## The invariant -/

/-- A word that is a finite f32 (R16). -/
def finiteWord (w : Word) : Bool := (ofF32 w).isFinite

/-- What DERIVE makes of a slot at a legal rate: five finite coefficients, b0 of positive sign (R126, R131, R157). -/
def Coefs.sound (c : Coefs) : Prop :=
  finiteWord c.b0 = true ∧ finiteWord c.b1 = true ∧ finiteWord c.b2 = true ∧ finiteWord c.a1 = true
    ∧ finiteWord c.a2 = true ∧ c.b0.getLsbD 31 = false

/-- A byte address of the sample RAM (R61, R81). -/
def sampleByteAddress (a : Nat) : Prop :=
  (0x10000 ≤ a ∧ a < 0x10000 + 4 * Config.bufDepth) ∨ (0x20000 ≤ a ∧ a < 0x20000 + 4 * Config.bufDepth)

/-- A byte address of the response RAM (R62, R82). -/
def respByteAddress (a : Nat) : Prop := 0x10000 ≤ a ∧ a < 0x10000 + 8 * Config.respDepth

/-- The state of a run: what every step keeps from reset on. -/
structure State.Inv (s : State) : Prop where
  /-- The sample RAM is in canonical form. -/
  sampleSorted : s.ramA.wf
  /-- The sample RAM holds only bytes of the two sample arrays (R81). -/
  sampleMapped : ∀ c ∈ s.ramA, sampleByteAddress c.1
  /-- The response RAM is in canonical form. -/
  respSorted : s.ramC.wf
  /-- The response RAM holds only bytes of its entries (R82). -/
  respMapped : ∀ c ∈ s.ramC, respByteAddress c.1
  /-- "SNAP = ACTIVE holds in every reachable state" (R27). -/
  snapIsActive : s.snap = s.active
  /-- "the peak stage is always active" (R29). -/
  peakActive : s.active.byp[4] = false
  /-- The low cut's flags are in prefix form (R28). -/
  lowPrefix : ∀ k : Fin 3, s.active.byp[k.val] = true → s.active.byp[k.val + 1] = true
  /-- The high cut's flags are in prefix form (R28). -/
  highPrefix : ∀ k : Fin 3, s.active.byp[5 + k.val] = true → s.active.byp[6 + k.val] = true
  /-- Before the first A.PREPARE the engine and the configuration are as reset left them (R34, R52). -/
  unprepared : s.prepared = false → s.engFs = 0 ∧ s.maxBlock = 0 ∧ s.active = Configuration.reset
  /-- After it the rate is legal, the block limit is in range, and each cut has an active stage (R28, R111, R181). -/
  prepared : s.prepared = true →
    legalRate s.engFs = true ∧ 1 ≤ s.maxBlock.toNat ∧ s.maxBlock.toNat ≤ Config.bufDepth
      ∧ s.active.byp[0] = false ∧ s.active.byp[5] = false
  /-- With no block in flight BLK is at rest (R182). -/
  idle : s.blk.busy = false → s.blk = Blk.idle
  /-- A block in flight was started prepared, with a length within MAXBLOCK (R182). -/
  inFlight : s.blk.busy = true → s.prepared = true ∧ s.blk.k ≤ s.blk.n ∧ 0 < s.blk.n ∧ s.blk.n ≤ s.maxBlock.toNat
  /-- Every coefficient slot, stale ones too, holds five finite words and a b0 of positive sign (R126, R131, R157). -/
  coefSound : ∀ pos : Fin 9, s.active.coef[pos].sound
  /-- "The registers never receive a non-finite value" (R151). -/
  delayFinite : ∀ (ch : Fin 2) (pos : Fin 9), finiteWord s.delay[ch][pos].r0 = true ∧ finiteWord s.delay[ch][pos].r1 = true

/-! ## Address lists -/

/-- The mapped port A words, as R61 lists them. -/
def mappedA (a : Nat) : Prop :=
  a ∈ [0x0000, 0x0004, 0x0008, 0x000C, 0x0010, 0x0014, 0x0018]
    ∨ (∃ j, j < 64 ∧ a = 0x0100 + 4 * j)
    ∨ (∃ k, k < Config.bufDepth ∧ a = 0x10000 + 4 * k)
    ∨ (∃ k, k < Config.bufDepth ∧ a = 0x20000 + 4 * k)

/-- The writable port A words, as R64 lists them: A_CMD, A_FS, A_FAULT and the sample RAM. -/
def writableA (a : Nat) : Prop :=
  a ∈ [0x0004, 0x0008, 0x0014]
    ∨ (∃ k, k < Config.bufDepth ∧ a = 0x10000 + 4 * k)
    ∨ (∃ k, k < Config.bufDepth ∧ a = 0x20000 + 4 * k)

/-- The mapped port C words, as R62 lists them. -/
def mappedC (a : Nat) : Prop :=
  a ∈ [0x0000, 0x0004, 0x0008, 0x000C, 0x0030, 0x0034, 0x0080]
    ∨ (∃ j, j < 7 ∧ a = 0x0010 + 4 * j)
    ∨ (∃ j, j < 7 ∧ a = 0x0050 + 4 * j)
    ∨ (∃ j, j < 72 ∧ a = 0x0200 + 4 * j)
    ∨ (∃ i, i < Config.respDepth ∧ (a = 0x10000 + 8 * i ∨ a = 0x10004 + 8 * i))

/-- The writable port C words, as R64 lists them: C_CMD, C_RESP_FS, C_STATUS and the P_* registers. -/
def writableC (a : Nat) : Prop :=
  a ∈ [0x0008, 0x000C, 0x0030] ∨ (∃ j, j < 7 ∧ a = 0x0010 + 4 * j)

/-- `legal_read(port, addr)` (R63). -/
def legalRead : Port → Nat → Prop
  | .a => mappedA
  | .c => mappedC

/-- `legal_write(port, addr)` (R64). -/
def legalWrite : Port → Nat → Prop
  | .a => writableA
  | .c => writableC

/-! ## Memory by bytes -/

/-- The byte of the sample RAM at a port A byte address (R66, R81). -/
def State.sampleByteAt (s : State) (a : Nat) : Byte := s.ramA.byteAt (Config.sampleByte s.run) a

/-- The byte of the response RAM at a port C byte address (R66, R82). -/
def State.respByteAt (s : State) (a : Nat) : Byte := s.ramC.byteAt (Config.respByte s.run) a

/-- RESP[i] as an f64: the high word above the low word (R66). -/
def State.respEntry (s : State) (i : Nat) : DWord := s.respWord (respAddr i + 4) ++ s.respWord (respAddr i)

/-! ## Blocks -/

/-- The state after the first `n` frame steps of a block, BLK.k counting them (R182). -/
def framesRun (n : Nat) (s : State) : State := (List.range n).foldl (fun u k => advanceBlock (frame k u)) s

/-- One channel's samples in order under one configuration: the outputs, and the registers afterwards (R155, R183). -/
def channelStream (cfg : Configuration) (ch : Fin 2) : Vector Delay 9 → List Word → List Word × Vector Delay 9
  | d, [] => ([], d)
  | d, x :: xs =>
    let v := chain cfg ch ⟨d, 0, x⟩
    let rest := channelStream cfg ch v.delay xs
    (v.x :: rest.1, rest.2)

/-! ## Real values -/

/-- The real number that a finite magnitude code stands for (R12). -/
noncomputable def Fmt.magValue (f : Fmt) (mag : Nat) : ℝ := (f.unpackMag mag).1 * (2 : ℝ) ^ (f.unpackMag mag).2

/-- The real number of a finite datum; 0 for the others. -/
noncomputable def Fp.toReal : Fp → ℝ
  | .nan => 0
  | .inf _ => 0
  | .fin s m e => (if s then -1 else 1) * (m * (2 : ℝ) ^ e)

/-- `mag` is the finite magnitude code nearest to the real number `v`, the even one of two that are equally near (R13). -/
def Fmt.isNearest (f : Fmt) (v : ℝ) (mag : Nat) : Prop :=
  mag < f.infCode ∧ ∀ other, other < f.infCode → other ≠ mag →
    |f.magValue mag - v| < |f.magValue other - v| ∨ (|f.magValue mag - v| = |f.magValue other - v| ∧ mag % 2 = 0)

/-- `r` is the finite datum nearest to the non-zero real number `v`, with its sign (R13). -/
def Fp.isRounding (f : Fmt) (v : ℝ) (r : Fp) : Prop :=
  ∃ mag, f.isNearest |v| mag ∧ r = Fp.ofMag f (decide (v < 0)) mag

/-- Where rounding overflows (R13): the midpoint of the largest finite datum and the next power of two. -/
noncomputable def Fmt.overflow (f : Fmt) : ℝ := (f.magValue (f.infCode - 1) + f.magValue f.infCode) / 2

/-- `r` is the rounding of the non-zero real number `v`: the nearest finite datum, or the infinity of its sign (R13). -/
def Fp.isRn (f : Fmt) (v : ℝ) (r : Fp) : Prop :=
  (|v| < f.overflow → Fp.isRounding f v r) ∧ (f.overflow ≤ |v| → r = .inf (decide (v < 0)))

/-- The interval at precision `p` holds the real number `x`. -/
def Ival.holds (p : Nat) (a : Ival) (x : ℝ) : Prop := (a.lo : ℝ) ≤ x * 2 ^ p ∧ x * 2 ^ p ≤ (a.hi : ℝ)

/-- The enclosure holds the real number `v`. -/
def Encl.holds (x : Encl) (v : ℝ) : Prop := 0 < x.den ∧ (x.lo : ℝ) / x.den ≤ v ∧ v ≤ (x.hi : ℝ) / x.den

/-- An enclosure decides its number's rounding at one of the working precisions. -/
def decides (f : Fmt) (encl : Nat → Encl) : Prop :=
  ∃ i, i < refineFuel ∧ ((encl (basePrecision f * 2 ^ i)).rounded f).isSome = true

end Sys2Proof.Machine
end

