-- ==== Sys2Proof/Certificates/Slice0/Obligations.lean ====
section
/-! DEFINITION. The statements for the provers. Each docstring names the rules of spec/ it formalises, or says that it
rests on a choice of this model and names the log entry. -/

open Sys2Proof Sys2Proof.Machine

/-! ## Encoding -/

/-- Decoding an encoded command gives it back, with every argument the encoding admits, from the word and from its four
bytes (R90, R92, R93, R96, R98). -/
def Obligations.DecodeOfEncode : Prop :=
  ∀ i : Instr, i.wellFormed = true →
    decode i.port (encode i) = .ok i
      ∧ ∀ rest, decodeBytes i.port
          (byteOf (encode i) 0 :: byteOf (encode i) 1 :: byteOf (encode i) 2 :: byteOf (encode i) 3 :: rest)
          = .ok (i, rest)

/-- A word that decodes is the encoding of what it decodes to: one meaning a word, and no bit of it ignored (R90,
R96). -/
def Obligations.EncodeOfDecode : Prop :=
  ∀ (p : Port) (w : Word) (i : Instr), decode p w = .ok i → i.port = p ∧ i.wellFormed = true ∧ encode i = w

/-- R94: which words are illegal on each port, and that writing one sets the port's ERR_ILLEGAL_CMD and does nothing
else; an argument out of a command's range is no illegal encoding. -/
def Obligations.IllegalWords : Prop :=
  (∀ w : Word, (∃ e, decode .a w = .error e) ↔
      (opcField w ∉ [0x00, 0x01, 0x02] ∨ (opcField w = 0x00 ∧ argField w ≠ 0)))
  ∧ (∀ w : Word, (∃ e, decode .c w = .error e) ↔
      (opcField w ∉ [0x00, 0x10, 0x11] ∨ ((opcField w = 0x00 ∨ opcField w = 0x10) ∧ argField w ≠ 0)))
  ∧ (∀ (w : Word) (s : State), (∃ e, decode .a w = .error e) →
      memWrite .a 0x0004 w s = .next { s with aErr := { s.aErr with illegalCmd := true } })
  ∧ (∀ (w : Word) (s : State), (∃ e, decode .c w = .error e) →
      memWrite .c 0x000C w s = .next { s with cErr := { s.cErr with illegalCmd := true } })

/-- The nine sample words that the spec works out from R90 and R92 to R94 (its own inference, R100). -/
def Obligations.EncodingExamples : Prop :=
  decode .a 0x00000401 = .ok (.aPrepare 4)
  ∧ decode .a 0x00000402 = .ok (.aProcessBlock 4)
  ∧ decode .a 0x00000002 = .ok (.aProcessBlock 0)
  ∧ decode .c 0x00000010 = .ok .cUpdate
  ∧ decode .c 0x00000411 = .ok (.cGetResponse 4)
  ∧ decode .c 0x0003E811 = .ok (.cGetResponse 1000)
  ∧ decode .c 0x00000110 = .error .argumentNotZero
  ∧ decode .a 0x00000010 = .error .unknownOpcode
  ∧ decode .a 0x00000001 = .ok (.aPrepare 0)
  ∧ ∀ s : State, ∃ t, exec (.aPrepare 0) s = .next t ∧ t.aErr.badBlock = true

/-- R98 and R99: what the command mnemonics and the pseudo-instructions expand to, that "an assembler refuses a larger
value rather than truncate it", and what C.SETPARAMS, C.CLRCLAMP and A.CLRFAULT do when run. Addresses are platform
addresses (R80); `fs` stands for the word of `f32(fs)`. -/
def Obligations.AssemblerExpansions : Prop :=
  (∀ b : Bases,
    command b .aNop = some ⟨.a, .write (busAddress b .a 0x0004) 0x00000000⟩
    ∧ command b .cNop = some ⟨.c, .write (busAddress b .c 0x000C) 0x00000000⟩
    ∧ command b .cUpdate = some ⟨.c, .write (busAddress b .c 0x000C) 0x00000010⟩
    ∧ aClrFault b = ⟨.a, .write (busAddress b .a 0x0014) 0x0003FFFF⟩
    ∧ cClrClamp b = ⟨.c, .write (busAddress b .c 0x0008) 0x00000002⟩)
  ∧ (∀ (b : Bases) (n : Nat) (fs : Word),
    let prepare : Line := ⟨.a, .write (busAddress b .a 0x0004) (BitVec.ofNat 32 n <<< 8 ||| 0x01#32)⟩
    let response : Line := ⟨.c, .write (busAddress b .c 0x000C) (BitVec.ofNat 32 n <<< 8 ||| 0x11#32)⟩
    (n < 2 ^ 24 →
      command b (.aPrepare n) = some prepare
      ∧ command b (.aProcessBlock n)
          = some ⟨.a, .write (busAddress b .a 0x0004) (BitVec.ofNat 32 n <<< 8 ||| 0x02#32)⟩
      ∧ command b (.cGetResponse n) = some response
      ∧ aPrep b fs n = some [⟨.a, .write (busAddress b .a 0x0008) fs⟩, prepare]
      ∧ cResp b n fs = some [⟨.c, .write (busAddress b .c 0x0030) fs⟩, response])
    ∧ (2 ^ 24 ≤ n →
      command b (.aPrepare n) = none ∧ command b (.aProcessBlock n) = none ∧ command b (.cGetResponse n) = none
      ∧ aPrep b fs n = none ∧ cResp b n fs = none))
  ∧ (∀ (b : Bases) (ch : Fin 2) (k : Nat) (vs : List Word),
    (aLoad b ch k vs).length = vs.length
    ∧ ∀ (j : Nat) (v : Word), vs[j]? = some v → (aLoad b ch k vs)[j]?
        = some ⟨.a, .write (busAddress b .a (BitVec.ofNat 32 (0x10000 + 0x10000 * ch.val + 4 * (k + j)))) v⟩)
  ∧ (∀ (b : Bases) (p : Params),
    cSetParams b p = [.pf, .pg, .pq, .lf, .hf, .ls, .hs].map fun f : Field => cSetP b f (p.get f))
  ∧ (∀ (b : Bases) (f : Field) (v : Word), cSetP b f v = ⟨.c, .write (busAddress b .c (paramAddr f)) v⟩)
  ∧ (∀ (p : Params) (s : State),
    issue (cSetParams s.bases p) s
      = .next { s with params := p, dirty := true, repliesC := List.replicate 7 Reply.done ++ s.repliesC })
  ∧ (∀ s : State,
    issue [cClrClamp s.bases] s = .next { s with paramClamped := false, repliesC := .done :: s.repliesC })
  ∧ (∀ s : State, s.blk.busy = false →
      issue [aClrFault s.bases] s = .next { s with fault := 0, repliesA := .done :: s.repliesA })

/-! ## Bus transactions -/

/-- R101: a write to a port's command register, at its platform address (R80) and accepted at its agent's turn, runs
the command it decodes to, or ILLEGAL (R96), on the state after the transaction and the turn are taken; the write then
completes. -/
def Obligations.StepRunsDecodedCommand : Prop :=
  (∀ (s : State) (w : Word) (ts : List Turn) (q : List Txn),
    s.turns = .a :: ts → s.pendingA = .write (busAddress s.bases .a 0x0004) w :: q → s.blk.busy = false →
    step s = match decode .a w with
      | .ok i => onNext (exec i { s with turns := ts, pendingA := q }) (completeWrite .a)
      | .error _ => .next (completeWrite .a (raiseIllegal .a { s with turns := ts, pendingA := q })))
  ∧ (∀ (s : State) (w : Word) (ts : List Turn) (q : List Txn),
    s.turns = .c :: ts → s.pendingC = .write (busAddress s.bases .c 0x000C) w :: q →
    step s = match decode .c w with
      | .ok i => onNext (exec i { s with turns := ts, pendingC := q }) (completeWrite .c)
      | .error _ => .next (completeWrite .c (raiseIllegal .c { s with turns := ts, pendingC := q })))

/-- The model's own (notes/assumptions/6.md): where a word of the opcode table is put, the next step runs the command it
decodes to, with no block in flight before it. -/
def Obligations.PlacedWordRuns : Prop :=
  ∀ (s : State) (w : Nat) (i : Instr), decodeTableWord 32 w = some i →
    step (s.withFetchWord 32 w)
      = onNext (exec i (match i.port with | .a => { s with blk := Blk.idle } | .c => s)) (completeWrite i.port)

/-- Port sequencing (R69): at its agent's turn a port serves its host's next transaction, and only that one; port A
waits while a block is in flight, and port C does not. A transaction addresses an item "as base plus offset" (R80); a
read replies with the word that MemRead (R63) returns. Lines run one after another, each to its completion, are one
run of the machine (R70, R98). -/
def Obligations.PortSequencing : Prop :=
  (∀ (s : State) (ts : List Turn) (x : Txn) (q : List Txn), s.turns = .a :: ts → s.pendingA = x :: q →
    (s.blk.busy = false → step s = perform .a x { s with turns := ts, pendingA := q })
    ∧ (s.blk.busy = true → ∃ t, step s = .next t ∧ t.pendingA = x :: q ∧ t.pendingC = s.pendingC ∧ t.turns = ts))
  ∧ (∀ (s : State) (ts : List Turn) (x : Txn) (q : List Txn), s.turns = .c :: ts → s.pendingC = x :: q →
    step s = perform .c x { s with turns := ts, pendingC := q }
    ∧ ∃ t r, step s = .next t ∧ t.pendingC = q ∧ t.repliesC = r :: s.repliesC ∧ t.blk = s.blk ∧ t.pendingA = s.pendingA)
  ∧ (∀ (p : Port) (off v : Word) (s : State),
    busAddress s.bases .a off = s.bases.a + off ∧ busAddress s.bases .c off = s.bases.c + off
    ∧ perform p (.read (busAddress s.bases p off)) s = .next (match p with
      | .a => { (memRead .a off s).2 with repliesA := .data (memRead .a off s).1 :: s.repliesA }
      | .c => { (memRead .c off s).2 with repliesC := .data (memRead .c off s).1 :: s.repliesC })
    ∧ perform p (.write (busAddress s.bases p off) v) s = onNext (memWrite p off v s) (completeWrite p))
  ∧ ∀ (ls : List Line) (s : State), s.pendingA = [] → s.pendingC = [] → ∃ τ : List Turn,
    .reset ∉ τ ∧ core.run τ.length { s.load ls with turns := τ ++ s.turns } = issue ls s

/-- R65: an address that is misaligned or unmapped, or an item that is not writable, is an illegal access: it completes,
a read returns 0, a write changes nothing, and the port's ERR_BAD_ACCESS, bit 12 of A_STATUS or bit 11 of C_STATUS, is
all that is set; a legal read changes nothing at all (R61 to R64 list the mapped and the writable items). -/
def Obligations.IllegalAccess : Prop :=
  (∀ (p : Port) (addr : Word), addr.toNat % 4 ≠ 0 → ¬ legalRead p addr.toNat ∧ ¬ legalWrite p addr.toNat)
  ∧ (∀ (p : Port) (addr : Word) (s : State), legalRead p addr.toNat → (memRead p addr s).2 = s)
  ∧ (∀ (addr v : Word) (s : State),
      (¬ legalRead .a addr.toNat → memRead .a addr s = (0, { s with aErr := { s.aErr with badAccess := true } }))
      ∧ (¬ legalWrite .a addr.toNat → memWrite .a addr v s = .next { s with aErr := { s.aErr with badAccess := true } })
      ∧ (¬ legalRead .c addr.toNat → memRead .c addr s = (0, { s with cErr := { s.cErr with badAccess := true } }))
      ∧ (¬ legalWrite .c addr.toNat → memWrite .c addr v s = .next { s with cErr := { s.cErr with badAccess := true } }))
  ∧ ∀ s : State, s.aStatus.getLsbD 12 = s.aErr.badAccess ∧ s.cStatus.getLsbD 11 = s.cErr.badAccess

/-- R64: what a write to each writable item does, and that a write to anything else is an illegal access. -/
def Obligations.WriteEffects : Prop :=
  (∀ (v : Word) (s : State),
    memWrite .a 0x0004 v s = (match decodeA v with
      | .ok i => exec i s
      | .error _ => .next { s with aErr := { s.aErr with illegalCmd := true } })
    ∧ memWrite .c 0x000C v s = (match decodeC v with
      | .ok i => exec i s
      | .error _ => .next { s with cErr := { s.cErr with illegalCmd := true } })
    ∧ memWrite .a 0x0008 v s = .next { s with aFs := v }
    ∧ memWrite .c 0x0030 v s = .next { s with cRespFs := v }
    ∧ memWrite .a 0x0014 v s = .next { s with fault := s.fault &&& ~~~(v.setWidth 18) }
    ∧ memWrite .c 0x0008 v s = .next { s with paramClamped := s.paramClamped && !v.getLsbD 1 })
  ∧ (∀ (f : Field) (v : Word) (s : State),
    memWrite .c (paramAddr f) v s = .next { s with params := s.params.set f v, dirty := true })
  ∧ (∀ (ch : Fin 2) (k : Nat) (v : Word) (s : State), k < Config.bufDepth →
    memWrite .a (BitVec.ofNat 32 (0x10000 + 0x10000 * ch.val + 4 * k)) v s
      = .next { s with ramA := s.ramA.storeWord (0x10000 + 0x10000 * ch.val + 4 * k) v })
  ∧ (∀ (p : Port) (addr v : Word) (s : State), ¬ legalWrite p addr.toNat → memWrite p addr v s = .next (raiseAccess p s))

/-- R42: A_STATUS bit by bit, its value after reset, and that it cannot be written. -/
def Obligations.AudioStatusWord : Prop :=
  (∀ (s : State) (i : Nat), i < 32 →
    (memRead .a 0x0000 s).1.getLsbD i =
      (if i = 0 then s.prepared
       else if i = 8 then s.aErr.unprepared
       else if i = 9 then s.aErr.illegalCmd
       else if i = 10 then s.aErr.badFs
       else if i = 11 then s.aErr.badBlock
       else if i = 12 then s.aErr.badAccess
       else if i = 16 then decide (s.fault ≠ 0)
       else false))
  ∧ (memRead .a 0x0000 State.reset).1 = 0
  ∧ ∀ (v : Word) (s : State), memWrite .a 0x0000 v s = .next (raiseAccess .a s)

/-- R45: C_STATUS bit by bit, its value after reset, and its write, which is legal, clears PARAM_CLAMPED by a 1 in bit
1, ignores every other bit and sets no error. -/
def Obligations.ControlStatusWord : Prop :=
  (∀ (s : State) (i : Nat), i < 32 →
    (memRead .c 0x0008 s).1.getLsbD i =
      (if i = 0 then s.dirty
       else if i = 1 then s.paramClamped
       else if i = 2 then s.prepared
       else if i = 8 then s.cErr.illegalCmd
       else if i = 9 then s.cErr.badWidth
       else if i = 10 then s.cErr.badFs
       else if i = 11 then s.cErr.badAccess
       else false))
  ∧ (memRead .c 0x0008 State.reset).1 = 0
  ∧ ∀ (v : Word) (s : State),
    (v.getLsbD 1 = true → memWrite .c 0x0008 v s = .next { s with paramClamped := false })
    ∧ (v.getLsbD 1 = false → memWrite .c 0x0008 v s = .next s)

/-- R43 and, for the A_DELAY window, R51: the other port A registers, as they read, as they are written, and after
reset; a reserved word of the window reads 0 without error, and writing it is illegal. That BUF_DEPTH is 4096 is the
model's choice of the value R8 names (notes/assumptions/1.md). -/
def Obligations.AudioRegisters : Prop :=
  (∀ s : State,
    memRead .a 0x0004 s = (0, s) ∧ memRead .a 0x0008 s = (s.aFs, s) ∧ memRead .a 0x000C s = (s.engFs, s)
    ∧ memRead .a 0x0010 s = (s.maxBlock, s) ∧ memRead .a 0x0014 s = (s.fault.setWidth 32, s)
    ∧ memRead .a 0x0018 s = (4096, s))
  ∧ (∀ (s : State) (ch : Fin 2) (pos : Fin 9),
    memRead .a (BitVec.ofNat 32 (0x0100 + ch.val * 0x80 + pos.val * 8)) s = (s.delay[ch][pos].r0, s)
    ∧ memRead .a (BitVec.ofNat 32 (0x0100 + ch.val * 0x80 + pos.val * 8 + 4)) s = (s.delay[ch][pos].r1, s))
  ∧ (∀ (s : State) (v : Word),
    memWrite .a 0x0004 v s = writeCommand .a v s
    ∧ memWrite .a 0x0008 v s = .next { s with aFs := v }
    ∧ (∃ t, memWrite .a 0x0014 v s = .next t ∧ t = { s with fault := t.fault }
        ∧ ∀ i, i < 18 → t.fault.getLsbD i = (s.fault.getLsbD i && !v.getLsbD i))
    ∧ memWrite .a 0x000C v s = .next (raiseAccess .a s) ∧ memWrite .a 0x0010 v s = .next (raiseAccess .a s)
    ∧ memWrite .a 0x0018 v s = .next (raiseAccess .a s))
  ∧ (∀ (s : State) (v : Word) (ch : Fin 2) (pos : Fin 9) (r : Fin 2),
    memWrite .a (BitVec.ofNat 32 (0x0100 + ch.val * 0x80 + pos.val * 8 + r.val * 4)) v s = .next (raiseAccess .a s))
  ∧ State.reset.aFs = 0 ∧ State.reset.engFs = 0 ∧ State.reset.maxBlock = 0 ∧ State.reset.fault = 0
  ∧ (∀ (ch : Fin 2) (pos : Fin 9), State.reset.delay[ch][pos] = ⟨0x00000000, 0x00000000⟩)
  ∧ (∀ (s : State) (v : Word) (ch : Fin 2) (j : Nat), 18 ≤ j → j < 32 →
    memRead .a (BitVec.ofNat 32 (0x0100 + ch.val * 0x80 + j * 4)) s = (0, s)
    ∧ memWrite .a (BitVec.ofNat 32 (0x0100 + ch.val * 0x80 + j * 4)) v s = .next (raiseAccess .a s))

/-- R44 and R46: the identity words and the command and evaluator registers of port C. That RESP_DEPTH is 4096 is the
model's choice of the value R8 names (notes/assumptions/1.md). -/
def Obligations.ControlRegisters : Prop :=
  ∀ (s : State) (v : Word),
    memRead .c 0x0000 s = (0x42514345, s) ∧ memRead .c 0x0004 s = (0x00010000, s)
    ∧ memWrite .c 0x0000 v s = .next (raiseAccess .c s) ∧ memWrite .c 0x0004 v s = .next (raiseAccess .c s)
    ∧ memRead .c 0x000C s = (0, s) ∧ memWrite .c 0x000C v s = writeCommand .c v s
    ∧ memRead .c 0x0030 s = (s.cRespFs, s) ∧ memWrite .c 0x0030 v s = .next { s with cRespFs := v }
    ∧ memRead .c 0x0034 s = (4096, s) ∧ memWrite .c 0x0034 v s = .next (raiseAccess .c s)
    ∧ State.reset.cRespFs = 0x00000000

/-- R47 and R48: a P_* write stores the whole word unchanged and sets DIRTY, whatever the word; the read gives it
back, no other parameter changes, and a slope code above 3 reads back as written and is derived as 3; the L_* view,
0x40 above, reads LAST, cannot be written, and resets as P does. -/
def Obligations.ParameterRegisters : Prop :=
  (∀ (f : Field) (v : Word) (s : State), ∃ t,
    memWrite .c (paramAddr f) v s = .next t
    ∧ memRead .c (paramAddr f) t = (v, t) ∧ t.dirty = true
    ∧ (∀ g, g ≠ f → t.params.get g = s.params.get g)
    ∧ t = { s with params := t.params, dirty := true })
  ∧ [Field.pf, .pg, .pq, .lf, .hf, .ls, .hs].map paramAddr
      = [0x0010, 0x0014, 0x0018, 0x001C, 0x0020, 0x0024, 0x0028]
  ∧ State.reset.params = ⟨0x447A0000, 0x00000000, 0x3F800000, 0x41A00000, 0x469C4000, 0, 0⟩
  ∧ ∀ (p : Params) (fs : Word),
    (3 < p.ls.toNat → (clamp p fs).1.ls = 3) ∧ (3 < p.hs.toNat → (clamp p fs).1.hs = 3)
    ∧ (p.ls.toNat ≤ 3 → (clamp p fs).1.ls = p.ls.toNat) ∧ (p.hs.toNat ≤ 3 → (clamp p fs).1.hs = p.hs.toNat)
    ∧ (∀ (f : Field) (v : Word) (s : State),
      memRead .c (paramAddr f + 0x40) s = (s.last.get f, s)
      ∧ memWrite .c (paramAddr f + 0x40) v s = .next (raiseAccess .c s))
    ∧ State.reset.last = State.reset.params

/-- R49 and R50: C_BYPASS shows the nine flags of ACTIVE and reads 0 above them; the C_COEF window shows the five
coefficients of each slot of ACTIVE and reads 0 in its reserved words; neither can be written; and they reset to
0x000001EF and to IDENT. -/
def Obligations.ConfigurationViews : Prop :=
  (∀ (s : State) (i : Nat), i < 32 →
    (memRead .c 0x0080 s).1.getLsbD i = (if h : i < 9 then s.active.byp[i] else false))
  ∧ (memRead .c 0x0080 State.reset).1 = 0x000001EF
  ∧ (∀ (v : Word) (s : State), memWrite .c 0x0080 v s = .next (raiseAccess .c s))
  ∧ (∀ (s : State) (pos : Fin 9),
    (memRead .c (BitVec.ofNat 32 (0x0200 + pos.val * 0x20)) s).1 = s.active.coef[pos].b0
    ∧ (memRead .c (BitVec.ofNat 32 (0x0200 + pos.val * 0x20 + 4)) s).1 = s.active.coef[pos].b1
    ∧ (memRead .c (BitVec.ofNat 32 (0x0200 + pos.val * 0x20 + 8)) s).1 = s.active.coef[pos].b2
    ∧ (memRead .c (BitVec.ofNat 32 (0x0200 + pos.val * 0x20 + 12)) s).1 = s.active.coef[pos].a1
    ∧ (memRead .c (BitVec.ofNat 32 (0x0200 + pos.val * 0x20 + 16)) s).1 = s.active.coef[pos].a2)
  ∧ (∀ (s : State) (pos : Fin 9) (j : Nat), 5 ≤ j → j < 8 →
    memRead .c (BitVec.ofNat 32 (0x0200 + pos.val * 0x20 + j * 4)) s = (0, s))
  ∧ (∀ (s : State) (v : Word) (pos : Fin 9) (j : Nat), j < 8 →
    memWrite .c (BitVec.ofNat 32 (0x0200 + pos.val * 0x20 + j * 4)) v s = .next (raiseAccess .c s))
  ∧ ∀ pos : Fin 9, State.reset.active.coef[pos] = ⟨0x3F800000, 0, 0, 0, 0⟩

/-- The sample RAM (R66, R81): a write lands whole at its effective address, little-endian, reads back as written, and
changes no other byte and no other element. -/
def Obligations.SampleWrite : Prop :=
  ∀ (ch : Fin 2) (k : Nat) (v : Word) (s : State), k < Config.bufDepth → ∃ t,
    memWrite .a (BitVec.ofNat 32 (sampleAddr ch k)) v s = .next t
    ∧ memRead .a (BitVec.ofNat 32 (sampleAddr ch k)) t = (v, t)
    ∧ (∀ j : Fin 4, t.sampleByteAt (sampleAddr ch k + j.val) = v.extractLsb' (8 * j.val) 8)
    ∧ (∀ a, (a < sampleAddr ch k ∨ sampleAddr ch k + 4 ≤ a) → t.sampleByteAt a = s.sampleByteAt a)
    ∧ (∀ (c : Fin 2) (j : Nat), j < Config.bufDepth → (c, j) ≠ (ch, k) →
        t.sampleWord (sampleAddr c j) = s.sampleWord (sampleAddr c j))
    ∧ t = { s with ramA := t.ramA }

/-- The response RAM as port C reads it (R66, R82): the low word at 0x10000 + 8i, the high word 4 above it, and neither
can be written. -/
def Obligations.ResponseRead : Prop :=
  ∀ (i : Nat) (v : Word) (s : State), i < Config.respDepth →
    (memRead .c (BitVec.ofNat 32 (0x10000 + 8 * i)) s) = ((s.respEntry i).extractLsb' 0 32, s)
    ∧ (memRead .c (BitVec.ofNat 32 (0x10004 + 8 * i)) s) = ((s.respEntry i).extractLsb' 32 32, s)
    ∧ memWrite .c (BitVec.ofNat 32 (0x10000 + 8 * i)) v s = .next (raiseAccess .c s)
    ∧ memWrite .c (BitVec.ofNat 32 (0x10004 + 8 * i)) v s = .next (raiseAccess .c s)

/-! ## Reset -/

/-- R52: every element that has a reset value, at that value. That the two depths are 4096 is the model's choice of the
value R8 names (notes/assumptions/1.md). -/
def Obligations.ResetValues : Prop :=
  (∀ (ch : Fin 2) (pos : Fin 9), State.reset.delay[ch][pos] = ⟨0x00000000, 0x00000000⟩)
  ∧ State.reset.active.byp = #v[true, true, true, true, false, true, true, true, true]
  ∧ (∀ pos : Fin 9, State.reset.active.coef[pos] = ⟨0x3F800000, 0, 0, 0, 0⟩)
  ∧ State.reset.snap = State.reset.active
  ∧ State.reset.params = ⟨0x447A0000, 0x00000000, 0x3F800000, 0x41A00000, 0x469C4000, 0, 0⟩
  ∧ State.reset.last = State.reset.params
  ∧ State.reset.dirty = false ∧ State.reset.paramClamped = false
  ∧ State.reset.engFs = 0x00000000 ∧ State.reset.maxBlock = 0 ∧ State.reset.prepared = false
  ∧ State.reset.aFs = 0x00000000 ∧ State.reset.cRespFs = 0x00000000
  ∧ State.reset.fault = 0
  ∧ State.reset.aErr = ⟨false, false, false, false, false⟩ ∧ State.reset.cErr = ⟨false, false, false, false⟩
  ∧ State.reset.blk = ⟨false, 0, 0⟩
  ∧ (memRead .c 0x0000 State.reset).1 = 0x42514345 ∧ (memRead .c 0x0004 State.reset).1 = 0x00010000
  ∧ (memRead .a 0x0018 State.reset).1 = 4096 ∧ (memRead .c 0x0034 State.reset).1 = 4096

/-- The reset event (R270) puts every element of the block at its reset value and abandons a block in flight. That the
hosts keep what they have not yet issued is the model's own choice (notes/assumptions/7.md); the bases are the
platform's (R80). -/
def Obligations.ResetEvent : Prop :=
  ∀ (s : State) (ts : List Turn), s.turns = .reset :: ts →
    step s = .next { State.reset with
      turns := ts, pendingA := s.pendingA, pendingC := s.pendingC,
      repliesA := s.repliesA, repliesC := s.repliesC, run := s.run + 1, bases := s.bases }

/-- The invariant of the model holds after reset. -/
def Obligations.InvariantAtReset : Prop := State.reset.Inv

/-- Every step keeps the invariant: the canonical form and extent of both RAMs, SNAP = ACTIVE (R27), the prefix form of
the flags (R28), the peak always active (R29), what PREPARED goes with (R34, R111), BLK (R39, R182), finite delay
registers (R151), and in every slot five finite coefficients with a b0 of positive sign (R126, R131, R157; the spec's
own inferences). -/
def Obligations.InvariantPreserved : Prop :=
  ∀ s t : State, s.Inv → step s = .next t → t.Inv

/-! ## Port A commands -/

/-- R180 and R200: each port's NOP is the word 0, has no effect on any state, and its write completes in one step;
opcode 0 with another argument is illegal, not a NOP. -/
def Obligations.Nops : Prop :=
  decode .a 0x00000000 = .ok .aNop ∧ decode .c 0x00000000 = .ok .cNop
  ∧ (∀ s : State, exec .aNop s = .next s ∧ exec .cNop s = .next s)
  ∧ (∀ s : State, s.blk.busy = false →
      perform .a (.write (busAddress s.bases .a 0x0004) 0x00000000) s = .next { s with repliesA := .done :: s.repliesA })
  ∧ (∀ s : State,
      perform .c (.write (busAddress s.bases .c 0x000C) 0x00000000) s = .next { s with repliesC := .done :: s.repliesC })
  ∧ ∀ w : Word, opcField w = 0 → argField w ≠ 0 →
      decode .a w = .error .argumentNotZero ∧ decode .c w = .error .argumentNotZero

/-- R181: A.PREPARE, its word; with a legal rate and block limit, all that it writes, and so all that it leaves alone;
and its errors: each error bit that applies is set, both if both apply, and no other element changes (R241, R244). -/
def Obligations.PrepareOutcome : Prop :=
  (∀ m : Nat, m < 2 ^ 24 → decode .a (BitVec.ofNat 32 m <<< 8 ||| 0x01#32) = .ok (.aPrepare m))
  ∧ (∀ (m : Nat) (s : State), legalRate s.aFs = true → 1 ≤ m → m ≤ Config.bufDepth →
    exec (.aPrepare m) s = .next { s with
      engFs := s.aFs, maxBlock := BitVec.ofNat 32 m, prepared := true,
      delay := Vector.replicate 2 (Vector.replicate 9 ⟨0x00000000, 0x00000000⟩),
      active := (derive s.last s.aFs s.active).1, snap := (derive s.last s.aFs s.active).1,
      paramClamped := s.paramClamped || (derive s.last s.aFs s.active).2 })
  ∧ ∀ (m : Nat) (s : State), (legalRate s.aFs = false ∨ m = 0 ∨ Config.bufDepth < m) →
    exec (.aPrepare m) s = .next { s with aErr := { s.aErr with
      badFs := s.aErr.badFs || !legalRate s.aFs,
      badBlock := s.aErr.badBlock || decide (m = 0 ∨ Config.bufDepth < m) } }

/-- A legal rate is a finite one from 8000 to 384000 hertz, both included (R8, R181, R221). -/
def Obligations.LegalRates : Prop :=
  ∀ w : Word, legalRate w = true ↔
    (finiteWord w = true ∧ 8000 ≤ (ofF32 w).toReal ∧ (ofF32 w).toReal ≤ 384000)

/-- The start of A.PROCESS_BLOCK (R182, R244): a prepared block of a legal length puts BLK at its first frame; the
others complete at once, with the one error bit that applies. -/
def Obligations.BlockStarts : Prop :=
  ∀ (n : Nat) (s : State),
    (s.prepared = true → 0 < n → n ≤ s.maxBlock.toNat →
      exec (.aProcessBlock n) s = .next { s with blk := ⟨true, n, 0⟩ })
    ∧ (s.prepared = true → n = 0 → exec (.aProcessBlock n) s = .next s)
    ∧ (s.prepared = true → s.maxBlock.toNat < n →
      exec (.aProcessBlock n) s = .next { s with aErr := { s.aErr with badBlock := true } })
    ∧ (s.prepared = false → exec (.aProcessBlock n) s = .next { s with aErr := { s.aErr with unprepared := true } })

/-- The frame and end steps of a block (R69, R74, R182), at agent A's turn: frame k, then k + 1; and when k = n, BLK at
rest and the A_CMD write complete. The audio host's next transaction waits. That a block also moves where no one is
scheduled is the model's own choice (notes/assumptions/8.md). -/
def Obligations.BlockSteps : Prop :=
  ∀ (s : State), s.blk.busy = true → (s.turns = [] ∨ s.turns.head? = some .a) →
    (s.blk.k < s.blk.n →
      step s = .next { frame s.blk.k { s with turns := s.turns.tail } with blk := ⟨true, s.blk.n, s.blk.k + 1⟩ })
    ∧ (s.blk.n ≤ s.blk.k →
      step s = .next { s with turns := s.turns.tail, blk := ⟨false, 0, 0⟩, repliesA := .done :: s.repliesA })

/-- A whole A.PROCESS_BLOCK (R182, R280): from the write of its word to its completion it takes exactly n frame steps
beside its start and its end, in rising order of k; its result is that of the n frames, and the write completes only
then. -/
def Obligations.BlockRunsToCompletion : Prop :=
  ∀ (n : Nat) (s : State) (q : List Txn) (ts : List Turn),
    n < 2 ^ 24 → 0 < n → n ≤ s.maxBlock.toNat → s.prepared = true → s.blk.busy = false →
    s.pendingA = .write (busAddress s.bases .a 0x0004) (encode (.aProcessBlock n)) :: q →
    s.turns = List.replicate (n + 2) .a ++ ts →
    (∀ j, 0 < j → j ≤ n + 1 →
      ∃ u, core.run j s = .next u ∧ u.blk = ⟨true, n, j - 1⟩ ∧ u.repliesA = s.repliesA ∧ u.pendingA = q)
    ∧ core.run (n + 2) s = .next { framesRun n { s with pendingA := q, turns := ts, blk := ⟨true, n, 0⟩ } with
        blk := ⟨false, 0, 0⟩, repliesA := .done :: s.repliesA }

/-- A block in flight always finishes (R74, R280, both the spec's own inferences), whatever port C does between its
steps: once agent A has had a turn for each frame left and one for the end, BLK is at rest and the write has
completed, and not before. -/
def Obligations.BlockTerminatesInterleaved : Prop :=
  ∀ (ts rest : List Turn) (s : State),
    s.blk.busy = true → s.blk.k ≤ s.blk.n → s.turns = ts ++ .a :: rest → .reset ∉ ts → ts.count .a = s.blk.n - s.blk.k →
    ∃ u t, core.run ts.length s = .next u ∧ u.blk = ⟨true, s.blk.n, s.blk.n⟩ ∧ u.repliesA = s.repliesA
      ∧ core.run (ts.length + 1) s = .next t ∧ t.blk = ⟨false, 0, 0⟩ ∧ t.repliesA = .done :: s.repliesA

/-! ## The datapath -/

/-- R156: a frame replaces the two words at index k by their channels' outputs, both computed from the words and
registers before it and from the one ACTIVE configuration, and writes nothing else but delay registers and FAULT bits.
-/
def Obligations.FrameStep : Prop :=
  ∀ (k : Nat) (s : State), k < Config.bufDepth →
    (∀ ch : Fin 2,
      (frame k s).sampleWord (sampleAddr ch k) = (chain s.active ch ⟨s.delay[ch], 0, s.sampleWord (sampleAddr ch k)⟩).x
      ∧ (frame k s).delay[ch] = (chain s.active ch ⟨s.delay[ch], 0, s.sampleWord (sampleAddr ch k)⟩).delay)
    ∧ (frame k s).fault = s.fault ||| (channelFlow s 0 k 0).fault ||| (channelFlow s 1 k 0).fault
    ∧ (∀ a, (a < sampleAddr 0 k ∨ sampleAddr 0 k + 4 ≤ a) → (a < sampleAddr 1 k ∨ sampleAddr 1 k + 4 ≤ a) →
        (frame k s).sampleByteAt a = s.sampleByteAt a)
    ∧ frame k s = { s with delay := (frame k s).delay, fault := (frame k s).fault, ramA := (frame k s).ramA }

/-- What a block's frames write, and nothing else (R182, R277): the words at index n and above are untouched, and of the
other elements only the delay registers, FAULT and BLK change. -/
def Obligations.BlockFrame : Prop :=
  ∀ (n : Nat) (s : State), n ≤ Config.bufDepth →
    (∀ a, (a < sampleAddr 0 0 ∨ sampleAddr 0 n ≤ a) → (a < sampleAddr 1 0 ∨ sampleAddr 1 n ≤ a) →
      (framesRun n s).sampleByteAt a = s.sampleByteAt a)
    ∧ framesRun n s = { s with
        delay := (framesRun n s).delay, fault := (framesRun n s).fault, ramA := (framesRun n s).ramA,
        blk := { s.blk with k := s.blk.k + n } }

/-- Each channel of a block is a stream (R155, R159, R183): output k is what the channel's chain makes of inputs 0 to
k in order, from the registers before the block; the registers after it are the stream's; and a stream over two
consecutive stretches of input is the streams over each, one after the other, so block boundaries cannot be seen. -/
def Obligations.BlockIsStream : Prop :=
  (∀ (n : Nat) (s : State) (ch : Fin 2), n ≤ Config.bufDepth →
    (List.range n).map (fun k => (framesRun n s).sampleWord (sampleAddr ch k))
      = (channelStream s.active ch s.delay[ch] ((List.range n).map fun k => s.sampleWord (sampleAddr ch k))).1
    ∧ (framesRun n s).delay[ch]
      = (channelStream s.active ch s.delay[ch] ((List.range n).map fun k => s.sampleWord (sampleAddr ch k))).2)
  ∧ ∀ (cfg : Configuration) (ch : Fin 2) (d : Vector Delay 9) (xs ys : List Word),
    channelStream cfg ch d (xs ++ ys)
      = ((channelStream cfg ch d xs).1 ++ (channelStream cfg ch (channelStream cfg ch d xs).2 ys).1,
         (channelStream cfg ch (channelStream cfg ch d xs).2 ys).2)

/-- R150 to R154 written out: a stage's roundings in order, its registers and output on the finite path, and the
fault path; a bypassed position is the identity, bit for bit, on the sample, the registers and the FAULT bits; an active
one writes its own registers and its own FAULT bit `ch * 9 + pos`, and that only where it faults; and the order of a
chain, "low-cut, then peak, then high-cut", each cut's stages from 0 to 3, which is positions 0 to 8 in ascending order
(the spec's own inference). -/
def Obligations.StageAndBypass : Prop :=
  (∀ (c : Coefs) (d : Delay) (w : Word),
    let x := ofF32 w
    let y := add32 (mul32 (ofF32 c.b0) x) (ofF32 d.r0)
    let t0 := add32 (sub32 (mul32 (ofF32 c.b1) x) (mul32 (ofF32 c.a1) y)) (ofF32 d.r1)
    let t1 := sub32 (mul32 (ofF32 c.b2) x) (mul32 (ofF32 c.a2) y)
    (x.isFinite = true ∧ y.isFinite = true ∧ t0.isFinite = true ∧ t1.isFinite = true →
      ofF32 (stage c d w).y = y ∧ ofF32 (stage c d w).delay.r0 = t0 ∧ ofF32 (stage c d w).delay.r1 = t1
      ∧ (stage c d w).faulted = false)
    ∧ (¬ (x.isFinite = true ∧ y.isFinite = true ∧ t0.isFinite = true ∧ t1.isFinite = true) →
      (stage c d w).y = (if finiteWord w then w else 0x00000000) ∧ (stage c d w).delay = d ∧ (stage c d w).faulted = true))
  ∧ (∀ (cfg : Configuration) (ch : Fin 2) (v : Flow) (pos : Fin 9),
    (cfg.byp[pos] = true → position cfg ch v pos = v)
    ∧ (cfg.byp[pos] = false →
      (position cfg ch v pos).x = (stage cfg.coef[pos] v.delay[pos] v.x).y
      ∧ (∀ q : Fin 9, (position cfg ch v pos).delay[q]
          = if q = pos then (stage cfg.coef[pos] v.delay[pos] v.x).delay else v.delay[q])
      ∧ ∀ i, i < 18 → (position cfg ch v pos).fault.getLsbD i
          = (v.fault.getLsbD i || ((stage cfg.coef[pos] v.delay[pos] v.x).faulted && decide (i = ch.val * 9 + pos.val)))))
  ∧ ∀ (cfg : Configuration) (ch : Fin 2) (v : Flow),
    let run : Fin 9 → Flow → Flow := fun pos u => position cfg ch u pos
    lowCascade cfg ch v = run 3 (run 2 (run 1 (run 0 v)))
    ∧ highCascade cfg ch v = run 8 (run 7 (run 6 (run 5 v)))
    ∧ chain cfg ch v = highCascade cfg ch (run 4 (lowCascade cfg ch v))
    ∧ chain cfg ch v = (List.finRange 9).foldl (fun u pos => run pos u) v

/-- R157, item 1: with the peak stage active, every value a chain returns is finite, whatever the sample word, the
registers and the coefficients. -/
def Obligations.ChainOutputFinite : Prop :=
  ∀ (cfg : Configuration) (ch : Fin 2) (v : Flow), cfg.byp[4] = false → finiteWord (chain cfg ch v).x = true

/-- R155: the output, the registers and the FAULT bits of one channel depend only on its own words and registers and on
ACTIVE; the other channel's data, and its faults, change none of them. -/
def Obligations.ChannelsIndependent : Prop :=
  ∀ (s u : State) (k : Nat) (ch : Fin 2), k < Config.bufDepth → s.active = u.active → s.delay[ch] = u.delay[ch] →
    s.sampleWord (sampleAddr ch k) = u.sampleWord (sampleAddr ch k) →
    (∀ i : Fin 9, s.fault.getLsbD (ch.val * 9 + i.val) = u.fault.getLsbD (ch.val * 9 + i.val)) →
    (frame k s).sampleWord (sampleAddr ch k) = (frame k u).sampleWord (sampleAddr ch k)
    ∧ (frame k s).delay[ch] = (frame k u).delay[ch]
    ∧ ∀ i : Fin 9, (frame k s).fault.getLsbD (ch.val * 9 + i.val) = (frame k u).fault.getLsbD (ch.val * 9 + i.val)

/-- Silence (R157, item 2): with finite coefficients, a b0 of positive sign and registers that are zeros, an input of
+0.0 gives +0.0 bit for bit, the registers stay zeros, and the stage does not fault. -/
def Obligations.StageSilence : Prop :=
  ∀ (c : Coefs) (d : Delay),
    finiteWord c.b0 = true → finiteWord c.b1 = true → finiteWord c.b2 = true → finiteWord c.a1 = true →
    finiteWord c.a2 = true → c.b0.getLsbD 31 = false →
    (d.r0 = 0x00000000 ∨ d.r0 = 0x80000000) → (d.r1 = 0x00000000 ∨ d.r1 = 0x80000000) →
    (stage c d 0x00000000).y = 0x00000000 ∧ (stage c d 0x00000000).faulted = false
    ∧ ((stage c d 0x00000000).delay.r0 = 0x00000000 ∨ (stage c d 0x00000000).delay.r0 = 0x80000000)
    ∧ ((stage c d 0x00000000).delay.r1 = 0x00000000 ∨ (stage c d 0x00000000).delay.r1 = 0x80000000)

/-- The identity stage (R25; R157, item 3): a stage with IDENT and zero registers returns every finite input but −0.0
unchanged, its registers stay +0.0 and it does not fault; −0.0 comes out as +0.0, and of the registers nothing is
claimed there (notes/assumptions/10.md); every coefficient slot resets to IDENT. -/
def Obligations.IdentityStage : Prop :=
  Coefs.ident = ⟨0x3F800000, 0, 0, 0, 0⟩
  ∧ (∀ x : Word, finiteWord x = true → x ≠ 0x80000000 → stage Coefs.ident ⟨0, 0⟩ x = ⟨x, ⟨0, 0⟩, false⟩)
  ∧ (stage Coefs.ident ⟨0, 0⟩ 0x80000000).y = 0x00000000
  ∧ ∀ pos : Fin 9, State.reset.active.coef[pos] = Coefs.ident

/-! ## Parameters, derivation and commit -/

/-- R113 to R116: one float parameter through NaN replacement and its range clamp, by the real values: a NaN becomes the
default and counts as a clamp, a number below or above the range becomes its end, an infinity the end on its side, and a
number in range is kept bit for bit. And R118's table: the bounds and the default of each float field, and both slope
codes (R117). -/
def Obligations.ClampCases : Prop :=
  (∀ lo hi dflt v : Word, finiteWord lo = true → finiteWord hi = true → (ofF32 lo).toReal ≤ (ofF32 hi).toReal →
    ((ofF32 v).isNaN = true → (ofF32 dflt).isNaN = false →
      clampFloat lo hi dflt v = ((clampFloat lo hi dflt dflt).1, true))
    ∧ (finiteWord v = true → (ofF32 v).toReal < (ofF32 lo).toReal → clampFloat lo hi dflt v = (lo, true))
    ∧ (finiteWord v = true → (ofF32 hi).toReal < (ofF32 v).toReal → clampFloat lo hi dflt v = (hi, true))
    ∧ (finiteWord v = true → (ofF32 lo).toReal ≤ (ofF32 v).toReal → (ofF32 v).toReal ≤ (ofF32 hi).toReal →
      clampFloat lo hi dflt v = (v, false))
    ∧ clampFloat lo hi dflt 0xFF800000 = (lo, true) ∧ clampFloat lo hi dflt 0x7F800000 = (hi, true))
  ∧ ∀ (p : Params) (fs : Word),
    let fhi := upperFrequency fs
    (clamp p fs).1.pf = (clampFloat 0x41A00000 fhi 0x447A0000 p.pf).1
    ∧ (clamp p fs).1.pg = (clampFloat 0xC1C00000 0x41C00000 0x00000000 p.pg).1
    ∧ (clamp p fs).1.pq = (clampFloat 0x3DCCCCCD 0x41200000 0x3F800000 p.pq).1
    ∧ (clamp p fs).1.lf = (clampFloat 0x41A00000 fhi 0x41A00000 p.lf).1
    ∧ (clamp p fs).1.hf = (clampFloat 0x41A00000 fhi 0x469C4000 p.hf).1
    ∧ (clamp p fs).1.ls = min p.ls.toNat 3 ∧ (clamp p fs).1.hs = min p.hs.toNat 3

/-- After CLAMP at a legal rate (R112, R118): every field is finite and in its range, the upper frequency bound is the
smaller of 20000 and the rounded product of K049 and the rate, and lies between 3920 and 20000, both slope codes are 0 to 3, and the flag says whether a field changed. So each elementary
function of the calculator sees an argument of its domain (R126, the spec's own inference; 1.2 there is the binary32
datum nearest to it). -/
def Obligations.ClampInRange : Prop :=
  ∀ (p : Params) (fs : Word), legalRate fs = true →
    let q := (clamp p fs).1
    let fhi := (ofF32 (upperFrequency fs)).toReal
    fhi = min 20000 (mul32 (ofF32 0x3EFAE148) (ofF32 fs)).toReal ∧ 3920 ≤ fhi ∧ fhi ≤ 20000
    ∧ (∀ w ∈ [q.pf, q.lf, q.hf], finiteWord w = true ∧ 20 ≤ (ofF32 w).toReal ∧ (ofF32 w).toReal ≤ fhi)
    ∧ (finiteWord q.pg = true ∧ -24 ≤ (ofF32 q.pg).toReal ∧ (ofF32 q.pg).toReal ≤ 24)
    ∧ (finiteWord q.pq = true ∧ (ofF32 Q_LO).toReal ≤ (ofF32 q.pq).toReal ∧ (ofF32 q.pq).toReal ≤ 10)
    ∧ q.ls ≤ 3 ∧ q.hs ≤ 3
    ∧ ((clamp p fs).2 = false ↔
        q.pf = p.pf ∧ q.pg = p.pg ∧ q.pq = p.pq ∧ q.lf = p.lf ∧ q.hf = p.hf ∧ q.ls = p.ls.toNat ∧ q.hs = p.hs.toNat)
    ∧ (peakAngle (ofF32 q.pf) (ofF32 fs)).isFinite = true
    ∧ 0 < (peakAngle (ofF32 q.pf) (ofF32 fs)).toReal ∧ (peakAngle (ofF32 q.pf) (ofF32 fs)).toReal < Real.pi
    ∧ (∀ w ∈ [q.lf, q.hf], (div32 (mul32 (ofF32 PI32) (ofF32 w)) (ofF32 fs)).isFinite = true
        ∧ 0 < (div32 (mul32 (ofF32 PI32) (ofF32 w)) (ofF32 fs)).toReal
        ∧ (div32 (mul32 (ofF32 PI32) (ofF32 w)) (ofF32 fs)).toReal < Real.pi / 2)
    ∧ (div32 (ofF32 q.pg) twenty).isFinite = true
    ∧ |(div32 (ofF32 q.pg) twenty).toReal| ≤ (Fp.round f32 false 12 10).toReal

/-- PEAK in its operation order (R119), and at a gain of 0 dB of either sign, on the real values that f, Q and fs stand for: b1 and a1 are one
value, b2 and a2 are one value, and with a finite positive alpha b0 is exactly 1; and clamped parameters at a legal
rate have a finite positive alpha (R126). -/
def Obligations.PeakAtZeroGain : Prop :=
  (∀ f gdB q fs : Fp,
    let A := sqrt32 (exp10_32 (div32 gdB (Fp.ofNat 20)))
    let w := div32 (mul32 (ofF32 0x40C90FDB) f) fs
    let alpha := div32 (sin32 w) (mul32 q (Fp.ofNat 2))
    let c2 := mul32 (Fp.ofNat 2).neg (cos32 w)
    let a0r := add32 (Fp.ofNat 1) (div32 alpha A)
    peakAlpha f q fs = alpha
    ∧ (peak f gdB q fs).b0 = div32 (add32 (Fp.ofNat 1) (mul32 alpha A)) a0r
    ∧ (peak f gdB q fs).b1 = div32 c2 a0r
    ∧ (peak f gdB q fs).b2 = div32 (sub32 (Fp.ofNat 1) (mul32 alpha A)) a0r
    ∧ (peak f gdB q fs).a1 = div32 c2 a0r
    ∧ (peak f gdB q fs).a2 = div32 (sub32 (Fp.ofNat 1) (div32 alpha A)) a0r)
  ∧ (∀ f gdB q fs : Fp, (peak f gdB q fs).b1 = (peak f gdB q fs).a1)
  ∧ (∀ (f q fs : Fp) (s : Bool) (e : Int),
    (peak f (.fin s 0 e) q fs).b2 = (peak f (.fin s 0 e) q fs).a2
    ∧ ((peakAlpha f q fs).isFinite = true → 0 < (peakAlpha f q fs).toReal →
        (peak f (.fin s 0 e) q fs).b0 = Fp.round f32 false 1 1))
  ∧ ∀ (p : Params) (fs : Word), legalRate fs = true →
    let alpha := peakAlpha (ofF32 (clamp p fs).1.pf) (ofF32 (clamp p fs).1.pq) (ofF32 fs)
    alpha.isFinite = true ∧ 0 < alpha.toReal

/-- The cut sections in their operation order (R122, R123), the Q ROM (R120) and the cascades (R124): b2 = b0 exactly, and b1 is −2 b0 for the high-pass and 2 b0 for the low-pass,
exactly, where they are finite; and with a clamped frequency, a Q of the ROM and a legal rate they are finite, and b0
is positive (R126). -/
def Obligations.CutSectionSymmetry : Prop :=
  (∀ f q fs n : Fp,
    let t := tan32 (div32 (mul32 (ofF32 0x40490FDB) f) fs)
    let c1 := div32 (Fp.ofNat 1) (add32 (add32 (Fp.ofNat 1) (mul32 (div32 (Fp.ofNat 1) q) n)) (mul32 n n))
    let a2 := mul32 c1 (add32 (sub32 (Fp.ofNat 1) (mul32 (div32 (Fp.ofNat 1) q) n)) (mul32 n n))
    (n = t → hpSection f q fs = ⟨c1, mul32 c1 (Fp.ofNat 2).neg, c1,
      mul32 (mul32 c1 (Fp.ofNat 2)) (sub32 (mul32 n n) (Fp.ofNat 1)), a2⟩)
    ∧ (n = div32 (Fp.ofNat 1) t → lpSection f q fs = ⟨c1, mul32 c1 (Fp.ofNat 2), c1,
      mul32 (mul32 c1 (Fp.ofNat 2)) (sub32 (Fp.ofNat 1) (mul32 n n)), a2⟩))
  ∧ [1, 2, 3, 4].map qrom = [[0x3F3504F3], [0x3F0A8BD4, 0x3FA73D75], [0x3F0483EE, 0x3F3504F3, 0x3FF746EA],
      [0x3F0281F7, 0x3F19F1BD, 0x3F6664D7, 0x402406CF]]
  ∧ (∀ (f fs : Fp) (c : Nat),
    lowCut f c fs = (qrom (c + 1)).map (fun q => hpSection f (ofF32 q) fs)
    ∧ highCut f c fs = (qrom (c + 1)).map fun q => lpSection f (ofF32 q) fs)
  ∧ (∀ f q fs : Fp,
    ((hpSection f q fs).b2 = (hpSection f q fs).b0 ∧ (lpSection f q fs).b2 = (lpSection f q fs).b0)
    ∧ ((hpSection f q fs).b0.isFinite = true → (hpSection f q fs).b1.isFinite = true →
        (hpSection f q fs).b1.toReal = -2 * (hpSection f q fs).b0.toReal)
    ∧ ((lpSection f q fs).b0.isFinite = true → (lpSection f q fs).b1.isFinite = true →
        (lpSection f q fs).b1.toReal = 2 * (lpSection f q fs).b0.toReal))
  ∧ ∀ (p : Params) (fs q : Word) (n : Nat), legalRate fs = true → q ∈ qrom n →
    ∀ c ∈ [hpSection (ofF32 (clamp p fs).1.lf) (ofF32 q) (ofF32 fs),
        lpSection (ofF32 (clamp p fs).1.hf) (ofF32 q) (ofF32 fs)],
      c.b0.isFinite = true ∧ c.b1.isFinite = true ∧ 0 < c.b0.toReal

/-- DERIVE position by position: R130's list of results and its example, both the spec's own inferences. Low-cut section
k at position k and high-cut section k at 5 + k, active, for k up to the slope code; the peak at 4, active; every other
cut position bypassed, with the coefficients it had. The reset parameters at 48000 hertz give one active stage to each
cut. At a legal rate every active position has five finite coefficients and a b0 of positive sign (R126; R131, item 5;
R157, item 2; the spec's own inferences too). -/
def Obligations.DeriveContents : Prop :=
  ∀ (p : Params) (fs : Word) (cur : Configuration),
    let q := (clamp p fs).1
    let cfg := (derive p fs cur).1
    (∀ (k : Nat) (hk : k < 4),
      (k ≤ q.ls → cfg.byp[k] = false ∧
        ∃ c, (lowCut (ofF32 q.lf) q.ls (ofF32 fs))[k]? = some c ∧ cfg.coef[k] = c.store (fs :: p.toList) k)
      ∧ (q.ls < k → cfg.byp[k] = true ∧ cfg.coef[k] = cur.coef[k]))
    ∧ (cfg.byp[4] = false ∧
      cfg.coef[4] = (peak (ofF32 q.pf) (ofF32 q.pg) (ofF32 q.pq) (ofF32 fs)).store (fs :: p.toList) 4)
    ∧ (∀ (k : Nat) (hk : k < 4),
      (k ≤ q.hs → cfg.byp[5 + k] = false ∧
        ∃ c, (highCut (ofF32 q.hf) q.hs (ofF32 fs))[k]? = some c ∧ cfg.coef[5 + k] = c.store (fs :: p.toList) (5 + k))
      ∧ (q.hs < k → cfg.byp[5 + k] = true ∧ cfg.coef[5 + k] = cur.coef[5 + k]))
    ∧ (derive p fs cur).2 = (clamp p fs).2
    ∧ (derive Params.reset 0x473B8000 Configuration.reset).1.byp
        = #v[false, true, true, true, false, false, true, true, true]
    ∧ (legalRate fs = true → ∀ pos : Fin 9, cfg.byp[pos] = false → cfg.coef[pos].sound)

/-- What a derivation owes to the configuration before it (R131, items 1 and 3, R207): the flags, the clamp flag and
every active slot depend on the snapshot and the rate alone; only bypassed slots are carried over, and deriving again
over the result changes nothing. -/
def Obligations.DeriveDependsOnSnapshot : Prop :=
  (∀ (p : Params) (fs : Word) (c d : Configuration),
    (derive p fs c).1.byp = (derive p fs d).1.byp ∧ (derive p fs c).2 = (derive p fs d).2
    ∧ ∀ pos : Fin 9, (derive p fs c).1.byp[pos] = false → (derive p fs c).1.coef[pos] = (derive p fs d).1.coef[pos])
  ∧ ∀ (p : Params) (fs : Word) (c : Configuration), derive p fs (derive p fs c).1 = derive p fs c

/-- C.UPDATE (R201, R203): its word; nothing while unprepared or clean; else DIRTY cleared, all seven words snapshot,
the configuration derived from them and published to ACTIVE and SNAP in the same step, and nothing else changed. -/
def Obligations.UpdateOutcome : Prop :=
  decode .c 0x00000010 = .ok .cUpdate
  ∧ ∀ s : State,
    (s.prepared = false → exec .cUpdate s = .next s)
    ∧ (s.dirty = false → exec .cUpdate s = .next s)
    ∧ (s.prepared = true → s.dirty = true →
      exec .cUpdate s = .next { s with
        dirty := false, last := s.params,
        active := (derive s.params s.engFs s.active).1, snap := (derive s.params s.engFs s.active).1,
        paramClamped := s.paramClamped || (derive s.params s.engFs s.active).2 })

/-- Coalescing (R32, R201; the spec's own inference, R204): however many P_* writes come between two C.UPDATEs, the
second makes one derivation, from the values held then; the intermediate values never reach ACTIVE. -/
def Obligations.UpdatesCoalesce : Prop :=
  ∀ (ws : List (Field × Word)) (s : State), s.prepared = true → ws ≠ [] →
    ∃ t, issue (ws.map fun w => cSetP s.bases w.1 w.2) s = .next t
      ∧ t.params = ws.foldl (fun p w => p.set w.1 w.2) s.params ∧ t.active = s.active ∧ t.snap = s.snap
      ∧ ∃ u, exec .cUpdate t = .next u
        ∧ u.active = (derive (ws.foldl (fun p w => p.set w.1 w.2) s.params) s.engFs s.active).1
        ∧ u.snap = u.active ∧ u.last = t.params ∧ u.dirty = false

/-- Idempotence (R110, R130, R201, R203; the spec's own inference, R205): a second C.UPDATE straight after a first
does nothing; and one after P_* words are rewritten with the values they have changes nothing at all, but that it may
set PARAM_CLAMPED again, where the first set it and it was cleared between. -/
def Obligations.UpdateIdempotent : Prop :=
  (∀ s t : State, exec .cUpdate s = .next t → exec .cUpdate t = .next t)
  ∧ ∀ (s t : State) (fs : List Field), s.prepared = true → s.dirty = true → fs ≠ [] → exec .cUpdate s = .next t →
    exec .cUpdate (fs.foldl (fun u f => setParam f (u.params.get f) u) t) = .next t
    ∧ exec .cUpdate (fs.foldl (fun u f => setParam f (u.params.get f) u) { t with paramClamped := false })
        = .next { t with paramClamped := (derive s.params s.engFs s.active).2 }

/-! ## The response evaluator -/

/-- R221: C.GET_RESPONSE, its word; with a legal width and rate it writes entries 0 to W − 1 of the response RAM from
SNAP and nothing else, byte by byte; and its errors: each error bit that applies is set, both if both apply, and
nothing else changes (R241, R244). -/
def Obligations.ResponseOutcome : Prop :=
  (∀ w : Nat, w < 2 ^ 24 → decode .c (BitVec.ofNat 32 w <<< 8 ||| 0x11#32) = .ok (.cGetResponse w))
  ∧ (∀ (w : Nat) (s : State), w ≤ Config.respDepth → legalRate s.cRespFs = true → ∃ t,
    exec (.cGetResponse w) s = .next t
    ∧ (∀ i, i < w → t.respEntry i = toF64 0 (db (mag s.snap (freq i w) (w64 s.cRespFs))))
    ∧ (∀ a, (a < respAddr 0 ∨ respAddr w ≤ a) → t.respByteAt a = s.respByteAt a)
    ∧ t = { s with ramC := t.ramC })
  ∧ ∀ (w : Nat) (s : State), (Config.respDepth < w ∨ legalRate s.cRespFs = false) →
    exec (.cGetResponse w) s = .next { s with cErr := { s.cErr with
      badWidth := s.cErr.badWidth || decide (Config.respDepth < w),
      badFs := s.cErr.badFs || !legalRate s.cRespFs } }

/-- The evaluator's formulas in their operation order (R222, R223), and MAG (R224): from 1.0, each active position, in the
order 0 to 8, multiplies by its stage's magnitude. So bypassed positions contribute nothing to the response:
configurations with the same flags and the same coefficients at active positions have the same magnitude everywhere,
whatever their stale slots hold. -/
def Obligations.ResponseIgnoresStaleSlots : Prop :=
  (∀ i w : Nat,
    let l0 := log10_64 (Fp.ofNat 20)
    freq i w = exp10_64 (add64 (mul64 (div64 (Fp.ofNat i) (Fp.ofNat w)) (sub64 (log10_64 (Fp.ofNat 20000)) l0)) l0))
  ∧ (∀ (c : Coefs) (f fsE : Fp),
    let th := div64 (mul64 (ofF64 0x401921FB54442D18) f) fsE
    let zr := cos64 th
    let zi := (sin64 th).neg
    let z2r := sub64 (mul64 zr zr) (mul64 zi zi)
    let z2i := add64 (mul64 zr zi) (mul64 zi zr)
    let re (k0 : Fp) (k1 k2 : Word) := add64 (add64 k0 (mul64 (ofF32 k1) zr)) (mul64 (ofF32 k2) z2r)
    let im (k1 k2 : Word) := add64 (mul64 (ofF32 k1) zi) (mul64 (ofF32 k2) z2i)
    let square (x y : Fp) := add64 (mul64 x x) (mul64 y y)
    stageMag c f fsE = sqrt64 (div64 (square (re (ofF32 c.b0) c.b1 c.b2) (im c.b1 c.b2))
      (square (re (Fp.ofNat 1) c.a1 c.a2) (im c.a1 c.a2))))
  ∧ (∀ (c : Configuration) (f fsE : Fp), mag c f fsE = (List.finRange 9).foldl
      (fun m pos => if c.byp[pos] = true then m else mul64 m (stageMag c.coef[pos] f fsE)) (Fp.ofNat 1))
  ∧ ∀ (c d : Configuration) (f fsE : Fp), c.byp = d.byp →
    (∀ pos : Fin 9, c.byp[pos] = false → c.coef[pos] = d.coef[pos]) → mag c f fsE = mag d f fsE

/-- The decibel conversion (R225): a magnitude that is not above zero gives −100, +∞ gives +∞, and a finite one above
zero the larger of −100 and 20 times its decimal logarithm, each of the two rounded; no result lies below −100 and none
is a NaN, and a magnitude of one gives +0.0. -/
def Obligations.DecibelConversion : Prop :=
  DB_FLOOR = 0xC059000000000000
  ∧ (∀ m : Fp, (Fp.fin false 0 0).lt m = false → db m = ofF64 DB_FLOOR)
  ∧ (∀ m : Fp, m.isFinite = true → (Fp.fin false 0 0).lt m = true →
    let x := mul64 (log10_64 m) (Fp.ofNat 20)
    db m = if (ofF64 DB_FLOOR).lt x then x else ofF64 DB_FLOOR)
  ∧ db (.inf false) = .inf false
  ∧ (∀ m : Fp, (ofF64 DB_FLOOR).le (db m) = true)
  ∧ toF64 0 (db one) = 0x0000000000000000

/-- Flat responses (R227, items 1 and 2): in the reset configuration every point whose angle is finite has magnitude 1
and reads +0.0 dB; and a stage with b0 = 1, b1 = a1 and b2 = a2, which a peak at 0 dB is, has a magnitude of exactly 1
wherever its magnitude is a number. -/
def Obligations.FlatResponses : Prop :=
  (∀ f fsE : Fp, (div64 (mul64 (ofF64 TWO_PI64) f) fsE).isFinite = true →
    mag Configuration.reset f fsE = Fp.round f64 false 1 1
    ∧ toF64 0 (db (mag Configuration.reset f fsE)) = 0x0000000000000000)
  ∧ ∀ (a1 a2 : Word) (f fsE : Fp), (stageMag ⟨0x3F800000, a1, a2, a1, a2⟩ f fsE).isNaN = false →
    stageMag ⟨0x3F800000, a1, a2, a1, a2⟩ f fsE = Fp.round f64 false 1 1

/-! ## Whole-machine rules -/

/-- Every command and every step answers a next state: nothing traps, stops or hangs (R241, R249, R280); and no step
moves the bases, which are the platform's (R80). -/
def Obligations.EveryStepCompletes : Prop :=
  (∀ (i : Instr) (s : State), ∃ t, exec i s = .next t) ∧ ∀ s : State, ∃ t, step s = .next t ∧ t.bases = s.bases

/-- Sticky bits (R36 to R38, R250): in a step other than the reset event no error bit of either port is cleared, a FAULT
bit is cleared only by a step of agent A, with no block in flight, that writes a 1 to it in A_FAULT, and PARAM_CLAMPED
only by a step of agent C that writes a 1 to bit 1 of C_STATUS. -/
def Obligations.StickyBits : Prop :=
  ∀ s t : State, s.turns.head? ≠ some .reset → step s = .next t →
    (s.aErr.unprepared = true → t.aErr.unprepared = true) ∧ (s.aErr.illegalCmd = true → t.aErr.illegalCmd = true)
    ∧ (s.aErr.badFs = true → t.aErr.badFs = true) ∧ (s.aErr.badBlock = true → t.aErr.badBlock = true)
    ∧ (s.aErr.badAccess = true → t.aErr.badAccess = true)
    ∧ (s.cErr.illegalCmd = true → t.cErr.illegalCmd = true) ∧ (s.cErr.badWidth = true → t.cErr.badWidth = true)
    ∧ (s.cErr.badFs = true → t.cErr.badFs = true) ∧ (s.cErr.badAccess = true → t.cErr.badAccess = true)
    ∧ (∀ i, i < 18 → s.fault.getLsbD i = true → t.fault.getLsbD i = false →
        s.turns.head? = some .a ∧ s.blk.busy = false
        ∧ ∃ v rest, s.pendingA = .write (busAddress s.bases .a 0x0014) v :: rest ∧ v.getLsbD i = true)
    ∧ (s.paramClamped = true → t.paramClamped = false →
        s.turns.head? = some .c
        ∧ ∃ v rest, s.pendingC = .write (busAddress s.bases .c 0x0008) v :: rest ∧ v.getLsbD 1 = true)

/-- ACTIVE changes only at a commit (R26, R34, R203, R207): a step other than the reset event leaves ACTIVE, SNAP,
ENG_FS, MAXBLOCK and PREPARED alone, or is a C.UPDATE's, which publishes the derivation of the new LAST at the ENG_FS
it found, or an A.PREPARE's, which publishes the derivation of LAST at the rate in A_FS. -/
def Obligations.CommitsOnly : Prop :=
  ∀ s t : State, s.turns.head? ≠ some .reset → step s = .next t →
    (t.active = s.active ∧ t.snap = s.snap ∧ t.engFs = s.engFs ∧ t.maxBlock = s.maxBlock ∧ t.prepared = s.prepared)
    ∨ (s.turns.head? = some .c ∧ s.prepared = true ∧ s.dirty = true ∧ t.last = s.params
        ∧ t.active = (derive t.last t.engFs s.active).1 ∧ t.snap = t.active
        ∧ t.engFs = s.engFs ∧ t.maxBlock = s.maxBlock ∧ t.prepared = s.prepared)
    ∨ (s.turns.head? = some .a ∧ t.engFs = s.aFs ∧ legalRate t.engFs = true ∧ t.prepared = true
        ∧ 1 ≤ t.maxBlock.toNat ∧ t.maxBlock.toNat ≤ Config.bufDepth ∧ t.last = s.last ∧ t.delay = zeroDelay
        ∧ t.active = (derive t.last t.engFs s.active).1 ∧ t.snap = t.active)

/-- DIRTY and LAST (R31, R32, R201): in a step other than the reset event DIRTY is set only by a port C write, and is
cleared, and LAST changed, only by a C.UPDATE that finds the engine prepared and copies all of P. -/
def Obligations.DirtyProtocol : Prop :=
  ∀ s t : State, s.turns.head? ≠ some .reset → step s = .next t →
    (t.dirty = true ∧ s.dirty = false → s.turns.head? = some .c
        ∧ ∃ f v rest, s.pendingC = .write (busAddress s.bases .c (paramAddr f)) v :: rest ∧ t.params = s.params.set f v)
    ∧ ((t.dirty = false ∧ s.dirty = true) ∨ t.last ≠ s.last →
        s.turns.head? = some .c ∧ s.prepared = true ∧ s.dirty = true ∧ t.dirty = false ∧ t.last = s.params
        ∧ ∃ rest, s.pendingC = .write (busAddress s.bases .c 0x000C) 0x00000010 :: rest)

/-- The delay registers (R23): a step other than the reset event leaves them alone, is a frame step of a block in
flight, or is a step of agent A that sets all 36 to +0.0. The control port never writes them. -/
def Obligations.DelayWriters : Prop :=
  ∀ s t : State, s.turns.head? ≠ some .reset → step s = .next t →
    t.delay = s.delay
    ∨ (s.blk.busy = true ∧ s.blk.k < s.blk.n ∧ s.turns.head? ≠ some .c ∧ t.delay = (frame s.blk.k s).delay)
    ∨ (s.turns.head? = some .a ∧ s.blk.busy = false
        ∧ ∀ (ch : Fin 2) (pos : Fin 9), t.delay[ch][pos] = ⟨0x00000000, 0x00000000⟩)

/-- The separation of the agents (R83, R252): a turn of agent C neither reads nor writes what belongs to agent A alone,
which is S, BLK, the sample RAM, FAULT, AERR, A_FS and MAXBLOCK; a turn of agent A neither reads nor writes what belongs
to agent C alone, which is P, DIRTY, RESP, CERR and C_RESP_FS. Changing what an agent may not read changes nothing else
in the outcome of its turn, and leaves what it was changed to. -/
def Obligations.AgentSeparation : Prop :=
  (∀ (s : State) (d : Vector (Vector Delay 9) 2) (b : Blk) (m : Memory) (f : BitVec 18) (e : AErr) (fs n : Word),
    controlTurn { s with delay := d, blk := b, ramA := m, fault := f, aErr := e, aFs := fs, maxBlock := n }
      = onNext (controlTurn s) fun t =>
        { t with delay := d, blk := b, ramA := m, fault := f, aErr := e, aFs := fs, maxBlock := n })
  ∧ ∀ (s : State) (p : Params) (b : Bool) (m : Memory) (e : CErr) (fs : Word),
    audioTurn { s with params := p, dirty := b, ramC := m, cErr := e, cRespFs := fs }
      = onNext (audioTurn s) fun t => { t with params := p, dirty := b, ramC := m, cErr := e, cRespFs := fs }

/-! ## Arithmetic -/

/-- Rounding (R13): for both formats, a positive fraction rounds to the finite datum nearest to it, the even one of two
that are equally near, and to infinity exactly where it lies at or past the midpoint of the largest finite datum and
the next power of two. -/
def Obligations.RoundingIsNearestEven : Prop :=
  ∀ f ∈ [f32, f64], ∀ num den : Nat, 0 < num → 0 < den →
    (f.roundMag num den < f.infCode → f.isNearest ((num : ℝ) / den) (f.roundMag num den))
    ∧ f.roundMag num den ≤ f.infCode
    ∧ (f.roundMag num den = f.infCode ↔ (f.magValue (f.infCode - 1) + f.magValue f.infCode) / 2 ≤ (num : ℝ) / den)

/-- The basic operations (R13), in both formats. On finite operands, each non-zero exact result of add, sub, mul, div and
sqrt is rounded once, and overflows to the infinity of its sign; an exact zero has the sign that IEEE 754 gives it; a
division of a non-zero number by zero is an infinity, of zero by zero a NaN. Infinite and NaN operands are as IEEE 754
has them; and neg flips the sign. -/
def Obligations.BasicOperationsCorrectlyRounded : Prop :=
  ∀ f ∈ [f32, f64],
    (∀ a b : Fp, a.isFinite = true → b.isFinite = true →
      (a.toReal + b.toReal ≠ 0 → Fp.isRn f (a.toReal + b.toReal) (Fp.add f a b))
      ∧ (a.toReal - b.toReal ≠ 0 → Fp.isRn f (a.toReal - b.toReal) (Fp.sub f a b))
      ∧ (a.toReal * b.toReal ≠ 0 → Fp.isRn f (a.toReal * b.toReal) (Fp.mul f a b))
      ∧ (a.toReal ≠ 0 → b.toReal ≠ 0 → Fp.isRn f (a.toReal / b.toReal) (Fp.div f a b))
      ∧ (0 < a.toReal → Fp.isRn f (Real.sqrt a.toReal) (Fp.sqrt f a))
      ∧ (a.toReal + b.toReal = 0 → Fp.add f a b = .fin (a.sign && b.sign) 0 f.qmin)
      ∧ (a.toReal - b.toReal = 0 → Fp.sub f a b = .fin (a.sign && !b.sign) 0 f.qmin)
      ∧ (a.toReal * b.toReal = 0 → Fp.mul f a b = .fin (a.sign != b.sign) 0 f.qmin)
      ∧ (a.toReal = 0 → b.toReal ≠ 0 → Fp.div f a b = .fin (a.sign != b.sign) 0 f.qmin)
      ∧ (a.toReal ≠ 0 → b.toReal = 0 → Fp.div f a b = .inf (a.sign != b.sign))
      ∧ (a.toReal = 0 → b.toReal = 0 → Fp.div f a b = .nan)
      ∧ (a.toReal = 0 → Fp.sqrt f a = .fin a.sign 0 f.qmin) ∧ (a.toReal < 0 → Fp.sqrt f a = .nan)
      ∧ a.neg.toReal = -a.toReal ∧ a.neg.sign = !a.sign ∧ a.neg.isFinite = true)
    ∧ (∀ (a : Fp) (s : Bool), a.isFinite = true →
      Fp.add f (.inf s) a = .inf s ∧ Fp.add f a (.inf s) = .inf s
      ∧ Fp.sub f (.inf s) a = .inf s ∧ Fp.sub f a (.inf s) = .inf (!s)
      ∧ Fp.mul f (.inf s) a = (if a.toReal = 0 then .nan else .inf (s != a.sign))
      ∧ Fp.mul f a (.inf s) = (if a.toReal = 0 then .nan else .inf (a.sign != s))
      ∧ Fp.div f (.inf s) a = .inf (s != a.sign) ∧ Fp.div f a (.inf s) = .fin (a.sign != s) 0 f.qmin)
    ∧ (∀ s t : Bool,
      Fp.add f (.inf s) (.inf t) = (if s = t then .inf s else .nan)
      ∧ Fp.sub f (.inf s) (.inf t) = (if s = t then .nan else .inf s)
      ∧ Fp.mul f (.inf s) (.inf t) = .inf (s != t) ∧ Fp.div f (.inf s) (.inf t) = .nan
      ∧ Fp.sqrt f (.inf s) = (if s then .nan else .inf false) ∧ (Fp.inf s).neg = .inf (!s))
    ∧ (∀ a b : Fp, a.isNaN = true ∨ b.isNaN = true →
      Fp.add f a b = .nan ∧ Fp.sub f a b = .nan ∧ Fp.mul f a b = .nan ∧ Fp.div f a b = .nan)
    ∧ Fp.sqrt f .nan = .nan ∧ Fp.nan.neg = .nan

/-- Sine, cosine and tangent (R14), in both formats, on every finite non-zero argument: where a working precision of the
model decides the rounding (notes/assumptions/5.md), a finite result is the exact real result rounded once. -/
def Obligations.TrigonometryCorrectlyRounded : Prop :=
  ∀ f ∈ [f32, f64], ∀ (s : Bool) (m : Nat) (e : Int), 0 < m →
    (decides f (cosEncl m e) → Fp.isRounding f (Real.cos (Fp.fin s m e).toReal) (Fp.cos f (.fin s m e)))
    ∧ (decides f (sinEncl m e) → Fp.isRounding f (Real.sin (Fp.fin s m e).toReal) (Fp.sin f (.fin s m e)))
    ∧ (decides f (tanEncl m e) → (Fp.tan f (.fin s m e)).isFinite = true →
        Fp.isRounding f (Real.tan (Fp.fin s m e).toReal) (Fp.tan f (.fin s m e)))

/-- Logarithm and power of ten (R14), in both formats: where a working precision of the model decides the rounding
(notes/assumptions/5.md), or the result is exact, a finite result is the exact real result rounded once. -/
def Obligations.PowersCorrectlyRounded : Prop :=
  ∀ f ∈ [f32, f64], ∀ (m : Nat) (e : Int), 0 < m →
    ((Fp.fin false m e).toReal ≠ 1 → decides f (log10Encl (e + log10Shift m) m (2 ^ log10Shift m)) →
      (Fp.log10 f (.fin false m e)).isFinite = true →
      Fp.isRounding f (Real.logb 10 (Fp.fin false m e).toReal) (Fp.log10 f (.fin false m e)))
    ∧ ((Fp.fin false m e).toReal = 1 → Fp.log10 f (.fin false m e) = .fin false 0 f.qmin)
    ∧ ∀ s : Bool,
      (fractionalPart s m e = 0 ∨ decides f (exp10Encl (wholePart s m e) (fractionalPart s m e) (fraction m e).2)) →
      (Fp.exp10 f (.fin s m e)).isFinite = true →
      Fp.isRounding f ((10 : ℝ) ^ (Fp.fin s m e).toReal) (Fp.exp10 f (.fin s m e))
end

