-- ==== Sys2Proof/Laws/Memory.lean ====
section
/-! SUPPORT. The laws of the RAMs: a read after a write, the bytes a write leaves alone, and the canonical form that every
operation keeps (spec/20_memory.md R66, R81, R82). -/

namespace Sys2Proof.Machine

namespace Memory

@[simp] theorem read_nil (a : Nat) : Memory.read [] a = none := rfl

/-- A read after a write. -/
theorem read_write (m : Memory) (a b : Nat) (v : Byte) :
    (m.write a v).read b = if b = a then some v else m.read b := by
  induction m with
  | nil => simp [write, read, eq_comm]
  | cons c m ih =>
    unfold write
    split
    · simp [read, eq_comm]
    · split
      · rename_i h1 h2
        subst h2
        by_cases hb : b = c.1
        · simp [read, hb]
        · simp [read, hb, Ne.symm hb]
      · rename_i h1 h2
        simp only [read, ih]
        by_cases hb : b = a
        · subst hb; simp [Ne.symm h2]
        · simp [hb]

@[simp] theorem read_write_same (m : Memory) (a : Nat) (v : Byte) : (m.write a v).read a = some v := by
  simp [read_write]

theorem read_write_other (m : Memory) (a b : Nat) (v : Byte) (h : b ≠ a) : (m.write a v).read b = m.read b := by
  simp [read_write, h]

/-- A write lists no address but its own and those listed before. -/
theorem mem_write (m : Memory) (a : Nat) (v : Byte) (c : Host.Cell) (h : c ∈ m.write a v) : c = (a, v) ∨ c ∈ m := by
  induction m with
  | nil => simpa [write] using h
  | cons d m ih =>
    unfold write at h
    split at h
    · simpa using h
    · split at h
      · rcases List.mem_cons.mp h with h | h
        · exact Or.inl h
        · exact Or.inr (List.mem_cons_of_mem _ h)
      · rcases List.mem_cons.mp h with h | h
        · exact Or.inr (h ▸ List.mem_cons_self)
        · rcases ih h with h | h
          · exact Or.inl h
          · exact Or.inr (List.mem_cons_of_mem _ h)

theorem wf_nil : wf [] := List.Pairwise.nil

/-- A write keeps the canonical form. -/
theorem wf_write (m : Memory) (a : Nat) (v : Byte) (h : m.wf) : (m.write a v).wf := by
  induction m with
  | nil => simp [write, wf]
  | cons d m ih =>
    obtain ⟨h1, h2⟩ := List.pairwise_cons.mp h
    unfold write
    split
    · rename_i hlt
      refine List.pairwise_cons.mpr ⟨?_, h⟩
      intro c hc
      rcases List.mem_cons.mp hc with hc | hc
      · subst hc; exact hlt
      · exact hlt.trans (h1 c hc)
    · split
      · rename_i heq
        refine List.pairwise_cons.mpr ⟨?_, h2⟩
        intro c hc
        have := h1 c hc
        simp only at this ⊢
        omega
      · rename_i hn1 hn2
        refine List.pairwise_cons.mpr ⟨?_, ih h2⟩
        intro c hc
        rcases mem_write m a v c hc with hc | hc
        · subst hc; simp only; omega
        · exact h1 c hc

/-- Two memories in canonical form that read the same everywhere are equal. -/
theorem ext_of_wf (m n : Memory) (hm : m.wf) (hn : n.wf) (h : ∀ a, m.read a = n.read a) : m = n := by
  have none_below : ∀ (l : Memory) (a : Nat), (∀ c ∈ l, a < c.1) → l.read a = none := by
    intro l a hl
    induction l with
    | nil => rfl
    | cons c l ih =>
      have := hl c List.mem_cons_self
      simp only [read]
      rw [if_neg (by omega)]
      exact ih (fun d hd => hl d (List.mem_cons_of_mem _ hd))
  induction m generalizing n with
  | nil =>
    cases n with
    | nil => rfl
    | cons d n => have := h d.1; simp [read] at this
  | cons c m ih =>
    cases n with
    | nil => have := h c.1; simp [read] at this
    | cons d n =>
      obtain ⟨hm1, hm2⟩ := List.pairwise_cons.mp hm
      obtain ⟨hn1, hn2⟩ := List.pairwise_cons.mp hn
      have hcd : c.1 = d.1 := by
        by_contra hne
        rcases Nat.lt_or_gt_of_ne hne with hlt | hlt
        · have e := h c.1
          simp only [read, if_true] at e
          rw [if_neg (by omega), none_below n c.1 (fun x hx => hlt.trans (hn1 x hx))] at e
          simp at e
        · have e := h d.1
          simp only [read, if_true] at e
          rw [if_neg (by omega), none_below m d.1 (fun x hx => hlt.trans (hm1 x hx))] at e
          simp at e
      have hv : c.2 = d.2 := by
        have e := h c.1
        simp only [read, if_true, hcd] at e
        simpa using e
      have hmn : m = n := by
        apply ih n hm2 hn2
        intro a
        have e := h a
        simp only [read] at e
        by_cases ha : c.1 = a
        · rw [none_below m a (fun x hx => ha ▸ hm1 x hx), none_below n a (fun x hx => by have := hn1 x hx; omega)]
        · rw [if_neg ha, if_neg (by omega)] at e
          exact e
      rw [hmn]
      have : c = d := Prod.ext hcd hv
      rw [this]

/-! ## Bytes and words -/

/-- The byte read after a write. -/
theorem byteAt_write (m : Memory) (free : Nat → Byte) (a b : Nat) (v : Byte) :
    (m.write a v).byteAt free b = if b = a then v else m.byteAt free b := by
  unfold byteAt
  rw [read_write]
  split <;> simp

/-- The bytes of a stored word, and every other byte as before. -/
theorem byteAt_storeWord (m : Memory) (free : Nat → Byte) (a b : Nat) (w : Word) :
    (m.storeWord a w).byteAt free b
      = if a ≤ b ∧ b < a + 4 then byteOf w (b - a) else m.byteAt free b := by
  unfold storeWord
  simp only [byteAt_write]
  by_cases h : a ≤ b ∧ b < a + 4
  · obtain ⟨i, hi, rfl⟩ : ∃ i, i < 4 ∧ b = a + i := ⟨b - a, by omega, by omega⟩
    rw [if_pos h]
    have : i = 0 ∨ i = 1 ∨ i = 2 ∨ i = 3 := by omega
    rcases this with rfl | rfl | rfl | rfl <;> simp
  · rw [if_neg h]
    rw [if_neg (by omega), if_neg (by omega), if_neg (by omega), if_neg (by omega)]

theorem byteAt_storeWord_outside (m : Memory) (free : Nat → Byte) (a b : Nat) (w : Word) (h : b < a ∨ a + 4 ≤ b) :
    (m.storeWord a w).byteAt free b = m.byteAt free b := by
  rw [byteAt_storeWord, if_neg (by omega)]

theorem wordOfBytes_byteOf (w : Word) : wordOfBytes (byteOf w 0) (byteOf w 1) (byteOf w 2) (byteOf w 3) = w := by
  unfold wordOfBytes byteOf
  apply BitVec.eq_of_getLsbD_eq
  intro i hi
  simp only [BitVec.getLsbD_append, BitVec.getLsbD_extractLsb']
  split
  · rw [decide_eq_true (by omega), Bool.true_and]; congr 1; omega
  · split
    · rw [decide_eq_true (by omega), Bool.true_and]; congr 1; omega
    · split
      · rw [decide_eq_true (by omega), Bool.true_and]; congr 1; omega
      · rw [decide_eq_true (by omega), Bool.true_and]; congr 1; omega

/-- A stored word reads back (R81). -/
theorem loadWord_storeWord_same (m : Memory) (free : Nat → Byte) (a : Nat) (w : Word) :
    (m.storeWord a w).loadWord free a = w := by
  unfold loadWord
  simp only [byteAt_storeWord]
  rw [if_pos (by omega), if_pos (by omega), if_pos (by omega), if_pos (by omega)]
  simpa using wordOfBytes_byteOf w

/-- A store leaves the words that do not overlap it. -/
theorem loadWord_storeWord_other (m : Memory) (free : Nat → Byte) (a b : Nat) (w : Word) (h : b + 4 ≤ a ∨ a + 4 ≤ b) :
    (m.storeWord a w).loadWord free b = m.loadWord free b := by
  unfold loadWord
  rw [byteAt_storeWord_outside _ _ _ _ _ (by omega), byteAt_storeWord_outside _ _ _ _ _ (by omega),
    byteAt_storeWord_outside _ _ _ _ _ (by omega), byteAt_storeWord_outside _ _ _ _ _ (by omega)]

theorem wf_storeWord (m : Memory) (a : Nat) (w : Word) (h : m.wf) : (m.storeWord a w).wf := by
  unfold storeWord
  exact wf_write _ _ _ (wf_write _ _ _ (wf_write _ _ _ (wf_write _ _ _ h)))

/-- A store lists only its own four addresses and those listed before. -/
theorem mem_storeWord (m : Memory) (a : Nat) (w : Word) (c : Host.Cell) (h : c ∈ m.storeWord a w) :
    (a ≤ c.1 ∧ c.1 < a + 4) ∨ c ∈ m := by
  unfold storeWord at h
  rcases mem_write _ _ _ _ h with rfl | h
  · exact Or.inl ⟨by simp, by simp⟩
  rcases mem_write _ _ _ _ h with rfl | h
  · exact Or.inl ⟨by simp, by simp⟩
  rcases mem_write _ _ _ _ h with rfl | h
  · exact Or.inl ⟨by simp, by simp⟩
  rcases mem_write _ _ _ _ h with rfl | h
  · exact Or.inl ⟨by simp, by simp⟩
  · exact Or.inr h

theorem wf_storeDWord (m : Memory) (a : Nat) (d : DWord) (h : m.wf) : (m.storeDWord a d).wf :=
  wf_storeWord _ _ _ (wf_storeWord _ _ _ h)

theorem mem_storeDWord (m : Memory) (a : Nat) (d : DWord) (c : Host.Cell) (h : c ∈ m.storeDWord a d) :
    (a ≤ c.1 ∧ c.1 < a + 8) ∨ c ∈ m := by
  rcases mem_storeWord _ _ _ _ h with h | h
  · exact Or.inl (by omega)
  · rcases mem_storeWord _ _ _ _ h with h | h
    · exact Or.inl (by omega)
    · exact Or.inr h

theorem byteAt_storeDWord_outside (m : Memory) (free : Nat → Byte) (a b : Nat) (d : DWord) (h : b < a ∨ a + 8 ≤ b) :
    (m.storeDWord a d).byteAt free b = m.byteAt free b := by
  unfold storeDWord
  rw [byteAt_storeWord_outside _ _ _ _ _ (by omega), byteAt_storeWord_outside _ _ _ _ _ (by omega)]

/-- A stored f64 reads back as its two words, the low word at the lower address (R66). -/
theorem loadWord_storeDWord (m : Memory) (free : Nat → Byte) (a : Nat) (d : DWord) :
    (m.storeDWord a d).loadWord free a = d.extractLsb' 0 32
    ∧ (m.storeDWord a d).loadWord free (a + 4) = d.extractLsb' 32 32 := by
  unfold storeDWord
  refine ⟨?_, loadWord_storeWord_same _ _ _ _⟩
  rw [loadWord_storeWord_other _ _ _ _ _ (by omega), loadWord_storeWord_same]

end Memory

/-! ## The response RAM's writes -/

theorem wf_writeResponses (f : Nat → DWord) (n : Nat) : ∀ (i : Nat) (m : Memory), m.wf → (writeResponses f n i m).wf := by
  induction n with
  | zero => intro i m h; exact h
  | succ n ih => intro i m h; exact ih _ _ (Memory.wf_storeDWord _ _ _ h)

theorem mem_writeResponses (f : Nat → DWord) (n : Nat) : ∀ (i : Nat) (m : Memory) (c : Host.Cell),
    c ∈ writeResponses f n i m → (respAddr i ≤ c.1 ∧ c.1 < respAddr (i + n)) ∨ c ∈ m := by
  induction n with
  | zero => intro i m c h; exact Or.inr h
  | succ n ih =>
    intro i m c h
    rcases ih _ _ _ h with h | h
    · left; unfold respAddr at *; omega
    · rcases Memory.mem_storeDWord _ _ _ _ h with h | h
      · left; unfold respAddr at *; omega
      · exact Or.inr h

/-- Bytes outside the written entries read as before. -/
theorem byteAt_writeResponses_outside (f : Nat → DWord) (free : Nat → Byte) (n : Nat) : ∀ (i : Nat) (m : Memory) (a : Nat),
    (a < respAddr i ∨ respAddr (i + n) ≤ a) → (writeResponses f n i m).byteAt free a = m.byteAt free a := by
  induction n with
  | zero => intro i m a h; rfl
  | succ n ih =>
    intro i m a h
    have h1 := ih (i + 1) (m.storeDWord (respAddr i) (f i)) a (by unfold respAddr at *; omega)
    rw [Memory.byteAt_storeDWord_outside _ _ _ _ _ (by unfold respAddr at *; omega)] at h1
    exact h1

end Sys2Proof.Machine
end

