-- ==== Sys2Proof/Laws/State.lean ====
section
/-! SUPPORT. What each named update of the state does to each field, one lemma per field, so that no proof unfolds a
record update. -/

namespace Sys2Proof.Machine

/-! ## raiseError -/

@[simp] theorem raiseError_aErr_unprepared (s : State) : (raiseError .aUnprepared s).aErr = { s.aErr with unprepared := true } := rfl
@[simp] theorem raiseError_aErr_illegalCmd (s : State) : (raiseError .aIllegalCmd s).aErr = { s.aErr with illegalCmd := true } := rfl
@[simp] theorem raiseError_aErr_badFs (s : State) : (raiseError .aBadFs s).aErr = { s.aErr with badFs := true } := rfl
@[simp] theorem raiseError_aErr_badBlock (s : State) : (raiseError .aBadBlock s).aErr = { s.aErr with badBlock := true } := rfl
@[simp] theorem raiseError_aErr_badAccess (s : State) : (raiseError .aBadAccess s).aErr = { s.aErr with badAccess := true } := rfl
@[simp] theorem raiseError_cErr_illegalCmd (s : State) : (raiseError .cIllegalCmd s).cErr = { s.cErr with illegalCmd := true } := rfl
@[simp] theorem raiseError_cErr_badWidth (s : State) : (raiseError .cBadWidth s).cErr = { s.cErr with badWidth := true } := rfl
@[simp] theorem raiseError_cErr_badFs (s : State) : (raiseError .cBadFs s).cErr = { s.cErr with badFs := true } := rfl
@[simp] theorem raiseError_cErr_badAccess (s : State) : (raiseError .cBadAccess s).cErr = { s.cErr with badAccess := true } := rfl
@[simp] theorem raiseError_delay (e : ErrorBit) (s : State) : (raiseError e s).delay = s.delay := by cases e <;> rfl
@[simp] theorem raiseError_active (e : ErrorBit) (s : State) : (raiseError e s).active = s.active :=
  by cases e <;> rfl
@[simp] theorem raiseError_snap (e : ErrorBit) (s : State) : (raiseError e s).snap = s.snap := by cases e <;> rfl
@[simp] theorem raiseError_params (e : ErrorBit) (s : State) : (raiseError e s).params = s.params :=
  by cases e <;> rfl
@[simp] theorem raiseError_last (e : ErrorBit) (s : State) : (raiseError e s).last = s.last := by cases e <;> rfl
@[simp] theorem raiseError_dirty (e : ErrorBit) (s : State) : (raiseError e s).dirty = s.dirty := by cases e <;> rfl
@[simp] theorem raiseError_paramClamped (e : ErrorBit) (s : State) : (raiseError e s).paramClamped = s.paramClamped :=
  by cases e <;> rfl
@[simp] theorem raiseError_engFs (e : ErrorBit) (s : State) : (raiseError e s).engFs = s.engFs := by cases e <;> rfl
@[simp] theorem raiseError_maxBlock (e : ErrorBit) (s : State) : (raiseError e s).maxBlock = s.maxBlock :=
  by cases e <;> rfl
@[simp] theorem raiseError_prepared (e : ErrorBit) (s : State) : (raiseError e s).prepared = s.prepared :=
  by cases e <;> rfl
@[simp] theorem raiseError_aFs (e : ErrorBit) (s : State) : (raiseError e s).aFs = s.aFs := by cases e <;> rfl
@[simp] theorem raiseError_cRespFs (e : ErrorBit) (s : State) : (raiseError e s).cRespFs = s.cRespFs :=
  by cases e <;> rfl
@[simp] theorem raiseError_fault (e : ErrorBit) (s : State) : (raiseError e s).fault = s.fault := by cases e <;> rfl
@[simp] theorem raiseError_blk (e : ErrorBit) (s : State) : (raiseError e s).blk = s.blk := by cases e <;> rfl
@[simp] theorem raiseError_ramA (e : ErrorBit) (s : State) : (raiseError e s).ramA = s.ramA := by cases e <;> rfl
@[simp] theorem raiseError_ramC (e : ErrorBit) (s : State) : (raiseError e s).ramC = s.ramC := by cases e <;> rfl
@[simp] theorem raiseError_turns (e : ErrorBit) (s : State) : (raiseError e s).turns = s.turns := by cases e <;> rfl
@[simp] theorem raiseError_pendingA (e : ErrorBit) (s : State) : (raiseError e s).pendingA = s.pendingA :=
  by cases e <;> rfl
@[simp] theorem raiseError_pendingC (e : ErrorBit) (s : State) : (raiseError e s).pendingC = s.pendingC :=
  by cases e <;> rfl
@[simp] theorem raiseError_repliesA (e : ErrorBit) (s : State) : (raiseError e s).repliesA = s.repliesA :=
  by cases e <;> rfl
@[simp] theorem raiseError_repliesC (e : ErrorBit) (s : State) : (raiseError e s).repliesC = s.repliesC :=
  by cases e <;> rfl
@[simp] theorem raiseError_run (e : ErrorBit) (s : State) : (raiseError e s).run = s.run := by cases e <;> rfl
@[simp] theorem raiseError_bases (e : ErrorBit) (s : State) : (raiseError e s).bases = s.bases := by cases e <;> rfl

/-! ## raiseIf -/

@[simp] theorem raiseIf_true (e : ErrorBit) (s : State) : raiseIf true e s = raiseError e s := rfl
@[simp] theorem raiseIf_false (e : ErrorBit) (s : State) : raiseIf false e s = s := rfl
@[simp] theorem raiseIf_delay (b : Bool) (e : ErrorBit) (s : State) : (raiseIf b e s).delay = s.delay :=
  by cases b <;> cases e <;> rfl
@[simp] theorem raiseIf_active (b : Bool) (e : ErrorBit) (s : State) : (raiseIf b e s).active = s.active :=
  by cases b <;> cases e <;> rfl
@[simp] theorem raiseIf_snap (b : Bool) (e : ErrorBit) (s : State) : (raiseIf b e s).snap = s.snap :=
  by cases b <;> cases e <;> rfl
@[simp] theorem raiseIf_params (b : Bool) (e : ErrorBit) (s : State) : (raiseIf b e s).params = s.params :=
  by cases b <;> cases e <;> rfl
@[simp] theorem raiseIf_last (b : Bool) (e : ErrorBit) (s : State) : (raiseIf b e s).last = s.last :=
  by cases b <;> cases e <;> rfl
@[simp] theorem raiseIf_dirty (b : Bool) (e : ErrorBit) (s : State) : (raiseIf b e s).dirty = s.dirty :=
  by cases b <;> cases e <;> rfl
@[simp] theorem raiseIf_paramClamped (b : Bool) (e : ErrorBit) (s : State) : (raiseIf b e s).paramClamped = s.paramClamped :=
  by cases b <;> cases e <;> rfl
@[simp] theorem raiseIf_engFs (b : Bool) (e : ErrorBit) (s : State) : (raiseIf b e s).engFs = s.engFs :=
  by cases b <;> cases e <;> rfl
@[simp] theorem raiseIf_maxBlock (b : Bool) (e : ErrorBit) (s : State) : (raiseIf b e s).maxBlock = s.maxBlock :=
  by cases b <;> cases e <;> rfl
@[simp] theorem raiseIf_prepared (b : Bool) (e : ErrorBit) (s : State) : (raiseIf b e s).prepared = s.prepared :=
  by cases b <;> cases e <;> rfl
@[simp] theorem raiseIf_aFs (b : Bool) (e : ErrorBit) (s : State) : (raiseIf b e s).aFs = s.aFs :=
  by cases b <;> cases e <;> rfl
@[simp] theorem raiseIf_cRespFs (b : Bool) (e : ErrorBit) (s : State) : (raiseIf b e s).cRespFs = s.cRespFs :=
  by cases b <;> cases e <;> rfl
@[simp] theorem raiseIf_fault (b : Bool) (e : ErrorBit) (s : State) : (raiseIf b e s).fault = s.fault :=
  by cases b <;> cases e <;> rfl
@[simp] theorem raiseIf_blk (b : Bool) (e : ErrorBit) (s : State) : (raiseIf b e s).blk = s.blk :=
  by cases b <;> cases e <;> rfl
@[simp] theorem raiseIf_ramA (b : Bool) (e : ErrorBit) (s : State) : (raiseIf b e s).ramA = s.ramA :=
  by cases b <;> cases e <;> rfl
@[simp] theorem raiseIf_ramC (b : Bool) (e : ErrorBit) (s : State) : (raiseIf b e s).ramC = s.ramC :=
  by cases b <;> cases e <;> rfl
@[simp] theorem raiseIf_turns (b : Bool) (e : ErrorBit) (s : State) : (raiseIf b e s).turns = s.turns :=
  by cases b <;> cases e <;> rfl
@[simp] theorem raiseIf_pendingA (b : Bool) (e : ErrorBit) (s : State) : (raiseIf b e s).pendingA = s.pendingA :=
  by cases b <;> cases e <;> rfl
@[simp] theorem raiseIf_pendingC (b : Bool) (e : ErrorBit) (s : State) : (raiseIf b e s).pendingC = s.pendingC :=
  by cases b <;> cases e <;> rfl
@[simp] theorem raiseIf_repliesA (b : Bool) (e : ErrorBit) (s : State) : (raiseIf b e s).repliesA = s.repliesA :=
  by cases b <;> cases e <;> rfl
@[simp] theorem raiseIf_repliesC (b : Bool) (e : ErrorBit) (s : State) : (raiseIf b e s).repliesC = s.repliesC :=
  by cases b <;> cases e <;> rfl
@[simp] theorem raiseIf_run (b : Bool) (e : ErrorBit) (s : State) : (raiseIf b e s).run = s.run :=
  by cases b <;> cases e <;> rfl
@[simp] theorem raiseIf_bases (b : Bool) (e : ErrorBit) (s : State) : (raiseIf b e s).bases = s.bases :=
  by cases b <;> cases e <;> rfl

/-! ## raiseAccess -/

@[simp] theorem raiseAccess_a (s : State) : raiseAccess .a s = raiseError .aBadAccess s := rfl
@[simp] theorem raiseAccess_c (s : State) : raiseAccess .c s = raiseError .cBadAccess s := rfl
@[simp] theorem raiseAccess_delay (p : Port) (s : State) : (raiseAccess p s).delay = s.delay := by cases p <;> rfl
@[simp] theorem raiseAccess_active (p : Port) (s : State) : (raiseAccess p s).active = s.active := by cases p <;> rfl
@[simp] theorem raiseAccess_snap (p : Port) (s : State) : (raiseAccess p s).snap = s.snap := by cases p <;> rfl
@[simp] theorem raiseAccess_params (p : Port) (s : State) : (raiseAccess p s).params = s.params := by cases p <;> rfl
@[simp] theorem raiseAccess_last (p : Port) (s : State) : (raiseAccess p s).last = s.last := by cases p <;> rfl
@[simp] theorem raiseAccess_dirty (p : Port) (s : State) : (raiseAccess p s).dirty = s.dirty := by cases p <;> rfl
@[simp] theorem raiseAccess_paramClamped (p : Port) (s : State) : (raiseAccess p s).paramClamped = s.paramClamped :=
  by cases p <;> rfl
@[simp] theorem raiseAccess_engFs (p : Port) (s : State) : (raiseAccess p s).engFs = s.engFs := by cases p <;> rfl
@[simp] theorem raiseAccess_maxBlock (p : Port) (s : State) : (raiseAccess p s).maxBlock = s.maxBlock :=
  by cases p <;> rfl
@[simp] theorem raiseAccess_prepared (p : Port) (s : State) : (raiseAccess p s).prepared = s.prepared :=
  by cases p <;> rfl
@[simp] theorem raiseAccess_aFs (p : Port) (s : State) : (raiseAccess p s).aFs = s.aFs := by cases p <;> rfl
@[simp] theorem raiseAccess_cRespFs (p : Port) (s : State) : (raiseAccess p s).cRespFs = s.cRespFs :=
  by cases p <;> rfl
@[simp] theorem raiseAccess_fault (p : Port) (s : State) : (raiseAccess p s).fault = s.fault := by cases p <;> rfl
@[simp] theorem raiseAccess_blk (p : Port) (s : State) : (raiseAccess p s).blk = s.blk := by cases p <;> rfl
@[simp] theorem raiseAccess_ramA (p : Port) (s : State) : (raiseAccess p s).ramA = s.ramA := by cases p <;> rfl
@[simp] theorem raiseAccess_ramC (p : Port) (s : State) : (raiseAccess p s).ramC = s.ramC := by cases p <;> rfl
@[simp] theorem raiseAccess_turns (p : Port) (s : State) : (raiseAccess p s).turns = s.turns := by cases p <;> rfl
@[simp] theorem raiseAccess_pendingA (p : Port) (s : State) : (raiseAccess p s).pendingA = s.pendingA :=
  by cases p <;> rfl
@[simp] theorem raiseAccess_pendingC (p : Port) (s : State) : (raiseAccess p s).pendingC = s.pendingC :=
  by cases p <;> rfl
@[simp] theorem raiseAccess_repliesA (p : Port) (s : State) : (raiseAccess p s).repliesA = s.repliesA :=
  by cases p <;> rfl
@[simp] theorem raiseAccess_repliesC (p : Port) (s : State) : (raiseAccess p s).repliesC = s.repliesC :=
  by cases p <;> rfl
@[simp] theorem raiseAccess_run (p : Port) (s : State) : (raiseAccess p s).run = s.run := by cases p <;> rfl
@[simp] theorem raiseAccess_bases (p : Port) (s : State) : (raiseAccess p s).bases = s.bases := by cases p <;> rfl

/-! ## raiseIllegal -/

@[simp] theorem raiseIllegal_a (s : State) : raiseIllegal .a s = raiseError .aIllegalCmd s := rfl
@[simp] theorem raiseIllegal_c (s : State) : raiseIllegal .c s = raiseError .cIllegalCmd s := rfl
@[simp] theorem raiseIllegal_delay (p : Port) (s : State) : (raiseIllegal p s).delay = s.delay := by cases p <;> rfl
@[simp] theorem raiseIllegal_active (p : Port) (s : State) : (raiseIllegal p s).active = s.active :=
  by cases p <;> rfl
@[simp] theorem raiseIllegal_snap (p : Port) (s : State) : (raiseIllegal p s).snap = s.snap := by cases p <;> rfl
@[simp] theorem raiseIllegal_params (p : Port) (s : State) : (raiseIllegal p s).params = s.params :=
  by cases p <;> rfl
@[simp] theorem raiseIllegal_last (p : Port) (s : State) : (raiseIllegal p s).last = s.last := by cases p <;> rfl
@[simp] theorem raiseIllegal_dirty (p : Port) (s : State) : (raiseIllegal p s).dirty = s.dirty := by cases p <;> rfl
@[simp] theorem raiseIllegal_paramClamped (p : Port) (s : State) : (raiseIllegal p s).paramClamped = s.paramClamped :=
  by cases p <;> rfl
@[simp] theorem raiseIllegal_engFs (p : Port) (s : State) : (raiseIllegal p s).engFs = s.engFs := by cases p <;> rfl
@[simp] theorem raiseIllegal_maxBlock (p : Port) (s : State) : (raiseIllegal p s).maxBlock = s.maxBlock :=
  by cases p <;> rfl
@[simp] theorem raiseIllegal_prepared (p : Port) (s : State) : (raiseIllegal p s).prepared = s.prepared :=
  by cases p <;> rfl
@[simp] theorem raiseIllegal_aFs (p : Port) (s : State) : (raiseIllegal p s).aFs = s.aFs := by cases p <;> rfl
@[simp] theorem raiseIllegal_cRespFs (p : Port) (s : State) : (raiseIllegal p s).cRespFs = s.cRespFs :=
  by cases p <;> rfl
@[simp] theorem raiseIllegal_fault (p : Port) (s : State) : (raiseIllegal p s).fault = s.fault := by cases p <;> rfl
@[simp] theorem raiseIllegal_blk (p : Port) (s : State) : (raiseIllegal p s).blk = s.blk := by cases p <;> rfl
@[simp] theorem raiseIllegal_ramA (p : Port) (s : State) : (raiseIllegal p s).ramA = s.ramA := by cases p <;> rfl
@[simp] theorem raiseIllegal_ramC (p : Port) (s : State) : (raiseIllegal p s).ramC = s.ramC := by cases p <;> rfl
@[simp] theorem raiseIllegal_turns (p : Port) (s : State) : (raiseIllegal p s).turns = s.turns := by cases p <;> rfl
@[simp] theorem raiseIllegal_pendingA (p : Port) (s : State) : (raiseIllegal p s).pendingA = s.pendingA :=
  by cases p <;> rfl
@[simp] theorem raiseIllegal_pendingC (p : Port) (s : State) : (raiseIllegal p s).pendingC = s.pendingC :=
  by cases p <;> rfl
@[simp] theorem raiseIllegal_repliesA (p : Port) (s : State) : (raiseIllegal p s).repliesA = s.repliesA :=
  by cases p <;> rfl
@[simp] theorem raiseIllegal_repliesC (p : Port) (s : State) : (raiseIllegal p s).repliesC = s.repliesC :=
  by cases p <;> rfl
@[simp] theorem raiseIllegal_run (p : Port) (s : State) : (raiseIllegal p s).run = s.run := by cases p <;> rfl
@[simp] theorem raiseIllegal_bases (p : Port) (s : State) : (raiseIllegal p s).bases = s.bases := by cases p <;> rfl

/-! ## setParam -/

@[simp] theorem setParam_params (f : Field) (v : Word) (s : State) : (setParam f v s).params = s.params.set f v := rfl
@[simp] theorem setParam_dirty (f : Field) (v : Word) (s : State) : (setParam f v s).dirty = true := rfl
@[simp] theorem setParam_delay (f : Field) (v : Word) (s : State) : (setParam f v s).delay = s.delay := rfl
@[simp] theorem setParam_active (f : Field) (v : Word) (s : State) : (setParam f v s).active = s.active := rfl
@[simp] theorem setParam_snap (f : Field) (v : Word) (s : State) : (setParam f v s).snap = s.snap := rfl
@[simp] theorem setParam_last (f : Field) (v : Word) (s : State) : (setParam f v s).last = s.last := rfl
@[simp] theorem setParam_paramClamped (f : Field) (v : Word) (s : State) : (setParam f v s).paramClamped = s.paramClamped :=
  rfl
@[simp] theorem setParam_engFs (f : Field) (v : Word) (s : State) : (setParam f v s).engFs = s.engFs := rfl
@[simp] theorem setParam_maxBlock (f : Field) (v : Word) (s : State) : (setParam f v s).maxBlock = s.maxBlock := rfl
@[simp] theorem setParam_prepared (f : Field) (v : Word) (s : State) : (setParam f v s).prepared = s.prepared := rfl
@[simp] theorem setParam_aFs (f : Field) (v : Word) (s : State) : (setParam f v s).aFs = s.aFs := rfl
@[simp] theorem setParam_cRespFs (f : Field) (v : Word) (s : State) : (setParam f v s).cRespFs = s.cRespFs := rfl
@[simp] theorem setParam_fault (f : Field) (v : Word) (s : State) : (setParam f v s).fault = s.fault := rfl
@[simp] theorem setParam_aErr (f : Field) (v : Word) (s : State) : (setParam f v s).aErr = s.aErr := rfl
@[simp] theorem setParam_cErr (f : Field) (v : Word) (s : State) : (setParam f v s).cErr = s.cErr := rfl
@[simp] theorem setParam_blk (f : Field) (v : Word) (s : State) : (setParam f v s).blk = s.blk := rfl
@[simp] theorem setParam_ramA (f : Field) (v : Word) (s : State) : (setParam f v s).ramA = s.ramA := rfl
@[simp] theorem setParam_ramC (f : Field) (v : Word) (s : State) : (setParam f v s).ramC = s.ramC := rfl
@[simp] theorem setParam_turns (f : Field) (v : Word) (s : State) : (setParam f v s).turns = s.turns := rfl
@[simp] theorem setParam_pendingA (f : Field) (v : Word) (s : State) : (setParam f v s).pendingA = s.pendingA := rfl
@[simp] theorem setParam_pendingC (f : Field) (v : Word) (s : State) : (setParam f v s).pendingC = s.pendingC := rfl
@[simp] theorem setParam_repliesA (f : Field) (v : Word) (s : State) : (setParam f v s).repliesA = s.repliesA := rfl
@[simp] theorem setParam_repliesC (f : Field) (v : Word) (s : State) : (setParam f v s).repliesC = s.repliesC := rfl
@[simp] theorem setParam_run (f : Field) (v : Word) (s : State) : (setParam f v s).run = s.run := rfl
@[simp] theorem setParam_bases (f : Field) (v : Word) (s : State) : (setParam f v s).bases = s.bases := rfl

/-! ## commit -/

@[simp] theorem commit_active (cfg : Configuration) (c : Bool) (s : State) : (commit cfg c s).active = cfg := rfl
@[simp] theorem commit_snap (cfg : Configuration) (c : Bool) (s : State) : (commit cfg c s).snap = cfg := rfl
@[simp] theorem commit_paramClamped (cfg : Configuration) (c : Bool) (s : State) : (commit cfg c s).paramClamped = (s.paramClamped || c) := rfl
@[simp] theorem commit_delay (cfg : Configuration) (c : Bool) (s : State) : (commit cfg c s).delay = s.delay := rfl
@[simp] theorem commit_params (cfg : Configuration) (c : Bool) (s : State) : (commit cfg c s).params = s.params := rfl
@[simp] theorem commit_last (cfg : Configuration) (c : Bool) (s : State) : (commit cfg c s).last = s.last := rfl
@[simp] theorem commit_dirty (cfg : Configuration) (c : Bool) (s : State) : (commit cfg c s).dirty = s.dirty := rfl
@[simp] theorem commit_engFs (cfg : Configuration) (c : Bool) (s : State) : (commit cfg c s).engFs = s.engFs := rfl
@[simp] theorem commit_maxBlock (cfg : Configuration) (c : Bool) (s : State) : (commit cfg c s).maxBlock = s.maxBlock :=
  rfl
@[simp] theorem commit_prepared (cfg : Configuration) (c : Bool) (s : State) : (commit cfg c s).prepared = s.prepared :=
  rfl
@[simp] theorem commit_aFs (cfg : Configuration) (c : Bool) (s : State) : (commit cfg c s).aFs = s.aFs := rfl
@[simp] theorem commit_cRespFs (cfg : Configuration) (c : Bool) (s : State) : (commit cfg c s).cRespFs = s.cRespFs :=
  rfl
@[simp] theorem commit_fault (cfg : Configuration) (c : Bool) (s : State) : (commit cfg c s).fault = s.fault := rfl
@[simp] theorem commit_aErr (cfg : Configuration) (c : Bool) (s : State) : (commit cfg c s).aErr = s.aErr := rfl
@[simp] theorem commit_cErr (cfg : Configuration) (c : Bool) (s : State) : (commit cfg c s).cErr = s.cErr := rfl
@[simp] theorem commit_blk (cfg : Configuration) (c : Bool) (s : State) : (commit cfg c s).blk = s.blk := rfl
@[simp] theorem commit_ramA (cfg : Configuration) (c : Bool) (s : State) : (commit cfg c s).ramA = s.ramA := rfl
@[simp] theorem commit_ramC (cfg : Configuration) (c : Bool) (s : State) : (commit cfg c s).ramC = s.ramC := rfl
@[simp] theorem commit_turns (cfg : Configuration) (c : Bool) (s : State) : (commit cfg c s).turns = s.turns := rfl
@[simp] theorem commit_pendingA (cfg : Configuration) (c : Bool) (s : State) : (commit cfg c s).pendingA = s.pendingA :=
  rfl
@[simp] theorem commit_pendingC (cfg : Configuration) (c : Bool) (s : State) : (commit cfg c s).pendingC = s.pendingC :=
  rfl
@[simp] theorem commit_repliesA (cfg : Configuration) (c : Bool) (s : State) : (commit cfg c s).repliesA = s.repliesA :=
  rfl
@[simp] theorem commit_repliesC (cfg : Configuration) (c : Bool) (s : State) : (commit cfg c s).repliesC = s.repliesC :=
  rfl
@[simp] theorem commit_run (cfg : Configuration) (c : Bool) (s : State) : (commit cfg c s).run = s.run := rfl
@[simp] theorem commit_bases (cfg : Configuration) (c : Bool) (s : State) : (commit cfg c s).bases = s.bases := rfl

/-! ## startBlock -/

@[simp] theorem startBlock_blk (n : Nat) (s : State) : (startBlock n s).blk = ⟨true, n, 0⟩ := rfl
@[simp] theorem startBlock_delay (n : Nat) (s : State) : (startBlock n s).delay = s.delay := rfl
@[simp] theorem startBlock_active (n : Nat) (s : State) : (startBlock n s).active = s.active := rfl
@[simp] theorem startBlock_snap (n : Nat) (s : State) : (startBlock n s).snap = s.snap := rfl
@[simp] theorem startBlock_params (n : Nat) (s : State) : (startBlock n s).params = s.params := rfl
@[simp] theorem startBlock_last (n : Nat) (s : State) : (startBlock n s).last = s.last := rfl
@[simp] theorem startBlock_dirty (n : Nat) (s : State) : (startBlock n s).dirty = s.dirty := rfl
@[simp] theorem startBlock_paramClamped (n : Nat) (s : State) : (startBlock n s).paramClamped = s.paramClamped := rfl
@[simp] theorem startBlock_engFs (n : Nat) (s : State) : (startBlock n s).engFs = s.engFs := rfl
@[simp] theorem startBlock_maxBlock (n : Nat) (s : State) : (startBlock n s).maxBlock = s.maxBlock := rfl
@[simp] theorem startBlock_prepared (n : Nat) (s : State) : (startBlock n s).prepared = s.prepared := rfl
@[simp] theorem startBlock_aFs (n : Nat) (s : State) : (startBlock n s).aFs = s.aFs := rfl
@[simp] theorem startBlock_cRespFs (n : Nat) (s : State) : (startBlock n s).cRespFs = s.cRespFs := rfl
@[simp] theorem startBlock_fault (n : Nat) (s : State) : (startBlock n s).fault = s.fault := rfl
@[simp] theorem startBlock_aErr (n : Nat) (s : State) : (startBlock n s).aErr = s.aErr := rfl
@[simp] theorem startBlock_cErr (n : Nat) (s : State) : (startBlock n s).cErr = s.cErr := rfl
@[simp] theorem startBlock_ramA (n : Nat) (s : State) : (startBlock n s).ramA = s.ramA := rfl
@[simp] theorem startBlock_ramC (n : Nat) (s : State) : (startBlock n s).ramC = s.ramC := rfl
@[simp] theorem startBlock_turns (n : Nat) (s : State) : (startBlock n s).turns = s.turns := rfl
@[simp] theorem startBlock_pendingA (n : Nat) (s : State) : (startBlock n s).pendingA = s.pendingA := rfl
@[simp] theorem startBlock_pendingC (n : Nat) (s : State) : (startBlock n s).pendingC = s.pendingC := rfl
@[simp] theorem startBlock_repliesA (n : Nat) (s : State) : (startBlock n s).repliesA = s.repliesA := rfl
@[simp] theorem startBlock_repliesC (n : Nat) (s : State) : (startBlock n s).repliesC = s.repliesC := rfl
@[simp] theorem startBlock_run (n : Nat) (s : State) : (startBlock n s).run = s.run := rfl
@[simp] theorem startBlock_bases (n : Nat) (s : State) : (startBlock n s).bases = s.bases := rfl

/-! ## advanceBlock -/

@[simp] theorem advanceBlock_blk (s : State) : (advanceBlock s).blk = ⟨s.blk.busy, s.blk.n, s.blk.k + 1⟩ := rfl
@[simp] theorem advanceBlock_delay (s : State) : (advanceBlock s).delay = s.delay := rfl
@[simp] theorem advanceBlock_active (s : State) : (advanceBlock s).active = s.active := rfl
@[simp] theorem advanceBlock_snap (s : State) : (advanceBlock s).snap = s.snap := rfl
@[simp] theorem advanceBlock_params (s : State) : (advanceBlock s).params = s.params := rfl
@[simp] theorem advanceBlock_last (s : State) : (advanceBlock s).last = s.last := rfl
@[simp] theorem advanceBlock_dirty (s : State) : (advanceBlock s).dirty = s.dirty := rfl
@[simp] theorem advanceBlock_paramClamped (s : State) : (advanceBlock s).paramClamped = s.paramClamped := rfl
@[simp] theorem advanceBlock_engFs (s : State) : (advanceBlock s).engFs = s.engFs := rfl
@[simp] theorem advanceBlock_maxBlock (s : State) : (advanceBlock s).maxBlock = s.maxBlock := rfl
@[simp] theorem advanceBlock_prepared (s : State) : (advanceBlock s).prepared = s.prepared := rfl
@[simp] theorem advanceBlock_aFs (s : State) : (advanceBlock s).aFs = s.aFs := rfl
@[simp] theorem advanceBlock_cRespFs (s : State) : (advanceBlock s).cRespFs = s.cRespFs := rfl
@[simp] theorem advanceBlock_fault (s : State) : (advanceBlock s).fault = s.fault := rfl
@[simp] theorem advanceBlock_aErr (s : State) : (advanceBlock s).aErr = s.aErr := rfl
@[simp] theorem advanceBlock_cErr (s : State) : (advanceBlock s).cErr = s.cErr := rfl
@[simp] theorem advanceBlock_ramA (s : State) : (advanceBlock s).ramA = s.ramA := rfl
@[simp] theorem advanceBlock_ramC (s : State) : (advanceBlock s).ramC = s.ramC := rfl
@[simp] theorem advanceBlock_turns (s : State) : (advanceBlock s).turns = s.turns := rfl
@[simp] theorem advanceBlock_pendingA (s : State) : (advanceBlock s).pendingA = s.pendingA := rfl
@[simp] theorem advanceBlock_pendingC (s : State) : (advanceBlock s).pendingC = s.pendingC := rfl
@[simp] theorem advanceBlock_repliesA (s : State) : (advanceBlock s).repliesA = s.repliesA := rfl
@[simp] theorem advanceBlock_repliesC (s : State) : (advanceBlock s).repliesC = s.repliesC := rfl
@[simp] theorem advanceBlock_run (s : State) : (advanceBlock s).run = s.run := rfl
@[simp] theorem advanceBlock_bases (s : State) : (advanceBlock s).bases = s.bases := rfl

/-! ## endBlock -/

@[simp] theorem endBlock_blk (s : State) : (endBlock s).blk = Blk.idle := rfl
@[simp] theorem endBlock_delay (s : State) : (endBlock s).delay = s.delay := rfl
@[simp] theorem endBlock_active (s : State) : (endBlock s).active = s.active := rfl
@[simp] theorem endBlock_snap (s : State) : (endBlock s).snap = s.snap := rfl
@[simp] theorem endBlock_params (s : State) : (endBlock s).params = s.params := rfl
@[simp] theorem endBlock_last (s : State) : (endBlock s).last = s.last := rfl
@[simp] theorem endBlock_dirty (s : State) : (endBlock s).dirty = s.dirty := rfl
@[simp] theorem endBlock_paramClamped (s : State) : (endBlock s).paramClamped = s.paramClamped := rfl
@[simp] theorem endBlock_engFs (s : State) : (endBlock s).engFs = s.engFs := rfl
@[simp] theorem endBlock_maxBlock (s : State) : (endBlock s).maxBlock = s.maxBlock := rfl
@[simp] theorem endBlock_prepared (s : State) : (endBlock s).prepared = s.prepared := rfl
@[simp] theorem endBlock_aFs (s : State) : (endBlock s).aFs = s.aFs := rfl
@[simp] theorem endBlock_cRespFs (s : State) : (endBlock s).cRespFs = s.cRespFs := rfl
@[simp] theorem endBlock_fault (s : State) : (endBlock s).fault = s.fault := rfl
@[simp] theorem endBlock_aErr (s : State) : (endBlock s).aErr = s.aErr := rfl
@[simp] theorem endBlock_cErr (s : State) : (endBlock s).cErr = s.cErr := rfl
@[simp] theorem endBlock_ramA (s : State) : (endBlock s).ramA = s.ramA := rfl
@[simp] theorem endBlock_ramC (s : State) : (endBlock s).ramC = s.ramC := rfl
@[simp] theorem endBlock_turns (s : State) : (endBlock s).turns = s.turns := rfl
@[simp] theorem endBlock_pendingA (s : State) : (endBlock s).pendingA = s.pendingA := rfl
@[simp] theorem endBlock_pendingC (s : State) : (endBlock s).pendingC = s.pendingC := rfl
@[simp] theorem endBlock_repliesA (s : State) : (endBlock s).repliesA = s.repliesA := rfl
@[simp] theorem endBlock_repliesC (s : State) : (endBlock s).repliesC = s.repliesC := rfl
@[simp] theorem endBlock_run (s : State) : (endBlock s).run = s.run := rfl
@[simp] theorem endBlock_bases (s : State) : (endBlock s).bases = s.bases := rfl

/-! ## reply -/

@[simp] theorem reply_repliesA_a (r : Reply) (s : State) : (reply .a r s).repliesA = r :: s.repliesA := rfl
@[simp] theorem reply_repliesA_c (r : Reply) (s : State) : (reply .c r s).repliesA = s.repliesA := rfl
@[simp] theorem reply_repliesC_a (r : Reply) (s : State) : (reply .a r s).repliesC = s.repliesC := rfl
@[simp] theorem reply_repliesC_c (r : Reply) (s : State) : (reply .c r s).repliesC = r :: s.repliesC := rfl
@[simp] theorem reply_delay (p : Port) (r : Reply) (s : State) : (reply p r s).delay = s.delay := by cases p <;> rfl
@[simp] theorem reply_active (p : Port) (r : Reply) (s : State) : (reply p r s).active = s.active :=
  by cases p <;> rfl
@[simp] theorem reply_snap (p : Port) (r : Reply) (s : State) : (reply p r s).snap = s.snap := by cases p <;> rfl
@[simp] theorem reply_params (p : Port) (r : Reply) (s : State) : (reply p r s).params = s.params :=
  by cases p <;> rfl
@[simp] theorem reply_last (p : Port) (r : Reply) (s : State) : (reply p r s).last = s.last := by cases p <;> rfl
@[simp] theorem reply_dirty (p : Port) (r : Reply) (s : State) : (reply p r s).dirty = s.dirty := by cases p <;> rfl
@[simp] theorem reply_paramClamped (p : Port) (r : Reply) (s : State) : (reply p r s).paramClamped = s.paramClamped :=
  by cases p <;> rfl
@[simp] theorem reply_engFs (p : Port) (r : Reply) (s : State) : (reply p r s).engFs = s.engFs := by cases p <;> rfl
@[simp] theorem reply_maxBlock (p : Port) (r : Reply) (s : State) : (reply p r s).maxBlock = s.maxBlock :=
  by cases p <;> rfl
@[simp] theorem reply_prepared (p : Port) (r : Reply) (s : State) : (reply p r s).prepared = s.prepared :=
  by cases p <;> rfl
@[simp] theorem reply_aFs (p : Port) (r : Reply) (s : State) : (reply p r s).aFs = s.aFs := by cases p <;> rfl
@[simp] theorem reply_cRespFs (p : Port) (r : Reply) (s : State) : (reply p r s).cRespFs = s.cRespFs :=
  by cases p <;> rfl
@[simp] theorem reply_fault (p : Port) (r : Reply) (s : State) : (reply p r s).fault = s.fault := by cases p <;> rfl
@[simp] theorem reply_aErr (p : Port) (r : Reply) (s : State) : (reply p r s).aErr = s.aErr := by cases p <;> rfl
@[simp] theorem reply_cErr (p : Port) (r : Reply) (s : State) : (reply p r s).cErr = s.cErr := by cases p <;> rfl
@[simp] theorem reply_blk (p : Port) (r : Reply) (s : State) : (reply p r s).blk = s.blk := by cases p <;> rfl
@[simp] theorem reply_ramA (p : Port) (r : Reply) (s : State) : (reply p r s).ramA = s.ramA := by cases p <;> rfl
@[simp] theorem reply_ramC (p : Port) (r : Reply) (s : State) : (reply p r s).ramC = s.ramC := by cases p <;> rfl
@[simp] theorem reply_turns (p : Port) (r : Reply) (s : State) : (reply p r s).turns = s.turns := by cases p <;> rfl
@[simp] theorem reply_pendingA (p : Port) (r : Reply) (s : State) : (reply p r s).pendingA = s.pendingA :=
  by cases p <;> rfl
@[simp] theorem reply_pendingC (p : Port) (r : Reply) (s : State) : (reply p r s).pendingC = s.pendingC :=
  by cases p <;> rfl
@[simp] theorem reply_run (p : Port) (r : Reply) (s : State) : (reply p r s).run = s.run := by cases p <;> rfl
@[simp] theorem reply_bases (p : Port) (r : Reply) (s : State) : (reply p r s).bases = s.bases := by cases p <;> rfl

/-! ## storeSample -/

@[simp] theorem storeSample_ramA (s : State) (a : Nat) (w : Word) : (s.storeSample a w).ramA = s.ramA.storeWord a w := rfl
@[simp] theorem storeSample_delay (s : State) (a : Nat) (w : Word) : (s.storeSample a w).delay = s.delay := rfl
@[simp] theorem storeSample_active (s : State) (a : Nat) (w : Word) : (s.storeSample a w).active = s.active := rfl
@[simp] theorem storeSample_snap (s : State) (a : Nat) (w : Word) : (s.storeSample a w).snap = s.snap := rfl
@[simp] theorem storeSample_params (s : State) (a : Nat) (w : Word) : (s.storeSample a w).params = s.params := rfl
@[simp] theorem storeSample_last (s : State) (a : Nat) (w : Word) : (s.storeSample a w).last = s.last := rfl
@[simp] theorem storeSample_dirty (s : State) (a : Nat) (w : Word) : (s.storeSample a w).dirty = s.dirty := rfl
@[simp] theorem storeSample_paramClamped (s : State) (a : Nat) (w : Word) : (s.storeSample a w).paramClamped = s.paramClamped :=
  rfl
@[simp] theorem storeSample_engFs (s : State) (a : Nat) (w : Word) : (s.storeSample a w).engFs = s.engFs := rfl
@[simp] theorem storeSample_maxBlock (s : State) (a : Nat) (w : Word) : (s.storeSample a w).maxBlock = s.maxBlock :=
  rfl
@[simp] theorem storeSample_prepared (s : State) (a : Nat) (w : Word) : (s.storeSample a w).prepared = s.prepared :=
  rfl
@[simp] theorem storeSample_aFs (s : State) (a : Nat) (w : Word) : (s.storeSample a w).aFs = s.aFs := rfl
@[simp] theorem storeSample_cRespFs (s : State) (a : Nat) (w : Word) : (s.storeSample a w).cRespFs = s.cRespFs := rfl
@[simp] theorem storeSample_fault (s : State) (a : Nat) (w : Word) : (s.storeSample a w).fault = s.fault := rfl
@[simp] theorem storeSample_aErr (s : State) (a : Nat) (w : Word) : (s.storeSample a w).aErr = s.aErr := rfl
@[simp] theorem storeSample_cErr (s : State) (a : Nat) (w : Word) : (s.storeSample a w).cErr = s.cErr := rfl
@[simp] theorem storeSample_blk (s : State) (a : Nat) (w : Word) : (s.storeSample a w).blk = s.blk := rfl
@[simp] theorem storeSample_ramC (s : State) (a : Nat) (w : Word) : (s.storeSample a w).ramC = s.ramC := rfl
@[simp] theorem storeSample_turns (s : State) (a : Nat) (w : Word) : (s.storeSample a w).turns = s.turns := rfl
@[simp] theorem storeSample_pendingA (s : State) (a : Nat) (w : Word) : (s.storeSample a w).pendingA = s.pendingA :=
  rfl
@[simp] theorem storeSample_pendingC (s : State) (a : Nat) (w : Word) : (s.storeSample a w).pendingC = s.pendingC :=
  rfl
@[simp] theorem storeSample_repliesA (s : State) (a : Nat) (w : Word) : (s.storeSample a w).repliesA = s.repliesA :=
  rfl
@[simp] theorem storeSample_repliesC (s : State) (a : Nat) (w : Word) : (s.storeSample a w).repliesC = s.repliesC :=
  rfl
@[simp] theorem storeSample_run (s : State) (a : Nat) (w : Word) : (s.storeSample a w).run = s.run := rfl
@[simp] theorem storeSample_bases (s : State) (a : Nat) (w : Word) : (s.storeSample a w).bases = s.bases := rfl

/-! ## clearFaults -/

@[simp] theorem clearFaults_fault (v : Word) (s : State) : (clearFaults v s).fault = s.fault &&& ~~~(v.setWidth 18) := rfl
@[simp] theorem clearFaults_delay (v : Word) (s : State) : (clearFaults v s).delay = s.delay := rfl
@[simp] theorem clearFaults_active (v : Word) (s : State) : (clearFaults v s).active = s.active := rfl
@[simp] theorem clearFaults_snap (v : Word) (s : State) : (clearFaults v s).snap = s.snap := rfl
@[simp] theorem clearFaults_params (v : Word) (s : State) : (clearFaults v s).params = s.params := rfl
@[simp] theorem clearFaults_last (v : Word) (s : State) : (clearFaults v s).last = s.last := rfl
@[simp] theorem clearFaults_dirty (v : Word) (s : State) : (clearFaults v s).dirty = s.dirty := rfl
@[simp] theorem clearFaults_paramClamped (v : Word) (s : State) : (clearFaults v s).paramClamped = s.paramClamped :=
  rfl
@[simp] theorem clearFaults_engFs (v : Word) (s : State) : (clearFaults v s).engFs = s.engFs := rfl
@[simp] theorem clearFaults_maxBlock (v : Word) (s : State) : (clearFaults v s).maxBlock = s.maxBlock := rfl
@[simp] theorem clearFaults_prepared (v : Word) (s : State) : (clearFaults v s).prepared = s.prepared := rfl
@[simp] theorem clearFaults_aFs (v : Word) (s : State) : (clearFaults v s).aFs = s.aFs := rfl
@[simp] theorem clearFaults_cRespFs (v : Word) (s : State) : (clearFaults v s).cRespFs = s.cRespFs := rfl
@[simp] theorem clearFaults_aErr (v : Word) (s : State) : (clearFaults v s).aErr = s.aErr := rfl
@[simp] theorem clearFaults_cErr (v : Word) (s : State) : (clearFaults v s).cErr = s.cErr := rfl
@[simp] theorem clearFaults_blk (v : Word) (s : State) : (clearFaults v s).blk = s.blk := rfl
@[simp] theorem clearFaults_ramA (v : Word) (s : State) : (clearFaults v s).ramA = s.ramA := rfl
@[simp] theorem clearFaults_ramC (v : Word) (s : State) : (clearFaults v s).ramC = s.ramC := rfl
@[simp] theorem clearFaults_turns (v : Word) (s : State) : (clearFaults v s).turns = s.turns := rfl
@[simp] theorem clearFaults_pendingA (v : Word) (s : State) : (clearFaults v s).pendingA = s.pendingA := rfl
@[simp] theorem clearFaults_pendingC (v : Word) (s : State) : (clearFaults v s).pendingC = s.pendingC := rfl
@[simp] theorem clearFaults_repliesA (v : Word) (s : State) : (clearFaults v s).repliesA = s.repliesA := rfl
@[simp] theorem clearFaults_repliesC (v : Word) (s : State) : (clearFaults v s).repliesC = s.repliesC := rfl
@[simp] theorem clearFaults_run (v : Word) (s : State) : (clearFaults v s).run = s.run := rfl
@[simp] theorem clearFaults_bases (v : Word) (s : State) : (clearFaults v s).bases = s.bases := rfl

/-! ## clearClamped -/

@[simp] theorem clearClamped_paramClamped (v : Word) (s : State) : (clearClamped v s).paramClamped = (s.paramClamped && !v.getLsbD 1) := rfl
@[simp] theorem clearClamped_delay (v : Word) (s : State) : (clearClamped v s).delay = s.delay := rfl
@[simp] theorem clearClamped_active (v : Word) (s : State) : (clearClamped v s).active = s.active := rfl
@[simp] theorem clearClamped_snap (v : Word) (s : State) : (clearClamped v s).snap = s.snap := rfl
@[simp] theorem clearClamped_params (v : Word) (s : State) : (clearClamped v s).params = s.params := rfl
@[simp] theorem clearClamped_last (v : Word) (s : State) : (clearClamped v s).last = s.last := rfl
@[simp] theorem clearClamped_dirty (v : Word) (s : State) : (clearClamped v s).dirty = s.dirty := rfl
@[simp] theorem clearClamped_engFs (v : Word) (s : State) : (clearClamped v s).engFs = s.engFs := rfl
@[simp] theorem clearClamped_maxBlock (v : Word) (s : State) : (clearClamped v s).maxBlock = s.maxBlock := rfl
@[simp] theorem clearClamped_prepared (v : Word) (s : State) : (clearClamped v s).prepared = s.prepared := rfl
@[simp] theorem clearClamped_aFs (v : Word) (s : State) : (clearClamped v s).aFs = s.aFs := rfl
@[simp] theorem clearClamped_cRespFs (v : Word) (s : State) : (clearClamped v s).cRespFs = s.cRespFs := rfl
@[simp] theorem clearClamped_fault (v : Word) (s : State) : (clearClamped v s).fault = s.fault := rfl
@[simp] theorem clearClamped_aErr (v : Word) (s : State) : (clearClamped v s).aErr = s.aErr := rfl
@[simp] theorem clearClamped_cErr (v : Word) (s : State) : (clearClamped v s).cErr = s.cErr := rfl
@[simp] theorem clearClamped_blk (v : Word) (s : State) : (clearClamped v s).blk = s.blk := rfl
@[simp] theorem clearClamped_ramA (v : Word) (s : State) : (clearClamped v s).ramA = s.ramA := rfl
@[simp] theorem clearClamped_ramC (v : Word) (s : State) : (clearClamped v s).ramC = s.ramC := rfl
@[simp] theorem clearClamped_turns (v : Word) (s : State) : (clearClamped v s).turns = s.turns := rfl
@[simp] theorem clearClamped_pendingA (v : Word) (s : State) : (clearClamped v s).pendingA = s.pendingA := rfl
@[simp] theorem clearClamped_pendingC (v : Word) (s : State) : (clearClamped v s).pendingC = s.pendingC := rfl
@[simp] theorem clearClamped_repliesA (v : Word) (s : State) : (clearClamped v s).repliesA = s.repliesA := rfl
@[simp] theorem clearClamped_repliesC (v : Word) (s : State) : (clearClamped v s).repliesC = s.repliesC := rfl
@[simp] theorem clearClamped_run (v : Word) (s : State) : (clearClamped v s).run = s.run := rfl
@[simp] theorem clearClamped_bases (v : Word) (s : State) : (clearClamped v s).bases = s.bases := rfl

/-! ## frame -/

@[simp] theorem frame_active (k : Nat) (s : State) : (frame k s).active = s.active := rfl
@[simp] theorem frame_snap (k : Nat) (s : State) : (frame k s).snap = s.snap := rfl
@[simp] theorem frame_params (k : Nat) (s : State) : (frame k s).params = s.params := rfl
@[simp] theorem frame_last (k : Nat) (s : State) : (frame k s).last = s.last := rfl
@[simp] theorem frame_dirty (k : Nat) (s : State) : (frame k s).dirty = s.dirty := rfl
@[simp] theorem frame_paramClamped (k : Nat) (s : State) : (frame k s).paramClamped = s.paramClamped := rfl
@[simp] theorem frame_engFs (k : Nat) (s : State) : (frame k s).engFs = s.engFs := rfl
@[simp] theorem frame_maxBlock (k : Nat) (s : State) : (frame k s).maxBlock = s.maxBlock := rfl
@[simp] theorem frame_prepared (k : Nat) (s : State) : (frame k s).prepared = s.prepared := rfl
@[simp] theorem frame_aFs (k : Nat) (s : State) : (frame k s).aFs = s.aFs := rfl
@[simp] theorem frame_cRespFs (k : Nat) (s : State) : (frame k s).cRespFs = s.cRespFs := rfl
@[simp] theorem frame_aErr (k : Nat) (s : State) : (frame k s).aErr = s.aErr := rfl
@[simp] theorem frame_cErr (k : Nat) (s : State) : (frame k s).cErr = s.cErr := rfl
@[simp] theorem frame_blk (k : Nat) (s : State) : (frame k s).blk = s.blk := rfl
@[simp] theorem frame_ramC (k : Nat) (s : State) : (frame k s).ramC = s.ramC := rfl
@[simp] theorem frame_turns (k : Nat) (s : State) : (frame k s).turns = s.turns := rfl
@[simp] theorem frame_pendingA (k : Nat) (s : State) : (frame k s).pendingA = s.pendingA := rfl
@[simp] theorem frame_pendingC (k : Nat) (s : State) : (frame k s).pendingC = s.pendingC := rfl
@[simp] theorem frame_repliesA (k : Nat) (s : State) : (frame k s).repliesA = s.repliesA := rfl
@[simp] theorem frame_repliesC (k : Nat) (s : State) : (frame k s).repliesC = s.repliesC := rfl
@[simp] theorem frame_run (k : Nat) (s : State) : (frame k s).run = s.run := rfl
@[simp] theorem frame_bases (k : Nat) (s : State) : (frame k s).bases = s.bases := rfl

end Sys2Proof.Machine
end

