-- ==== Sys2Proof/Laws/Step.lean ====
section
/-! SUPPORT. What a command, a bus write and a step can do, each said once as a list of cases, for every later proof to
cite instead of unfolding the machine. -/

namespace Sys2Proof.Machine

@[simp] theorem onNext_next (s : State) (f : State → State) : onNext (.next s) f = .next (f s) := rfl

theorem onNext_eq_next {o : Out} {f : State → State} {t : State} (h : onNext o f = .next t) :
    ∃ u, o = .next u ∧ t = f u := by
  cases o with
  | next u => exact ⟨u, rfl, by simpa [onNext, eq_comm] using h⟩
  | fault r => simp [onNext] at h
  | refused r => simp [onNext] at h

/-- The parameter file after one word is replaced. -/
theorem Params.get_set (p : Params) (f g : Field) (v : Word) :
    (p.set f v).get g = if g = f then v else p.get g := by
  cases f <;> cases g <;> rfl

/-- What a command can do (R180, R181, R182, R200, R201, R221): nothing; raise error bits; start a block; prepare; update;
or write the response. -/
theorem exec_cases (i : Instr) (s t : State) (h : exec i s = .next t) :
    t = s
    ∨ (∃ e, t = raiseError e s)
    ∨ (∃ b c d e, t = raiseIf b c (raiseIf d e s))
    ∨ (∃ n, i = .aProcessBlock n ∧ s.prepared = true ∧ 0 < n ∧ n ≤ s.maxBlock.toNat ∧ t = startBlock n s)
    ∨ (∃ m, i = .aPrepare m ∧ legalRate s.aFs = true ∧ 0 < m ∧ m ≤ Config.bufDepth
        ∧ t = commit (derive s.last s.aFs s.active).1 (derive s.last s.aFs s.active).2
          { s with engFs := s.aFs, maxBlock := BitVec.ofNat 32 m, prepared := true, delay := zeroDelay })
    ∨ (i = .cUpdate ∧ s.prepared = true ∧ s.dirty = true
        ∧ t = commit (derive s.params s.engFs s.active).1 (derive s.params s.engFs s.active).2
          { s with dirty := false, last := s.params })
    ∨ (∃ w, i = .cGetResponse w ∧ w ≤ Config.respDepth ∧ legalRate s.cRespFs = true
        ∧ t = { s with ramC := writeResponses (response s.snap s.cRespFs w) w 0 s.ramC }) := by
  cases i with
  | aNop => left; simpa [exec, execANop, eq_comm] using h
  | cNop => left; simpa [exec, execCNop, eq_comm] using h
  | aPrepare m =>
    simp only [exec, execAPrepare] at h
    split at h
    · right; right; left
      exact ⟨_, _, _, _, by simpa [eq_comm] using h⟩
    · rename_i hb
      simp only [Bool.or_eq_true, Bool.not_eq_true', decide_eq_true_eq, not_or] at hb
      right; right; right; right; left
      exact ⟨m, rfl, by simpa using hb.1, by omega, by omega, by simpa [eq_comm] using h⟩
  | aProcessBlock n =>
    simp only [exec, execAProcessBlock] at h
    split at h
    · right; left; exact ⟨_, by simpa [eq_comm] using h⟩
    · split at h
      · right; left; exact ⟨_, by simpa [eq_comm] using h⟩
      · split at h
        · left; simpa [eq_comm] using h
        · right; right; right; left
          exact ⟨n, rfl, by simp_all, by omega, by omega, by simpa [eq_comm] using h⟩
  | cUpdate =>
    simp only [exec, execCUpdate] at h
    split at h
    · left; simpa [eq_comm] using h
    · split at h
      · left; simpa [eq_comm] using h
      · right; right; right; right; right; left
        exact ⟨rfl, by simp_all, by simp_all, by simpa [eq_comm] using h⟩
  | cGetResponse w =>
    simp only [exec, execCGetResponse] at h
    split at h
    · right; right; left
      exact ⟨_, _, _, _, by simpa [eq_comm] using h⟩
    · rename_i hb
      simp only [Bool.or_eq_true, Bool.not_eq_true', decide_eq_true_eq, not_or] at hb
      right; right; right; right; right; right
      exact ⟨w, rfl, by omega, by simpa using hb.2, by simpa [eq_comm] using h⟩

/-- The decoder of a port gives a command of that port (R92, R93). -/
theorem decode_port (p : Port) (w : Word) (i : Instr) (h : decode p w = .ok i) : i.port = p := by
  cases p with
  | a =>
    simp only [decode, decodeA, withoutArgument] at h
    split at h
    · split at h <;> simp_all [Instr.port, eq_comm]
    · split at h
      · simp only [Except.ok.injEq] at h; subst h; rfl
      · split at h
        · simp only [Except.ok.injEq] at h; subst h; rfl
        · simp at h
  | c =>
    simp only [decode, decodeC, withoutArgument] at h
    split at h
    · split at h <;> simp_all [Instr.port, eq_comm]
    · split at h
      · split at h <;> simp_all [Instr.port, eq_comm]
      · split at h
        · simp only [Except.ok.injEq] at h; subst h; rfl
        · simp at h

/-- A mapped sample word has an index within the RAM (R61). -/
theorem itemA_sample (addr : Word) (ch : Fin 2) (k : Nat) (h : itemA addr = some (.sample ch k)) :
    k < Config.bufDepth := by
  unfold itemA at h
  split at h
  · unfold mapA at h
    split at h
    · simp at h
    repeat
      split at h
      · simp [delayItem] at h
        try (split at h <;> simp at h)
        try (obtain ⟨rfl, rfl⟩ := h; simp only [sampleAddr] at *; simp at *; omega)
    simp at h
  · simp at h

/-- What a write transaction can do (R64, R65, R94, R101). -/
theorem memWrite_cases (p : Port) (addr v : Word) (s t : State) (h : memWrite p addr v s = .next t) :
    t = raiseAccess p s
    ∨ t = raiseIllegal p s
    ∨ (∃ i, decode p v = .ok i ∧ (p = .a ∧ itemA addr = some .cmd ∨ p = .c ∧ itemC addr = some .cmd)
        ∧ exec i s = .next t)
    ∨ (p = .a ∧ t = { s with aFs := v })
    ∨ (p = .a ∧ itemA addr = some .fault ∧ t = clearFaults v s)
    ∨ (∃ ch k, p = .a ∧ k < Config.bufDepth ∧ t = s.storeSample (sampleAddr ch k) v)
    ∨ (p = .c ∧ t = { s with cRespFs := v })
    ∨ (∃ f, p = .c ∧ itemC addr = some (.param f) ∧ t = setParam f v s)
    ∨ (p = .c ∧ itemC addr = some .status ∧ t = clearClamped v s) := by
  have cmd : ∀ p, writeCommand p v s = .next t →
      t = raiseIllegal p s ∨ (∃ i, decode p v = .ok i ∧ exec i s = .next t) := by
    intro p hw
    unfold writeCommand at hw
    split at hw
    · rename_i i hi
      exact Or.inr ⟨i, hi, hw⟩
    · exact Or.inl (by simpa [eq_comm] using hw)
  cases p with
  | a =>
    simp only [memWrite] at h
    cases hit : itemA addr with
    | none => rw [hit] at h; left; simpa [eq_comm] using h
    | some it =>
      rw [hit] at h
      cases it with
      | cmd => rcases cmd .a h with h | h <;> simp [h]
      | fs => right; right; right; left; exact ⟨rfl, by simpa [writeItemA, eq_comm] using h⟩
      | fault => right; right; right; right; left; exact ⟨rfl, rfl, by simpa [writeItemA, eq_comm] using h⟩
      | sample ch k =>
        right; right; right; right; right; left
        exact ⟨ch, k, rfl, itemA_sample _ _ _ hit, by simpa [writeItemA, eq_comm] using h⟩
      | status | engFs | maxBlock | bufDepth | delay ch pos r | delayReserved =>
        left; simpa [writeItemA, eq_comm] using h
  | c =>
    simp only [memWrite] at h
    cases hit : itemC addr with
    | none => rw [hit] at h; left; simpa [eq_comm] using h
    | some it =>
      rw [hit] at h
      cases it with
      | cmd => rcases cmd .c h with h | h <;> simp [h]
      | respFs => right; right; right; right; right; right; left; exact ⟨rfl, by simpa [writeItemC, eq_comm] using h⟩
      | param f =>
        right; right; right; right; right; right; right; left
        exact ⟨f, rfl, rfl, by simpa [writeItemC, eq_comm] using h⟩
      | status => right; right; right; right; right; right; right; right; exact ⟨rfl, rfl, by simpa [writeItemC, eq_comm] using h⟩
      | id | version | respDepth | bypass | lastParam f | coef pos j | coefReserved | resp i hi =>
        left; simpa [writeItemC, eq_comm] using h

/-- What a read transaction can do to the state (R63, R65). -/
theorem memRead_cases (p : Port) (addr : Word) (s : State) :
    (memRead p addr s).2 = s ∨ ((memRead p addr s).1 = 0 ∧ (memRead p addr s).2 = raiseAccess p s) := by
  cases p <;> simp only [memRead] <;> split <;> simp

/-- An address and its offset in the port's space (R80). -/
@[simp] theorem portOffset_busAddress (b : Bases) (p : Port) (off : Word) :
    portOffset b p (busAddress b p off) = off := by simp [portOffset, busAddress]

@[simp] theorem busAddress_portOffset (b : Bases) (p : Port) (addr : Word) :
    busAddress b p (portOffset b p addr) = addr := by simp [portOffset, busAddress]

/-- What a port's transaction can do (R69). -/
theorem perform_cases (p : Port) (x : Txn) (s t : State) (h : perform p x s = .next t) :
    (∃ addr, x = .read addr
      ∧ t = reply p (.data (memRead p (portOffset s.bases p addr) s).1) (memRead p (portOffset s.bases p addr) s).2)
    ∨ (∃ addr v u, x = .write addr v ∧ memWrite p (portOffset s.bases p addr) v s = .next u
      ∧ t = completeWrite p u) := by
  cases x with
  | read addr => exact Or.inl ⟨addr, rfl, by simpa [perform, eq_comm] using h⟩
  | write addr v =>
    obtain ⟨u, hu, ht⟩ := onNext_eq_next h
    exact Or.inr ⟨addr, v, u, rfl, hu, ht⟩

/-! ## The schedule and the queues

A command and a transaction neither look at who moves next nor at what is still pending. -/

/-- The state with another schedule and other pending transactions. -/
def State.queued (s : State) (ts : List Turn) (qa qc : List Txn) : State :=
  { s with turns := ts, pendingA := qa, pendingC := qc }

@[simp] theorem queued_queued (s : State) (ts us : List Turn) (qa qc ra rc : List Txn) :
    (s.queued ts qa qc).queued us ra rc = s.queued us ra rc := rfl

theorem raiseError_queued (e : ErrorBit) (s : State) (ts : List Turn) (qa qc : List Txn) :
    raiseError e (s.queued ts qa qc) = (raiseError e s).queued ts qa qc := by
  cases e <;> rfl

theorem raiseIf_queued (b : Bool) (e : ErrorBit) (s : State) (ts : List Turn) (qa qc : List Txn) :
    raiseIf b e (s.queued ts qa qc) = (raiseIf b e s).queued ts qa qc := by
  cases b
  · rfl
  · exact raiseError_queued e s ts qa qc

theorem exec_queued (i : Instr) (s : State) (ts : List Turn) (qa qc : List Txn) :
    exec i (s.queued ts qa qc) = onNext (exec i s) fun t => t.queued ts qa qc := by
  cases i with
  | aNop => rfl
  | cNop => rfl
  | aPrepare m =>
    have e : (s.queued ts qa qc).aFs = s.aFs := rfl
    simp only [exec, execAPrepare, e]
    split
    · simp only [raiseIf_queued, onNext]
    · rfl
  | aProcessBlock n =>
    have e1 : (s.queued ts qa qc).prepared = s.prepared := rfl
    have e2 : (s.queued ts qa qc).maxBlock = s.maxBlock := rfl
    simp only [exec, execAProcessBlock, e1, e2]
    split
    · rfl
    · split
      · rfl
      · split <;> rfl
  | cUpdate =>
    have e1 : (s.queued ts qa qc).prepared = s.prepared := rfl
    have e2 : (s.queued ts qa qc).dirty = s.dirty := rfl
    simp only [exec, execCUpdate, e1, e2]
    split
    · rfl
    · split <;> rfl
  | cGetResponse w =>
    have e : (s.queued ts qa qc).cRespFs = s.cRespFs := rfl
    simp only [exec, execCGetResponse, e]
    split
    · simp only [raiseIf_queued, onNext]
    · rfl

theorem writeCommand_queued (p : Port) (v : Word) (s : State) (ts : List Turn) (qa qc : List Txn) :
    writeCommand p v (s.queued ts qa qc) = onNext (writeCommand p v s) fun t => t.queued ts qa qc := by
  unfold writeCommand
  cases decode p v with
  | error e => cases p <;> rfl
  | ok i => exact exec_queued i s ts qa qc

theorem memWrite_queued (p : Port) (addr v : Word) (s : State) (ts : List Turn) (qa qc : List Txn) :
    memWrite p addr v (s.queued ts qa qc) = onNext (memWrite p addr v s) fun t => t.queued ts qa qc := by
  cases p with
  | a =>
    simp only [memWrite]
    cases itemA addr with
    | none => rfl
    | some it => cases it <;> first | exact writeCommand_queued _ _ _ _ _ _ | rfl
  | c =>
    simp only [memWrite]
    cases itemC addr with
    | none => rfl
    | some it => cases it <;> first | exact writeCommand_queued _ _ _ _ _ _ | rfl

theorem memRead_queued (p : Port) (addr : Word) (s : State) (ts : List Turn) (qa qc : List Txn) :
    memRead p addr (s.queued ts qa qc) = ((memRead p addr s).1, (memRead p addr s).2.queued ts qa qc) := by
  cases p with
  | a =>
    simp only [memRead]
    cases itemA addr with
    | none => rfl
    | some it => cases it <;> rfl
  | c =>
    simp only [memRead]
    cases itemC addr with
    | none => rfl
    | some it => cases it <;> rfl

theorem perform_queued (p : Port) (x : Txn) (s : State) (ts : List Turn) (qa qc : List Txn) :
    perform p x (s.queued ts qa qc) = onNext (perform p x s) fun t => t.queued ts qa qc := by
  have hb : (s.queued ts qa qc).bases = s.bases := rfl
  cases x with
  | read addr =>
    simp only [perform, hb, memRead_queued, onNext]
    cases p <;> rfl
  | write addr v =>
    simp only [perform, hb, memWrite_queued]
    cases memWrite p (portOffset s.bases p addr) v s with
    | next u =>
      cases p with
      | a =>
        have : (u.queued ts qa qc).blk = u.blk := rfl
        simp only [onNext, completeWrite, this]
        split <;> rfl
      | c => rfl
    | fault r => rfl
    | refused r => rfl

/-- What a step can do (R70, R74, R270): stand still, move the block in flight, perform a transaction of either host, or
reset. -/
theorem step_cases (s t : State) (h : step s = .next t) :
    (t = { s with turns := s.turns.tail } ∧ s.turns.head? ≠ some .reset)
    ∨ (s.blk.busy = true ∧ (s.turns = [] ∨ s.turns.head? = some .a) ∧ t = blockStep { s with turns := s.turns.tail })
    ∨ (∃ x rest, s.turns.head? = some .a ∧ s.blk.busy = false ∧ s.pendingA = x :: rest
        ∧ perform .a x { s with turns := s.turns.tail, pendingA := rest } = .next t)
    ∨ (∃ x rest, s.turns.head? = some .c ∧ s.pendingC = x :: rest
        ∧ perform .c x { s with turns := s.turns.tail, pendingC := rest } = .next t)
    ∨ (s.turns.head? = some .reset ∧ t = resetEvent { s with turns := s.turns.tail }) := by
  unfold step at h
  split at h
  · rename_i hturns
    have e : s = { s with turns := s.turns.tail } := by cases s; simp_all
    simp only [Host.Outcome.next.injEq] at h
    unfold internalTurn at h
    split at h
    · right; left
      refine ⟨by assumption, Or.inl hturns, ?_⟩
      rw [← e]; exact h.symm
    · left
      exact ⟨by rw [← e]; exact h.symm, by simp [hturns]⟩
  · rename_i rest hturns
    have et : s.turns.tail = rest := by rw [hturns]; rfl
    unfold audioTurn at h
    split at h
    · rename_i hb
      right; left
      refine ⟨hb, Or.inr (by simp [hturns]), ?_⟩
      rw [et]; simpa [eq_comm] using h
    · rename_i hb
      split at h
      · left
        refine ⟨?_, by simp [hturns]⟩
        rw [et]; simpa [eq_comm] using h
      · rename_i x q hq
        right; right; left
        exact ⟨x, q, by simp [hturns], by simpa using hb, hq, by rw [et]; exact h⟩
  · rename_i rest hturns
    have et : s.turns.tail = rest := by rw [hturns]; rfl
    unfold controlTurn at h
    split at h
    · left
      refine ⟨?_, by simp [hturns]⟩
      rw [et]; simpa [eq_comm] using h
    · rename_i x q hq
      right; right; right; left
      exact ⟨x, q, by simp [hturns], hq, by rw [et]; exact h⟩
  · rename_i rest hturns
    have et : s.turns.tail = rest := by rw [hturns]; rfl
    right; right; right; right
    exact ⟨by simp [hturns], by rw [et]; simpa [eq_comm] using h⟩

end Sys2Proof.Machine
end

