-- ==== Sys2Proof/Laws/Bus.lean ====
section
/-! SUPPORT. The address maps, item by item, and the transactions at each register (spec/20 R61 to R65): later proofs
cite these and never unfold a map. -/

namespace Sys2Proof.Machine

/-! ## Fixed addresses -/

@[simp] theorem itemA_status : itemA 0x0000 = some .status := rfl
@[simp] theorem itemA_cmd : itemA 0x0004 = some .cmd := rfl
@[simp] theorem itemA_fs : itemA 0x0008 = some .fs := rfl
@[simp] theorem itemA_engFs : itemA 0x000C = some .engFs := rfl
@[simp] theorem itemA_maxBlock : itemA 0x0010 = some .maxBlock := rfl
@[simp] theorem itemA_fault : itemA 0x0014 = some .fault := rfl
@[simp] theorem itemA_bufDepth : itemA 0x0018 = some .bufDepth := rfl
@[simp] theorem itemC_id : itemC 0x0000 = some .id := rfl
@[simp] theorem itemC_version : itemC 0x0004 = some .version := rfl
@[simp] theorem itemC_status : itemC 0x0008 = some .status := rfl
@[simp] theorem itemC_cmd : itemC 0x000C = some .cmd := rfl
@[simp] theorem itemC_respFs : itemC 0x0030 = some .respFs := rfl
@[simp] theorem itemC_respDepth : itemC 0x0034 = some .respDepth := rfl
@[simp] theorem itemC_bypass : itemC 0x0080 = some .bypass := rfl
@[simp] theorem itemC_param (f : Field) : itemC (paramAddr f) = some (.param f) := by cases f <;> rfl
@[simp] theorem itemC_lastParam (f : Field) : itemC (paramAddr f + 0x40) = some (.lastParam f) := by cases f <;> rfl

/-! ## Windows and RAMs -/

theorem itemA_delay (ch : Fin 2) (pos : Fin 9) (r : Fin 2) :
    itemA (BitVec.ofNat 32 (0x0100 + ch.val * 0x80 + pos.val * 8 + r.val * 4)) = some (.delay ch pos r) := by
  revert ch pos r; decide +kernel

theorem itemA_delayReserved (ch : Fin 2) (j : Fin 14) :
    itemA (BitVec.ofNat 32 (0x0100 + ch.val * 0x80 + (18 + j.val) * 4)) = some .delayReserved := by
  revert ch j; decide +kernel

theorem itemC_coef (pos : Fin 9) (j : Fin 5) :
    itemC (BitVec.ofNat 32 (0x0200 + pos.val * 0x20 + j.val * 4)) = some (.coef pos j) := by
  revert pos j; decide +kernel

theorem itemC_coefReserved (pos : Fin 9) (j : Fin 3) :
    itemC (BitVec.ofNat 32 (0x0200 + pos.val * 0x20 + (5 + j.val) * 4)) = some .coefReserved := by
  revert pos j; decide +kernel

/-- The number of a fixed address of either map. -/
theorem toNat_ofNat_32 (n : Nat) (h : n < 2 ^ 32) : (BitVec.ofNat 32 n).toNat = n := by
  rw [BitVec.toNat_ofNat, Nat.mod_eq_of_lt h]

/-- From 0x10000 on, port A maps the two sample arrays and nothing else (R61, R81). -/
theorem mapA_ram (a : Nat) (h : 0x10000 ≤ a) :
    mapA a = if a < 0x14000 then some (.sample 0 ((a - 0x10000) / 4))
      else if 0x20000 ≤ a ∧ a < 0x24000 then some (.sample 1 ((a - 0x20000) / 4)) else none := by
  unfold mapA
  repeat' split
  all_goals
    try simp only [sampleAddr, Config.bufDepth, Fin.val_zero, Fin.val_one] at *
    try first | omega | rfl

/-- From 0x10000 on, port C maps the response RAM and nothing else (R62, R82). -/
theorem mapC_ram (a : Nat) (h : 0x10000 ≤ a) :
    mapC a = if a < 0x18000 then some (.resp ((a - 0x10000) / 8) (decide (a % 8 = 4))) else none := by
  unfold mapC
  repeat' split
  all_goals
    try simp only [respAddr, Config.respDepth] at *
    try first | omega | rfl

theorem itemA_sampleAddr (ch : Fin 2) (k : Nat) (h : k < Config.bufDepth) :
    itemA (BitVec.ofNat 32 (sampleAddr ch k)) = some (.sample ch k) := by
  have hk : k < 4096 := h
  have hc : ch.val = 0 ∨ ch.val = 1 := by omega
  unfold itemA
  rw [toNat_ofNat_32 _ (by unfold sampleAddr; omega), if_pos (by unfold sampleAddr; omega),
    mapA_ram _ (by unfold sampleAddr; omega)]
  unfold sampleAddr
  rcases hc with hc | hc
  · obtain rfl : ch = 0 := Fin.ext hc
    have e : (0x10000 + 0x10000 * (0 : Fin 2).val + 4 * k - 0x10000) / 4 = k := by simp
    rw [if_pos (by simp; omega), e]
  · obtain rfl : ch = 1 := Fin.ext hc
    have e : (0x10000 + 0x10000 * (1 : Fin 2).val + 4 * k - 0x20000) / 4 = k := by simp
    rw [if_neg (by simp; omega), if_pos (by simp; omega), e]

theorem itemC_respAddr (i : Nat) (high : Bool) (h : i < Config.respDepth) :
    itemC (BitVec.ofNat 32 (respAddr i + if high then 4 else 0)) = some (.resp i high) := by
  have hk : i < 4096 := h
  obtain ⟨d, hd, hh⟩ : ∃ d, (if high then 4 else 0) = d ∧ (high = true ∧ d = 4 ∨ high = false ∧ d = 0) := by
    cases high <;> simp
  unfold itemC
  rw [hd, toNat_ofNat_32 _ (by unfold respAddr; omega), if_pos (by unfold respAddr; omega),
    mapC_ram _ (by unfold respAddr; omega), if_pos (by unfold respAddr; omega)]
  have e : (respAddr i + d - 0x10000) / 8 = i := by unfold respAddr; omega
  have eh : decide ((respAddr i + d) % 8 = 4) = high := by
    unfold respAddr
    rcases hh with ⟨rfl, rfl⟩ | ⟨rfl, rfl⟩
    · exact decide_eq_true (by omega)
    · exact decide_eq_false (by omega)
  rw [e, eh]

/-! ## Which addresses are mapped and writable -/

theorem fieldAt_isSome (off : Nat) : (fieldAt off).isSome = true ↔ ∃ j, j < 7 ∧ off = 4 * j := by
  constructor
  · intro h
    unfold fieldAt at h
    split at h
    · exact ⟨0, by decide⟩
    · exact ⟨1, by decide⟩
    · exact ⟨2, by decide⟩
    · exact ⟨3, by decide⟩
    · exact ⟨4, by decide⟩
    · exact ⟨5, by decide⟩
    · exact ⟨6, by decide⟩
    · simp at h
  · rintro ⟨j, hj, rfl⟩
    have : j = 0 ∨ j = 1 ∨ j = 2 ∨ j = 3 ∨ j = 4 ∨ j = 5 ∨ j = 6 := by omega
    rcases this with rfl | rfl | rfl | rfl | rfl | rfl | rfl <;> rfl

/-- The port A map has an item exactly at the addresses that R61 lists. -/
theorem itemA_isSome (addr : Word) : (itemA addr).isSome = true ↔ mappedA addr.toNat := by
  generalize hn : addr.toNat = n
  unfold itemA
  rw [hn]
  have em : (mapA n).isSome = true ↔
      n = 0 ∨ n = 4 ∨ n = 8 ∨ n = 12 ∨ n = 16 ∨ n = 20 ∨ n = 24 ∨ (256 ≤ n ∧ n < 512)
        ∨ (65536 ≤ n ∧ n < 81920) ∨ (131072 ≤ n ∧ n < 147456) := by
    unfold mapA
    repeat' split
    all_goals
      simp only [sampleAddr, Config.bufDepth, Option.isSome_some, Option.isSome_none, true_iff, Bool.false_eq_true,
        false_iff] at *
      try simp only [Fin.val_zero, Fin.val_one] at *
      omega
  by_cases h4 : n % 4 = 0
  · rw [if_pos h4, em]
    unfold mappedA
    simp only [List.mem_cons, List.not_mem_nil, or_false, Config.bufDepth]
    constructor
    · intro h
      rcases h with h | h | h | h | h | h | h | h | h | h
      · omega
      · omega
      · omega
      · omega
      · omega
      · omega
      · omega
      · exact Or.inr (Or.inl ⟨(n - 256) / 4, by omega, by omega⟩)
      · exact Or.inr (Or.inr (Or.inl ⟨(n - 65536) / 4, by omega, by omega⟩))
      · exact Or.inr (Or.inr (Or.inr ⟨(n - 131072) / 4, by omega, by omega⟩))
    · rintro (h | ⟨j, h1, h2⟩ | ⟨j, h1, h2⟩ | ⟨j, h1, h2⟩) <;> omega
  · rw [if_neg h4]
    simp only [Option.isSome_none, Bool.false_eq_true, false_iff]
    unfold mappedA
    simp only [List.mem_cons, List.not_mem_nil, or_false, Config.bufDepth]
    rintro (h | ⟨j, h1, h2⟩ | ⟨j, h1, h2⟩ | ⟨j, h1, h2⟩) <;> omega

/-- The port C map has an item exactly at the addresses that R62 lists. -/
theorem itemC_isSome (addr : Word) : (itemC addr).isSome = true ↔ mappedC addr.toNat := by
  generalize hn : addr.toNat = n
  unfold itemC
  rw [hn]
  have em : (mapC n).isSome = true ↔
      n = 0 ∨ n = 4 ∨ n = 8 ∨ n = 12 ∨ n = 48 ∨ n = 52 ∨ n = 128 ∨ (∃ j, j < 7 ∧ n = 16 + 4 * j)
        ∨ (∃ j, j < 7 ∧ n = 80 + 4 * j) ∨ (512 ≤ n ∧ n < 800) ∨ (65536 ≤ n ∧ n < 98304) := by
    unfold mapC
    repeat' split
    all_goals
      try simp only [respAddr, Config.respDepth] at *
      first
      | (simp only [Option.isSome_map, fieldAt_isSome]
         constructor
         · rintro ⟨j, h1, h2⟩
           first
           | exact Or.inr (Or.inr (Or.inr (Or.inr (Or.inr (Or.inr (Or.inr (Or.inl ⟨j, h1, by omega⟩)))))))
           | exact Or.inr (Or.inr (Or.inr (Or.inr (Or.inr (Or.inr (Or.inr (Or.inr (Or.inl ⟨j, h1, by omega⟩))))))))
         · rintro (h | h | h | h | h | h | h | ⟨j, h1, h2⟩ | ⟨j, h1, h2⟩ | h | h)
           all_goals first | (exfalso; omega) | exact ⟨j, h1, by omega⟩)
      | (simp only [Option.isSome_some, Option.isSome_none, true_iff, Bool.false_eq_true, false_iff]; omega)
  by_cases h4 : n % 4 = 0
  · rw [if_pos h4, em]
    unfold mappedC
    simp only [List.mem_cons, List.not_mem_nil, or_false, Config.respDepth]
    constructor
    · rintro (h | h | h | h | h | h | h | h | h | h | h)
      · omega
      · omega
      · omega
      · omega
      · omega
      · omega
      · omega
      · exact Or.inr (Or.inl h)
      · exact Or.inr (Or.inr (Or.inl h))
      · exact Or.inr (Or.inr (Or.inr (Or.inl ⟨(n - 512) / 4, by omega, by omega⟩)))
      · exact Or.inr (Or.inr (Or.inr (Or.inr ⟨(n - 65536) / 8, by omega, by omega⟩)))
    · rintro (h | h | h | ⟨j, h1, h2⟩ | ⟨j, h1, h2⟩)
      · omega
      · exact Or.inr (Or.inr (Or.inr (Or.inr (Or.inr (Or.inr (Or.inr (Or.inl h)))))))
      · exact Or.inr (Or.inr (Or.inr (Or.inr (Or.inr (Or.inr (Or.inr (Or.inr (Or.inl h))))))))
      · omega
      · omega
  · rw [if_neg h4]
    simp only [Option.isSome_none, Bool.false_eq_true, false_iff]
    unfold mappedC
    simp only [List.mem_cons, List.not_mem_nil, or_false, Config.respDepth]
    rintro (h | ⟨j, h1, h2⟩ | ⟨j, h1, h2⟩ | ⟨j, h1, h2⟩ | ⟨j, h1, h2⟩) <;> omega

/-- A_FAULT stands at one address (R43). -/
theorem itemA_eq_fault (addr : Word) (h : itemA addr = some .fault) : addr = 0x0014 := by
  unfold itemA at h
  split at h
  · unfold mapA at h
    repeat' split at h
    all_goals simp only [delayItem, Option.some.injEq, reduceCtorEq] at h
    · exact BitVec.eq_of_toNat_eq (by simpa)
    · split at h <;> simp at h
  · simp at h

/-- C_STATUS stands at one address (R45). -/
theorem itemC_eq_status (addr : Word) (h : itemC addr = some .status) : addr = 0x0008 := by
  unfold itemC at h
  split at h
  · unfold mapC at h
    repeat' split at h
    all_goals simp only [coefItem, Option.some.injEq, Option.map_eq_some_iff, reduceCtorEq, and_false, exists_false] at h
    · exact BitVec.eq_of_toNat_eq (by simpa)
    · split at h <;> simp at h
  · simp at h

/-- C_CMD stands at one address (R44). -/
theorem itemC_eq_cmd (addr : Word) (h : itemC addr = some .cmd) : addr = 0x000C := by
  unfold itemC at h
  split at h
  · unfold mapC at h
    repeat' split at h
    all_goals simp only [coefItem, Option.some.injEq, Option.map_eq_some_iff, reduceCtorEq, and_false, exists_false] at h
    · exact BitVec.eq_of_toNat_eq (by simpa)
    · split at h <;> simp at h
  · simp at h

/-- A P_* register stands at one address (R47). -/
theorem itemC_eq_param (addr : Word) (f : Field) (h : itemC addr = some (.param f)) : addr = paramAddr f := by
  unfold itemC at h
  split at h
  · unfold mapC at h
    repeat' split at h
    all_goals simp only [coefItem, Option.some.injEq, Option.map_eq_some_iff, reduceCtorEq, and_false, exists_false] at h
    · obtain ⟨g, hg, hf⟩ := h
      simp only [ItemC.param.injEq] at hf
      subst hf
      unfold fieldAt at hg
      split at hg <;> simp only [Option.some.injEq, reduceCtorEq] at hg
      all_goals
        subst hg
        exact BitVec.eq_of_toNat_eq (by simp [paramAddr]; omega)
    · split at h <;> simp at h
  · simp at h

/-- An item that a write reaches (R64). -/
def ItemA.writable : ItemA → Bool
  | .cmd | .fs | .fault | .sample _ _ => true
  | _ => false

/-- An item that a write reaches (R64). -/
def ItemC.writable : ItemC → Bool
  | .cmd | .respFs | .status | .param _ => true
  | _ => false

/-- The port A items that a write reaches stand at the addresses that R64 lists. -/
theorem writableA_item (addr : Word) (it : ItemA) (h : itemA addr = some it) : it.writable = true → writableA addr.toNat := by
  intro hw
  unfold itemA at h
  split at h
  · rename_i h4
    unfold mapA at h
    repeat' split at h
    all_goals
      try simp only [reduceCtorEq] at h
    all_goals
      simp only [sampleAddr, Config.bufDepth, Option.some.injEq, Fin.val_zero, Fin.val_one] at *
    all_goals first
      | (subst h; simp [ItemA.writable] at hw; done)
      | (unfold writableA; simp only [List.mem_cons, List.not_mem_nil, or_false]; left; omega)
      | (unfold writableA; right; left; exact ⟨(addr.toNat - 65536) / 4, by simp [Config.bufDepth]; omega, by omega⟩)
      | (unfold writableA; right; right; exact ⟨(addr.toNat - 131072) / 4, by simp [Config.bufDepth]; omega, by omega⟩)
      | (subst h; unfold delayItem at hw; split at hw <;> simp [ItemA.writable] at hw)
  · simp at h

/-- The port C items that a write reaches stand at the addresses that R64 lists. -/
theorem writableC_item (addr : Word) (it : ItemC) (h : itemC addr = some it) : it.writable = true → writableC addr.toNat := by
  intro hw
  unfold itemC at h
  split at h
  · rename_i h4
    unfold mapC at h
    repeat' split at h
    all_goals
      try simp only [reduceCtorEq] at h
    all_goals
      simp only [respAddr, Config.respDepth, Option.some.injEq, Option.map_eq_some_iff] at *
    all_goals first
      | (subst h; simp [ItemC.writable] at hw; done)
      | (unfold writableC; simp only [List.mem_cons, List.not_mem_nil, or_false]; left; omega)
      | (unfold writableC; right; exact ⟨(addr.toNat - 16) / 4, by omega, by omega⟩)
      | (obtain ⟨f, -, rfl⟩ := h; simp [ItemC.writable] at hw; done)
      | (subst h; unfold coefItem at hw; split at hw <;> simp [ItemC.writable] at hw)
  · simp at h

theorem writeItemA_readOnly (it : ItemA) (v : Word) (s : State) (h : it.writable = false) :
    writeItemA it v s = .next (raiseAccess .a s) := by
  cases it <;> simp_all [ItemA.writable, writeItemA]

theorem writeItemC_readOnly (it : ItemC) (v : Word) (s : State) (h : it.writable = false) :
    writeItemC it v s = .next (raiseAccess .c s) := by
  cases it <;> simp_all [ItemC.writable, writeItemC]

end Sys2Proof.Machine
end

