-- ==== Sys2Proof/Laws/Rounding.lean ====
section
/-! SUPPORT. Rounding to a binary format (spec/00_scope.md R12, R13): what the nearest-integer division, the binary
logarithm and `roundMag` answer, said once, in terms of the real number that is rounded. -/

namespace Sys2Proof.Machine

/-! ## Powers of two split into naturals -/

theorem zpow_split (e : Int) : (2 : ℝ) ^ e * ((2 ^ (-e).toNat : Nat) : ℝ) = ((2 ^ e.toNat : Nat) : ℝ) := by
  rcases le_total 0 e with h | h
  · lift e to Nat using h
    simp
  · obtain ⟨n, rfl⟩ : ∃ n : Nat, e = -(n : Int) := ⟨(-e).toNat, by omega⟩
    simp

theorem fraction_den_pos (m : Nat) (e : Int) : 0 < (fraction m e).2 := by
  simp [fraction]

/-- The fraction stands for `m * 2 ^ e`. -/
theorem fraction_value (m : Nat) (e : Int) :
    ((fraction m e).1 : ℝ) / ((fraction m e).2 : ℝ) = m * (2 : ℝ) ^ e := by
  have h := zpow_split e
  have hpos : ((2 ^ (-e).toNat : Nat) : ℝ) ≠ 0 := by positivity
  rw [div_eq_iff (by simp [fraction])]
  simp only [fraction, Nat.cast_mul]
  rw [← h]; ring

theorem div_lt_zpow_iff (num den : Nat) (hd : 0 < den) (e : Int) :
    num * 2 ^ (-e).toNat < den * 2 ^ e.toNat ↔ (num : ℝ) / den < (2 : ℝ) ^ e := by
  have h := zpow_split e
  have hpos : (0 : ℝ) < ((2 ^ (-e).toNat : Nat) : ℝ) := by positivity
  have hd' : (0 : ℝ) < den := by exact_mod_cast hd
  rw [div_lt_iff₀ hd', ← mul_lt_mul_iff_of_pos_right hpos]
  rw [show (2 : ℝ) ^ e * den * ((2 ^ (-e).toNat : Nat) : ℝ) = ((2 ^ e.toNat : Nat) : ℝ) * den by rw [← h]; ring]
  rw [mul_comm ((2 ^ e.toNat : Nat) : ℝ)]
  exact_mod_cast Iff.rfl

/-! ## The binary logarithm of a fraction -/

theorem log2_bounds (n : Nat) (h : 0 < n) : 2 ^ Nat.log2 n ≤ n ∧ n < 2 ^ (Nat.log2 n + 1) :=
  ⟨Nat.log2_self_le (by omega), Nat.lt_log2_self⟩

/-- `floorLog2` is the exponent of a positive fraction. -/
theorem floorLog2_spec (num den : Nat) (hn : 0 < num) (hd : 0 < den) :
    (2 : ℝ) ^ floorLog2 num den ≤ (num : ℝ) / den ∧ (num : ℝ) / den < (2 : ℝ) ^ (floorLog2 num den + 1) := by
  have hd' : (0 : ℝ) < den := by exact_mod_cast hd
  obtain ⟨n1, n2⟩ := log2_bounds num hn
  obtain ⟨d1, d2⟩ := log2_bounds den hd
  have n1' : (2 : ℝ) ^ (Nat.log2 num) ≤ num := by exact_mod_cast n1
  have n2' : (num : ℝ) < (2 : ℝ) ^ (Nat.log2 num + 1) := by exact_mod_cast n2
  have d1' : (2 : ℝ) ^ (Nat.log2 den) ≤ den := by exact_mod_cast d1
  have d2' : (den : ℝ) < (2 : ℝ) ^ (Nat.log2 den + 1) := by exact_mod_cast d2
  have up : (num : ℝ) / den < (2 : ℝ) ^ (((Nat.log2 num : Int) - Nat.log2 den) + 1) := by
    rw [div_lt_iff₀ hd']
    calc (num : ℝ) < (2 : ℝ) ^ (Nat.log2 num + 1) := n2'
      _ = (2 : ℝ) ^ (((Nat.log2 num : Int) - Nat.log2 den) + 1) * (2 : ℝ) ^ (Nat.log2 den) := by
        rw [← zpow_natCast, ← zpow_natCast, ← zpow_add₀ (by norm_num)]; congr 1; push_cast; ring
      _ ≤ _ := by gcongr
  have low : (2 : ℝ) ^ (((Nat.log2 num : Int) - Nat.log2 den) - 1) ≤ (num : ℝ) / den := by
    rw [le_div_iff₀ hd']
    calc (2 : ℝ) ^ (((Nat.log2 num : Int) - Nat.log2 den) - 1) * den
        ≤ (2 : ℝ) ^ (((Nat.log2 num : Int) - Nat.log2 den) - 1) * (2 : ℝ) ^ (Nat.log2 den + 1) := by gcongr
      _ = (2 : ℝ) ^ (Nat.log2 num) := by
        rw [← zpow_natCast, ← zpow_natCast, ← zpow_add₀ (by norm_num)]; congr 1; push_cast; ring
      _ ≤ num := n1'
  unfold floorLog2
  simp only [div_lt_zpow_iff num den hd]
  split
  · rename_i h
    refine ⟨low, ?_⟩
    simpa using h
  · rename_i h
    exact ⟨not_lt.mp h, up⟩

/-! ## Nearest-integer division -/

/-- The quotient lies within a half of its rounding, and on the even side of a tie. -/
theorem roundDivEven_spec (num den : Nat) (hd : 0 < den) :
    2 * num ≤ (2 * roundDivEven num den + 1) * den ∧ 2 * roundDivEven num den * den ≤ 2 * num + den
    ∧ (2 * num = (2 * roundDivEven num den + 1) * den → roundDivEven num den % 2 = 0)
    ∧ (2 * roundDivEven num den * den = 2 * num + den → roundDivEven num den % 2 = 0) := by
  have hq := Nat.div_add_mod num den
  have hr := Nat.mod_lt num hd
  unfold roundDivEven
  set q := num / den
  set r := num % den
  have e : num = q * den + r := by rw [mul_comm]; omega
  simp only
  split
  · rename_i h
    refine ⟨?_, ?_, ?_, ?_⟩
    · rcases h with h | h <;> nlinarith
    · nlinarith
    · intro t
      rcases h with h | h
      · exfalso; nlinarith
      · exact h.2
    · intro t
      exfalso
      have : 2 * r + den = 0 := by nlinarith
      omega
  · rename_i h
    push Not at h
    refine ⟨?_, ?_, ?_, ?_⟩
    · nlinarith
    · nlinarith [h.1]
    · intro t; exfalso; nlinarith
    · intro t
      have : 2 * r = den := by nlinarith
      have := h.2 this
      omega

theorem roundDivEven_mono (a b c d : Nat) (hb : 0 < b) (hd : 0 < d) (h : a * d ≤ c * b) :
    roundDivEven a b ≤ roundDivEven c d := by
  obtain ⟨a1, a2, a3, a4⟩ := roundDivEven_spec a b hb
  obtain ⟨c1, c2, c3, c4⟩ := roundDivEven_spec c d hd
  by_contra hlt
  push Not at hlt
  set x := roundDivEven a b
  set y := roundDivEven c d
  -- x ≥ y + 1, so 2x - 1 ≤ 2a/b ≤ 2c/d ≤ 2y + 1 forces equality throughout
  have k1 : (2 * x * b) * d ≤ (2 * a + b) * d := Nat.mul_le_mul_right _ a2
  have k2 : (2 * c) * b ≤ ((2 * y + 1) * d) * b := Nat.mul_le_mul_right _ c1
  have k3 : 2 * (a * d) ≤ 2 * (c * b) := by omega
  have hxy : x = y + 1 := by
    by_contra hne
    have : y + 2 ≤ x := by omega
    have : (y + 2) * (b * d) ≤ x * (b * d) := Nat.mul_le_mul_right _ this
    have : 0 < b * d := Nat.mul_pos hb hd
    nlinarith
  have hbd : 0 < b * d := Nat.mul_pos hb hd
  have e1 : 2 * x * b = 2 * a + b := by
    have : (2 * x * b) * d = (2 * a + b) * d := by
      apply le_antisymm k1
      rw [hxy]
      nlinarith
    exact Nat.eq_of_mul_eq_mul_right hd this
  have e2 : 2 * c = (2 * y + 1) * d := by
    have : (2 * c) * b = ((2 * y + 1) * d) * b := by
      apply le_antisymm k2
      rw [hxy] at k1
      nlinarith
    exact Nat.eq_of_mul_eq_mul_right hb this
  have := a4 e1
  have := c3 e2
  omega

/-- Rounding does not depend on how a fraction is written. -/
theorem roundDivEven_congr (a b c d : Nat) (hb : 0 < b) (hd : 0 < d) (h : a * d = c * b) :
    roundDivEven a b = roundDivEven c d :=
  le_antisymm (roundDivEven_mono a b c d hb hd h.le) (roundDivEven_mono c d a b hd hb h.ge)

theorem roundDivEven_of_dvd (n d : Nat) (hd : 0 < d) : roundDivEven (n * d) d = n := by
  simp [roundDivEven, Nat.mul_div_cancel _ hd, hd]

/-! ## Magnitude codes -/

/-- The quantum of the format at a fraction: the exponent of its last place. -/
def Fmt.quantum (f : Fmt) (num den : Nat) : Int := max (floorLog2 num den - f.mbits) f.qmin

/-- The fraction in units of its last place, rounded. -/
def Fmt.units (f : Fmt) (num den : Nat) : Nat :=
  roundDivEven (num * 2 ^ (-f.quantum num den).toNat) (den * 2 ^ (f.quantum num den).toNat)

/-- How many binades above the subnormals the last place stands. -/
def Fmt.binade (f : Fmt) (num den : Nat) : Nat := (f.quantum num den - f.qmin).toNat

theorem roundMag_eq (f : Fmt) (num den : Nat) (hn : 0 < num) :
    f.roundMag num den = min (f.binade num den * 2 ^ f.mbits + f.units num den) f.infCode := by
  unfold Fmt.roundMag
  rw [if_neg (by omega)]
  rfl

theorem quantum_eq (f : Fmt) (num den : Nat) : f.quantum num den = f.qmin + f.binade num den := by
  have : f.qmin ≤ f.quantum num den := le_max_right _ _
  unfold Fmt.binade
  omega

theorem units_den_pos (f : Fmt) (num den : Nat) (hd : 0 < den) : 0 < den * 2 ^ (f.quantum num den).toNat :=
  Nat.mul_pos hd (by positivity)

/-- A fraction is below twice the format's precision in units of its last place. -/
theorem units_le (f : Fmt) (num den : Nat) (hn : 0 < num) (hd : 0 < den) : f.units num den ≤ 2 ^ (f.mbits + 1) := by
  have hspec := (floorLog2_spec num den hn hd).2
  have hq : floorLog2 num den + 1 ≤ f.quantum num den + (f.mbits + 1 : Nat) := by
    have : floorLog2 num den - f.mbits ≤ f.quantum num den := le_max_left _ _
    push_cast; omega
  have hlt : (num : ℝ) / den < (2 : ℝ) ^ (f.quantum num den + (f.mbits + 1 : Nat)) :=
    lt_of_lt_of_le hspec (zpow_le_zpow_right₀ (by norm_num) hq)
  have key : num * 2 ^ (-f.quantum num den).toNat ≤ 2 ^ (f.mbits + 1) * (den * 2 ^ (f.quantum num den).toNat) := by
    have h := zpow_split (f.quantum num den)
    have hd' : (0 : ℝ) < den := by exact_mod_cast hd
    rw [div_lt_iff₀ hd', zpow_add₀ (by norm_num), zpow_natCast] at hlt
    have hp : (0 : ℝ) ≤ ((2 ^ (-f.quantum num den).toNat : Nat) : ℝ) := by positivity
    have := mul_le_mul_of_nonneg_right hlt.le hp
    rw [show (2 : ℝ) ^ f.quantum num den * (2 : ℝ) ^ (f.mbits + 1) * den * ((2 ^ (-f.quantum num den).toNat : Nat) : ℝ)
        = (2 : ℝ) ^ (f.mbits + 1) * (den * ((2 ^ (f.quantum num den).toNat : Nat) : ℝ)) by rw [← h]; ring] at this
    exact_mod_cast this
  calc f.units num den ≤ roundDivEven (2 ^ (f.mbits + 1) * 1) 1 := by
        apply roundDivEven_mono _ _ _ _ (units_den_pos f num den hd) one_pos
        simpa using key
    _ = 2 ^ (f.mbits + 1) := roundDivEven_of_dvd _ _ one_pos

/-- Above the subnormals the units fill the format's precision. -/
theorem le_units (f : Fmt) (num den : Nat) (hn : 0 < num) (hd : 0 < den) (hb : 0 < f.binade num den) :
    2 ^ f.mbits ≤ f.units num den := by
  have hspec := (floorLog2_spec num den hn hd).1
  have hq : f.quantum num den + (f.mbits : Nat) = floorLog2 num den := by
    unfold Fmt.binade at hb
    unfold Fmt.quantum at hb ⊢
    omega
  rw [← hq] at hspec
  have key : 2 ^ f.mbits * (den * 2 ^ (f.quantum num den).toNat) ≤ num * 2 ^ (-f.quantum num den).toNat := by
    have h := zpow_split (f.quantum num den)
    have hd' : (0 : ℝ) < den := by exact_mod_cast hd
    rw [le_div_iff₀ hd', zpow_add₀ (by norm_num), zpow_natCast] at hspec
    have hp : (0 : ℝ) ≤ ((2 ^ (-f.quantum num den).toNat : Nat) : ℝ) := by positivity
    have := mul_le_mul_of_nonneg_right hspec hp
    rw [show (2 : ℝ) ^ f.quantum num den * (2 : ℝ) ^ f.mbits * den * ((2 ^ (-f.quantum num den).toNat : Nat) : ℝ)
        = (2 : ℝ) ^ f.mbits * (den * ((2 ^ (f.quantum num den).toNat : Nat) : ℝ)) by rw [← h]; ring] at this
    exact_mod_cast this
  calc 2 ^ f.mbits = roundDivEven (2 ^ f.mbits * 1) 1 := (roundDivEven_of_dvd _ _ one_pos).symm
    _ ≤ f.units num den := by
      apply roundDivEven_mono _ _ _ _ one_pos (units_den_pos f num den hd)
      simpa using key

/-- The value of a code built from binades and units. -/
theorem magValue_code (f : Fmt) (j n : Nat) (hn : n ≤ 2 ^ (f.mbits + 1)) (hj : 0 < j → 2 ^ f.mbits ≤ n) :
    f.magValue (j * 2 ^ f.mbits + n) = n * (2 : ℝ) ^ (f.qmin + j) := by
  have hp : 0 < 2 ^ f.mbits := by positivity
  unfold Fmt.magValue Fmt.unpackMag
  rcases Nat.lt_or_ge n (2 ^ f.mbits) with h | h
  · have hj0 : j = 0 := by
      by_contra hne
      exact absurd (hj (by omega)) (by omega)
    subst hj0
    simp [h]
  · rw [if_neg (by nlinarith)]
    rcases Nat.lt_or_ge n (2 ^ (f.mbits + 1)) with h2 | h2
    · obtain ⟨r, rfl⟩ : ∃ r, n = 2 ^ f.mbits + r := ⟨n - 2 ^ f.mbits, by omega⟩
      have hr : r < 2 ^ f.mbits := by rw [pow_succ] at h2; omega
      have e1 : (j * 2 ^ f.mbits + (2 ^ f.mbits + r)) % 2 ^ f.mbits = r := by
        rw [show j * 2 ^ f.mbits + (2 ^ f.mbits + r) = r + 2 ^ f.mbits * (j + 1) by ring, Nat.add_mul_mod_self_left,
          Nat.mod_eq_of_lt hr]
      have e2 : (j * 2 ^ f.mbits + (2 ^ f.mbits + r)) / 2 ^ f.mbits = j + 1 := by
        rw [show j * 2 ^ f.mbits + (2 ^ f.mbits + r) = r + 2 ^ f.mbits * (j + 1) by ring, Nat.add_mul_div_left _ _ hp,
          Nat.div_eq_of_lt hr, zero_add]
      simp only [e1, e2]
      congr 2
      push_cast; ring
    · have hn' : n = 2 ^ f.mbits * 2 := by rw [pow_succ] at hn h2; omega
      have e1 : (j * 2 ^ f.mbits + n) % 2 ^ f.mbits = 0 := by
        rw [hn', show j * 2 ^ f.mbits + 2 ^ f.mbits * 2 = 2 ^ f.mbits * (j + 2) by ring, Nat.mul_mod_right]
      have e2 : (j * 2 ^ f.mbits + n) / 2 ^ f.mbits = j + 2 := by
        rw [hn', show j * 2 ^ f.mbits + 2 ^ f.mbits * 2 = 2 ^ f.mbits * (j + 2) by ring, Nat.mul_div_cancel_left _ hp]
      simp only [e1, e2]
      rw [hn']
      push_cast
      rw [show f.qmin + ((j : Int) + 2) - 1 = (f.qmin + j) + 1 by ring, zpow_add₀ (by norm_num)]
      ring

/-- What `roundMag` answers for a positive fraction: a code of the fraction's binade, at most infinity's. -/
theorem roundMag_value (f : Fmt) (num den : Nat) (hn : 0 < num) (hd : 0 < den)
    (hfin : f.roundMag num den < f.infCode) :
    f.roundMag num den = f.binade num den * 2 ^ f.mbits + f.units num den
    ∧ f.magValue (f.roundMag num den) = f.units num den * (2 : ℝ) ^ f.quantum num den := by
  have h := roundMag_eq f num den hn
  have e : f.roundMag num den = f.binade num den * 2 ^ f.mbits + f.units num den := by omega
  refine ⟨e, ?_⟩
  rw [e, magValue_code f _ _ (units_le f num den hn hd) (le_units f num den hn hd), quantum_eq]

theorem roundMag_le_infCode (f : Fmt) (num den : Nat) : f.roundMag num den ≤ f.infCode := by
  unfold Fmt.roundMag
  split
  · omega
  · exact min_le_right _ _

theorem roundMag_zero (f : Fmt) (den : Nat) : f.roundMag 0 den = 0 := by simp [Fmt.roundMag]

/-- Rounding is monotone. -/
theorem roundMag_mono (f : Fmt) (a b c d : Nat) (hb : 0 < b) (hd : 0 < d) (h : a * d ≤ c * b) :
    f.roundMag a b ≤ f.roundMag c d := by
  rcases Nat.eq_zero_or_pos a with ha | ha
  · subst ha; rw [roundMag_zero]; exact Nat.zero_le _
  have hc : 0 < c := by
    by_contra hc
    have : c = 0 := by omega
    subst this
    have := Nat.mul_pos ha hd
    omega
  rw [roundMag_eq f a b ha, roundMag_eq f c d hc]
  apply min_le_min_right
  have hb' : (0 : ℝ) < b := by exact_mod_cast hb
  have hd' : (0 : ℝ) < d := by exact_mod_cast hd
  have hle : (a : ℝ) / b ≤ (c : ℝ) / d := by
    rw [div_le_div_iff₀ hb' hd']
    exact_mod_cast h
  have hlog : floorLog2 a b ≤ floorLog2 c d := by
    by_contra hlt
    push Not at hlt
    have h1 := (floorLog2_spec c d hc hd).2
    have h2 := (floorLog2_spec a b ha hb).1
    have h3 : (2 : ℝ) ^ (floorLog2 c d + 1) ≤ (2 : ℝ) ^ floorLog2 a b := zpow_le_zpow_right₀ (by norm_num) hlt
    linarith
  have hquant : f.quantum a b ≤ f.quantum c d := by
    unfold Fmt.quantum; omega
  rcases hquant.lt_or_eq with hq | hq
  · have hbin : f.binade a b + 1 ≤ f.binade c d := by
      have := quantum_eq f a b
      have := quantum_eq f c d
      omega
    have u1 := units_le f a b ha hb
    have u2 := le_units f c d hc hd (by omega)
    rw [pow_succ] at u1
    calc f.binade a b * 2 ^ f.mbits + f.units a b ≤ (f.binade a b + 1) * 2 ^ f.mbits + 2 ^ f.mbits := by
          rw [add_mul]; omega
      _ ≤ f.binade c d * 2 ^ f.mbits + f.units c d := Nat.add_le_add (Nat.mul_le_mul_right _ hbin) u2
  · have hbin : f.binade a b = f.binade c d := by unfold Fmt.binade; rw [hq]
    rw [hbin]
    apply Nat.add_le_add_left
    unfold Fmt.units
    apply roundDivEven_mono _ _ _ _ (units_den_pos f a b hb) (units_den_pos f c d hd)
    rw [hq]
    calc a * 2 ^ (-f.quantum c d).toNat * (d * 2 ^ (f.quantum c d).toNat)
        = (a * d) * (2 ^ (-f.quantum c d).toNat * 2 ^ (f.quantum c d).toNat) := by ring
      _ ≤ (c * b) * (2 ^ (-f.quantum c d).toNat * 2 ^ (f.quantum c d).toNat) := Nat.mul_le_mul_right _ h
      _ = _ := by ring

/-- Rounding does not depend on how a fraction is written. -/
theorem roundMag_congr (f : Fmt) (a b c d : Nat) (hb : 0 < b) (hd : 0 < d) (h : a * d = c * b) :
    f.roundMag a b = f.roundMag c d :=
  le_antisymm (roundMag_mono f a b c d hb hd h.le) (roundMag_mono f c d a b hd hb h.ge)

/-- A positive finite code as binades and units. -/
theorem unpackMag_spec (f : Fmt) (mag : Nat) (hm : 0 < mag) :
    0 < (f.unpackMag mag).1 ∧ f.qmin ≤ (f.unpackMag mag).2 ∧ (f.unpackMag mag).1 < 2 ^ (f.mbits + 1)
    ∧ ((f.unpackMag mag).2 = f.qmin ∨ 2 ^ f.mbits ≤ (f.unpackMag mag).1)
    ∧ mag = ((f.unpackMag mag).2 - f.qmin).toNat * 2 ^ f.mbits + (f.unpackMag mag).1 := by
  have hp : 0 < 2 ^ f.mbits := by positivity
  unfold Fmt.unpackMag
  split
  · rename_i h
    refine ⟨hm, le_rfl, ?_, Or.inl rfl, by simp⟩
    simp only; rw [pow_succ]; omega
  · rename_i h
    have hmod := Nat.mod_lt mag hp
    have hdiv := Nat.div_add_mod mag (2 ^ f.mbits)
    have h1 : 1 ≤ mag / 2 ^ f.mbits := (Nat.one_le_div_iff hp).mpr (by omega)
    refine ⟨by simp only; omega, by simp only; omega, ?_, Or.inr (by simp only; omega), ?_⟩
    · simp only; rw [pow_succ]; omega
    · simp only
      rw [show f.qmin + ((mag / 2 ^ f.mbits : Nat) : Int) - 1 - f.qmin = ((mag / 2 ^ f.mbits - 1 : Nat) : Int) by omega,
        Int.toNat_natCast]
      obtain ⟨k, hk⟩ : ∃ k, mag / 2 ^ f.mbits = k + 1 := ⟨mag / 2 ^ f.mbits - 1, by omega⟩
      rw [hk] at hdiv ⊢
      simp only [Nat.add_sub_cancel]
      nlinarith

theorem fraction_fst_pos (m : Nat) (e : Int) (hm : 0 < m) : 0 < (fraction m e).1 := by
  simp only [fraction]; positivity

theorem units_fraction (f : Fmt) (m : Nat) (e : Int) (hm : 0 < m) (hlt : m < 2 ^ (f.mbits + 1)) (hq : f.qmin ≤ e)
    (hnorm : e = f.qmin ∨ 2 ^ f.mbits ≤ m) :
    f.quantum (fraction m e).1 (fraction m e).2 = e ∧ f.units (fraction m e).1 (fraction m e).2 = m := by
  have hm' : (0 : ℝ) < m := by exact_mod_cast hm
  obtain ⟨l1, l2⟩ := floorLog2_spec _ _ (fraction_fst_pos m e hm) (fraction_den_pos m e)
  rw [fraction_value] at l1 l2
  set g := floorLog2 (fraction m e).1 (fraction m e).2 with hg
  have up : g < e + (f.mbits + 1 : Nat) := by
    by_contra hge
    push Not at hge
    have h1 : (2 : ℝ) ^ (e + (f.mbits + 1 : Nat)) ≤ (2 : ℝ) ^ g := zpow_le_zpow_right₀ (by norm_num) hge
    have h2 : (m : ℝ) < (2 : ℝ) ^ (f.mbits + 1) := by exact_mod_cast hlt
    rw [zpow_add₀ (by norm_num), zpow_natCast] at h1
    have h3 : (m : ℝ) * (2 : ℝ) ^ e < (2 : ℝ) ^ (f.mbits + 1) * (2 : ℝ) ^ e := by gcongr
    linarith [mul_comm ((2 : ℝ) ^ e) ((2 : ℝ) ^ (f.mbits + 1))]
  have hquant : f.quantum (fraction m e).1 (fraction m e).2 = e := by
    unfold Fmt.quantum
    rw [← hg]
    rcases hnorm with h | h
    · push_cast at up; omega
    · have low : e + (f.mbits : Nat) ≤ g := by
        by_contra hlt'
        push Not at hlt'
        have h1 : (2 : ℝ) ^ (g + 1) ≤ (2 : ℝ) ^ (e + (f.mbits : Nat)) := zpow_le_zpow_right₀ (by norm_num) (by omega)
        have h2 : (2 : ℝ) ^ f.mbits ≤ m := by exact_mod_cast h
        rw [zpow_add₀ (by norm_num) e, zpow_natCast] at h1
        have h3 : (2 : ℝ) ^ f.mbits * (2 : ℝ) ^ e ≤ m * (2 : ℝ) ^ e := by gcongr
        linarith [mul_comm ((2 : ℝ) ^ e) ((2 : ℝ) ^ f.mbits)]
      push_cast at up; omega
  refine ⟨hquant, ?_⟩
  unfold Fmt.units
  rw [hquant]
  have : (fraction m e).1 * 2 ^ (-e).toNat = m * ((fraction m e).2 * 2 ^ e.toNat) := by
    simp only [fraction]; ring
  rw [this, roundDivEven_of_dvd _ _ (Nat.mul_pos (fraction_den_pos m e) (by positivity))]

/-- A finite datum is its own rounding. -/
theorem roundMag_unpackMag (f : Fmt) (mag : Nat) (hlt : mag < f.infCode) :
    f.roundMag (fraction (f.unpackMag mag).1 (f.unpackMag mag).2).1 (fraction (f.unpackMag mag).1 (f.unpackMag mag).2).2
      = mag := by
  rcases Nat.eq_zero_or_pos mag with h0 | hpos
  · subst h0
    simp [Fmt.unpackMag, fraction, roundMag_zero]
  · obtain ⟨h1, h2, h3, h4, h5⟩ := unpackMag_spec f mag hpos
    obtain ⟨q, u⟩ := units_fraction f _ _ h1 h3 h2 h4
    rw [roundMag_eq f _ _ (fraction_fst_pos _ _ h1), u]
    unfold Fmt.binade
    rw [q, ← h5]
    omega

/-! ## Data -/

@[simp] theorem Fp.isFinite_ofMag (f : Fmt) (s : Bool) (mag : Nat) :
    (Fp.ofMag f s mag).isFinite = decide (mag < f.infCode) := by
  unfold Fp.ofMag
  split <;> simp_all [Fp.isFinite]

@[simp] theorem Fp.isNaN_ofMag (f : Fmt) (s : Bool) (mag : Nat) : (Fp.ofMag f s mag).isNaN = false := by
  unfold Fp.ofMag
  split <;> simp [Fp.isNaN]

/-- Encoding a datum of the format gives back its sign and code. -/
theorem Fp.encodeBits_ofMag (f : Fmt) (nb : Nat) (s : Bool) (mag : Nat) (h : mag ≤ f.infCode) :
    Fp.encodeBits f nb (Fp.ofMag f s mag) = s.toNat * 2 ^ (f.ebits + f.mbits) + mag := by
  unfold Fp.ofMag
  split
  · rename_i hlt
    simp [Fp.encodeBits, roundMag_unpackMag f mag hlt]
  · have : mag = f.infCode := by omega
    simp [Fp.encodeBits, this]

theorem Fmt.infCode_lt (f : Fmt) : f.infCode < 2 ^ (f.ebits + f.mbits) := by
  unfold Fmt.infCode
  rw [pow_add]
  have : 0 < 2 ^ f.ebits := by positivity
  have : 0 < 2 ^ f.mbits := by positivity
  apply Nat.mul_lt_mul_of_pos_right <;> omega

/-- Decoding a sign and code gives back the datum. -/
theorem Fp.decodeBits_code (f : Fmt) (s : Bool) (mag : Nat) (h : mag ≤ f.infCode) :
    Fp.decodeBits f (s.toNat * 2 ^ (f.ebits + f.mbits) + mag) = Fp.ofMag f s mag := by
  have hlt := f.infCode_lt
  have hp : 0 < 2 ^ (f.ebits + f.mbits) := by positivity
  have e1 : (s.toNat * 2 ^ (f.ebits + f.mbits) + mag) % 2 ^ (f.ebits + f.mbits) = mag := by
    rw [Nat.add_comm, Nat.add_mul_mod_self_right, Nat.mod_eq_of_lt (by omega)]
  have e2 : (s.toNat * 2 ^ (f.ebits + f.mbits) + mag) / 2 ^ (f.ebits + f.mbits) = s.toNat := by
    rw [Nat.add_comm, Nat.add_mul_div_right _ _ hp, Nat.div_eq_of_lt (by omega), zero_add]
  unfold Fp.decodeBits
  simp only [e1, e2, h, if_true]
  cases s <;> simp

/-- A binary32 datum survives being stored and read back. -/
theorem ofF32_toF32_ofMag (nb : Nat) (s : Bool) (mag : Nat) (h : mag ≤ f32.infCode) :
    ofF32 (toF32 nb (Fp.ofMag f32 s mag)) = Fp.ofMag f32 s mag := by
  unfold ofF32 toF32
  rw [Fp.encodeBits_ofMag f32 nb s mag h, BitVec.toNat_ofNat, Nat.mod_eq_of_lt, Fp.decodeBits_code f32 s mag h]
  have : f32.infCode < 2 ^ 31 := by decide
  have : f32.ebits + f32.mbits = 31 := rfl
  rw [this]
  cases s <;> simp <;> omega

/-- Reading a word gives a NaN or a datum of the format. -/
theorem ofF32_cases (w : Word) : ofF32 w = .nan ∨ ∃ s mag, mag ≤ f32.infCode ∧ ofF32 w = Fp.ofMag f32 s mag := by
  unfold ofF32 Fp.decodeBits
  simp only
  split
  · exact Or.inr ⟨_, _, by assumption, rfl⟩
  · exact Or.inl rfl

end Sys2Proof.Machine
end

