-- ==== Sys2Proof/Laws/Datapath.lean ====
section
/-! SUPPORT. What the arithmetic, a stage, a position, a channel chain and a frame can do (spec/41 R150 to R157). -/

namespace Sys2Proof.Machine

/-! ## Data of a format -/

/-- A NaN, or a datum with a magnitude code: what every operation returns. -/
def Fp.inFormat (f : Fmt) (a : Fp) : Prop := a = .nan ∨ ∃ s mag, mag ≤ f.infCode ∧ a = Fp.ofMag f s mag

theorem Fmt.infCode_pos (f : Fmt) (h : 0 < f.ebits) : 0 < f.infCode := by
  unfold Fmt.infCode
  have : 1 < 2 ^ f.ebits := Nat.one_lt_two_pow (by omega)
  exact Nat.mul_pos (by omega) (by positivity)

theorem Fp.inFormat_nan (f : Fmt) : Fp.inFormat f .nan := Or.inl rfl

theorem Fp.inFormat_inf (f : Fmt) (s : Bool) : Fp.inFormat f (.inf s) :=
  Or.inr ⟨s, f.infCode, le_rfl, by simp [Fp.ofMag]⟩

theorem Fp.inFormat_zero (f : Fmt) (h : 0 < f.ebits) (s : Bool) : Fp.inFormat f (.fin s 0 f.qmin) :=
  Or.inr ⟨s, 0, Nat.zero_le _, by simp [Fp.ofMag, Fmt.infCode_pos f h, Fmt.unpackMag]⟩

theorem Fp.inFormat_round (f : Fmt) (s : Bool) (num den : Nat) : Fp.inFormat f (Fp.round f s num den) :=
  Or.inr ⟨s, _, roundMag_le_infCode f num den, rfl⟩

theorem Fp.inFormat_add (f : Fmt) (h : 0 < f.ebits) (a b : Fp) : Fp.inFormat f (Fp.add f a b) := by
  unfold Fp.add
  split
  case h_3 => split <;> [exact Fp.inFormat_inf f _; exact Fp.inFormat_nan f]
  case h_7 =>
    simp only
    split <;> [exact Fp.inFormat_zero f h _; exact Fp.inFormat_round f _ _ _]
  all_goals first | exact Fp.inFormat_nan f | exact Fp.inFormat_inf f _

theorem Fp.inFormat_sub (f : Fmt) (h : 0 < f.ebits) (a b : Fp) : Fp.inFormat f (Fp.sub f a b) := Fp.inFormat_add f h a _

theorem Fp.inFormat_mul (f : Fmt) (a b : Fp) : Fp.inFormat f (Fp.mul f a b) := by
  unfold Fp.mul
  split
  case h_4 => split <;> [exact Fp.inFormat_nan f; exact Fp.inFormat_inf f _]
  case h_6 => split <;> [exact Fp.inFormat_nan f; exact Fp.inFormat_inf f _]
  case h_7 => exact Fp.inFormat_round f _ _ _
  all_goals first | exact Fp.inFormat_nan f | exact Fp.inFormat_inf f _

/-- A finite datum of binary32 is stored as a finite word, which reads back as it. -/
theorem finiteWord_toF32 (nb : Nat) (a : Fp) (h : Fp.inFormat f32 a) (hf : a.isFinite = true) :
    finiteWord (toF32 nb a) = true ∧ ofF32 (toF32 nb a) = a := by
  rcases h with rfl | ⟨s, mag, hm, rfl⟩
  · simp [Fp.isFinite] at hf
  · unfold finiteWord
    rw [ofF32_toF32_ofMag nb s mag hm]
    exact ⟨hf, rfl⟩

/-! ## The stage -/

/-- A stage's output is finite, whatever its coefficients, its registers and its input (R151, R157). -/
theorem stage_y_finite (c : Coefs) (d : Delay) (x : Word) : finiteWord (stage c d x).y = true := by
  unfold stage
  simp only
  split
  · rename_i h
    simp only [Bool.and_eq_true] at h
    exact (finiteWord_toF32 0 _ (Fp.inFormat_add f32 (by decide) _ _) h.1.1.2).1
  · split
    · rename_i hx; exact hx
    · show finiteWord 0 = true
      decide

/-- "The registers never receive a non-finite value" (R151). -/
theorem stage_delay_finite (c : Coefs) (d : Delay) (x : Word) (h0 : finiteWord d.r0 = true) (h1 : finiteWord d.r1 = true) :
    finiteWord (stage c d x).delay.r0 = true ∧ finiteWord (stage c d x).delay.r1 = true := by
  unfold stage
  simp only
  split
  · rename_i h
    simp only [Bool.and_eq_true] at h
    exact ⟨(finiteWord_toF32 0 _ (Fp.inFormat_add f32 (by decide) _ _) h.1.2).1,
      (finiteWord_toF32 0 _ (Fp.inFormat_sub f32 (by decide) _ _) h.2).1⟩
  · exact ⟨h0, h1⟩

/-! ## Positions and chains -/

/-- The registers of a channel are all finite. -/
def finiteDelays (d : Vector Delay 9) : Prop :=
  ∀ pos : Fin 9, finiteWord d[pos].r0 = true ∧ finiteWord d[pos].r1 = true

theorem position_bypassed (cfg : Configuration) (ch : Fin 2) (v : Flow) (pos : Fin 9) (h : cfg.byp[pos] = true) :
    position cfg ch v pos = v := by
  simp [position, h]

theorem position_finiteDelays (cfg : Configuration) (ch : Fin 2) (v : Flow) (pos : Fin 9) (h : finiteDelays v.delay) :
    finiteDelays (position cfg ch v pos).delay := by
  unfold position
  split
  · exact h
  · intro q
    obtain ⟨a, b⟩ := stage_delay_finite cfg.coef[pos] v.delay[pos] v.x (h pos).1 (h pos).2
    by_cases e : pos = q
    · subst e; simpa using And.intro a b
    · have : pos.val ≠ q.val := fun he => e (Fin.ext he)
      simpa [Vector.getElem_set, this] using h q

theorem position_x_finite (cfg : Configuration) (ch : Fin 2) (v : Flow) (pos : Fin 9)
    (h : cfg.byp[pos] = false ∨ finiteWord v.x = true) : finiteWord (position cfg ch v pos).x = true := by
  unfold position
  split
  · simp_all
  · exact stage_y_finite _ _ _

theorem foldl_finiteDelays (cfg : Configuration) (ch : Fin 2) (ps : List (Fin 9)) : ∀ v : Flow, finiteDelays v.delay →
    finiteDelays (ps.foldl (position cfg ch) v).delay := by
  induction ps with
  | nil => intro v h; exact h
  | cons p ps ih => intro v h; exact ih _ (position_finiteDelays cfg ch v p h)

theorem foldl_x_finite (cfg : Configuration) (ch : Fin 2) (ps : List (Fin 9)) : ∀ v : Flow, finiteWord v.x = true →
    finiteWord (ps.foldl (position cfg ch) v).x = true := by
  induction ps with
  | nil => intro v h; exact h
  | cons p ps ih => intro v h; exact ih _ (position_x_finite cfg ch v p (Or.inr h))

/-- "This equals running positions 0..8 in ascending order" (R154). -/
theorem chain_eq_foldl (cfg : Configuration) (ch : Fin 2) (v : Flow) :
    chain cfg ch v = [0, 1, 2, 3, 4, 5, 6, 7, 8].foldl (position cfg ch) v := by
  simp only [chain, lowCascade, highCascade, List.foldl]

theorem chain_finiteDelays (cfg : Configuration) (ch : Fin 2) (v : Flow) (h : finiteDelays v.delay) :
    finiteDelays (chain cfg ch v).delay := by
  rw [chain_eq_foldl]; exact foldl_finiteDelays cfg ch _ v h

/-- A position adds to the FAULT bits it is given and never looks at them. -/
theorem position_fault (cfg : Configuration) (ch : Fin 2) (v : Flow) (f : BitVec 18) (pos : Fin 9) :
    position cfg ch ⟨v.delay, f ||| v.fault, v.x⟩ pos
      = ⟨(position cfg ch v pos).delay, f ||| (position cfg ch v pos).fault, (position cfg ch v pos).x⟩ := by
  unfold position
  split
  · rfl
  · simp only
    split <;> simp [BitVec.or_assoc]

theorem foldl_fault (cfg : Configuration) (ch : Fin 2) (f : BitVec 18) (ps : List (Fin 9)) : ∀ v : Flow,
    ps.foldl (position cfg ch) ⟨v.delay, f ||| v.fault, v.x⟩
      = ⟨(ps.foldl (position cfg ch) v).delay, f ||| (ps.foldl (position cfg ch) v).fault,
         (ps.foldl (position cfg ch) v).x⟩ := by
  induction ps with
  | nil => intro v; rfl
  | cons p ps ih => intro v; rw [List.foldl_cons, position_fault, ih, List.foldl_cons]

/-- A chain adds its own FAULT bits to those it is given. -/
theorem chain_fault (cfg : Configuration) (ch : Fin 2) (d : Vector Delay 9) (f : BitVec 18) (x : Word) :
    chain cfg ch ⟨d, f, x⟩
      = ⟨(chain cfg ch ⟨d, 0, x⟩).delay, f ||| (chain cfg ch ⟨d, 0, x⟩).fault, (chain cfg ch ⟨d, 0, x⟩).x⟩ := by
  have h := foldl_fault cfg ch f [0, 1, 2, 3, 4, 5, 6, 7, 8] ⟨d, 0, x⟩
  rw [← chain_eq_foldl, ← chain_eq_foldl] at h
  simpa using h

/-- The bit of a stage, and no other, is in its FAULT mask (R36, R245). -/
theorem faultBit_getLsbD (ch : Fin 2) (pos : Fin 9) (i : Nat) (hi : i < 18) :
    (faultBit ch pos).getLsbD i = decide (i = ch.val * 9 + pos.val) := by
  obtain ⟨i, rfl⟩ : ∃ j : Fin 18, i = j.val := ⟨⟨i, hi⟩, rfl⟩
  clear hi
  revert ch pos i
  decide +kernel

/-- A channel's chain raises FAULT bits of its own channel only (R155, R245). -/
theorem foldl_fault_other (cfg : Configuration) (ch : Fin 2) (i : Nat) (hi : i < 18) (h : i < ch.val * 9 ∨ ch.val * 9 + 9 ≤ i)
    (ps : List (Fin 9)) : ∀ v : Flow, (ps.foldl (position cfg ch) v).fault.getLsbD i = v.fault.getLsbD i := by
  induction ps with
  | nil => intro v; rfl
  | cons p ps ih =>
    intro v
    rw [List.foldl_cons, ih]
    have hp := p.isLt
    have hb : (faultBit ch p).getLsbD i = false := by
      rw [faultBit_getLsbD ch p i hi]; simp only [decide_eq_false_iff_not]; omega
    unfold position
    split
    · rfl
    · simp only
      split <;> simp [hb]

theorem channelFlow_fault_other (s : State) (ch : Fin 2) (k i : Nat) (hi : i < 18)
    (h : i < ch.val * 9 ∨ ch.val * 9 + 9 ≤ i) : (channelFlow s ch k 0).fault.getLsbD i = false := by
  unfold channelFlow
  rw [chain_eq_foldl, foldl_fault_other _ ch i hi h]
  simp

/-- Both channels' registers are finite when each channel's are. -/
theorem finiteDelays_pair (l r : Vector Delay 9) (hl : finiteDelays l) (hr : finiteDelays r) (ch : Fin 2) (pos : Fin 9) :
    finiteWord #v[l, r][ch][pos].r0 = true ∧ finiteWord #v[l, r][ch][pos].r1 = true := by
  obtain ⟨c, hc⟩ := ch
  have : c = 0 ∨ c = 1 := by omega
  rcases this with rfl | rfl
  · exact hl pos
  · exact hr pos

theorem zeroDelay_finite :
    ∀ (ch : Fin 2) (pos : Fin 9), finiteWord zeroDelay[ch][pos].r0 = true ∧ finiteWord zeroDelay[ch][pos].r1 = true := by
  decide

/-! ## The frame -/

/-- A channel's flow in a state, with the FAULT bits it is given set apart from those it adds. -/
theorem channelFlow_eq (s : State) (ch : Fin 2) (k : Nat) (f : BitVec 18) :
    channelFlow s ch k f
      = ⟨(channelFlow s ch k 0).delay, f ||| (channelFlow s ch k 0).fault, (channelFlow s ch k 0).x⟩ := by
  unfold channelFlow
  rw [chain_fault]

theorem frame_ramA (k : Nat) (s : State) :
    (frame k s).ramA = (s.ramA.storeWord (sampleAddr 0 k) (channelFlow s 0 k 0).x).storeWord (sampleAddr 1 k)
      (channelFlow s 1 k 0).x := by
  have h : (frame k s).ramA = (s.ramA.storeWord (sampleAddr 0 k) (channelFlow s 0 k s.fault).x).storeWord (sampleAddr 1 k)
      (channelFlow s 1 k (channelFlow s 0 k s.fault).fault).x := rfl
  rw [h, channelFlow_eq s 0, channelFlow_eq s 1]

theorem frame_delay (k : Nat) (s : State) :
    (frame k s).delay = #v[(channelFlow s 0 k 0).delay, (channelFlow s 1 k 0).delay] := by
  have h : (frame k s).delay
      = #v[(channelFlow s 0 k s.fault).delay, (channelFlow s 1 k (channelFlow s 0 k s.fault).fault).delay] := rfl
  rw [h, channelFlow_eq s 0, channelFlow_eq s 1]

theorem frame_fault (k : Nat) (s : State) :
    (frame k s).fault = s.fault ||| (channelFlow s 0 k 0).fault ||| (channelFlow s 1 k 0).fault := by
  have h : (frame k s).fault = (channelFlow s 1 k (channelFlow s 0 k s.fault).fault).fault := rfl
  rw [h, channelFlow_eq s 1, channelFlow_eq s 0]

/-- A frame changes registers, FAULT bits and sample words, and nothing else (R156). -/
theorem frame_eq (k : Nat) (s : State) :
    frame k s = { s with delay := (frame k s).delay, fault := (frame k s).fault, ramA := (frame k s).ramA } := by
  conv_lhs => unfold frame State.storeSample
  unfold frame State.storeSample
  rfl

/-- The words at a frame's index are its channels' outputs. -/
theorem frame_sampleWord (k : Nat) (s : State) (hk : k < Config.bufDepth) (ch : Fin 2) :
    (frame k s).sampleWord (sampleAddr ch k) = (channelFlow s ch k 0).x := by
  have hk' : k < 4096 := hk
  unfold State.sampleWord
  rw [frame_ramA]
  obtain ⟨c, hc⟩ := ch
  have : c = 0 ∨ c = 1 := by omega
  rcases this with rfl | rfl
  · rw [Memory.loadWord_storeWord_other _ _ _ _ _ (by simp [sampleAddr]; omega)]
    exact Memory.loadWord_storeWord_same _ _ _ _
  · exact Memory.loadWord_storeWord_same _ _ _ _

/-- Every byte outside the two words at a frame's index is unchanged. -/
theorem frame_sampleByteAt (k : Nat) (s : State) (a : Nat) (h0 : a < sampleAddr 0 k ∨ sampleAddr 0 k + 4 ≤ a)
    (h1 : a < sampleAddr 1 k ∨ sampleAddr 1 k + 4 ≤ a) : (frame k s).sampleByteAt a = s.sampleByteAt a := by
  unfold State.sampleByteAt
  rw [frame_ramA, Memory.byteAt_storeWord_outside _ _ _ _ _ h1, Memory.byteAt_storeWord_outside _ _ _ _ _ h0, frame_run]

/-- Every sample word at another index is unchanged. -/
theorem frame_sampleWord_other (k j : Nat) (s : State) (hk : k < Config.bufDepth) (hj : j < Config.bufDepth) (h : j ≠ k)
    (ch : Fin 2) : (frame k s).sampleWord (sampleAddr ch j) = s.sampleWord (sampleAddr ch j) := by
  have hk' : k < 4096 := hk
  have hj' : j < 4096 := hj
  have hc := ch.isLt
  unfold State.sampleWord
  rw [frame_ramA, Memory.loadWord_storeWord_other _ _ _ _ _ (by simp only [sampleAddr, Fin.val_one]; omega),
    Memory.loadWord_storeWord_other _ _ _ _ _ (by simp only [sampleAddr, Fin.val_zero]; omega), frame_run]

/-- A frame's registers, channel by channel. -/
theorem frame_delay_getElem (k : Nat) (s : State) (ch : Fin 2) : (frame k s).delay[ch] = (channelFlow s ch k 0).delay := by
  rw [frame_delay]
  obtain ⟨c, hc⟩ := ch
  have : c = 0 ∨ c = 1 := by omega
  rcases this with rfl | rfl <;> simp

end Sys2Proof.Machine
end

