-- ==== Sys2Proof/Laws/Block.lean ====
section
/-! SUPPORT. A block in flight: what its steps are, the frames run so far, and runs of the machine of several steps
(spec/42 R182; spec/20 R74). -/

namespace Sys2Proof.Machine

/-! ## Runs -/

theorem run_zero (s : State) : core.run 0 s = .next s := rfl

/-- One more step, after the first. -/
theorem run_step (n : Nat) (s t : State) (h : step s = .next t) : core.run (n + 1) s = core.run n t := by
  have h' : core.step s = .next t := h
  simp only [Host.Core.run, h']

/-- Two runs, one after the other. -/
theorem run_add (a b : Nat) (s u : State) (h : core.run a s = .next u) : core.run (a + b) s = core.run b u := by
  induction a generalizing s with
  | zero =>
    have : s = u := by rw [run_zero] at h; exact (Host.Outcome.next.injEq _ _).mp h
    rw [this, Nat.zero_add]
  | succ a ih =>
    rw [show a + 1 + b = (a + b) + 1 by omega]
    cases hs : step s with
    | next t =>
      rw [run_step _ _ _ hs] at h ⊢
      exact ih t h
    | fault r => exact r.rec
    | refused r =>
      have h' : core.step s = .refused r := hs
      simp only [Host.Core.run, h'] at h
      exact absurd h (by simp)

/-- One more step, after a run. -/
theorem run_succ (n : Nat) (s u t : State) (h : core.run n s = .next u) (hs : step u = .next t) :
    core.run (n + 1) s = .next t := by
  rw [run_add n 1 s u h, run_step 0 u t hs, run_zero]

/-! ## Steps of a block -/

theorem blockStep_frame (s : State) (h : s.blk.k < s.blk.n) : blockStep s = advanceBlock (frame s.blk.k s) := by
  unfold blockStep; rw [if_pos h]

theorem blockStep_end (s : State) (h : s.blk.n ≤ s.blk.k) : blockStep s = reply .a .done (endBlock s) := by
  unfold blockStep; rw [if_neg (by omega)]

/-- Agent A's turn while a block is in flight. -/
theorem step_block (s : State) (ts : List Turn) (h : s.turns = .a :: ts) (hb : s.blk.busy = true) :
    step s = .next (blockStep { s with turns := ts }) := by
  simp only [step, h, audioTurn, hb, if_true]

/-! ## Frames -/

theorem framesRun_zero (s : State) : framesRun 0 s = s := rfl

theorem framesRun_succ (n : Nat) (s : State) : framesRun (n + 1) s = advanceBlock (frame n (framesRun n s)) := by
  unfold framesRun; rw [List.range_succ, List.foldl_append]; rfl

/-- A frame does not look at the bus side of the state, nor at BLK. -/
theorem frame_bus (k : Nat) (s : State) (ts : List Turn) (b : Blk) (qa qc : List Txn) (ra rc : List Reply) :
    frame k { s with turns := ts, blk := b, pendingA := qa, pendingC := qc, repliesA := ra, repliesC := rc }
      = { frame k s with turns := ts, blk := b, pendingA := qa, pendingC := qc, repliesA := ra, repliesC := rc } := by
  unfold frame channelFlow State.sampleWord State.storeSample
  rfl

theorem frame_queued (k : Nat) (s : State) (ts : List Turn) (qa qc : List Txn) :
    frame k (s.queued ts qa qc) = (frame k s).queued ts qa qc := by
  have h1 := frame_blk k s
  have h2 := frame_repliesA k s
  have h3 := frame_repliesC k s
  refine (frame_bus k s ts s.blk qa qc s.repliesA s.repliesC).trans ?_
  generalize frame k s = F at h1 h2 h3 ⊢
  rw [← h1, ← h2, ← h3]
  rfl

theorem advanceBlock_queued (s : State) (ts : List Turn) (qa qc : List Txn) :
    advanceBlock (s.queued ts qa qc) = (advanceBlock s).queued ts qa qc := rfl

/-- A block's step neither looks at the schedule nor at what is pending. -/
theorem blockStep_queued (s : State) (ts : List Turn) (qa qc : List Txn) :
    blockStep (s.queued ts qa qc) = (blockStep s).queued ts qa qc := by
  rcases Nat.lt_or_ge s.blk.k s.blk.n with h | h
  · rw [blockStep_frame s h, ← advanceBlock_queued, ← frame_queued]
    exact blockStep_frame (s.queued ts qa qc) h
  · rw [blockStep_end s h]
    exact blockStep_end (s.queued ts qa qc) h

theorem framesRun_bus (n : Nat) (s : State) :
    (framesRun n s).turns = s.turns ∧ (framesRun n s).pendingA = s.pendingA ∧ (framesRun n s).repliesA = s.repliesA
    ∧ (framesRun n s).blk = { s.blk with k := s.blk.k + n } := by
  induction n with
  | zero => exact ⟨rfl, rfl, rfl, rfl⟩
  | succ n ih =>
    obtain ⟨h1, h2, h3, h4⟩ := ih
    rw [framesRun_succ]
    simp only [advanceBlock_turns, advanceBlock_pendingA, advanceBlock_repliesA, frame_turns, frame_pendingA,
      frame_repliesA]
    refine ⟨h1, h2, h3, ?_⟩
    simp only [advanceBlock, frame_blk, h4, Nat.add_assoc]

/-- The frames of a block do not look at the schedule. -/
theorem framesRun_turns (n : Nat) (s : State) (ts : List Turn) :
    framesRun n { s with turns := ts } = { framesRun n s with turns := ts } := by
  induction n with
  | zero => rfl
  | succ n ih =>
    rw [framesRun_succ, framesRun_succ, ih]
    generalize framesRun n s = F
    have h := frame_bus n F ts F.blk F.pendingA F.pendingC F.repliesA F.repliesC
    have e : frame n { F with turns := ts } = { frame n F with turns := ts } := by
      rw [h]
      have hb := frame_eq n F
      generalize frame n F = G at *
      rw [hb]
    rw [e]
    rfl

end Sys2Proof.Machine
end

