-- ==== Sys2Proof/Laws/Bounds.lean ====
section
/-! SUPPORT. Real bounds through roundings: an operation whose exact result lies between two numbers of the format
answers a finite datum between them (spec/00_scope.md R13). -/

namespace Sys2Proof.Machine

/-- A finite datum whose real value lies between two bounds. -/
def Fp.within (a : Fp) (lo hi : ℝ) : Prop := a.isFinite = true ∧ lo ≤ a.toReal ∧ a.toReal ≤ hi

/-- `r` is the rounding of the real number `v`, which is a fraction. -/
def Fmt.rounds (f : Fmt) (v : ℝ) (r : Fp) : Prop :=
  ∃ (s : Bool) (num den : Nat), 0 < den ∧ v = (if s then -1 else 1) * ((num : ℝ) / den) ∧ r = Fp.round f s num den

/-- The real number `v` is, up to its sign, a finite datum of the format. -/
def Fmt.has (f : Fmt) (v : ℝ) : Prop := ∃ mag, mag < f.infCode ∧ f.magValue mag = |v|

theorem Fp.within.mono {a : Fp} {lo hi lo' hi' : ℝ} (h : a.within lo hi) (h1 : lo' ≤ lo) (h2 : hi ≤ hi') :
    a.within lo' hi' := ⟨h.1, h1.trans h.2.1, h.2.2.trans h2⟩

/-! ## The numbers of a format -/

theorem magValue_nonneg (f : Fmt) (mag : Nat) : 0 ≤ f.magValue mag := by unfold Fmt.magValue; positivity

theorem magValue_eq_fraction (f : Fmt) (mag : Nat) :
    f.magValue mag = ((fraction (f.unpackMag mag).1 (f.unpackMag mag).2).1 : ℝ)
      / (fraction (f.unpackMag mag).1 (f.unpackMag mag).2).2 := (fraction_value _ _).symm

/-- A fraction at or below a number of the format rounds to a code at or below its code. -/
theorem roundMag_le_of_le (f : Fmt) (num den mag : Nat) (hd : 0 < den) (hm : mag < f.infCode)
    (h : (num : ℝ) / den ≤ f.magValue mag) : f.roundMag num den ≤ mag := by
  have hd' : (0 : ℝ) < den := by exact_mod_cast hd
  have hfd := fraction_den_pos (f.unpackMag mag).1 (f.unpackMag mag).2
  rw [magValue_eq_fraction, div_le_div_iff₀ hd' (by exact_mod_cast hfd)] at h
  rw [← roundMag_unpackMag f mag hm]
  exact roundMag_mono f _ _ _ _ hd hfd (by exact_mod_cast h)

/-- A fraction at or above a number of the format rounds to a code at or above its code. -/
theorem le_roundMag_of_le (f : Fmt) (num den mag : Nat) (hd : 0 < den) (hm : mag < f.infCode)
    (h : f.magValue mag ≤ (num : ℝ) / den) : mag ≤ f.roundMag num den := by
  have hd' : (0 : ℝ) < den := by exact_mod_cast hd
  have hfd := fraction_den_pos (f.unpackMag mag).1 (f.unpackMag mag).2
  rw [magValue_eq_fraction, div_le_div_iff₀ (by exact_mod_cast hfd) hd'] at h
  rw [← roundMag_unpackMag f mag hm]
  exact roundMag_mono f _ _ _ _ hfd hd (by exact_mod_cast h)

/-- Codes are in rising order of their values. -/
theorem magValue_mono (f : Fmt) {a b : Nat} (hb : b < f.infCode) (h : a ≤ b) : f.magValue a ≤ f.magValue b := by
  by_contra hlt
  push Not at hlt
  have hfd := fraction_den_pos (f.unpackMag b).1 (f.unpackMag b).2
  have hba := roundMag_le_of_le f (fraction (f.unpackMag a).1 (f.unpackMag a).2).1
    (fraction (f.unpackMag a).1 (f.unpackMag a).2).2 a (fraction_den_pos _ _) (by omega)
    (by rw [← magValue_eq_fraction])
  have hab := roundMag_le_of_le f (fraction (f.unpackMag b).1 (f.unpackMag b).2).1
    (fraction (f.unpackMag b).1 (f.unpackMag b).2).2 a hfd (by omega) (by rw [← magValue_eq_fraction]; exact hlt.le)
  rw [roundMag_unpackMag f b hb] at hab
  have : a = b := le_antisymm h hab
  subst this
  exact lt_irrefl _ hlt

theorem Fp.toReal_ofMag (f : Fmt) (s : Bool) (mag : Nat) (h : mag < f.infCode) :
    (Fp.ofMag f s mag).toReal = (if s then -1 else 1) * f.magValue mag := by
  rw [Fp.ofMag, if_pos h]; rfl

theorem Fmt.has_neg {f : Fmt} {v : ℝ} (h : f.has v) : f.has (-v) := by
  obtain ⟨mag, hm, hv⟩ := h
  exact ⟨mag, hm, by rw [abs_neg]; exact hv⟩

/-- A power of two in binary32's normal range. -/
theorem f32_has_zpow (k : Int) (h1 : -126 ≤ k) (h2 : k ≤ 127) : f32.has ((2 : ℝ) ^ k) := by
  have hinf : f32.infCode = 255 * 2 ^ 23 := by decide
  obtain ⟨j, hj⟩ : ∃ j : Nat, k = (j : Int) - 127 := ⟨(k + 127).toNat, by omega⟩
  refine ⟨j * 2 ^ 23, by rw [hinf]; omega, ?_⟩
  have hq : f32.qmin = -149 := by decide
  have hb : ¬ (j * 2 ^ 23 < 2 ^ f32.mbits) := by show ¬ (j * 2 ^ 23 < 2 ^ 23); omega
  have hdiv : j * 2 ^ 23 / 2 ^ f32.mbits = j := by show j * 2 ^ 23 / 2 ^ 23 = j; omega
  have hmod : j * 2 ^ 23 % 2 ^ f32.mbits = 0 := by show j * 2 ^ 23 % 2 ^ 23 = 0; omega
  unfold Fmt.magValue Fmt.unpackMag
  rw [if_neg hb, hdiv, hmod, hq, abs_of_pos (by positivity)]
  show ((2 ^ 23 + 0 : Nat) : ℝ) * (2 : ℝ) ^ (-149 + (j : Int) - 1) = (2 : ℝ) ^ k
  rw [hj, show ((2 ^ 23 + 0 : Nat) : ℝ) = (2 : ℝ) ^ (23 : Int) by norm_num, ← zpow_add₀ (by norm_num)]
  congr 1; ring

theorem f32_has_pow (k : Nat) (h : k ≤ 127) : f32.has ((2 : ℝ) ^ k) := by
  have := f32_has_zpow k (by omega) (by omega)
  rwa [zpow_natCast] at this

theorem f32_has_inv_pow (k : Nat) (h : k ≤ 126) : f32.has (1 / (2 : ℝ) ^ k) := by
  have := f32_has_zpow (-(k : Int)) (by omega) (by omega)
  rwa [zpow_neg, zpow_natCast, ← one_div] at this

theorem f32_has_one : f32.has 1 := by simpa using f32_has_pow 0 (by omega)

/-! ## Rounding between bounds -/

/-- The rounding of a number between two numbers of the format is finite and between them. -/
theorem Fmt.rounds.within {f : Fmt} {v : ℝ} {r : Fp} (h : f.rounds v r) {lo hi : ℝ} (hlo : f.has lo) (hhi : f.has hi)
    (h1 : lo ≤ v) (h2 : v ≤ hi) : r.within lo hi := by
  obtain ⟨s, num, den, hd, hv, rfl⟩ := h
  obtain ⟨ml, hml, el⟩ := hlo
  obtain ⟨mh, hmh, eh⟩ := hhi
  have hn : (0 : ℝ) ≤ (num : ℝ) / den := by positivity
  unfold Fp.round
  cases s with
  | false =>
    simp only [Bool.false_eq_true, if_false, one_mul] at hv
    rw [abs_of_nonneg (by linarith : (0 : ℝ) ≤ hi)] at eh
    have hle := roundMag_le_of_le f num den mh hd hmh (by rw [eh, ← hv]; exact h2)
    have hfin : f.roundMag num den < f.infCode := by omega
    refine ⟨by simp [hfin], ?_, ?_⟩ <;> rw [Fp.toReal_ofMag f _ _ hfin] <;>
      simp only [Bool.false_eq_true, if_false, one_mul]
    · rcases le_total lo 0 with hl | hl
      · exact hl.trans (magValue_nonneg _ _)
      · rw [abs_of_nonneg hl] at el
        rw [← el]
        exact magValue_mono f hfin (le_roundMag_of_le f num den ml hd hml (by rw [el, ← hv]; exact h1))
    · rw [← eh]; exact magValue_mono f hmh hle
  | true =>
    simp only [if_true] at hv
    rw [abs_of_nonpos (by linarith : lo ≤ 0)] at el
    have hle := roundMag_le_of_le f num den ml hd hml (by rw [el]; linarith)
    have hfin : f.roundMag num den < f.infCode := by omega
    refine ⟨by simp [hfin], ?_, ?_⟩ <;> rw [Fp.toReal_ofMag f _ _ hfin] <;> simp only [if_true]
    · have := magValue_mono f hml hle
      rw [el] at this; linarith
    · rcases le_total 0 hi with hh | hh
      · have := magValue_nonneg f (f.roundMag num den); linarith
      · rw [abs_of_nonpos hh] at eh
        have := magValue_mono f hfin (le_roundMag_of_le f num den mh hd hmh (by rw [eh]; linarith))
        rw [eh] at this; linarith

/-- The relative error of a rounding in binary32's normal range. -/
theorem f32_rounds_le {v : ℝ} {r : Fp} (h : f32.rounds v r) (hv : (2 : ℝ) ^ (-126 : Int) ≤ v) (hr : r.isFinite = true) :
    r.toReal ≤ v * (1 + 1 / 2 ^ 24) := by
  obtain ⟨s, num, den, hd, hv', rfl⟩ := h
  have hv0 : 0 < v := lt_of_lt_of_le (by positivity) hv
  have hn0 : (0 : ℝ) ≤ (num : ℝ) / den := by positivity
  have hs : s = false := by
    cases s with
    | false => rfl
    | true => simp only [if_true] at hv'; linarith
  subst hs
  simp only [Bool.false_eq_true, if_false, one_mul] at hv'
  have hn : 0 < num := by
    rcases Nat.eq_zero_or_pos num with h0 | h0
    · subst h0; simp at hv'; linarith
    · exact h0
  rw [Fp.round, Fp.isFinite_ofMag, decide_eq_true_eq] at hr
  rw [Fp.round, Fp.toReal_ofMag f32 _ _ hr, (roundMag_value f32 num den hn hd hr).2]
  simp only [Bool.false_eq_true, if_false, one_mul]
  have hu := (roundDivEven_spec (num * 2 ^ (-f32.quantum num den).toNat) (den * 2 ^ (f32.quantum num den).toNat)
    (units_den_pos f32 num den hd)).2.1
  change 2 * f32.units num den * (den * 2 ^ (f32.quantum num den).toNat)
    ≤ 2 * (num * 2 ^ (-f32.quantum num den).toNat) + den * 2 ^ (f32.quantum num den).toNat at hu
  set Q := f32.quantum num den with hQ
  obtain ⟨l1, l2⟩ := floorLog2_spec num den hn hd
  rw [← hv'] at l1 l2
  have hg : -126 ≤ floorLog2 num den := by
    by_contra hlt
    have : (2 : ℝ) ^ (floorLog2 num den + 1) ≤ (2 : ℝ) ^ (-126 : Int) := zpow_le_zpow_right₀ (by norm_num) (by omega)
    linarith
  have hq : Q = floorLog2 num den - 23 := by
    rw [hQ]; unfold Fmt.quantum
    have : f32.qmin = -149 := by decide
    have hm : (f32.mbits : Int) = 23 := by decide
    omega
  have hd' : (0 : ℝ) < den := by exact_mod_cast hd
  have hz := zpow_split Q
  have hA : (0 : ℝ) < ((2 ^ (-Q).toNat : Nat) : ℝ) := by positivity
  have hu' : 2 * (f32.units num den : ℝ) * (den * ((2 ^ Q.toNat : Nat) : ℝ))
      ≤ 2 * (num * ((2 ^ (-Q).toNat : Nat) : ℝ)) + den * ((2 ^ Q.toNat : Nat) : ℝ) := by exact_mod_cast hu
  rw [← hz] at hu'
  have hmain : 2 * (f32.units num den : ℝ) * (2 : ℝ) ^ Q ≤ 2 * v + (2 : ℝ) ^ Q := by
    rw [hv']
    have e1 : 2 * (f32.units num den : ℝ) * (den * ((2 : ℝ) ^ Q * ((2 ^ (-Q).toNat : Nat) : ℝ)))
      = (2 * (f32.units num den : ℝ) * (2 : ℝ) ^ Q) * (den * ((2 ^ (-Q).toNat : Nat) : ℝ)) := by ring
    have e2 : 2 * (num * ((2 ^ (-Q).toNat : Nat) : ℝ)) + den * ((2 : ℝ) ^ Q * ((2 ^ (-Q).toNat : Nat) : ℝ))
      = (2 * ((num : ℝ) / den) + (2 : ℝ) ^ Q) * (den * ((2 ^ (-Q).toNat : Nat) : ℝ)) := by field_simp
    rw [e1, e2] at hu'
    exact le_of_mul_le_mul_right hu' (by positivity)
  have hQv : (2 : ℝ) ^ Q ≤ v * (2 / 2 ^ 24) := by
    rw [hq, zpow_sub₀ (by norm_num)]
    have : (2 : ℝ) ^ (23 : Int) = 2 ^ 23 := by norm_num
    rw [this]
    have := l1
    rw [div_le_iff₀ (by positivity)]
    nlinarith
  linarith

/-! ## The operations round their exact results -/

theorem rounds_zero (f : Fmt) (hinf : 0 < f.infCode) (s : Bool) : f.rounds 0 (.fin s 0 f.qmin) := by
  refine ⟨s, 0, 1, one_pos, by simp, ?_⟩
  have hp : 0 < 2 ^ f.mbits := by positivity
  rw [Fp.round, roundMag_zero, Fp.ofMag, if_pos hinf, Fmt.unpackMag, if_pos hp]

theorem f32_infCode_pos : 0 < f32.infCode := by decide

/-- A signed integer at a common exponent is the datum's value there. -/
theorem aligned_value (s : Bool) (m : Nat) (e base : Int) (h : base ≤ e) :
    (Fp.aligned s m e base : ℝ) * (2 : ℝ) ^ base = (Fp.fin s m e).toReal := by
  have hz : (2 : ℝ) ^ e = (2 : ℝ) ^ (e - base).toNat * (2 : ℝ) ^ base := by
    rw [← zpow_natCast, ← zpow_add₀ (by norm_num), Int.toNat_of_nonneg (by omega)]
    congr 1; ring
  simp only [Fp.aligned, Fp.toReal, hz]
  cases s <;> simp <;> ring

theorem rounds_add (f : Fmt) (hf : 0 < f.infCode) (a b : Fp) (ha : a.isFinite = true) (hb : b.isFinite = true) :
    f.rounds (a.toReal + b.toReal) (Fp.add f a b) := by
  cases a with
  | nan => simp [Fp.isFinite] at ha
  | inf s => simp [Fp.isFinite] at ha
  | fin s m e =>
    cases b with
    | nan => simp [Fp.isFinite] at hb
    | inf t => simp [Fp.isFinite] at hb
    | fin t n d =>
      have h1 := aligned_value s m e (min e d) (min_le_left _ _)
      have h2 := aligned_value t n d (min e d) (min_le_right _ _)
      rw [← h1, ← h2, ← add_mul]
      simp only [Fp.add]
      split
      · rename_i hz
        rw [← Int.cast_add, hz, Int.cast_zero, zero_mul]
        exact rounds_zero _ hf _
      · refine ⟨_, _, _, fraction_den_pos _ _, ?_, rfl⟩
        rw [fraction_value, ← Int.cast_add]
        generalize Fp.aligned s m e (min e d) + Fp.aligned t n d (min e d) = z
        rcases lt_or_ge z 0 with hz | hz
        · rw [Nat.cast_natAbs, abs_of_neg hz]; simp [hz]
        · rw [Nat.cast_natAbs, abs_of_nonneg hz]; simp [not_lt.mpr hz]

theorem Fp.toReal_neg (a : Fp) : a.neg.toReal = -a.toReal := by
  cases a with
  | nan => simp [Fp.neg, Fp.toReal]
  | inf s => simp [Fp.neg, Fp.toReal]
  | fin s m e => cases s <;> simp [Fp.neg, Fp.toReal]

@[simp] theorem Fp.isFinite_neg (a : Fp) : a.neg.isFinite = a.isFinite := by cases a <;> rfl

theorem rounds_sub (f : Fmt) (hf : 0 < f.infCode) (a b : Fp) (ha : a.isFinite = true) (hb : b.isFinite = true) :
    f.rounds (a.toReal - b.toReal) (Fp.sub f a b) := by
  have := rounds_add f hf a b.neg ha (by rw [Fp.isFinite_neg]; exact hb)
  rwa [Fp.toReal_neg, ← sub_eq_add_neg] at this

theorem rounds_mul (f : Fmt) (a b : Fp) (ha : a.isFinite = true) (hb : b.isFinite = true) :
    f.rounds (a.toReal * b.toReal) (Fp.mul f a b) := by
  cases a with
  | nan => simp [Fp.isFinite] at ha
  | inf s => simp [Fp.isFinite] at ha
  | fin s m e =>
    cases b with
    | nan => simp [Fp.isFinite] at hb
    | inf t => simp [Fp.isFinite] at hb
    | fin t n d =>
      refine ⟨_, _, _, fraction_den_pos _ _, ?_, rfl⟩
      rw [fraction_value, zpow_add₀ (by norm_num)]
      simp only [Fp.toReal]
      cases s <;> cases t <;> push_cast <;> simp <;> ring

theorem rounds_div (f : Fmt) (a b : Fp) (ha : a.isFinite = true) (hb : b.isFinite = true) (h0 : b.toReal ≠ 0) :
    f.rounds (a.toReal / b.toReal) (Fp.div f a b) := by
  cases a with
  | nan => simp [Fp.isFinite] at ha
  | inf s => simp [Fp.isFinite] at ha
  | fin s m e =>
    cases b with
    | nan => simp [Fp.isFinite] at hb
    | inf t => simp [Fp.isFinite] at hb
    | fin t n d =>
      have hn : n ≠ 0 := by rintro rfl; simp [Fp.toReal] at h0
      simp only [Fp.div, if_neg hn]
      refine ⟨_, _, _, Nat.mul_pos (fraction_den_pos _ _) (by omega), ?_, rfl⟩
      have hn' : (n : ℝ) ≠ 0 := by exact_mod_cast hn
      rw [Nat.cast_mul, ← div_div, fraction_value, zpow_sub₀ (by norm_num)]
      simp only [Fp.toReal]
      have h2 : (2 : ℝ) ^ d ≠ 0 := by positivity
      cases s <;> cases t <;> simp <;> field_simp

/-! ## The operations between bounds -/

section
variable {a b : Fp} {la ha lb hb lo hi : ℝ}

theorem add32_within (h1 : a.within la ha) (h2 : b.within lb hb) (r1 : f32.has lo) (r2 : f32.has hi)
    (l : lo ≤ la + lb) (u : ha + hb ≤ hi) : (add32 a b).within lo hi :=
  (rounds_add f32 f32_infCode_pos a b h1.1 h2.1).within r1 r2 (by linarith [h1.2.1, h2.2.1]) (by linarith [h1.2.2, h2.2.2])

theorem sub32_within (h1 : a.within la ha) (h2 : b.within lb hb) (r1 : f32.has lo) (r2 : f32.has hi)
    (l : lo ≤ la - hb) (u : ha - lb ≤ hi) : (sub32 a b).within lo hi :=
  (rounds_sub f32 f32_infCode_pos a b h1.1 h2.1).within r1 r2 (by linarith [h1.2.1, h2.2.2]) (by linarith [h1.2.2, h2.2.1])

/-- A product of positive data. -/
theorem mul32_within (h1 : a.within la ha) (h2 : b.within lb hb) (r1 : f32.has lo) (r2 : f32.has hi)
    (pa : 0 ≤ la) (pb : 0 ≤ lb) (l : lo ≤ la * lb) (u : ha * hb ≤ hi) : (mul32 a b).within lo hi :=
  (rounds_mul f32 a b h1.1 h2.1).within r1 r2 (l.trans (mul_le_mul h1.2.1 h2.2.1 pb (pa.trans h1.2.1)))
    ((mul_le_mul h1.2.2 h2.2.2 (pb.trans h2.2.1) (pa.trans (h1.2.1.trans h1.2.2))).trans u)

/-- A product of data of any sign. -/
theorem mul32_within_abs (h1 : a.within (-ha) ha) (h2 : b.within (-hb) hb) (r : f32.has hi) (u : ha * hb ≤ hi) :
    (mul32 a b).within (-hi) hi := by
  have e1 := abs_le.mpr ⟨h1.2.1, h1.2.2⟩
  have e2 := abs_le.mpr ⟨h2.2.1, h2.2.2⟩
  have e : |a.toReal * b.toReal| ≤ hi := by
    rw [abs_mul]
    exact (mul_le_mul e1 e2 (abs_nonneg _) ((abs_nonneg _).trans e1)).trans u
  exact (rounds_mul f32 a b h1.1 h2.1).within (Fmt.has_neg r) r (abs_le.mp e).1 (abs_le.mp e).2

/-- A quotient of positive data. -/
theorem div32_within (h1 : a.within la ha) (h2 : b.within lb hb) (r1 : f32.has lo) (r2 : f32.has hi)
    (pb : 0 < lb) (l : lo * hb ≤ la) (u : ha ≤ hi * lb) (ph : 0 ≤ hi) (pl : 0 ≤ lo) :
    (div32 a b).within lo hi := by
  have hb0 : 0 < b.toReal := pb.trans_le h2.2.1
  refine (rounds_div f32 a b h1.1 h2.1 hb0.ne').within r1 r2 ?_ ?_
  · rw [le_div_iff₀ hb0]; nlinarith [h1.2.1, h2.2.2]
  · rw [div_le_iff₀ hb0]; nlinarith [h1.2.2, h2.2.1]

/-- A quotient of any datum by a positive one. -/
theorem div32_within_abs (h1 : a.within (-ha) ha) (h2 : b.within lb hb) (r : f32.has hi) (pb : 0 < lb) (u : ha ≤ hi * lb)
    (ph : 0 ≤ hi) : (div32 a b).within (-hi) hi := by
  have hb0 : 0 < b.toReal := pb.trans_le h2.2.1
  refine (rounds_div f32 a b h1.1 h2.1 hb0.ne').within (Fmt.has_neg r) r ?_ ?_
  · rw [le_div_iff₀ hb0]; nlinarith [h1.2.1, h2.2.1]
  · rw [div_le_iff₀ hb0]; nlinarith [h1.2.2, h2.2.1]

theorem neg_within (h : a.within lo hi) : a.neg.within (-hi) (-lo) := by
  refine ⟨by rw [Fp.isFinite_neg]; exact h.1, ?_, ?_⟩ <;> rw [Fp.toReal_neg] <;> linarith [h.2.1, h.2.2]

end

/-! ## Square roots -/

/-- The digits of the integer square root found so far never pass it, and fall short of it by less than the digits left. -/
theorem isqrtLoop_spec (n : Nat) : ∀ k r, r * r ≤ n → n < (r + 2 ^ k) * (r + 2 ^ k) →
    Fp.isqrtLoop n k r * Fp.isqrtLoop n k r ≤ n ∧ n < (Fp.isqrtLoop n k r + 1) * (Fp.isqrtLoop n k r + 1) := by
  intro k
  induction k with
  | zero => intro r h1 h2; exact ⟨h1, by simpa [Fp.isqrtLoop] using h2⟩
  | succ k ih =>
    intro r h1 h2
    unfold Fp.isqrtLoop
    split
    · rename_i h
      refine ih _ h ?_
      rw [add_assoc, ← two_mul, ← pow_succ']; exact h2
    · rename_i h
      exact ih _ h1 (by omega)

theorem isqrt_spec (n : Nat) : Fp.isqrt n * Fp.isqrt n ≤ n ∧ n < (Fp.isqrt n + 1) * (Fp.isqrt n + 1) := by
  refine isqrtLoop_spec n _ 0 (by simp) ?_
  rw [zero_add, ← pow_add]
  exact Nat.lt_log2_self.trans_le (Nat.pow_le_pow_right (by omega) (by omega))

/-- A square root of a positive datum lies within a factor 2 of the exact one. -/
theorem sqrt32_within {a : Fp} {la ha lo hi : ℝ} (h : a.within (la * la) (ha * ha)) (p : 0 < la) (ph : 0 ≤ ha)
    (r1 : f32.has lo) (r2 : f32.has hi) (l : lo ≤ la / 2) (u : 2 * ha ≤ hi) : (sqrt32 a).within lo hi := by
  obtain ⟨hfin, h1, h2⟩ := h
  have hpos : 0 < a.toReal := lt_of_lt_of_le (by positivity) h1
  cases a with
  | nan => simp [Fp.isFinite] at hfin
  | inf s => simp [Fp.isFinite] at hfin
  | fin s m e =>
    have hm : m ≠ 0 := by rintro rfl; simp [Fp.toReal] at hpos
    have hs : s = false := by
      cases s with
      | false => rfl
      | true =>
        have : (0 : ℝ) ≤ m * (2 : ℝ) ^ e := by positivity
        simp only [Fp.toReal, if_true] at hpos
        linarith
    subst hs
    simp only [Fp.toReal, Bool.false_eq_true, if_false, one_mul] at h1 h2
    simp only [sqrt32, Fp.sqrt, if_neg hm, Bool.false_eq_true, if_false]
    set odd := (e % 2).toNat with hodd
    set n := m * 2 ^ (2 * (f32.mbits + 3) + odd) with hn
    set d : Int := (e - odd) / 2 - (f32.mbits + 3) with hd
    have ed : e = 2 * d + (2 * (f32.mbits + 3) + odd : Nat) := by push_cast; omega
    obtain ⟨s1, s2⟩ := isqrt_spec n
    set r := Fp.isqrt n
    have hn1 : 1 ≤ n := Nat.one_le_iff_ne_zero.mpr (by rw [hn]; positivity)
    have hr : 1 ≤ r := by
      by_contra hlt
      have : r = 0 := by omega
      rw [this] at s2; omega
    -- the exact square is `n * 2 ^ (2 d)`
    have hz : (2 : ℝ) ^ d > 0 := by positivity
    have hv : (m : ℝ) * (2 : ℝ) ^ e = n * ((2 : ℝ) ^ d * (2 : ℝ) ^ d) := by
      rw [hn, ed, zpow_add₀ (by norm_num), zpow_natCast, two_mul, zpow_add₀ (by norm_num)]
      push_cast; ring
    have hlow : la ≤ (r + 1) * (2 : ℝ) ^ d := by
      have : (n : ℝ) < ((r : ℝ) + 1) * (r + 1) := by exact_mod_cast s2
      by_contra hlt
      push Not at hlt
      have : (n : ℝ) * ((2 : ℝ) ^ d * (2 : ℝ) ^ d) < la * la := by
        calc (n : ℝ) * ((2 : ℝ) ^ d * (2 : ℝ) ^ d) ≤ ((r : ℝ) + 1) * (r + 1) * ((2 : ℝ) ^ d * (2 : ℝ) ^ d) := by gcongr
          _ = ((r + 1) * (2 : ℝ) ^ d) * ((r + 1) * (2 : ℝ) ^ d) := by ring
          _ < la * la := mul_self_lt_mul_self (by positivity) hlt
      linarith [hv ▸ h1]
    have hhigh : r * (2 : ℝ) ^ d ≤ ha := by
      have : (r : ℝ) * r ≤ n := by exact_mod_cast s1
      by_contra hlt
      push Not at hlt
      have : ha * ha < (n : ℝ) * ((2 : ℝ) ^ d * (2 : ℝ) ^ d) := by
        calc ha * ha < (r * (2 : ℝ) ^ d) * (r * (2 : ℝ) ^ d) := mul_self_lt_mul_self ph hlt
          _ = (r : ℝ) * r * ((2 : ℝ) ^ d * (2 : ℝ) ^ d) := by ring
          _ ≤ n * ((2 : ℝ) ^ d * (2 : ℝ) ^ d) := by gcongr
      linarith [hv ▸ h2]
    have hr' : (1 : ℝ) ≤ r := by exact_mod_cast hr
    have key : ∀ st : Nat, st ≤ 1 →
        f32.rounds (((2 * r + st : Nat) : ℝ) * (2 : ℝ) ^ (d - 1))
          (Fp.round f32 false (fraction (2 * r + st) (d - 1)).1 (fraction (2 * r + st) (d - 1)).2) := by
      intro st _
      exact ⟨false, _, _, fraction_den_pos _ _, by rw [fraction_value]; simp, rfl⟩
    have bounds : ∀ st : Nat, st ≤ 1 →
        lo ≤ ((2 * r + st : Nat) : ℝ) * (2 : ℝ) ^ (d - 1) ∧ ((2 * r + st : Nat) : ℝ) * (2 : ℝ) ^ (d - 1) ≤ hi := by
      intro st hst
      have hst' : (st : ℝ) ≤ 1 := by exact_mod_cast hst
      have hst0 : (0 : ℝ) ≤ st := by positivity
      rw [zpow_sub₀ (by norm_num), zpow_one]
      push_cast
      constructor
      · nlinarith
      · nlinarith
    split
    · exact (key 0 (by omega)).within r1 r2 (bounds 0 (by omega)).1 (bounds 0 (by omega)).2
    · exact (key 1 le_rfl).within r1 r2 (bounds 1 le_rfl).1 (bounds 1 le_rfl).2

/-! ## Storing -/

theorem inFormat_div (f : Fmt) (h : 0 < f.ebits) (a b : Fp) : Fp.inFormat f (Fp.div f a b) := by
  unfold Fp.div
  split <;> first
  | exact Fp.inFormat_nan f
  | exact Fp.inFormat_inf f _
  | exact Fp.inFormat_zero f h _
  | (split
     · split
       · exact Fp.inFormat_nan f
       · exact Fp.inFormat_inf f _
     · exact Fp.inFormat_round f _ _ _)

/-- A positive datum is stored with sign bit 0. -/
theorem toF32_sign (nb : Nat) (a : Fp) (h : Fp.inFormat f32 a) (hp : 0 < a.toReal) :
    (toF32 nb a).getLsbD 31 = false := by
  rcases h with rfl | ⟨s, mag, hm, rfl⟩
  · simp [Fp.toReal] at hp
  · have hlt : f32.infCode < 2 ^ 31 := by decide
    have hs : s = false := by
      cases s with
      | false => rfl
      | true =>
        unfold Fp.ofMag at hp
        split at hp
        · have : (0 : ℝ) ≤ (f32.unpackMag mag).1 * (2 : ℝ) ^ (f32.unpackMag mag).2 := by positivity
          simp only [Fp.toReal, if_true] at hp
          linarith
        · simp [Fp.toReal] at hp
    subst hs
    unfold toF32
    rw [Fp.encodeBits_ofMag f32 nb false mag hm, BitVec.getLsbD_ofNat]
    have : Nat.testBit mag 31 = false := Nat.testBit_lt_two_pow (by omega)
    simp [this]

end Sys2Proof.Machine
end

