-- ==== Sys2Proof/Laws/Derive.lean ====
section
/-! SUPPORT. What DERIVE and the operations it is built from do to each flag and each slot (spec/40 R127 to R131). -/

namespace Sys2Proof.Machine

@[simp] theorem setBypassed_coef (cfg : Configuration) (pos : Nat) (b : Bool) : (setBypassed cfg pos b).coef = cfg.coef := rfl
@[simp] theorem setCoefficients_byp (cfg : Configuration) (pos : Nat) (c : Coefs) : (setCoefficients cfg pos c).byp = cfg.byp := rfl
@[simp] theorem setSlope_coef (cfg : Configuration) (base n : Nat) : (setSlope cfg base n).coef = cfg.coef := rfl

@[simp] theorem applyCoefficients_byp (inputs : List Word) (secs : List Section) : ∀ (cfg : Configuration) (base : Nat),
    (applyCoefficients inputs cfg base secs).byp = cfg.byp := by
  induction secs with
  | nil => intros; rfl
  | cons c cs ih => intro cfg base; rw [applyCoefficients, ih]; rfl

/-- Every slot after APPLYCOEFFICIENTS (R129). -/
theorem applyCoefficients_coef (inputs : List Word) (secs : List Section) : ∀ (cfg : Configuration) (base i : Nat) (hi : i < 9),
    (applyCoefficients inputs cfg base secs).coef[i]
      = if h : base ≤ i ∧ i - base < secs.length then (secs[i - base]'h.2).store inputs i else cfg.coef[i] := by
  induction secs with
  | nil => intros; simp [applyCoefficients]
  | cons c cs ih =>
    intro cfg base i hi
    rw [applyCoefficients, ih]
    by_cases h1 : base + 1 ≤ i ∧ i - (base + 1) < cs.length
    · have h2 : base ≤ i ∧ i - base < (c :: cs).length := ⟨by omega, by simp; omega⟩
      rw [dif_pos h1, dif_pos h2]
      congr 1
      have : i - base = (i - (base + 1)) + 1 := by omega
      simp [this]
    · rw [dif_neg h1]
      simp only [setCoefficients, Vector.getElem_setIfInBounds]
      by_cases h3 : base = i
      · subst h3
        simp
      · rw [if_neg h3, dif_neg]
        simp only [List.length_cons]
        omega

@[simp] theorem qrom_length (n : Nat) (h1 : 1 ≤ n) (h4 : n ≤ 4) : (qrom n).length = n := by
  have : n = 1 ∨ n = 2 ∨ n = 3 ∨ n = 4 := by omega
  rcases this with h | h | h | h <;> subst h <;> rfl

/-- A clamped slope code is 0 to 3 (R117). -/
theorem clampSlope_le (v : Word) : (clampSlope v).1 ≤ 3 := by
  unfold clampSlope
  split
  · simp
  · simp only; omega

@[simp] theorem lowCut_length (f : Fp) (v : Word) (fs : Fp) : (lowCut f (clampSlope v).1 fs).length = (clampSlope v).1 + 1 := by
  have := clampSlope_le v
  rw [lowCut, List.length_map, qrom_length _ (by omega) (by omega)]

@[simp] theorem highCut_length (f : Fp) (v : Word) (fs : Fp) : (highCut f (clampSlope v).1 fs).length = (clampSlope v).1 + 1 := by
  have := clampSlope_le v
  rw [highCut, List.length_map, qrom_length _ (by omega) (by omega)]

@[simp] theorem clamp_ls (p : Params) (fs : Word) : (clamp p fs).1.ls = (clampSlope p.ls).1 := rfl
@[simp] theorem clamp_hs (p : Params) (fs : Word) : (clamp p fs).1.hs = (clampSlope p.hs).1 := rfl

/-- Every flag after SETSLOPE (R128). -/
theorem setSlope_byp (cfg : Configuration) (base n i : Nat) (hi : i < 9) (hb : base + 3 < 9) :
    (setSlope cfg base n).byp[i] = if base ≤ i ∧ i < base + 4 then decide (n ≤ i - base) else cfg.byp[i] := by
  simp only [setSlope, setBypassed, Vector.getElem_setIfInBounds]
  by_cases h : base ≤ i ∧ i < base + 4
  · rw [if_pos h]
    have : i = base ∨ i = base + 1 ∨ i = base + 2 ∨ i = base + 3 := by omega
    rcases this with h | h | h | h <;> subst h <;> simp
  · rw [if_neg h, if_neg (by omega), if_neg (by omega), if_neg (by omega), if_neg (by omega)]

/-- Every flag after DERIVE (R28, R29, R130): it does not depend on the configuration before. -/
theorem derive_byp (p : Params) (fs : Word) (cur : Configuration) (i : Nat) (hi : i < 9) :
    (derive p fs cur).1.byp[i]
      = if i < 4 then decide ((clampSlope p.ls).1 + 1 ≤ i)
        else if i = 4 then false
        else decide ((clampSlope p.hs).1 + 1 ≤ i - 5) := by
  simp only [derive]
  rw [setSlope_byp _ _ _ _ hi (by omega)]
  by_cases h5 : 5 ≤ i ∧ i < 5 + 4
  · rw [if_pos h5, if_neg (by omega), if_neg (by omega)]; rfl
  · rw [if_neg h5, applyCoefficients_byp]
    simp only [setBypassed, Vector.getElem_setIfInBounds, setCoefficients_byp]
    by_cases h4 : i = 4
    · subst h4; simp
    · have hi4 : i < 4 := by omega
      simp only [if_neg (Ne.symm h4), if_pos hi4]
      rw [setSlope_byp _ _ _ _ hi (by omega), if_pos (by omega)]
      rfl

/-- Every coefficient slot after DERIVE (R130). -/
theorem derive_coef (p : Params) (fs : Word) (cur : Configuration) (i : Nat) (hi : i < 9) :
    (derive p fs cur).1.coef[i]
      = if h : i < (clampSlope p.ls).1 + 1 then
          ((lowCut (ofF32 (clamp p fs).1.lf) (clampSlope p.ls).1 (ofF32 fs))[i]'(by simpa using h)).store (fs :: p.toList) i
        else if i = 4 then
          (peak (ofF32 (clamp p fs).1.pf) (ofF32 (clamp p fs).1.pg) (ofF32 (clamp p fs).1.pq) (ofF32 fs)).store (fs :: p.toList) 4
        else if h : 5 ≤ i ∧ i - 5 < (clampSlope p.hs).1 + 1 then
          ((highCut (ofF32 (clamp p fs).1.hf) (clampSlope p.hs).1 (ofF32 fs))[i - 5]'(by simpa using h.2)).store
            (fs :: p.toList) i
        else cur.coef[i] := by
  have hl := clampSlope_le p.ls
  have hh := clampSlope_le p.hs
  simp only [derive, setSlope_coef, clamp_ls, clamp_hs]
  rw [applyCoefficients_coef _ _ _ _ _ hi]
  by_cases h1 : i < (clampSlope p.ls).1 + 1
  · rw [dif_pos h1, dif_neg (by omega)]
    simp only [setBypassed_coef, setCoefficients, Vector.getElem_setIfInBounds, if_neg (show ¬ 4 = i by omega), setSlope_coef]
    rw [applyCoefficients_coef _ _ _ _ _ hi, dif_pos (by simpa using h1)]
    rfl
  · rw [dif_neg h1]
    by_cases h4 : i = 4
    · subst h4
      rw [dif_neg (by omega), if_pos rfl]
      simp [setCoefficients]
    · rw [if_neg h4]
      by_cases h5 : 5 ≤ i ∧ i - 5 < (clampSlope p.hs).1 + 1
      · rw [dif_pos h5, dif_pos (by simpa using h5)]
      · rw [dif_neg h5, dif_neg (by simpa using h5)]
        simp only [setBypassed_coef, setCoefficients, Vector.getElem_setIfInBounds, if_neg (Ne.symm h4), setSlope_coef]
        rw [applyCoefficients_coef _ _ _ _ _ hi, dif_neg (by simpa using h1)]

/-- The clamp flag of a derivation does not depend on the configuration before (R118, R130). -/
@[simp] theorem derive_clamped (p : Params) (fs : Word) (cur : Configuration) :
    (derive p fs cur).2 = (clamp p fs).2 := rfl

/-- Configurations are equal when their flags and slots are. -/
theorem Configuration.ext_getElem (c d : Configuration) (hb : ∀ i (hi : i < 9), c.byp[i] = d.byp[i])
    (hc : ∀ i (hi : i < 9), c.coef[i] = d.coef[i]) : c = d := by
  cases c; cases d
  simp only [Configuration.mk.injEq]
  exact ⟨Vector.ext hb, Vector.ext hc⟩

end Sys2Proof.Machine
end

