-- ==== Sys2Proof/Laws/Interval.lean ====
section
/-! SUPPORT. Interval arithmetic holds the exact results: one lemma per operation of Machine/Elementary.lean. -/

namespace Sys2Proof.Machine

theorem floorDiv_le (a : Int) (b : Nat) (hb : 0 < b) : (floorDiv a b : ℝ) ≤ (a : ℝ) / b := by
  rw [le_div_iff₀ (by exact_mod_cast hb)]
  exact_mod_cast Int.ediv_mul_le a (by omega : (b : Int) ≠ 0)

theorem le_ceilDiv (a : Int) (b : Nat) (hb : 0 < b) : (a : ℝ) / b ≤ (ceilDiv a b : ℝ) := by
  have h := floorDiv_le (-a) b hb
  unfold ceilDiv
  unfold floorDiv at h
  push_cast at h ⊢
  rw [neg_div] at h
  linarith

namespace Ival

theorem holds_ofFraction (p : Nat) (num : Int) (den : Nat) (h : 0 < den) :
    (ofFraction p num den).holds p ((num : ℝ) / den) := by
  have e : ((num * (2 ^ p : Nat) : Int) : ℝ) / den = (num : ℝ) / den * 2 ^ p := by push_cast; ring
  exact ⟨e ▸ floorDiv_le _ _ h, e ▸ le_ceilDiv _ _ h⟩

theorem holds_zero (p : Nat) : zero.holds p 0 := by simp [holds, zero]

theorem holds_one (p : Nat) : (one p).holds p 1 := by simp [holds, one]

variable {p : Nat} {a b : Ival} {x y : ℝ}

theorem holds_add (ha : a.holds p x) (hb : b.holds p y) : (a.add b).holds p (x + y) := by
  obtain ⟨a1, a2⟩ := ha
  obtain ⟨b1, b2⟩ := hb
  constructor <;> simp only [add] <;> push_cast <;> linarith

theorem holds_neg (ha : a.holds p x) : a.neg.holds p (-x) := by
  obtain ⟨a1, a2⟩ := ha
  constructor <;> simp only [neg] <;> push_cast <;> linarith

theorem holds_sub (ha : a.holds p x) (hb : b.holds p y) : (a.sub b).holds p (x - y) := by
  rw [sub_eq_add_neg]; exact holds_add ha (holds_neg hb)

theorem holds_scale (k : Int) (ha : a.holds p x) : (a.scale k).holds p (k * x) := by
  obtain ⟨a1, a2⟩ := ha
  unfold scale
  split
  · rename_i h
    have hk : (0 : ℝ) ≤ k := by exact_mod_cast h
    constructor <;> push_cast <;> nlinarith
  · rename_i h
    have hk : (k : ℝ) < 0 := by exact_mod_cast not_le.mp h
    constructor <;> push_cast <;> nlinarith

theorem holds_divNat (n : Nat) (hn : 0 < n) (ha : a.holds p x) : (a.divNat n).holds p (x / n) := by
  obtain ⟨a1, a2⟩ := ha
  have hn' : (0 : ℝ) < n := by exact_mod_cast hn
  have e : x / n * 2 ^ p = x * 2 ^ p / n := by ring
  constructor
  · rw [e]; exact (floorDiv_le _ _ hn).trans (by gcongr)
  · rw [e]; exact le_trans (by gcongr) (le_ceilDiv _ _ hn)

/-- A product lies between the least and the greatest product of the ends. -/
theorem mul_bounds {a1 a2 b1 b2 u v : ℝ} (h1 : a1 ≤ u) (h2 : u ≤ a2) (h3 : b1 ≤ v) (h4 : v ≤ b2) :
    min (min (a1 * b1) (a1 * b2)) (min (a2 * b1) (a2 * b2)) ≤ u * v
    ∧ u * v ≤ max (max (a1 * b1) (a1 * b2)) (max (a2 * b1) (a2 * b2)) := by
  constructor
  · rcases le_total 0 v with hv | hv
    · rcases le_total 0 a1 with ha | ha
      · exact (min_le_left _ _).trans ((min_le_left _ _).trans (by nlinarith))
      · exact (min_le_left _ _).trans ((min_le_right _ _).trans (by nlinarith))
    · rcases le_total 0 a2 with ha | ha
      · exact (min_le_right _ _).trans ((min_le_left _ _).trans (by nlinarith))
      · exact (min_le_right _ _).trans ((min_le_right _ _).trans (by nlinarith))
  · rcases le_total 0 v with hv | hv
    · rcases le_total 0 a2 with ha | ha
      · exact le_trans (by nlinarith) ((le_max_right _ _).trans (le_max_right _ _))
      · exact le_trans (by nlinarith) ((le_max_left _ _).trans (le_max_right _ _))
    · rcases le_total 0 a1 with ha | ha
      · exact le_trans (by nlinarith) ((le_max_right _ _).trans (le_max_left _ _))
      · exact le_trans (by nlinarith) ((le_max_left _ _).trans (le_max_left _ _))

theorem holds_mul (ha : a.holds p x) (hb : b.holds p y) : (Ival.mul p a b).holds p (x * y) := by
  have h := mul_bounds ha.1 ha.2 hb.1 hb.2
  have hp : (0 : ℝ) < 2 ^ p := by positivity
  have e : x * y * 2 ^ p = x * 2 ^ p * (y * 2 ^ p) / ((2 ^ p : Nat) : ℝ) := by
    push_cast; field_simp
  constructor
  · rw [e]
    refine (floorDiv_le _ _ (by positivity)).trans ?_
    gcongr
    push_cast
    exact h.1
  · rw [e]
    refine le_trans ?_ (le_ceilDiv _ _ (by positivity))
    gcongr
    push_cast
    exact h.2

theorem holds_div (ha : a.holds p x) (hb : b.holds p y) (hpos : 0 < b.lo) : (Ival.div p a b).holds p (x / y) := by
  obtain ⟨a1, a2⟩ := ha
  obtain ⟨b1, b2⟩ := hb
  have hp : (0 : ℝ) < 2 ^ p := by positivity
  have hlo : (0 : ℝ) < (b.lo : ℝ) := by exact_mod_cast hpos
  have hY : 0 < y * 2 ^ p := lt_of_lt_of_le hlo b1
  have hhi : (0 : ℝ) < (b.hi : ℝ) := lt_of_lt_of_le hY b2
  have hhi' : 0 < b.hi := by exact_mod_cast hhi
  have e : x / y * 2 ^ p = x * 2 ^ p * 2 ^ p / (y * 2 ^ p) := by
    have : y ≠ 0 := by rintro rfl; simp at hY
    field_simp
  have c1 : ((b.lo.toNat : Nat) : ℝ) = b.lo := by exact_mod_cast Int.toNat_of_nonneg hpos.le
  have c2 : ((b.hi.toNat : Nat) : ℝ) = b.hi := by exact_mod_cast Int.toNat_of_nonneg hhi'.le
  constructor
  · rw [e]
    simp only [Ival.div]
    split
    · rename_i h
      have h' : (0 : ℝ) ≤ a.lo := by exact_mod_cast h
      refine (floorDiv_le _ _ (by omega)).trans ?_
      rw [c2]; push_cast
      rw [div_le_div_iff₀ hhi hY]
      have : (a.lo : ℝ) * (y * 2 ^ p) ≤ x * 2 ^ p * b.hi := by
        apply mul_le_mul a1 b2 hY.le (by linarith)
      nlinarith
    · rename_i h
      have h' : (a.lo : ℝ) < 0 := by exact_mod_cast not_le.mp h
      refine (floorDiv_le _ _ (by omega)).trans ?_
      rw [c1]; push_cast
      rw [div_le_div_iff₀ hlo hY]
      have : (a.lo : ℝ) * (y * 2 ^ p) ≤ x * 2 ^ p * b.lo := by nlinarith
      nlinarith
  · rw [e]
    simp only [Ival.div]
    split
    · rename_i h
      have h' : (0 : ℝ) ≤ a.hi := by exact_mod_cast h
      refine le_trans ?_ (le_ceilDiv _ _ (by omega))
      rw [c1]; push_cast
      rw [div_le_div_iff₀ hY hlo]
      have : x * 2 ^ p * b.lo ≤ a.hi * (y * 2 ^ p) := by nlinarith
      nlinarith
    · rename_i h
      have h' : (a.hi : ℝ) < 0 := by exact_mod_cast not_le.mp h
      refine le_trans ?_ (le_ceilDiv _ _ (by omega))
      rw [c2]; push_cast
      rw [div_le_div_iff₀ hY hhi]
      have : x * 2 ^ p * b.hi ≤ a.hi * (y * 2 ^ p) := by nlinarith
      nlinarith

theorem abs_le_mag (ha : a.holds p x) : |x| * 2 ^ p ≤ (a.mag : ℝ) := by
  obtain ⟨a1, a2⟩ := ha
  have h1 : |(a.lo : ℝ)| ≤ (a.mag : ℝ) := by
    have : |a.lo| ≤ a.mag := by simp [mag]
    exact_mod_cast this
  have h2 : |(a.hi : ℝ)| ≤ (a.mag : ℝ) := by
    have : |a.hi| ≤ a.mag := by simp [mag]
    exact_mod_cast this
  have hp : (0 : ℝ) < 2 ^ p := by positivity
  rw [← abs_of_pos hp, ← abs_mul, abs_le]
  rw [abs_le] at h1 h2
  constructor <;> linarith [h1.1, h2.2]

/-- Widening by `d` allows an error of `d / 2 ^ p`. -/
theorem holds_widen (d : Int) (ha : a.holds p x) (h : |y - x| * 2 ^ p ≤ d) : (a.widen d).holds p y := by
  obtain ⟨a1, a2⟩ := ha
  have hp : (0 : ℝ) < 2 ^ p := by positivity
  rw [← abs_of_pos hp, ← abs_mul, abs_le] at h
  constructor <;> simp only [widen] <;> push_cast <;> nlinarith [h.1, h.2]

theorem holds_unit (ha : a.holds p x) (hl : -1 ≤ x) (hu : x ≤ 1) : (a.unit p).holds p x := by
  obtain ⟨a1, a2⟩ := ha
  have hp : (0 : ℝ) < 2 ^ p := by positivity
  constructor
  · simp only [unit]; push_cast
    exact max_le a1 (by nlinarith)
  · simp only [unit]; push_cast
    exact le_min a2 (by nlinarith)

theorem holds_toEncl (ha : a.holds p x) : (a.toEncl p).holds x := by
  obtain ⟨a1, a2⟩ := ha
  have hp : (0 : ℝ) < 2 ^ p := by positivity
  refine ⟨by simp [toEncl], ?_, ?_⟩
  · simp only [toEncl]; push_cast
    rw [div_le_iff₀ hp]; exact a1
  · simp only [toEncl]; push_cast
    rw [le_div_iff₀ hp]; exact a2

end Ival

end Sys2Proof.Machine
end

