-- ==== Sys2Proof/Laws/Series.lean ====
section
/-! SUPPORT. The power series of Machine/Elementary.lean hold the exact values of sine, cosine, the exponential and the
logarithm: partial sums by induction, and the remainder by Mathlib's bounds. -/

namespace Sys2Proof.Machine

open Finset

/-! ## Sine and cosine -/

/-- The term `(-1) ^ j x ^ (2 j) / (2 j)!`. -/
noncomputable def cosTerm (x : ℝ) (j : Nat) : ℝ := (-1) ^ j * x ^ (2 * j) / (2 * j).factorial

/-- The term `(-1) ^ j x ^ (2 j + 1) / (2 j + 1)!`. -/
noncomputable def sinTerm (x : ℝ) (j : Nat) : ℝ := (-1) ^ j * x ^ (2 * j + 1) / (2 * j + 1).factorial

theorem sinTerm_eq (x : ℝ) (j : Nat) : sinTerm x j = cosTerm x j * x / ((2 * j + 1 : Nat) : ℝ) := by
  unfold sinTerm cosTerm
  rw [Nat.factorial_succ]
  have : ((2 * j).factorial : ℝ) ≠ 0 := by positivity
  push_cast
  field_simp
  ring

theorem cosTerm_succ (x : ℝ) (j : Nat) : cosTerm x (j + 1) = -(sinTerm x j * x / ((2 * j + 2 : Nat) : ℝ)) := by
  unfold sinTerm cosTerm
  rw [show 2 * (j + 1) = 2 * j + 1 + 1 by ring, Nat.factorial_succ]
  have : ((2 * j + 1).factorial : ℝ) ≠ 0 := by positivity
  push_cast
  field_simp
  ring

theorem cosSinTerms_holds (p : Nat) (u : Ival) (x : ℝ) (hu : u.holds p x) (n : Nat) :
    ∀ (j : Nat) (t c s : Ival), t.holds p (cosTerm x j) → c.holds p (∑ i ∈ range j, cosTerm x i) →
      s.holds p (∑ i ∈ range j, sinTerm x i) →
      (cosSinTerms p u n j t c s).1.holds p (∑ i ∈ range (j + n), cosTerm x i)
      ∧ (cosSinTerms p u n j t c s).2.1.holds p (∑ i ∈ range (j + n), sinTerm x i)
      ∧ (cosSinTerms p u n j t c s).2.2.holds p (cosTerm x (j + n)) := by
  induction n with
  | zero => intro j t c s ht hc hs; exact ⟨hc, hs, ht⟩
  | succ n ih =>
    intro j t c s ht hc hs
    have h1 : ((Ival.mul p t u).divNat (2 * j + 1)).holds p (sinTerm x j) := by
      rw [sinTerm_eq]; exact Ival.holds_divNat _ (by omega) (Ival.holds_mul ht hu)
    have h2 : ((Ival.mul p ((Ival.mul p t u).divNat (2 * j + 1)) u).divNat (2 * j + 2)).neg.holds p (cosTerm x (j + 1)) := by
      rw [cosTerm_succ]; exact Ival.holds_neg (Ival.holds_divNat _ (by omega) (Ival.holds_mul h1 hu))
    have := ih (j + 1) _ (c.add t) (s.add ((Ival.mul p t u).divNat (2 * j + 1))) h2
      (by rw [sum_range_succ]; exact Ival.holds_add hc ht) (by rw [sum_range_succ]; exact Ival.holds_add hs h1)
    rw [show j + (n + 1) = j + 1 + n by ring]
    exact this

/-- The partial sums of the exponential series on the imaginary axis. -/
theorem exp_I_partial (x : ℝ) (n : Nat) :
    ∑ m ∈ range (2 * n), ((x : ℂ) * Complex.I) ^ m / (m.factorial : ℂ)
      = ((∑ i ∈ range n, cosTerm x i : ℝ) : ℂ) + ((∑ i ∈ range n, sinTerm x i : ℝ) : ℂ) * Complex.I := by
  induction n with
  | zero => simp
  | succ n ih =>
    rw [show 2 * (n + 1) = 2 * n + 1 + 1 by ring, sum_range_succ, sum_range_succ, ih, sum_range_succ, sum_range_succ]
    have e1 : ((x : ℂ) * Complex.I) ^ (2 * n) = ((-1) ^ n * x ^ (2 * n) : ℝ) := by
      rw [mul_pow, pow_mul Complex.I, Complex.I_sq]; push_cast; ring
    have e2 : ((x : ℂ) * Complex.I) ^ (2 * n + 1) = ((-1) ^ n * x ^ (2 * n + 1) : ℝ) * Complex.I := by
      rw [pow_succ, e1]; push_cast; ring
    rw [e1, e2]
    unfold cosTerm sinTerm
    push_cast
    ring

theorem cosSin_remainder (x : ℝ) (hx : |x| ≤ 1) (n : Nat) (hn : 0 < n) :
    |Real.cos x - ∑ i ∈ range n, cosTerm x i| ≤ 2 * |cosTerm x n|
    ∧ |Real.sin x - ∑ i ∈ range n, sinTerm x i| ≤ 2 * |cosTerm x n| := by
  have hz : ‖(x : ℂ) * Complex.I‖ ≤ 1 := by simpa using hx
  have hb := Complex.exp_bound hz (show 0 < 2 * n by omega)
  rw [exp_I_partial, Complex.exp_mul_I, ← Complex.ofReal_cos, ← Complex.ofReal_sin] at hb
  have hN : ‖(x : ℂ) * Complex.I‖ = |x| := by simp
  rw [hN] at hb
  have hbound : |x| ^ (2 * n) * ((((2 * n).succ : ℕ) : ℝ) * (((2 * n).factorial : ℝ) * ((2 * n : ℕ) : ℝ))⁻¹) ≤ 2 * |cosTerm x n| := by
    unfold cosTerm
    rw [abs_div, abs_mul, abs_pow, abs_pow, abs_neg, abs_one, one_pow, one_mul,
      abs_of_pos (by positivity : (0 : ℝ) < ((2 * n).factorial : ℝ))]
    have hn' : (1 : ℝ) ≤ n := by exact_mod_cast hn
    have hf : (0 : ℝ) < ((2 * n).factorial : ℝ) := by positivity
    rw [show |x| ^ (2 * n) * ((((2 * n).succ : ℕ) : ℝ) * (((2 * n).factorial : ℝ) * ((2 * n : ℕ) : ℝ))⁻¹)
      = (|x| ^ (2 * n) / (2 * n).factorial) * ((((2 * n).succ : ℕ) : ℝ) / ((2 * n : ℕ) : ℝ)) by field_simp]
    rw [mul_comm 2 (|x| ^ (2 * n) / _)]
    apply mul_le_mul_of_nonneg_left _ (by positivity)
    push_cast
    rw [div_le_iff₀ (by linarith)]
    linarith
  have hb' := hb.trans hbound
  have e : ((Real.cos x : ℂ) + (Real.sin x : ℂ) * Complex.I)
      - (((∑ i ∈ range n, cosTerm x i : ℝ) : ℂ) + ((∑ i ∈ range n, sinTerm x i : ℝ) : ℂ) * Complex.I)
      = ((Real.cos x - ∑ i ∈ range n, cosTerm x i : ℝ) : ℂ) + ((Real.sin x - ∑ i ∈ range n, sinTerm x i : ℝ) : ℂ) * Complex.I := by
    push_cast; ring
  rw [e] at hb'
  generalize Real.cos x - ∑ i ∈ range n, cosTerm x i = a at hb' ⊢
  generalize Real.sin x - ∑ i ∈ range n, sinTerm x i = b at hb' ⊢
  constructor
  · have := (Complex.abs_re_le_norm _).trans hb'
    simpa using this
  · have := (Complex.abs_im_le_norm _).trans hb'
    simpa using this

theorem doubleAngle_holds (p n : Nat) :
    ∀ (c s : Ival) (x : ℝ), c.holds p (Real.cos x) → s.holds p (Real.sin x) →
      (doubleAngle p n c s).1.holds p (Real.cos (2 ^ n * x)) ∧ (doubleAngle p n c s).2.holds p (Real.sin (2 ^ n * x)) := by
  induction n with
  | zero => intro c s x hc hs; simpa [doubleAngle] using ⟨hc, hs⟩
  | succ n ih =>
    intro c s x hc hs
    have h1 : ((Ival.mul p c c).sub (Ival.mul p s s)).holds p (Real.cos (2 * x)) := by
      rw [Real.cos_two_mul']
      have := Ival.holds_sub (Ival.holds_mul hc hc) (Ival.holds_mul hs hs)
      rw [← pow_two, ← pow_two] at this
      exact this
    have h2 : ((Ival.mul p c s).scale 2).holds p (Real.sin (2 * x)) := by
      have := Ival.holds_scale 2 (Ival.holds_mul hc hs)
      rw [Real.sin_two_mul]
      push_cast at this
      rw [show 2 * Real.sin x * Real.cos x = 2 * (Real.cos x * Real.sin x) by ring]
      exact this
    have := ih _ _ (2 * x) h1 h2
    rw [show (2 : ℝ) ^ (n + 1) * x = 2 ^ n * (2 * x) by ring]
    exact this

theorem angle_small (m : Nat) (e : Int) (hm : 0 < m) : (m : ℝ) * (2 : ℝ) ^ (e - halvings m e) ≤ 1 := by
  have h1 : (m : ℝ) < (2 : ℝ) ^ (Nat.log2 m + 1) := by exact_mod_cast (log2_bounds m hm).2
  have h2 : (Nat.log2 m : Int) + e + 5 ≤ halvings m e := by unfold halvings; omega
  have hp : (0 : ℝ) < (2 : ℝ) ^ (e - halvings m e) := by positivity
  calc (m : ℝ) * (2 : ℝ) ^ (e - halvings m e) ≤ (2 : ℝ) ^ (Nat.log2 m + 1) * (2 : ℝ) ^ (e - halvings m e) := by gcongr
    _ = (2 : ℝ) ^ (((Nat.log2 m : Int) + 1) + (e - halvings m e)) := by
      rw [zpow_add₀ (by norm_num : (2 : ℝ) ≠ 0)]; norm_cast
    _ ≤ (2 : ℝ) ^ (0 : Int) := zpow_le_zpow_right₀ (by norm_num) (by omega)
    _ = 1 := by simp

/-- `cosSin` holds cosine and sine of its angle, at every precision. -/
theorem cosSin_holds (m : Nat) (e : Int) (p : Nat) (hm : 0 < m) :
    (cosSin m e p).1.holds p (Real.cos (m * (2 : ℝ) ^ e)) ∧ (cosSin m e p).2.holds p (Real.sin (m * (2 : ℝ) ^ e)) := by
  set k := halvings m e with hk
  set x : ℝ := m * (2 : ℝ) ^ (e - k) with hx
  have hx0 : 0 ≤ x := by positivity
  have hx1 : |x| ≤ 1 := by rw [abs_of_nonneg hx0]; exact angle_small m e hm
  have hu : (Ival.ofFraction p (fraction m (e - k)).1 (fraction m (e - k)).2).holds p x := by
    have := Ival.holds_ofFraction p ((fraction m (e - k)).1 : Int) _ (fraction_den_pos m (e - k))
    rw [Int.cast_natCast, fraction_value] at this
    exact this
  obtain ⟨r1, r2, r3⟩ := cosSinTerms_holds p _ x hu (p / 10 + 6) 0 (Ival.one p) Ival.zero Ival.zero
    (by simpa [cosTerm] using Ival.holds_one p) (by simpa using Ival.holds_zero p) (by simpa using Ival.holds_zero p)
  rw [zero_add] at r1 r2 r3
  obtain ⟨b1, b2⟩ := cosSin_remainder x hx1 (p / 10 + 6) (by omega)
  have hmag := Ival.abs_le_mag r3
  have hp : (0 : ℝ) < 2 ^ p := by positivity
  have w1 := Ival.holds_widen (2 * (cosSinTerms p (Ival.ofFraction p (fraction m (e - k)).1 (fraction m (e - k)).2)
    (p / 10 + 6) 0 (Ival.one p) Ival.zero Ival.zero).2.2.mag) r1 (y := Real.cos x) (by push_cast; nlinarith)
  have w2 := Ival.holds_widen (2 * (cosSinTerms p (Ival.ofFraction p (fraction m (e - k)).1 (fraction m (e - k)).2)
    (p / 10 + 6) 0 (Ival.one p) Ival.zero Ival.zero).2.2.mag) r2 (y := Real.sin x) (by push_cast; nlinarith)
  obtain ⟨d1, d2⟩ := doubleAngle_holds p k _ _ x w1 w2
  have ex : (2 : ℝ) ^ k * x = m * (2 : ℝ) ^ e := by
    rw [hx, mul_left_comm, ← zpow_natCast, ← zpow_add₀ (by norm_num)]
    congr 2; ring
  rw [ex] at d1 d2
  exact ⟨Ival.holds_unit d1 (Real.neg_one_le_cos _) (Real.cos_le_one _),
    Ival.holds_unit d2 (Real.neg_one_le_sin _) (Real.sin_le_one _)⟩

theorem cosEncl_holds (m : Nat) (e : Int) (p : Nat) (hm : 0 < m) :
    (cosEncl m e p).holds (Real.cos (m * (2 : ℝ) ^ e)) := Ival.holds_toEncl (cosSin_holds m e _ hm).1

theorem sinEncl_holds (m : Nat) (e : Int) (p : Nat) (hm : 0 < m) :
    (sinEncl m e p).holds (Real.sin (m * (2 : ℝ) ^ e)) := Ival.holds_toEncl (cosSin_holds m e _ hm).2

/-! ## The exponential -/

theorem expTerms_holds (p : Nat) (u : Ival) (x : ℝ) (hu : u.holds p x) (n : Nat) :
    ∀ (j : Nat) (t acc : Ival), t.holds p (x ^ j / j.factorial) → acc.holds p (∑ i ∈ range j, x ^ i / i.factorial) →
      (expTerms p u n j t acc).1.holds p (∑ i ∈ range (j + n), x ^ i / i.factorial)
      ∧ (expTerms p u n j t acc).2.holds p (x ^ (j + n) / (j + n).factorial) := by
  induction n with
  | zero => intro j t acc ht ha; exact ⟨ha, ht⟩
  | succ n ih =>
    intro j t acc ht ha
    have h1 : ((Ival.mul p t u).divNat (j + 1)).holds p (x ^ (j + 1) / (j + 1).factorial) := by
      have := Ival.holds_divNat (j + 1) (by omega) (Ival.holds_mul ht hu)
      have e : x ^ (j + 1) / ((j + 1).factorial : ℝ) = x ^ j / j.factorial * x / ((j + 1 : Nat) : ℝ) := by
        rw [Nat.factorial_succ]
        have : ((j).factorial : ℝ) ≠ 0 := by positivity
        push_cast; field_simp
        try ring
      rw [e]; exact this
    have := ih (j + 1) _ (acc.add t) h1 (by rw [sum_range_succ]; exact Ival.holds_add ha ht)
    rw [show j + (n + 1) = j + 1 + n by ring]
    exact this

theorem exp_remainder (x : ℝ) (hx : |x| ≤ 1) (n : Nat) (hn : 0 < n) :
    |Real.exp x - ∑ i ∈ range n, x ^ i / i.factorial| ≤ 2 * |x ^ n / n.factorial| := by
  refine (Real.exp_bound hx hn).trans ?_
  have hn' : (1 : ℝ) ≤ n := by exact_mod_cast hn
  have hf : (0 : ℝ) < (n.factorial : ℝ) := by positivity
  rw [abs_div, abs_pow, abs_of_pos hf]
  rw [show |x| ^ n * ((n.succ : ℝ) / (n.factorial * n)) = (|x| ^ n / n.factorial) * ((n.succ : ℝ) / n) by field_simp]
  rw [mul_comm 2]
  apply mul_le_mul_of_nonneg_left _ (by positivity)
  push_cast
  rw [div_le_iff₀ (by linarith)]
  linarith

theorem squares_holds (p n : Nat) : ∀ (a : Ival) (x : ℝ), a.holds p x → (squares p n a).holds p (x ^ 2 ^ n) := by
  induction n with
  | zero => intro a x h; simpa [squares] using h
  | succ n ih =>
    intro a x h
    have := ih _ (x * x) (Ival.holds_mul h h)
    rw [← pow_two, ← pow_mul, ← pow_succ'] at this
    exact this

/-! ## The logarithm -/

/-- The term `z ^ (2 j + 1) / (2 j + 1)`. -/
noncomputable def artanhTerm (z : ℝ) (j : Nat) : ℝ := z ^ (2 * j + 1) / ((2 * j + 1 : Nat) : ℝ)

theorem artanhTerms_holds (p : Nat) (z2 : Ival) (z : ℝ) (hz : z2.holds p (z * z)) (n : Nat) :
    ∀ (j : Nat) (t acc : Ival), t.holds p (z ^ (2 * j + 1)) → acc.holds p (∑ i ∈ range j, artanhTerm z i) →
      (artanhTerms p z2 n j t acc).1.holds p (∑ i ∈ range (j + n), artanhTerm z i)
      ∧ (artanhTerms p z2 n j t acc).2.holds p (z ^ (2 * (j + n) + 1)) := by
  induction n with
  | zero => intro j t acc ht ha; exact ⟨ha, ht⟩
  | succ n ih =>
    intro j t acc ht ha
    have h1 : (Ival.mul p t z2).holds p (z ^ (2 * (j + 1) + 1)) := by
      have := Ival.holds_mul ht hz
      rw [show z ^ (2 * (j + 1) + 1) = z ^ (2 * j + 1) * (z * z) by ring]
      exact this
    have h2 := Ival.holds_add ha (Ival.holds_divNat (2 * j + 1) (by omega) ht)
    have := ih (j + 1) _ (acc.add (t.divNat (2 * j + 1))) h1 (by rw [sum_range_succ]; exact h2)
    rw [show j + (n + 1) = j + 1 + n by ring]
    exact this

theorem artanh_remainder (z : ℝ) (hz : |z| ≤ 1 / 2) (n : Nat) :
    |(Real.log (1 + z) - Real.log (1 - z)) / 2 - ∑ i ∈ range n, artanhTerm z i| ≤ 2 * |z ^ (2 * n + 1)| := by
  have hz1 : |z| < 1 := lt_of_le_of_lt hz (by norm_num)
  have hs := Real.hasSum_log_sub_log_of_abs_lt_one hz1
  have hs' : HasSum (fun k => artanhTerm z k) ((Real.log (1 + z) - Real.log (1 - z)) / 2) := by
    have hfun : (fun k => artanhTerm z k) = fun k : ℕ => 2 * (1 / (2 * (k : ℝ) + 1)) * z ^ (2 * k + 1) / 2 := by
      funext k
      unfold artanhTerm
      push_cast
      field_simp
    rw [hfun]
    exact hs.div_const 2
  have htail := (hasSum_nat_add_iff' n).mpr hs'
  have hgeo : HasSum (fun k : Nat => |z ^ (2 * n + 1)| * (z ^ 2) ^ k) (|z ^ (2 * n + 1)| * (1 - z ^ 2)⁻¹) := by
    apply HasSum.mul_left
    apply hasSum_geometric_of_lt_one (by positivity)
    rw [← sq_abs]; nlinarith [abs_nonneg z]
  have hle : ∀ k, |artanhTerm z (k + n)| ≤ |z ^ (2 * n + 1)| * (z ^ 2) ^ k := by
    intro k
    unfold artanhTerm
    rw [abs_div, show 2 * (k + n) + 1 = (2 * n + 1) + 2 * k by ring, pow_add, abs_mul, pow_mul z 2 k,
      abs_of_nonneg (by positivity : (0 : ℝ) ≤ (z ^ 2) ^ k)]
    apply div_le_self (by positivity)
    rw [abs_of_pos (by positivity)]
    push_cast
    have : (0 : ℝ) ≤ 2 * n + 2 * k := by positivity
    linarith
  have hb := tsum_of_norm_bounded hgeo (fun k => by rw [Real.norm_eq_abs]; exact hle k)
  rw [htail.tsum_eq, Real.norm_eq_abs] at hb
  refine hb.trans ?_
  rw [mul_comm 2 |z ^ (2 * n + 1)|]
  apply mul_le_mul_of_nonneg_left _ (abs_nonneg _)
  rw [inv_le_comm₀ (by rw [← sq_abs]; nlinarith [abs_nonneg z]) (by norm_num), ← sq_abs]
  nlinarith [abs_nonneg z]

/-- `twoArtanh` holds `ln ((1 + z) / (1 - z))`. -/
theorem twoArtanh_holds (p n : Nat) (a : Ival) (z : ℝ) (ha : a.holds p z) (hz : |z| ≤ 1 / 2) :
    (twoArtanh p n a).holds p (Real.log ((1 + z) / (1 - z))) := by
  obtain ⟨r1, r2⟩ := artanhTerms_holds p _ z (Ival.holds_mul ha ha) n 0 a Ival.zero (by simpa using ha)
    (by simpa using Ival.holds_zero p)
  rw [zero_add] at r1 r2
  have hb := artanh_remainder z hz n
  have hmag := Ival.abs_le_mag r2
  have hp : (0 : ℝ) < 2 ^ p := by positivity
  have w := Ival.holds_widen (2 * (artanhTerms p (Ival.mul p a a) n 0 a Ival.zero).2.mag) r1
    (y := (Real.log (1 + z) - Real.log (1 - z)) / 2) (by push_cast; nlinarith)
  have := Ival.holds_scale 2 w
  rw [abs_le] at hz
  rw [Real.log_div (by linarith [hz.1]) (by linarith [hz.2])]
  rw [show Real.log (1 + z) - Real.log (1 - z) = ((2 : Int) : ℝ) * ((Real.log (1 + z) - Real.log (1 - z)) / 2) by
    push_cast; ring]
  exact this

theorem lnTwo_holds (p : Nat) : (lnTwo p).holds p (Real.log 2) := by
  have h := twoArtanh_holds p (p / 3 + 2) _ _ (Ival.holds_ofFraction p 1 3 (by norm_num))
    (by rw [abs_of_pos (by positivity)]; norm_num)
  have e : (1 + ((1 : Int) : ℝ) / ((3 : Nat) : ℝ)) / (1 - ((1 : Int) : ℝ) / ((3 : Nat) : ℝ)) = 2 := by norm_num
  rw [e] at h
  exact h

theorem lnTen_holds (p : Nat) : (lnTen p).holds p (Real.log 10) := by
  have h := twoArtanh_holds p (p / 6 + 2) _ _ (Ival.holds_ofFraction p 1 9 (by norm_num))
    (by rw [abs_of_pos (by positivity)]; norm_num)
  have e : (1 + ((1 : Int) : ℝ) / ((9 : Nat) : ℝ)) / (1 - ((1 : Int) : ℝ) / ((9 : Nat) : ℝ)) = 5 / 4 := by norm_num
  rw [e] at h
  have := Ival.holds_add (Ival.holds_scale 3 (lnTwo_holds p)) h
  have e2 : Real.log 10 = ((3 : Int) : ℝ) * Real.log 2 + Real.log (5 / 4) := by
    rw [show (10 : ℝ) = 2 ^ 3 * (5 / 4) by norm_num, Real.log_mul (by norm_num) (by norm_num), Real.log_pow]
    push_cast; ring
  rw [e2]
  exact this

/-! ## Enclosures of the elementary functions -/

/-- The tangent's enclosure, where the cosine's sign is settled at the working precision. -/
theorem tanEncl_holds (m : Nat) (e : Int) (p : Nat) (hm : 0 < m) :
    tanEncl m e p = Encl.undecided ∨ (tanEncl m e p).holds (Real.tan (m * (2 : ℝ) ^ e)) := by
  obtain ⟨hc, hs⟩ := cosSin_holds m e (anglePrecision m e p) hm
  unfold tanEncl
  simp only
  rw [Real.tan_eq_sin_div_cos]
  split
  · exact Or.inr (Ival.holds_toEncl (Ival.holds_div hs hc (by assumption)))
  · split
    · rename_i h
      right
      rw [← neg_div_neg_eq]
      exact Ival.holds_toEncl (Ival.holds_div (Ival.holds_neg hs) (Ival.holds_neg hc) (by simp only [Ival.neg]; omega))
    · exact Or.inl rfl

/-- The logarithm's enclosure, once the working precision separates `ln 10` from 0. -/
theorem log10Encl_holds (k : Int) (num den p : Nat) (hd : 0 < den) (h1 : den ≤ 3 * num) (h2 : num ≤ 3 * den) :
    log10Encl k num den p = Encl.undecided ∨
      (log10Encl k num den p).holds (Real.logb 10 ((2 : ℝ) ^ k * (num / den))) := by
  have hd' : (0 : ℝ) < den := by exact_mod_cast hd
  have hn : 0 < num := by omega
  have hn' : (0 : ℝ) < num := by exact_mod_cast hn
  have h1' : (den : ℝ) ≤ 3 * num := by exact_mod_cast h1
  have h2' : (num : ℝ) ≤ 3 * den := by exact_mod_cast h2
  unfold log10Encl
  simp only
  split
  · rename_i hpos
    right
    set q := p + 16
    have hz := Ival.holds_ofFraction q ((num : Int) - den) (num + den) (by omega)
    have hsum : (0 : ℝ) < num + den := by linarith
    have hzle : |(((num : Int) - den : Int) : ℝ) / ((num + den : Nat) : ℝ)| ≤ 1 / 2 := by
      push_cast
      rw [abs_div, abs_of_pos hsum, div_le_iff₀ hsum, abs_le]
      constructor <;> linarith
    have ht := twoArtanh_holds q (q / 4 + 2) _ _ hz hzle
    have e : (1 + (((num : Int) - den : Int) : ℝ) / ((num + den : Nat) : ℝ))
        / (1 - (((num : Int) - den : Int) : ℝ) / ((num + den : Nat) : ℝ)) = num / den := by
      push_cast
      rw [show (1 : ℝ) + (num - den) / (num + den) = 2 * num / (num + den) by field_simp; ring,
        show (1 : ℝ) - (num - den) / (num + den) = 2 * den / (num + den) by field_simp; ring]
      field_simp
    rw [e] at ht
    have hl := Ival.holds_add (Ival.holds_scale k (lnTwo_holds q)) ht
    have := Ival.holds_div hl (lnTen_holds q) hpos
    have el : Real.logb 10 ((2 : ℝ) ^ k * (num / den)) = (k * Real.log 2 + Real.log (num / den)) / Real.log 10 := by
      rw [Real.logb, Real.log_mul (by positivity) (by positivity), Real.log_zpow]
    rw [el]
    exact Ival.holds_toEncl this
  · exact Or.inl rfl

/-- `exp10Fraction` holds the power of ten of a fraction from 0 to 1. -/
theorem exp10Fraction_holds (p num den : Nat) (hd : 0 < den) (h : num ≤ den) :
    (exp10Fraction p num den).holds p ((10 : ℝ) ^ ((num : ℝ) / den)) := by
  have hd' : (0 : ℝ) < den := by exact_mod_cast hd
  have hle : (num : ℝ) / den ≤ 1 := by rw [div_le_one hd']; exact_mod_cast h
  have h0 : (0 : ℝ) ≤ (num : ℝ) / den := by positivity
  have hlog : Real.log 10 ≤ 9 := by
    have := Real.log_le_sub_one_of_pos (show (0 : ℝ) < 10 by norm_num)
    linarith
  have hlog0 : 0 ≤ Real.log 10 := Real.log_nonneg (by norm_num)
  set x : ℝ := (num : ℝ) / den * Real.log 10 / ((32 : Nat) : ℝ) with hx
  have hx1 : |x| ≤ 1 := by
    rw [hx, abs_of_nonneg (by positivity)]
    push_cast
    rw [div_le_one (by norm_num)]
    nlinarith
  have hf := Ival.holds_ofFraction p (num : Int) den hd
  rw [Int.cast_natCast] at hf
  have hu := Ival.holds_divNat 32 (by norm_num) (Ival.holds_mul hf (lnTen_holds p))
  obtain ⟨r1, r2⟩ := expTerms_holds p _ x hu (p / 5 + 4) 0 (Ival.one p) Ival.zero (by simpa using Ival.holds_one p)
    (by simpa using Ival.holds_zero p)
  rw [zero_add] at r1 r2
  have hb := exp_remainder x hx1 (p / 5 + 4) (by omega)
  have hmag := Ival.abs_le_mag r2
  have hp : (0 : ℝ) < 2 ^ p := by positivity
  have w := Ival.holds_widen (2 * (expTerms p ((Ival.mul p (Ival.ofFraction p num den) (lnTen p)).divNat 32)
    (p / 5 + 4) 0 (Ival.one p) Ival.zero).2.mag) r1 (y := Real.exp x) (by push_cast; nlinarith)
  have := squares_holds p 5 _ _ w
  have e : (10 : ℝ) ^ ((num : ℝ) / den) = Real.exp x ^ 2 ^ 5 := by
    rw [Real.rpow_def_of_pos (by norm_num), ← Real.exp_nat_mul]
    congr 1
    rw [hx]
    push_cast
    ring
  rw [e]
  exact this

/-- The power of ten's enclosure. -/
theorem exp10Encl_holds (n : Int) (num den p : Nat) (hd : 0 < den) (h : num ≤ den) :
    (exp10Encl n num den p).holds ((10 : ℝ) ^ ((n : ℝ) + (num : ℝ) / den)) := by
  obtain ⟨h1, h2⟩ := exp10Fraction_holds (p + 16) num den hd h
  have hp : (0 : ℝ) < 2 ^ (p + 16) := by positivity
  have split10 : (10 : ℝ) ^ n * ((10 ^ (-n).toNat : Nat) : ℝ) = ((10 ^ n.toNat : Nat) : ℝ) := by
    rcases le_total 0 n with hn | hn
    · lift n to Nat using hn
      simp
    · obtain ⟨j, rfl⟩ : ∃ j : Nat, n = -(j : Int) := ⟨(-n).toNat, by omega⟩
      simp
  have ht : (0 : ℝ) < ((10 ^ (-n).toNat : Nat) : ℝ) := by positivity
  have hT : (0 : ℝ) < ((10 ^ n.toNat : Nat) : ℝ) := by positivity
  have e : (10 : ℝ) ^ ((n : ℝ) + (num : ℝ) / den) = (10 : ℝ) ^ n * (10 : ℝ) ^ ((num : ℝ) / den) := by
    rw [Real.rpow_add (by norm_num), Real.rpow_intCast]
  have hn10 : (10 : ℝ) ^ n = ((10 ^ n.toNat : Nat) : ℝ) / ((10 ^ (-n).toNat : Nat) : ℝ) := by
    rw [eq_div_iff ht.ne']; exact split10
  have hden : (0 : ℝ) < (((2 ^ (p + 16) * 10 ^ (-n).toNat : Nat)) : ℝ) := by positivity
  unfold exp10Encl
  refine ⟨by positivity, ?_, ?_⟩
  · simp only
    rw [e, hn10, div_mul_eq_mul_div, div_le_div_iff₀ hden ht]
    push_cast at h1 ⊢
    have hT' : (0 : ℝ) ≤ 10 ^ n.toNat * 10 ^ (-n).toNat := by positivity
    nlinarith [mul_le_mul_of_nonneg_right h1 hT']
  · simp only
    rw [e, hn10, div_mul_eq_mul_div, div_le_div_iff₀ ht hden]
    push_cast at h2 ⊢
    have hT' : (0 : ℝ) ≤ 10 ^ n.toNat * 10 ^ (-n).toNat := by positivity
    nlinarith [mul_le_mul_of_nonneg_right h2 hT']

end Sys2Proof.Machine
end

