-- ==== Sys2Proof/Laws/Widths.lean ====
section
/-! SUPPORT. How wide the enclosures of Machine/Elementary.lean are, and so where an elementary function's result lies
even where no working precision decides its rounding (notes/assumptions/5.md). -/

namespace Sys2Proof.Machine

open Finset

/-! ## Refinement -/

/-- A positive result: it lies where the number does, if the last enclosure does. -/
theorem refine_within {f : Fmt} {upper : Bool} {encl : Nat → Encl} {v lo hi : ℝ} (h0 : 0 < lo) (h1 : lo ≤ v) (h2 : v ≤ hi)
    (r1 : f.has lo) (r2 : f.has hi) (hold : ∀ p, encl p = Encl.undecided ∨ (encl p).holds v) :
    ∀ fuel p, (0 < (encl (p * 2 ^ fuel)).den ∧ lo ≤ ((encl (p * 2 ^ fuel)).lo : ℝ) / (encl (p * 2 ^ fuel)).den
      ∧ ((encl (p * 2 ^ fuel)).hi : ℝ) / (encl (p * 2 ^ fuel)).den ≤ hi
      ∧ (encl (p * 2 ^ fuel)).lo ≤ (encl (p * 2 ^ fuel)).hi) → (refine f upper encl fuel p).within lo hi := by
  have ends : ∀ (x : Int) (den : Nat), 0 < den → f.rounds ((x : ℝ) / den) (Encl.roundEnd f x den) := by
    intro x den hd
    refine ⟨_, _, _, hd, ?_, rfl⟩
    rw [Nat.cast_natAbs]
    rcases lt_or_ge x 0 with hx | hx
    · rw [abs_of_neg hx]; simp [hx]; ring
    · rw [abs_of_nonneg hx]; simp [not_lt.mpr hx]
  intro fuel
  induction fuel with
  | zero =>
    intro p hp
    rw [pow_zero, mul_one] at hp
    obtain ⟨hd, l1, l2, l3⟩ := hp
    have hd' : (0 : ℝ) < (encl p).den := by exact_mod_cast hd
    have hle : ((encl p).lo : ℝ) / (encl p).den ≤ ((encl p).hi : ℝ) / (encl p).den := by
      gcongr
    unfold refine
    split
    · exact (ends _ _ hd).within r1 r2 (l1.trans hle) l2
    · exact (ends _ _ hd).within r1 r2 l1 (hle.trans l2)
  | succ fuel ih =>
    intro p hp
    unfold refine
    split
    · rename_i r hr
      rcases hold p with hu | ⟨hd, e1, e2⟩
      · rw [hu] at hr; simp [Encl.rounded, Encl.undecided] at hr
      · have hd' : (0 : ℝ) < (encl p).den := by exact_mod_cast hd
        have hhi : 0 < (encl p).hi := by
          have : (0 : ℝ) < ((encl p).hi : ℝ) / (encl p).den := by linarith
          rw [lt_div_iff₀ hd', zero_mul] at this
          exact_mod_cast this
        unfold Encl.rounded at hr
        split at hr
        · rename_i hlo
          simp only [Option.ite_none_right_eq_some, Option.some.injEq] at hr
          obtain ⟨ha, rfl⟩ := hr
          have c1 : (((encl p).lo.toNat : Nat) : ℝ) = (encl p).lo := by exact_mod_cast Int.toNat_of_nonneg hlo.le
          have c2 : (((encl p).hi.toNat : Nat) : ℝ) = (encl p).hi := by exact_mod_cast Int.toNat_of_nonneg hhi.le
          obtain ⟨ml, hml, el⟩ := r1
          obtain ⟨mh, hmh, eh⟩ := r2
          rw [abs_of_pos h0] at el
          rw [abs_of_pos (by linarith : 0 < hi)] at eh
          have u := roundMag_le_of_le f (encl p).lo.toNat (encl p).den mh hd hmh (by rw [eh, c1]; linarith)
          have l := le_roundMag_of_le f (encl p).hi.toNat (encl p).den ml hd hml (by rw [el, c2]; linarith)
          rw [← ha] at l
          have hfin : f.roundMag (encl p).lo.toNat (encl p).den < f.infCode := by omega
          refine ⟨by simp [hfin], ?_, ?_⟩ <;> rw [Fp.toReal_ofMag f _ _ hfin] <;>
            simp only [Bool.false_eq_true, if_false, one_mul]
          · rw [← el]; exact magValue_mono f hfin l
          · rw [← eh]; exact magValue_mono f hmh u
        · split at hr
          · omega
          · simp at hr
    · exact ih _ (by rw [show 2 * p * 2 ^ fuel = p * 2 ^ (fuel + 1) by ring]; exact hp)

/-- A result whose enclosures all lie between -1 and 1 lies there too. -/
theorem refine_unit {upper : Bool} {encl : Nat → Encl} (h : ∀ p, 0 < (encl p).den ∧ -((encl p).den : Int) ≤ (encl p).lo
    ∧ (encl p).lo ≤ (encl p).hi ∧ (encl p).hi ≤ (encl p).den) :
    ∀ fuel p, (refine f32 upper encl fuel p).within (-1) 1 := by
  have mag : ∀ (x den : Nat) (s : Bool), 0 < den → x ≤ den → (Fp.ofMag f32 s (f32.roundMag x den)).within (-1) 1 := by
    intro x den s hd hx
    have hd' : (0 : ℝ) < den := by exact_mod_cast hd
    have hx1 : (x : ℝ) / den ≤ 1 := by rw [div_le_one hd']; exact_mod_cast hx
    have hx0 : (0 : ℝ) ≤ (x : ℝ) / den := by positivity
    refine Fmt.rounds.within (f := f32) (v := (if s then -1 else 1) * ((x : ℝ) / den)) ⟨s, x, den, hd, rfl, rfl⟩
      (Fmt.has_neg f32_has_one) f32_has_one ?_ ?_ <;> cases s <;> simp <;> linarith
  intro fuel
  induction fuel with
  | zero =>
    intro p
    obtain ⟨hd, l1, l2, l3⟩ := h p
    unfold refine
    split <;> exact mag _ _ _ hd (by omega)
  | succ fuel ih =>
    intro p
    obtain ⟨hd, l1, l2, l3⟩ := h p
    unfold refine
    split
    · rename_i r hr
      unfold Encl.rounded at hr
      split at hr
      · simp only [Option.ite_none_right_eq_some, Option.some.injEq] at hr
        obtain ⟨-, rfl⟩ := hr
        exact mag _ _ _ hd (by omega)
      · split at hr
        · simp only [Option.ite_none_right_eq_some, Option.some.injEq] at hr
          obtain ⟨-, rfl⟩ := hr
          exact mag _ _ _ hd (by omega)
        · simp at hr
    · exact ih _

/-! ## Widths -/

/-- An interval that holds a number and is at most `W` units of its last place wide. -/
def Ival.near (p : Nat) (a : Ival) (x W : ℝ) : Prop := a.holds p x ∧ (a.hi : ℝ) - a.lo ≤ W

namespace Ival

variable {p : Nat} {a b : Ival} {x y A B : ℝ}

theorem near.mono (h : a.near p x A) (hab : A ≤ B) : a.near p x B := ⟨h.1, h.2.trans hab⟩

theorem near.nonneg (h : a.near p x A) : 0 ≤ A := by
  have := h.1.1.trans h.1.2
  linarith [h.2]

/-- The ends are at most the width away from the number. -/
theorem near.ends (h : a.near p x A) : x * 2 ^ p - A ≤ a.lo ∧ (a.hi : ℝ) ≤ x * 2 ^ p + A := by
  obtain ⟨⟨h1, h2⟩, h3⟩ := h
  constructor <;> linarith

theorem lt_floorDiv (z : Int) (n : Nat) (hn : 0 < n) : (z : ℝ) / n - 1 < (floorDiv z n : ℝ) := by
  have hn' : (0 : ℝ) < n := by exact_mod_cast hn
  have h := Int.lt_ediv_add_one_mul_self z (show (0 : Int) < n by exact_mod_cast hn)
  have h' : (z : ℝ) < ((floorDiv z n : ℝ) + 1) * n := by
    unfold floorDiv; exact_mod_cast h
  rw [← div_lt_iff₀ hn'] at h'
  linarith

theorem ceilDiv_lt (z : Int) (n : Nat) (hn : 0 < n) : (ceilDiv z n : ℝ) < (z : ℝ) / n + 1 := by
  have h := lt_floorDiv (-z) n hn
  unfold ceilDiv
  unfold floorDiv at h
  push_cast at h ⊢
  rw [neg_div] at h
  linarith

theorem near_ofFraction (p : Nat) (num : Int) (den : Nat) (h : 0 < den) :
    (ofFraction p num den).near p ((num : ℝ) / den) 2 := by
  refine ⟨holds_ofFraction p num den h, ?_⟩
  have h1 := lt_floorDiv (num * (2 ^ p : Nat)) den h
  have h2 := ceilDiv_lt (num * (2 ^ p : Nat)) den h
  simp only [ofFraction]
  linarith

theorem near_zero (p : Nat) : zero.near p 0 0 := ⟨holds_zero p, by simp [zero]⟩

theorem near_one (p : Nat) : (one p).near p 1 0 := ⟨holds_one p, by simp [one]⟩

theorem near_add (ha : a.near p x A) (hb : b.near p y B) : (a.add b).near p (x + y) (A + B) := by
  refine ⟨holds_add ha.1 hb.1, ?_⟩
  simp only [add]; push_cast
  linarith [ha.2, hb.2]

theorem near_neg (ha : a.near p x A) : a.neg.near p (-x) A := by
  refine ⟨holds_neg ha.1, ?_⟩
  simp only [neg]; push_cast
  linarith [ha.2]

theorem near_sub (ha : a.near p x A) (hb : b.near p y B) : (a.sub b).near p (x - y) (A + B) := by
  rw [sub_eq_add_neg]; exact near_add ha (near_neg hb)

theorem near_scale_two (ha : a.near p x A) : (a.scale 2).near p (2 * x) (2 * A) := by
  refine ⟨by have := holds_scale 2 ha.1; push_cast at this; exact this, ?_⟩
  simp only [scale]
  rw [if_pos (by norm_num)]
  push_cast
  linarith [ha.2]

theorem near_divNat (n : Nat) (hn : 0 < n) (ha : a.near p x A) : (a.divNat n).near p (x / n) (A + 2) := by
  refine ⟨holds_divNat n hn ha.1, ?_⟩
  have hn' : (1 : ℝ) ≤ n := by exact_mod_cast hn
  have h1 := lt_floorDiv a.lo n hn
  have h2 := ceilDiv_lt a.hi n hn
  have h3 : ((a.hi : ℝ) - a.lo) / n ≤ A :=
    (div_le_self (by have := ha.1.1.trans ha.1.2; linarith) hn').trans ha.2
  rw [sub_div] at h3
  simp only [divNat]
  linarith

theorem near_widen (d : Int) (ha : a.near p x A) (h : |y - x| * 2 ^ p ≤ d) : (a.widen d).near p y (A + 2 * d) := by
  refine ⟨holds_widen d ha.1 h, ?_⟩
  simp only [widen]; push_cast
  linarith [ha.2]

theorem near_unit (ha : a.near p x A) (hl : -1 ≤ x) (hu : x ≤ 1) : (a.unit p).near p x A := by
  refine ⟨holds_unit ha.1 hl hu, ?_⟩
  have h1 : (a.lo : ℝ) ≤ ((a.unit p).lo : ℝ) := by simp only [unit]; exact_mod_cast le_max_left _ _
  have h2 : ((a.unit p).hi : ℝ) ≤ (a.hi : ℝ) := by simp only [unit]; exact_mod_cast min_le_left _ _
  linarith [ha.2]

/-- A product of numbers within `X` and `Y`. -/
theorem near_mul (X Y : ℝ) (ha : a.near p x A) (hb : b.near p y B) (hx : |x| ≤ X) (hy : |y| ≤ Y) (hB : B ≤ 2 ^ p) :
    (Ival.mul p a b).near p (x * y) (2 * ((Y + 1) * A + X * B) + 2) := by
  refine ⟨holds_mul ha.1 hb.1, ?_⟩
  have hp : (0 : ℝ) < 2 ^ p := by positivity
  have hA := ha.nonneg
  have hB0 := hb.nonneg
  have hY : 0 ≤ Y := (abs_nonneg _).trans hy
  obtain ⟨a1, a2⟩ := ha.ends
  obtain ⟨b1, b2⟩ := hb.ends
  obtain ⟨⟨a3, a4⟩, -⟩ := ha
  obtain ⟨⟨b3, b4⟩, -⟩ := hb
  set D : ℝ := ((Y + 1) * A + X * B) * 2 ^ p with hD
  -- each product of ends is within `D` of the product of the numbers
  have near : ∀ u v : ℝ, |u - x * 2 ^ p| ≤ A → |v - y * 2 ^ p| ≤ B → |u * v - x * 2 ^ p * (y * 2 ^ p)| ≤ D := by
    intro u v hu hv
    have hv' : |v| ≤ (Y + 1) * 2 ^ p := by
      have h1 : |y * 2 ^ p| ≤ Y * 2 ^ p := by rw [abs_mul, abs_of_pos hp]; gcongr
      have h2 := abs_add_le (v - y * 2 ^ p) (y * 2 ^ p)
      rw [sub_add_cancel] at h2
      nlinarith
    have hx' : |x * 2 ^ p| ≤ X * 2 ^ p := by rw [abs_mul, abs_of_pos hp]; gcongr
    have e : u * v - x * 2 ^ p * (y * 2 ^ p) = (u - x * 2 ^ p) * v + x * 2 ^ p * (v - y * 2 ^ p) := by ring
    rw [e]
    refine (abs_add_le _ _).trans ?_
    rw [abs_mul, abs_mul]
    have h1 := mul_le_mul hu hv' (abs_nonneg _) hA
    have h2 := mul_le_mul hx' hv (abs_nonneg _) ((abs_nonneg _).trans hx')
    rw [hD]
    nlinarith
  have la : |(a.lo : ℝ) - x * 2 ^ p| ≤ A := by rw [abs_le]; constructor <;> linarith
  have lh : |(a.hi : ℝ) - x * 2 ^ p| ≤ A := by rw [abs_le]; constructor <;> linarith
  have lb : |(b.lo : ℝ) - y * 2 ^ p| ≤ B := by rw [abs_le]; constructor <;> linarith
  have lbh : |(b.hi : ℝ) - y * 2 ^ p| ≤ B := by rw [abs_le]; constructor <;> linarith
  have n1 := abs_le.mp (near _ _ la lb)
  have n2 := abs_le.mp (near _ _ la lbh)
  have n3 := abs_le.mp (near _ _ lh lb)
  have n4 := abs_le.mp (near _ _ lh lbh)
  set m : Int := min (min (a.lo * b.lo) (a.lo * b.hi)) (min (a.hi * b.lo) (a.hi * b.hi)) with hm
  set M : Int := max (max (a.lo * b.lo) (a.lo * b.hi)) (max (a.hi * b.lo) (a.hi * b.hi)) with hM
  have hmlow : x * 2 ^ p * (y * 2 ^ p) - D ≤ (m : ℝ) := by
    rw [hm]; push_cast
    exact le_min (le_min (by linarith [n1.1]) (by linarith [n2.1])) (le_min (by linarith [n3.1]) (by linarith [n4.1]))
  have hMhigh : (M : ℝ) ≤ x * 2 ^ p * (y * 2 ^ p) + D := by
    rw [hM]; push_cast
    exact max_le (max_le (by linarith [n1.2]) (by linarith [n2.2])) (max_le (by linarith [n3.2]) (by linarith [n4.2]))
  have f1 := lt_floorDiv m (2 ^ p) (by positivity)
  have f2 := ceilDiv_lt M (2 ^ p) (by positivity)
  have e : ((2 ^ p : Nat) : ℝ) = 2 ^ p := by push_cast; rfl
  rw [e] at f1 f2
  have hdiff : ((M : ℝ) - m) / 2 ^ p ≤ 2 * ((Y + 1) * A + X * B) := by
    rw [div_le_iff₀ hp]
    calc (M : ℝ) - m ≤ 2 * D := by linarith
      _ = 2 * ((Y + 1) * A + X * B) * 2 ^ p := by rw [hD]; ring
  rw [sub_div] at hdiff
  simp only [Ival.mul]
  linarith

/-- A product of numbers between -1 and 1. -/
theorem near_mul_one (ha : a.near p x A) (hb : b.near p y B) (hx : |x| ≤ 1) (hy : |y| ≤ 1) (hB : B ≤ 2 ^ p) :
    (Ival.mul p a b).near p (x * y) (4 * A + 2 * B + 2) := by
  refine (near_mul 1 1 ha hb hx hy hB).mono ?_
  linarith

theorem mag_le (ha : a.near p x A) : (a.mag : ℝ) ≤ |x| * 2 ^ p + A := by
  have hp : (0 : ℝ) < 2 ^ p := by positivity
  obtain ⟨e1, e2⟩ := ha.ends
  have h0 := ha.nonneg
  have h1 : |x| * 2 ^ p = |x * 2 ^ p| := by rw [abs_mul, abs_of_pos hp]
  obtain ⟨b1, b2⟩ := abs_le.mp (le_refl |x * 2 ^ p|)
  obtain ⟨⟨a3, a4⟩, -⟩ := ha
  have : (a.mag : ℝ) = max |(a.lo : ℝ)| |(a.hi : ℝ)| := by
    unfold mag; push_cast; simp
  rw [this, h1]
  refine max_le (abs_le.mpr ⟨?_, ?_⟩) (abs_le.mpr ⟨?_, ?_⟩) <;> linarith

end Ival

/-! ## Sine and cosine -/

theorem abs_cosTerm_le (x : ℝ) (hx : |x| ≤ 1) (j : Nat) : |cosTerm x j| ≤ 1 / (2 * j).factorial := by
  unfold cosTerm
  rw [abs_div, abs_mul, abs_pow, abs_pow, abs_neg, abs_one, one_pow, one_mul,
    abs_of_pos (by positivity : (0 : ℝ) < ((2 * j).factorial : ℝ))]
  gcongr
  exact pow_le_one₀ (abs_nonneg _) hx

theorem one_div_factorial_le (n : Nat) : (1 : ℝ) / n.factorial ≤ 1 := by
  rw [div_le_one (by positivity)]; exact_mod_cast Nat.succ_le_of_lt n.factorial_pos

theorem abs_sinTerm_le (x : ℝ) (hx : |x| ≤ 1) (j : Nat) : |sinTerm x j| ≤ 1 := by
  rw [sinTerm_eq, abs_div, abs_mul, abs_of_pos (by positivity : (0 : ℝ) < ((2 * j + 1 : Nat) : ℝ))]
  have h1 := (abs_cosTerm_le x hx j).trans (one_div_factorial_le _)
  have hn : (1 : ℝ) ≤ ((2 * j + 1 : Nat) : ℝ) := by push_cast; linarith [(Nat.cast_nonneg j : (0 : ℝ) ≤ j)]
  exact (div_le_self (by positivity) hn).trans (mul_le_one₀ h1 (abs_nonneg _) hx)

/-- The widths of the series' sums and of its remaining term grow at most sixteenfold a round. -/
theorem cosSinTerms_near (p : Nat) (u : Ival) (x : ℝ) (hu : u.near p x 2) (hx : |x| ≤ 1) (n : Nat) :
    ∀ (j : Nat) (t c s : Ival), (16 : ℝ) ^ (j + n + 1) ≤ 2 ^ p → t.near p (cosTerm x j) (3 * 16 ^ j - 3) →
      c.near p (∑ i ∈ range j, cosTerm x i) (16 ^ j) → s.near p (∑ i ∈ range j, sinTerm x i) (16 ^ j) →
      (cosSinTerms p u n j t c s).1.near p (∑ i ∈ range (j + n), cosTerm x i) (16 ^ (j + n))
      ∧ (cosSinTerms p u n j t c s).2.1.near p (∑ i ∈ range (j + n), sinTerm x i) (16 ^ (j + n))
      ∧ (cosSinTerms p u n j t c s).2.2.near p (cosTerm x (j + n)) (3 * 16 ^ (j + n) - 3) := by
  induction n with
  | zero => intro j t c s _ ht hc hs; exact ⟨hc, hs, ht⟩
  | succ n ih =>
    intro j t c s hp ht hc hs
    have hj : (16 : ℝ) ^ (j + 1) = 16 * 16 ^ j := by rw [pow_succ']
    have hj1 : (1 : ℝ) ≤ 16 ^ j := one_le_pow₀ (by norm_num)
    have hpj : (16 : ℝ) ^ (j + 1) ≤ 2 ^ p :=
      le_trans (pow_le_pow_right₀ (by norm_num) (by omega)) hp
    have ct := (abs_cosTerm_le x hx j).trans (one_div_factorial_le _)
    have h1 : ((Ival.mul p t u).divNat (2 * j + 1)).near p (sinTerm x j) (12 * 16 ^ j - 4) := by
      rw [sinTerm_eq]
      refine (Ival.near_divNat _ (by omega) (Ival.near_mul_one ht hu ct hx (by linarith))).mono ?_
      linarith
    have h2 : ((Ival.mul p ((Ival.mul p t u).divNat (2 * j + 1)) u).divNat (2 * j + 2)).neg.near p (cosTerm x (j + 1))
        (3 * 16 ^ (j + 1) - 3) := by
      rw [cosTerm_succ]
      refine (Ival.near_neg (Ival.near_divNat _ (by omega)
        (Ival.near_mul_one h1 hu (abs_sinTerm_le x hx j) hx (by linarith)))).mono ?_
      linarith
    have := ih (j + 1) _ (c.add t) (s.add ((Ival.mul p t u).divNat (2 * j + 1)))
      (by rw [show j + 1 + n + 1 = j + (n + 1) + 1 by ring]; exact hp) h2
      (by rw [sum_range_succ]; exact (Ival.near_add hc ht).mono (by linarith))
      (by rw [sum_range_succ]; exact (Ival.near_add hs h1).mono (by linarith))
    rw [show j + (n + 1) = j + 1 + n by ring]
    exact this

/-- The widths grow at most sixteenfold at each doubling of the angle. -/
theorem doubleAngle_near (p n : Nat) : ∀ (c s : Ival) (x A : ℝ), 1 ≤ A → 16 ^ n * A ≤ 2 ^ p →
    c.near p (Real.cos x) A → s.near p (Real.sin x) A →
    (doubleAngle p n c s).1.near p (Real.cos (2 ^ n * x)) (16 ^ n * A)
    ∧ (doubleAngle p n c s).2.near p (Real.sin (2 ^ n * x)) (16 ^ n * A) := by
  induction n with
  | zero => intro c s x A _ _ hc hs; simpa [doubleAngle] using ⟨hc, hs⟩
  | succ n ih =>
    intro c s x A hA hp hc hs
    have e16 : (16 : ℝ) ^ (n + 1) * A = 16 ^ n * (16 * A) := by ring
    have hAp : A ≤ 2 ^ p := by
      refine le_trans ?_ hp
      have : (1 : ℝ) ≤ 16 ^ (n + 1) := one_le_pow₀ (by norm_num)
      nlinarith
    have hc1 := Real.abs_cos_le_one x
    have hs1 := Real.abs_sin_le_one x
    have h1 : ((Ival.mul p c c).sub (Ival.mul p s s)).near p (Real.cos (2 * x)) (16 * A) := by
      rw [Real.cos_two_mul', pow_two, pow_two]
      exact (Ival.near_sub (Ival.near_mul_one hc hc hc1 hc1 hAp) (Ival.near_mul_one hs hs hs1 hs1 hAp)).mono (by linarith)
    have h2 : ((Ival.mul p c s).scale 2).near p (Real.sin (2 * x)) (16 * A) := by
      rw [Real.sin_two_mul, show 2 * Real.sin x * Real.cos x = 2 * (Real.cos x * Real.sin x) by ring]
      exact (Ival.near_scale_two (Ival.near_mul_one hc hs hc1 hs1 hAp)).mono (by linarith)
    have := ih _ _ (2 * x) (16 * A) (by linarith) (by rw [← e16]; exact hp) h1 h2
    rw [e16, show (2 : ℝ) ^ (n + 1) * x = 2 ^ n * (2 * x) by ring]
    exact this

/-- At a working precision far above the number of halvings, `cosSin` is much narrower than a unit. -/
theorem cosSin_near (m : Nat) (e : Int) (q : Nat) (hm : 0 < m) (hk : halvings m e ≤ 6) (hq : 400 ≤ q) :
    (cosSin m e q).1.near q (Real.cos (m * (2 : ℝ) ^ e)) (2 ^ q / 2 ^ 40)
    ∧ (cosSin m e q).2.near q (Real.sin (m * (2 : ℝ) ^ e)) (2 ^ q / 2 ^ 40) := by
  set k := halvings m e with hkdef
  set x : ℝ := m * (2 : ℝ) ^ (e - k) with hx
  have hx0 : 0 ≤ x := by positivity
  have hx1 : |x| ≤ 1 := by rw [abs_of_nonneg hx0]; exact angle_small m e hm
  have hu : (Ival.ofFraction q (fraction m (e - k)).1 (fraction m (e - k)).2).near q x 2 := by
    have := Ival.near_ofFraction q ((fraction m (e - k)).1 : Int) _ (fraction_den_pos m (e - k))
    rw [Int.cast_natCast, fraction_value] at this
    exact this
  set n := q / 10 + 6 with hn
  have h16 : ∀ i : Nat, (16 : ℝ) ^ i = 2 ^ (4 * i) := by intro i; rw [pow_mul]; norm_num
  have hp : (0 : ℝ) < 2 ^ q := by positivity
  have hlow : (16 : ℝ) ^ n * 2 ^ 70 ≤ 2 ^ q / 2 ^ 40 := by
    rw [le_div_iff₀ (by positivity), h16, ← pow_add, ← pow_add]
    exact pow_le_pow_right₀ (by norm_num) (by omega)
  obtain ⟨r1, r2, r3⟩ := cosSinTerms_near q _ x hu hx1 n 0 (Ival.one q) Ival.zero Ival.zero
    (by rw [zero_add, h16]; exact pow_le_pow_right₀ (by norm_num) (by omega))
    (by simpa [cosTerm] using Ival.near_one q) (by simpa using (Ival.near_zero q).mono (by norm_num))
    (by simpa using (Ival.near_zero q).mono (by norm_num))
  rw [zero_add] at r1 r2 r3
  obtain ⟨b1, b2⟩ := cosSin_remainder x hx1 n (by omega)
  have hmag := Ival.abs_le_mag r3.1
  set r := cosSinTerms q (Ival.ofFraction q (fraction m (e - k)).1 (fraction m (e - k)).2) n 0 (Ival.one q) Ival.zero
    Ival.zero with hr
  have w1 := Ival.near_widen (2 * r.2.2.mag) r1 (y := Real.cos x) (by push_cast; nlinarith)
  have w2 := Ival.near_widen (2 * r.2.2.mag) r2 (y := Real.sin x) (by push_cast; nlinarith)
  -- the term left out is tiny
  have hfact : |cosTerm x n| * 2 ^ q ≤ 2 ^ q / 2 ^ 80 := by
    have h1 := abs_cosTerm_le x hx1 n
    have h2 : (2 : ℝ) ^ 80 ≤ (2 * n).factorial := by
      have : 2 ^ (2 * n - 1) ≤ (2 * n).factorial := by
        have h := Nat.factorial_mul_pow_sub_le_factorial (show 2 ≤ 2 * n by omega)
        rwa [Nat.factorial_two, ← pow_succ', show 2 * n - 2 + 1 = 2 * n - 1 by omega] at h
      refine le_trans (pow_le_pow_right₀ (by norm_num) (show 80 ≤ 2 * n - 1 by omega)) ?_
      exact_mod_cast this
    have h3 : (1 : ℝ) / (2 * n).factorial ≤ 1 / 2 ^ 80 := by gcongr
    calc |cosTerm x n| * 2 ^ q ≤ (1 / 2 ^ 80) * 2 ^ q := by gcongr; exact h1.trans h3
      _ = 2 ^ q / 2 ^ 80 := by ring
  have hmagle := Ival.mag_le r3
  set A : ℝ := 16 ^ n + 2 * ((2 * r.2.2.mag : Int) : ℝ) with hA
  have h16n : (1 : ℝ) ≤ 16 ^ n := one_le_pow₀ (by norm_num)
  have hmag0 : (0 : ℝ) ≤ (r.2.2.mag : ℝ) := (by positivity : (0 : ℝ) ≤ |cosTerm x n| * 2 ^ q).trans hmag
  have hA1 : 1 ≤ A := by rw [hA]; push_cast; linarith
  have hAle : A ≤ 2 ^ q / 2 ^ 70 := by
    have e80 : (2 : ℝ) ^ q / 2 ^ 80 = 2 ^ q / 2 ^ 70 / 1024 := by
      rw [div_div]; norm_num
    have e70 : (16 : ℝ) ^ n ≤ 2 ^ q / 2 ^ 70 / 1024 := by
      rw [le_div_iff₀ (by norm_num), le_div_iff₀ (by positivity)]
      rw [le_div_iff₀ (by positivity)] at hlow
      calc (16 : ℝ) ^ n * 1024 * 2 ^ 70 ≤ 16 ^ n * 2 ^ 70 * 2 ^ 40 := by
            have : (0 : ℝ) ≤ 16 ^ n := by positivity
            nlinarith
        _ ≤ 2 ^ q := hlow
    rw [hA]; push_cast
    linarith
  have hk16 : (16 : ℝ) ^ k ≤ 2 ^ 24 := by
    rw [h16]; exact pow_le_pow_right₀ (by norm_num) (by omega)
  have hkA : (16 : ℝ) ^ k * A ≤ 2 ^ q / 2 ^ 40 := by
    calc (16 : ℝ) ^ k * A ≤ 2 ^ 24 * (2 ^ q / 2 ^ 70) := by gcongr
      _ ≤ 2 ^ q / 2 ^ 40 := by
        rw [← mul_div_assoc, div_le_div_iff₀ (by positivity) (by positivity)]
        nlinarith
  have hle : (2 : ℝ) ^ q / 2 ^ 40 ≤ 2 ^ q := div_le_self hp.le (by norm_num)
  obtain ⟨d1, d2⟩ := doubleAngle_near q k _ _ x A hA1 (hkA.trans hle) w1 w2
  have ex : (2 : ℝ) ^ k * x = m * (2 : ℝ) ^ e := by
    rw [hx, mul_left_comm, ← zpow_natCast, ← zpow_add₀ (by norm_num)]
    congr 2; ring
  rw [ex] at d1 d2
  exact ⟨(Ival.near_unit d1 (Real.neg_one_le_cos _) (Real.cos_le_one _)).mono hkA,
    (Ival.near_unit d2 (Real.neg_one_le_sin _) (Real.sin_le_one _)).mono hkA⟩

end Sys2Proof.Machine
end

