-- ==== Sys2Proof/Laws/Elementary.lean ====
section
/-! SUPPORT. Where the binary32 elementary functions' results lie, on the arguments that the calculator gives them
(spec/40_coefficient_calculator.md R126). -/

namespace Sys2Proof.Machine

open Finset

/-! ## Arguments -/

/-- A datum above 0 is a positive significand with sign bit 0. -/
theorem positive_fin {a : Fp} {lo hi : ℝ} (h : a.within lo hi) (h0 : 0 < lo) :
    ∃ m e, 0 < m ∧ a = .fin false m e ∧ a.toReal = m * (2 : ℝ) ^ e := by
  obtain ⟨hf, h1, h2⟩ := h
  cases a with
  | nan => simp [Fp.isFinite] at hf
  | inf s => simp [Fp.isFinite] at hf
  | fin s m e =>
    have hz : (0 : ℝ) ≤ m * (2 : ℝ) ^ e := by positivity
    cases s with
    | true => simp only [Fp.toReal, if_true] at h1; linarith
    | false =>
      refine ⟨m, e, ?_, rfl, by simp [Fp.toReal]⟩
      rcases Nat.eq_zero_or_pos m with h | h
      · subst h; simp [Fp.toReal] at h1; linarith
      · exact h

/-- An angle below 4 is halved at most six times. -/
theorem halvings_le (m : Nat) (e : Int) (hm : 0 < m) (h : (m : ℝ) * (2 : ℝ) ^ e < 4) : halvings m e ≤ 6 := by
  have h1 : (2 : ℝ) ^ (Nat.log2 m) ≤ m := by exact_mod_cast (log2_bounds m hm).1
  have h2 : (2 : ℝ) ^ ((Nat.log2 m : Int) + e) < (2 : ℝ) ^ (2 : Int) := by
    rw [zpow_add₀ (by norm_num), zpow_natCast]
    calc (2 : ℝ) ^ Nat.log2 m * (2 : ℝ) ^ e ≤ m * (2 : ℝ) ^ e := by gcongr
      _ < (2 : ℝ) ^ (2 : Int) := by norm_num; exact h
  have h3 := (zpow_lt_zpow_iff_right₀ (by norm_num : (1 : ℝ) < 2)).mp h2
  unfold halvings
  omega

theorem le_anglePrecision (m : Nat) (e : Int) (p : Nat) : p ≤ anglePrecision m e p := by
  unfold anglePrecision; omega

/-- The last working precision of binary32. -/
theorem last_precision : basePrecision f32 * 2 ^ refineFuel = 4480 := by decide

/-! ## Cosine -/

/-- A cosine lies between -1 and 1. -/
theorem cos32_within (a : Fp) (h : a.isFinite = true) : (cos32 a).within (-1) 1 := by
  cases a with
  | nan => simp [Fp.isFinite] at h
  | inf s => simp [Fp.isFinite] at h
  | fin s m e =>
    unfold cos32 Fp.cos
    simp only
    split
    · exact Fmt.rounds.within (f := f32) (v := 1) ⟨false, 1, 1, one_pos, by simp, rfl⟩ (Fmt.has_neg f32_has_one)
        f32_has_one (by norm_num) le_rfl
    · rename_i hm
      refine refine_unit (fun p => ?_) _ _
      obtain ⟨hd, h1, h2⟩ := cosEncl_holds m e p (by omega)
      have hd' : (0 : ℝ) < ((cosEncl m e p).den : ℝ) := by exact_mod_cast hd
      have hle := h1.trans h2
      rw [div_le_div_iff_of_pos_right hd'] at hle
      refine ⟨hd, ?_, by exact_mod_cast hle, ?_⟩
      · simp only [cosEncl, cosSin, Ival.toEncl, Ival.unit]
        exact le_max_right _ _
      · simp only [cosEncl, cosSin, Ival.toEncl, Ival.unit]
        exact min_le_right _ _

/-! ## Sine -/

/-- The sine of an angle that keeps away from 0 and π. -/
theorem sin_lower {x : ℝ} (h1 : 1 / 2 ^ 13 ≤ x) (h2 : x ≤ 31 / 10) : 1 / 2 ^ 14 ≤ Real.sin x := by
  have hpi := Real.pi_gt_d2
  have hpi4 := Real.pi_lt_d2
  have low : ∀ y : ℝ, 1 / 2 ^ 13 ≤ y → y ≤ Real.pi / 2 → 1 / 2 ^ 14 ≤ Real.sin y := by
    intro y hy1 hy2
    refine le_trans ?_ (Real.mul_le_sin (by linarith [show (0 : ℝ) < 1 / 2 ^ 13 by norm_num]) hy2)
    have : (1 : ℝ) / 2 ≤ 2 / Real.pi := by
      rw [div_le_div_iff₀ (by norm_num) (by linarith)]; linarith
    calc (1 : ℝ) / 2 ^ 14 = 1 / 2 * (1 / 2 ^ 13) := by norm_num
      _ ≤ 2 / Real.pi * y := by gcongr
  rcases le_total x (Real.pi / 2) with h | h
  · exact low x h1 h
  · rw [← Real.sin_pi_sub]
    refine low _ ?_ (by linarith)
    have : (1 : ℝ) / 2 ^ 13 ≤ 3.14 - 31 / 10 := by norm_num
    linarith

/-- `sin32` on the calculator's angles (R126). -/
theorem sin32_within {a : Fp} (h : a.within (1 / 2 ^ 13) (31 / 10)) : (sin32 a).within (1 / 2 ^ 15) 1 := by
  obtain ⟨m, e, hm, rfl, hv⟩ := positive_fin h (by positivity)
  obtain ⟨-, h1, h2⟩ := h
  rw [hv] at h1 h2
  unfold sin32 Fp.sin
  simp only [if_neg (show m ≠ 0 by omega), Bool.false_eq_true, if_false]
  have hs := sin_lower h1 h2
  refine refine_within (v := Real.sin (m * (2 : ℝ) ^ e)) (by positivity) (le_trans (by norm_num) hs) (Real.sin_le_one _)
    (f32_has_inv_pow 15 (by omega)) f32_has_one (fun p => Or.inr (sinEncl_holds m e p hm)) _ _ ?_
  rw [last_precision]
  obtain ⟨hd, e1, e2⟩ := sinEncl_holds m e 4480 hm
  have hd' : (0 : ℝ) < ((sinEncl m e 4480).den : ℝ) := by exact_mod_cast hd
  have hle := e1.trans e2
  rw [div_le_div_iff_of_pos_right hd'] at hle
  refine ⟨hd, ?_, ?_, by exact_mod_cast hle⟩
  · set q := anglePrecision m e 4480 with hq
    have hnear := (cosSin_near m e q hm (halvings_le m e hm (by linarith))
      (by have := le_anglePrecision m e 4480; omega)).2
    have hp : (0 : ℝ) < 2 ^ q := by positivity
    have hlo := hnear.ends.1
    show (1 : ℝ) / 2 ^ 15 ≤ ((cosSin m e q).2.lo : ℝ) / ((2 ^ q : Nat) : ℝ)
    push_cast
    rw [le_div_iff₀ hp]
    have h3 := mul_le_mul_of_nonneg_right hs hp.le
    have h4 : (2 : ℝ) ^ q / 2 ^ 40 = 1 / 2 ^ 40 * 2 ^ q := by ring
    have h5 : (1 : ℝ) / 2 ^ 15 * 2 ^ q ≤ (1 / 2 ^ 14 - 1 / 2 ^ 40) * 2 ^ q := by gcongr; norm_num
    rw [h4] at hlo
    linarith
  · rw [div_le_one hd']
    have : (sinEncl m e 4480).hi ≤ ((sinEncl m e 4480).den : Int) := by
      simp only [sinEncl, cosSin, Ival.toEncl, Ival.unit]
      exact min_le_right _ _
    exact_mod_cast this

/-! ## Tangent -/

/-- The cosine of an angle that keeps away from π/2. -/
theorem cos_lower {x : ℝ} (h0 : 0 ≤ x) (h2 : x ≤ 31 / 20) : 1 / 2 ^ 7 ≤ Real.cos x := by
  have hpi := Real.pi_gt_d2
  have hpi4 := Real.pi_lt_d2
  rw [← Real.sin_pi_div_two_sub]
  refine le_trans ?_ (Real.mul_le_sin (by linarith) (by linarith))
  have h1 : (1 : ℝ) / 2 ≤ 2 / Real.pi := by
    rw [div_le_div_iff₀ (by norm_num) (by linarith)]; linarith
  have h3 : (2 : ℝ) / 2 ^ 7 ≤ Real.pi / 2 - x := by norm_num; linarith
  calc (1 : ℝ) / 2 ^ 7 = 1 / 2 * (2 / 2 ^ 7) := by norm_num
    _ ≤ 2 / Real.pi * (Real.pi / 2 - x) := by gcongr

/-- `tan32` on the calculator's angles (R126). -/
theorem tan32_within {a : Fp} (h : a.within (1 / 2 ^ 14) (31 / 20)) : (tan32 a).within (1 / 2 ^ 16) (2 ^ 9) := by
  obtain ⟨m, e, hm, rfl, hv⟩ := positive_fin h (by positivity)
  obtain ⟨-, h1, h2⟩ := h
  rw [hv] at h1 h2
  unfold tan32 Fp.tan
  simp only [if_neg (show m ≠ 0 by omega), Bool.false_eq_true, if_false]
  set x : ℝ := m * (2 : ℝ) ^ e with hx
  have hx0 : 0 ≤ x := by positivity
  have hpi := Real.pi_gt_d2
  have hcos := cos_lower hx0 h2
  have htan1 : 1 / 2 ^ 14 ≤ Real.tan x := h1.trans (Real.le_tan hx0 (by linarith))
  have htan2 : Real.tan x ≤ 2 ^ 7 := by
    rw [Real.tan_eq_sin_div_cos, div_le_iff₀ (by linarith [show (0 : ℝ) < 1 / 2 ^ 7 by norm_num])]
    have := Real.sin_le_one x
    nlinarith
  have hsin : 1 / 2 ^ 15 ≤ Real.sin x := by
    have h3 := Real.mul_le_sin hx0 (show x ≤ Real.pi / 2 by linarith)
    have : (1 : ℝ) / 2 ≤ 2 / Real.pi := by
      rw [div_le_div_iff₀ (by norm_num) (by linarith)]; linarith [Real.pi_lt_d2]
    calc (1 : ℝ) / 2 ^ 15 = 1 / 2 * (1 / 2 ^ 14) := by norm_num
      _ ≤ 2 / Real.pi * x := by gcongr
      _ ≤ Real.sin x := h3
  refine refine_within (v := Real.tan x) (by positivity) (le_trans (by norm_num) htan1) (htan2.trans (by norm_num))
    (f32_has_inv_pow 16 (by omega)) (f32_has_pow 9 (by omega)) (fun p => tanEncl_holds m e p hm) _ _ ?_
  rw [last_precision]
  set q := anglePrecision m e 4480 with hq
  have hq' : 4480 ≤ q := le_anglePrecision m e 4480
  obtain ⟨nc, ns⟩ := cosSin_near m e q hm (halvings_le m e hm (by linarith)) (by omega)
  have hp : (0 : ℝ) < 2 ^ q := by positivity
  have hp40 : (2 : ℝ) ^ q / 2 ^ 40 = 1 / 2 ^ 40 * 2 ^ q := by ring
  rw [hp40, ← hx] at nc ns
  have c1 := nc.ends.1
  have s1 := ns.ends.1
  have hcl : 1 / 2 ^ 8 * 2 ^ q ≤ ((cosSin m e q).1.lo : ℝ) := by
    have h3 := mul_le_mul_of_nonneg_right hcos hp.le
    have : (1 : ℝ) / 2 ^ 8 * 2 ^ q ≤ (1 / 2 ^ 7 - 1 / 2 ^ 40) * 2 ^ q := by gcongr; norm_num
    linarith
  have hsl : 3 / 2 ^ 17 * 2 ^ q ≤ ((cosSin m e q).2.lo : ℝ) := by
    have h3 := mul_le_mul_of_nonneg_right hsin hp.le
    have : (3 : ℝ) / 2 ^ 17 * 2 ^ q ≤ (1 / 2 ^ 15 - 1 / 2 ^ 40) * 2 ^ q := by gcongr; norm_num
    linarith
  have hclpos : 0 < (cosSin m e q).1.lo := by
    have : (0 : ℝ) < ((cosSin m e q).1.lo : ℝ) := lt_of_lt_of_le (by positivity) hcl
    exact_mod_cast this
  have hslpos : 0 < (cosSin m e q).2.lo := by
    have : (0 : ℝ) < ((cosSin m e q).2.lo : ℝ) := lt_of_lt_of_le (by positivity) hsl
    exact_mod_cast this
  have hchi : ((cosSin m e q).1.hi : ℝ) ≤ 2 ^ q := by
    have : (cosSin m e q).1.hi ≤ ((2 ^ q : Nat) : Int) := by
      simp only [cosSin, Ival.unit]; exact min_le_right _ _
    exact_mod_cast this
  have hshi : ((cosSin m e q).2.hi : ℝ) ≤ 2 ^ q := by
    have : (cosSin m e q).2.hi ≤ ((2 ^ q : Nat) : Int) := by
      simp only [cosSin, Ival.unit]; exact min_le_right _ _
    exact_mod_cast this
  have hcle : ((cosSin m e q).1.lo : ℝ) ≤ (cosSin m e q).1.hi := nc.1.1.trans nc.1.2
  have hsle : ((cosSin m e q).2.lo : ℝ) ≤ (cosSin m e q).2.hi := ns.1.1.trans ns.1.2
  have hchipos : 0 < (cosSin m e q).1.hi := by
    have : (cosSin m e q).1.lo ≤ (cosSin m e q).1.hi := by exact_mod_cast hcle
    omega
  have hshipos : 0 < (cosSin m e q).2.hi := by
    have : (cosSin m e q).2.lo ≤ (cosSin m e q).2.hi := by exact_mod_cast hsle
    omega
  have hencl : tanEncl m e 4480 = (Ival.div q (cosSin m e q).2 (cosSin m e q).1).toEncl q := by
    unfold tanEncl
    simp only [← hq]
    rw [if_pos hclpos]
  rcases tanEncl_holds m e 4480 hm with hu | ⟨hd, e1, e2⟩
  · rw [hencl] at hu
    have := congrArg Encl.den hu
    simp only [Ival.toEncl, Encl.undecided] at this
    have h2q : 1 < 2 ^ q := Nat.one_lt_two_pow (by omega)
    omega
  · have hd' : (0 : ℝ) < ((tanEncl m e 4480).den : ℝ) := by exact_mod_cast hd
    have hle := e1.trans e2
    rw [div_le_div_iff_of_pos_right hd'] at hle
    refine ⟨hd, ?_, ?_, by exact_mod_cast hle⟩
    · rw [hencl]
      simp only [Ival.toEncl, Ival.div]
      rw [if_pos hslpos.le]
      push_cast
      rw [le_div_iff₀ hp]
      have f := Ival.lt_floorDiv ((cosSin m e q).2.lo * (2 ^ q : Nat)) (cosSin m e q).1.hi.toNat (by omega)
      have c : (((cosSin m e q).1.hi.toNat : Nat) : ℝ) = (cosSin m e q).1.hi := by
        exact_mod_cast Int.toNat_of_nonneg hchipos.le
      have hchipos' : (0 : ℝ) < (cosSin m e q).1.hi := by exact_mod_cast hchipos
      have hslpos' : (0 : ℝ) < (cosSin m e q).2.lo := by exact_mod_cast hslpos
      rw [c] at f
      push_cast at f
      have g : ((cosSin m e q).2.lo : ℝ) ≤ ((cosSin m e q).2.lo : ℝ) * 2 ^ q / (cosSin m e q).1.hi := by
        rw [le_div_iff₀ hchipos']; gcongr
      have h1q : (1 : ℝ) ≤ 1 / 2 ^ 17 * 2 ^ q := by
        rw [one_div, inv_mul_eq_div, le_div_iff₀ (by positivity), one_mul]
        exact pow_le_pow_right₀ (by norm_num) (by omega)
      have : (3 : ℝ) / 2 ^ 17 * 2 ^ q = 1 / 2 ^ 16 * 2 ^ q + 1 / 2 ^ 17 * 2 ^ q := by ring
      linarith
    · rw [hencl]
      simp only [Ival.toEncl, Ival.div]
      rw [if_pos hshipos.le]
      push_cast
      rw [div_le_iff₀ hp]
      have f := Ival.ceilDiv_lt ((cosSin m e q).2.hi * (2 ^ q : Nat)) (cosSin m e q).1.lo.toNat (by omega)
      have c : (((cosSin m e q).1.lo.toNat : Nat) : ℝ) = (cosSin m e q).1.lo := by
        exact_mod_cast Int.toNat_of_nonneg hclpos.le
      have hclpos' : (0 : ℝ) < (cosSin m e q).1.lo := by exact_mod_cast hclpos
      rw [c] at f
      push_cast at f
      have g : ((cosSin m e q).2.hi : ℝ) * 2 ^ q / (cosSin m e q).1.lo ≤ 2 ^ 8 * 2 ^ q := by
        rw [div_le_iff₀ hclpos']
        have h3 := mul_le_mul_of_nonneg_left hcl (show (0 : ℝ) ≤ 2 ^ 8 * 2 ^ q by positivity)
        have h4 := mul_le_mul_of_nonneg_right hshi hp.le
        have : (2 : ℝ) ^ 8 * 2 ^ q * (1 / 2 ^ 8 * 2 ^ q) = 2 ^ q * 2 ^ q := by ring
        linarith
      have h1q : (1 : ℝ) ≤ 2 ^ q := one_le_pow₀ (by norm_num)
      linarith

/-! ## Powers of ten -/

theorem expTerms_near (p : Nat) (u : Ival) (x U : ℝ) (hu : u.near p x U) (hU : 4 ≤ U) (hUp : U ≤ 2 ^ p) (hx : |x| ≤ 1)
    (n : Nat) : ∀ (j : Nat) (t acc : Ival), t.near p (x ^ j / j.factorial) ((4 ^ j - 1) * U) →
      acc.near p (∑ i ∈ range j, x ^ i / i.factorial) (4 ^ j * U) →
      (expTerms p u n j t acc).1.near p (∑ i ∈ range (j + n), x ^ i / i.factorial) (4 ^ (j + n) * U)
      ∧ (expTerms p u n j t acc).2.near p (x ^ (j + n) / (j + n).factorial) ((4 ^ (j + n) - 1) * U) := by
  induction n with
  | zero => intro j t acc ht ha; exact ⟨ha, ht⟩
  | succ n ih =>
    intro j t acc ht ha
    have ht1 : |x ^ j / (j.factorial : ℝ)| ≤ 1 := by
      rw [abs_div, abs_pow, abs_of_pos (by positivity : (0 : ℝ) < (j.factorial : ℝ))]
      refine (div_le_self (by positivity) ?_).trans (pow_le_one₀ (abs_nonneg _) hx)
      exact_mod_cast Nat.succ_le_of_lt j.factorial_pos
    have hj : (4 : ℝ) ^ (j + 1) = 4 * 4 ^ j := by rw [pow_succ']
    have h1 : ((Ival.mul p t u).divNat (j + 1)).near p (x ^ (j + 1) / (j + 1).factorial) ((4 ^ (j + 1) - 1) * U) := by
      have e : x ^ (j + 1) / ((j + 1).factorial : ℝ) = x ^ j / j.factorial * x / ((j + 1 : Nat) : ℝ) := by
        rw [Nat.factorial_succ]
        have : ((j).factorial : ℝ) ≠ 0 := by positivity
        push_cast; field_simp
        try ring
      rw [e]
      refine (Ival.near_divNat (j + 1) (by omega) (Ival.near_mul_one ht hu ht1 hx hUp)).mono ?_
      rw [hj]; nlinarith
    have hj1 : (1 : ℝ) ≤ 4 ^ j := one_le_pow₀ (by norm_num)
    have := ih (j + 1) _ (acc.add t) h1
      (by rw [sum_range_succ]; exact (Ival.near_add ha ht).mono (by rw [hj]; nlinarith))
    rw [show j + (n + 1) = j + 1 + n by ring]
    exact this

theorem squares_near (p n : Nat) : ∀ (a : Ival) (x A : ℝ), 1 ≤ A → 64 ^ n * A ≤ 2 ^ p → a.near p x A → |x| ^ 2 ^ n ≤ 10 →
    (squares p n a).near p (x ^ 2 ^ n) (64 ^ n * A) := by
  induction n with
  | zero => intro a x A _ _ h _; simpa [squares] using h
  | succ n ih =>
    intro a x A hA hp h hx
    have e64 : (64 : ℝ) ^ (n + 1) * A = 64 ^ n * (64 * A) := by ring
    have hAp : A ≤ 2 ^ p := by
      refine le_trans ?_ hp
      have : (1 : ℝ) ≤ 64 ^ (n + 1) := one_le_pow₀ (by norm_num)
      nlinarith
    have hx10 : |x| ≤ 10 := by
      rcases le_total |x| 1 with h1 | h1
      · linarith
      · exact (le_self_pow₀ h1 (by positivity)).trans hx
    have := ih _ (x * x) (64 * A) (by linarith) (by rw [← e64]; exact hp)
      ((Ival.near_mul 10 10 h h hx10 hx10 hAp).mono (by linarith))
      (by rw [abs_mul, ← pow_two, ← pow_mul, ← pow_succ']; exact hx)
    rw [← pow_two, ← pow_mul, ← pow_succ'] at this
    rw [e64]
    exact this

/-- `ln 10` at the last working precision is narrow. -/
theorem lnTen_near : (lnTen 4496).near 4496 (Real.log 10) (2 ^ 40) := by
  refine ⟨lnTen_holds 4496, ?_⟩
  have : (lnTen 4496).hi - (lnTen 4496).lo ≤ 2 ^ 40 := by decide +kernel
  exact_mod_cast this

/-- The power of ten of a fraction is narrow, where `ln 10` is and the precision is high. -/
theorem exp10Fraction_near (p num den : Nat) (hd : 0 < den) (h : num ≤ den) (hp400 : 400 ≤ p)
    (hln : (lnTen p).near p (Real.log 10) (2 ^ 40)) :
    (exp10Fraction p num den).near p ((10 : ℝ) ^ ((num : ℝ) / den)) (2 ^ p / 2 ^ 40) := by
  have hd' : (0 : ℝ) < den := by exact_mod_cast hd
  have hle : (num : ℝ) / den ≤ 1 := by rw [div_le_one hd']; exact_mod_cast h
  have h0 : (0 : ℝ) ≤ (num : ℝ) / den := by positivity
  have hlog : Real.log 10 ≤ 9 := by
    have := Real.log_le_sub_one_of_pos (show (0 : ℝ) < 10 by norm_num)
    linarith
  have hlog0 : 0 ≤ Real.log 10 := Real.log_nonneg (by norm_num)
  set x : ℝ := (num : ℝ) / den * Real.log 10 / ((32 : Nat) : ℝ) with hx
  have hx1 : |x| ≤ 1 := by
    rw [hx, abs_of_nonneg (by positivity)]
    push_cast
    rw [div_le_one (by norm_num)]
    nlinarith
  have e : (10 : ℝ) ^ ((num : ℝ) / den) = Real.exp x ^ 2 ^ 5 := by
    rw [Real.rpow_def_of_pos (by norm_num), ← Real.exp_nat_mul]
    congr 1
    rw [hx]
    push_cast
    ring
  have hten : (10 : ℝ) ^ ((num : ℝ) / den) ≤ 10 := by
    calc (10 : ℝ) ^ ((num : ℝ) / den) ≤ (10 : ℝ) ^ (1 : ℝ) := Real.rpow_le_rpow_of_exponent_le (by norm_num) hle
      _ = 10 := Real.rpow_one _
  have two : ∀ {a b : Nat}, a ≤ b → (2 : ℝ) ^ a ≤ 2 ^ b := fun hab => pow_le_pow_right₀ (by norm_num) hab
  have hf := Ival.near_ofFraction p (num : Int) den hd
  rw [Int.cast_natCast] at hf
  have hu : ((Ival.mul p (Ival.ofFraction p num den) (lnTen p)).divNat 32).near p x (2 ^ 50) := by
    refine (Ival.near_divNat 32 (by norm_num) (Ival.near_mul 1 9 hf hln (by rw [abs_of_nonneg h0]; exact hle)
      (by rw [abs_of_nonneg hlog0]; exact hlog) (two (by omega)))).mono ?_
    norm_num
  set n := p / 5 + 4 with hn
  obtain ⟨r1, r2⟩ := expTerms_near p _ x (2 ^ 50) hu (by norm_num) (two (by omega)) hx1 n 0
    (Ival.one p) Ival.zero (by simpa using Ival.near_one p) (by simpa using (Ival.near_zero p).mono (by norm_num))
  rw [zero_add] at r1 r2
  have hb := exp_remainder x hx1 n (by omega)
  have hmag := Ival.abs_le_mag r2.1
  have hmagle := Ival.mag_le r2
  have hp : (0 : ℝ) < 2 ^ p := by positivity
  set r := expTerms p ((Ival.mul p (Ival.ofFraction p num den) (lnTen p)).divNat 32) n 0 (Ival.one p) Ival.zero with hr
  have w := Ival.near_widen (2 * r.2.mag) r1 (y := Real.exp x) (by push_cast; nlinarith)
  -- the term left out is tiny
  have hfact : |x ^ n / (n.factorial : ℝ)| * 2 ^ p ≤ 2 ^ p / 2 ^ 80 := by
    have h2 : (2 : ℝ) ^ 80 ≤ n.factorial := by
      have h := Nat.factorial_mul_pow_sub_le_factorial (show 2 ≤ n by omega)
      rw [Nat.factorial_two, ← pow_succ'] at h
      refine (two (show 80 ≤ n - 2 + 1 by omega)).trans ?_
      exact_mod_cast h
    have h1 : |x ^ n / (n.factorial : ℝ)| ≤ 1 / 2 ^ 80 := by
      rw [abs_div, abs_pow, abs_of_pos (by positivity : (0 : ℝ) < (n.factorial : ℝ))]
      have h4 : |x| ^ n ≤ 1 := pow_le_one₀ (abs_nonneg _) hx1
      gcongr
    calc |x ^ n / (n.factorial : ℝ)| * 2 ^ p ≤ 1 / 2 ^ 80 * 2 ^ p := by gcongr
      _ = 2 ^ p / 2 ^ 80 := by ring
  set A : ℝ := 4 ^ n * 2 ^ 50 + 2 * ((2 * r.2.mag : Int) : ℝ) with hA
  have hmag0 : (0 : ℝ) ≤ (r.2.mag : ℝ) := (by positivity : (0 : ℝ) ≤ |x ^ n / (n.factorial : ℝ)| * 2 ^ p).trans hmag
  have h4n : (1 : ℝ) ≤ 4 ^ n := one_le_pow₀ (by norm_num)
  have hA1 : 1 ≤ A := by rw [hA]; push_cast; linarith
  have hser : (4 : ℝ) ^ n * 2 ^ 50 ≤ 2 ^ p / 2 ^ 80 := by
    rw [le_div_iff₀ (by positivity), show (4 : ℝ) = 2 ^ 2 by norm_num, ← pow_mul, ← pow_add, ← pow_add]
    exact two (by omega)
  have hAle : A ≤ 9 * (2 ^ p / 2 ^ 80) := by rw [hA]; push_cast; linarith
  have h64 : (64 : ℝ) ^ 5 * A ≤ 2 ^ p / 2 ^ 40 := by
    calc (64 : ℝ) ^ 5 * A ≤ 64 ^ 5 * (9 * (2 ^ p / 2 ^ 80)) := by gcongr
      _ = 2 ^ p * (64 ^ 5 * 9 / 2 ^ 80) := by ring
      _ ≤ 2 ^ p * (1 / 2 ^ 40) := mul_le_mul_of_nonneg_left (by norm_num) hp.le
      _ = 2 ^ p / 2 ^ 40 := by ring
  have hsq := squares_near p 5 _ _ A hA1 (h64.trans (div_le_self hp.le (by norm_num))) w
    (by rw [abs_of_pos (Real.exp_pos _), ← e]; exact hten)
  rw [e]
  exact hsq.mono h64

/-- The whole and fractional parts of a datum make up its value. -/
theorem parts_value (s : Bool) (m : Nat) (e : Int) :
    (wholePart s m e : ℝ) + (fractionalPart s m e : ℝ) / ((fraction m e).2 : Nat) = (Fp.fin s m e).toReal
    ∧ fractionalPart s m e < (fraction m e).2 := by
  have hd := fraction_den_pos m e
  have hd0 : (0 : Int) < ((fraction m e).2 : Int) := by exact_mod_cast hd
  have hd' : (0 : ℝ) < ((fraction m e).2 : ℝ) := by exact_mod_cast hd
  have hmod := Int.emod_add_ediv_mul (signedNumerator s m e) ((fraction m e).2 : Int)
  have h0 := Int.emod_nonneg (signedNumerator s m e) hd0.ne'
  have h1 := Int.emod_lt_of_pos (signedNumerator s m e) hd0
  have hval : (fractionalPart s m e : Int) = signedNumerator s m e - wholePart s m e * (fraction m e).2 := by
    unfold fractionalPart
    rw [Int.toNat_of_nonneg]
    unfold wholePart floorDiv
    omega
  constructor
  · have hnum : ((signedNumerator s m e : Int) : ℝ) / (fraction m e).2 = (Fp.fin s m e).toReal := by
      have := fraction_value m e
      unfold signedNumerator
      cases s
      · simp only [Fp.toReal, Bool.false_eq_true, if_false, one_mul]
        rw [← this]; simp
      · simp only [Fp.toReal, if_true]
        rw [← this]; push_cast; ring
    have hval' : (fractionalPart s m e : ℝ) = (signedNumerator s m e : ℝ) - wholePart s m e * (fraction m e).2 := by
      exact_mod_cast congrArg (Int.cast (R := ℝ)) hval
    rw [hval', ← hnum]
    field_simp
    ring
  · have : (fractionalPart s m e : Int) < (fraction m e).2 := by
      rw [hval]; unfold wholePart floorDiv; omega
    exact_mod_cast this

/-- The ends of a narrow enclosure of a power of ten between -2 and 2. -/
theorem exp10Encl_ends (n : Int) (num den p : Nat) (hd : 0 < den) (h : num ≤ den) (n1 : -3 < n) (n2 : n < 2)
    (hnear : (exp10Fraction (p + 16) num den).near (p + 16) ((10 : ℝ) ^ ((num : ℝ) / den)) (2 ^ (p + 16) / 2 ^ 40)) :
    0 < (exp10Encl n num den p).den
    ∧ 1 / 2 ^ 10 ≤ ((exp10Encl n num den p).lo : ℝ) / (exp10Encl n num den p).den
    ∧ ((exp10Encl n num den p).hi : ℝ) / (exp10Encl n num den p).den ≤ 2 ^ 10
    ∧ (exp10Encl n num den p).lo ≤ (exp10Encl n num den p).hi := by
  obtain ⟨hden, e1, e2⟩ := exp10Encl_holds n num den p hd h
  have hden' : (0 : ℝ) < ((exp10Encl n num den p).den : ℝ) := by exact_mod_cast hden
  have hle := e1.trans e2
  rw [div_le_div_iff_of_pos_right hden'] at hle
  have hd' : (0 : ℝ) < den := by exact_mod_cast hd
  have hF1 : (num : ℝ) / den ≤ 1 := by rw [div_le_one hd']; exact_mod_cast h
  have hx1 : (1 : ℝ) ≤ (10 : ℝ) ^ ((num : ℝ) / den) := Real.one_le_rpow (by norm_num) (by positivity)
  have hx10 : (10 : ℝ) ^ ((num : ℝ) / den) ≤ 10 := by
    calc (10 : ℝ) ^ ((num : ℝ) / den) ≤ (10 : ℝ) ^ (1 : ℝ) := Real.rpow_le_rpow_of_exponent_le (by norm_num) hF1
      _ = 10 := Real.rpow_one _
  obtain ⟨l, u⟩ := hnear.ends
  have hP : (0 : ℝ) < 2 ^ (p + 16) := by positivity
  have hw : (2 : ℝ) ^ (p + 16) / 2 ^ 40 ≤ 1 / 2 * 2 ^ (p + 16) := by
    rw [div_le_iff₀ (by positivity)]; linarith
  have x1 := mul_le_mul_of_nonneg_right hx1 hP.le
  have x10 := mul_le_mul_of_nonneg_right hx10 hP.le
  have lo' : 1 / 2 * 2 ^ (p + 16) ≤ ((exp10Fraction (p + 16) num den).lo : ℝ) := by linarith
  have hi' : ((exp10Fraction (p + 16) num den).hi : ℝ) ≤ 11 * 2 ^ (p + 16) := by linarith
  have hn : n = -2 ∨ n = -1 ∨ n = 0 ∨ n = 1 := by omega
  refine ⟨hden, ?_, ?_, by exact_mod_cast hle⟩
  all_goals
    unfold exp10Encl
    simp only
    rcases hn with hc | hc | hc | hc <;> subst hc
  all_goals
    push_cast
    generalize (2 : ℝ) ^ (p + 16) = P at hP lo' hi' ⊢
    first
    | (rw [le_div_iff₀ (by positivity)]; norm_num; linarith only [hP, lo', hi'])
    | (rw [div_le_iff₀ (by positivity)]; norm_num; linarith only [hP, lo', hi'])

/-- `exp10_32` on the calculator's gains (R126). -/
theorem exp10_within {a : Fp} (h : a.within (-(3 / 2)) (3 / 2)) : (exp10_32 a).within (1 / 2 ^ 10) (2 ^ 10) := by
  obtain ⟨hf, h1, h2⟩ := h
  cases a with
  | nan => simp [Fp.isFinite] at hf
  | inf s => simp [Fp.isFinite] at hf
  | fin s m e =>
    obtain ⟨hparts, hfrac⟩ := parts_value s m e
    have hd := fraction_den_pos m e
    have hd' : (0 : ℝ) < ((fraction m e).2 : ℝ) := by exact_mod_cast hd
    set W := wholePart s m e with hW
    set F := fractionalPart s m e with hF
    set D := (fraction m e).2 with hD
    have hF1 : (F : ℝ) / D < 1 := by rw [div_lt_one hd']; exact_mod_cast hfrac
    have hF0 : (0 : ℝ) ≤ (F : ℝ) / D := by positivity
    have hWlo : -3 < W := by
      have : ((-3 : Int) : ℝ) < W := by push_cast; linarith
      exact_mod_cast this
    have hWhi : W < 2 := by
      have : (W : ℝ) < ((2 : Int) : ℝ) := by push_cast; linarith
      exact_mod_cast this
    have hv1 : 1 / 2 ^ 10 ≤ (10 : ℝ) ^ ((W : ℝ) + (F : ℝ) / D) := by
      rw [hparts]
      calc (1 : ℝ) / 2 ^ 10 ≤ (10 : ℝ) ^ (-2 : ℝ) := by
            rw [Real.rpow_neg (by norm_num)]; norm_num
        _ ≤ _ := Real.rpow_le_rpow_of_exponent_le (by norm_num) (by linarith)
    have hv2 : (10 : ℝ) ^ ((W : ℝ) + (F : ℝ) / D) ≤ 2 ^ 10 := by
      rw [hparts]
      calc _ ≤ (10 : ℝ) ^ (2 : ℝ) := Real.rpow_le_rpow_of_exponent_le (by norm_num) (by linarith)
        _ ≤ 2 ^ 10 := by norm_num
    have hbig : ¬ (400 * D < (fraction m e).1) := by
      intro hlt
      have h3 := fraction_value m e
      have h4 : (400 : ℝ) < ((fraction m e).1 : ℝ) / D := by
        rw [lt_div_iff₀ hd']; exact_mod_cast hlt
      rw [h3] at h4
      cases s
      · simp only [Fp.toReal, Bool.false_eq_true, if_false, one_mul] at h2; linarith
      · simp only [Fp.toReal, if_true] at h1; linarith
    unfold exp10_32 Fp.exp10
    simp only [← hW, ← hF, ← hD]
    rw [if_neg hbig]
    have r1 := f32_has_inv_pow 10 (by omega)
    have r2 := f32_has_pow 10 (by omega)
    split
    · rename_i hF00
      refine Fmt.rounds.within (f := f32) (v := (10 : ℝ) ^ ((W : ℝ) + (F : ℝ) / D))
        ⟨false, _, _, by positivity, ?_, rfl⟩ r1 r2 hv1 hv2
      rw [hF00]
      simp only [Nat.cast_zero, zero_div, add_zero, Real.rpow_intCast, Bool.false_eq_true, if_false, one_mul]
      rcases le_total 0 W with hn | hn
      · obtain ⟨j, hj⟩ : ∃ j : Nat, W = (j : Int) := ⟨W.toNat, by omega⟩
        rw [hj]
        simp
      · obtain ⟨j, hj⟩ : ∃ j : Nat, W = -(j : Int) := ⟨(-W).toNat, by omega⟩
        rw [hj]
        simp
    · refine refine_within (v := (10 : ℝ) ^ ((W : ℝ) + (F : ℝ) / D)) (by positivity) hv1 hv2 r1 r2
        (fun p => Or.inr (exp10Encl_holds W F D p hd hfrac.le)) _ _ ?_
      rw [last_precision]
      exact exp10Encl_ends W F D 4480 hd hfrac.le hWlo hWhi
        (exp10Fraction_near (4480 + 16) F D hd hfrac.le (by norm_num) lnTen_near)

end Sys2Proof.Machine
end

