-- ==== Sys2Proof/Laws/Coefficients.lean ====
section
/-! SUPPORT. At a legal rate every coefficient that a derivation makes is finite, and its b0 is positive
(spec/40_coefficient_calculator.md R126, R131; spec/41_biquad_stage_and_cascade.md R157). -/

namespace Sys2Proof.Machine

/-! ## Comparisons -/

/-- The comparison of finite data is that of their values (R16). -/
theorem Fp.lt_iff {a b : Fp} (ha : a.isFinite = true) (hb : b.isFinite = true) : a.lt b = true ↔ a.toReal < b.toReal := by
  cases a with
  | nan => simp [Fp.isFinite] at ha
  | inf s => simp [Fp.isFinite] at ha
  | fin s m e =>
    cases b with
    | nan => simp [Fp.isFinite] at hb
    | inf t => simp [Fp.isFinite] at hb
    | fin t n d =>
      have h1 := aligned_value s m e (Min.min e d) (min_le_left _ _)
      have h2 := aligned_value t n d (Min.min e d) (min_le_right _ _)
      rw [← h1, ← h2, mul_lt_mul_iff_left₀ (by positivity), Int.cast_lt]
      simp only [Fp.lt, decide_eq_true_eq]

theorem Fp.not_lt_iff {a b : Fp} (ha : a.isFinite = true) (hb : b.isFinite = true) :
    a.lt b = false ↔ b.toReal ≤ a.toReal := by
  rw [← Bool.not_eq_true, Fp.lt_iff ha hb, not_lt]

/-- A datum that no comparison puts outside two finite bounds is finite and between them. -/
theorem within_of_not_lt {a lo hi : Fp} (hl : lo.isFinite = true) (hh : hi.isFinite = true) (hn : a.isNaN = false)
    (h1 : a.lt lo = false) (h2 : hi.lt a = false) : a.within lo.toReal hi.toReal := by
  cases a with
  | nan => simp [Fp.isNaN] at hn
  | inf s =>
    cases s
    · cases hi <;> simp_all [Fp.lt, Fp.isFinite]
    · cases lo <;> simp_all [Fp.lt, Fp.isFinite]
  | fin s m e => exact ⟨rfl, (Fp.not_lt_iff rfl hl).mp h1, (Fp.not_lt_iff hh rfl).mp h2⟩

/-! ## Constants -/

theorem toReal_F_LO : (ofF32 F_LO).toReal = 20 := by
  rw [show ofF32 F_LO = .fin false 10485760 (-19) by decide +kernel]; norm_num [Fp.toReal]

theorem toReal_F_HI : (ofF32 F_HI).toReal = 20000 := by
  rw [show ofF32 F_HI = .fin false 10240000 (-9) by decide +kernel]; norm_num [Fp.toReal]

theorem toReal_G_LO : (ofF32 G_LO).toReal = -24 := by
  rw [show ofF32 G_LO = .fin true 12582912 (-19) by decide +kernel]; norm_num [Fp.toReal]

theorem toReal_G_HI : (ofF32 G_HI).toReal = 24 := by
  rw [show ofF32 G_HI = .fin false 12582912 (-19) by decide +kernel]; norm_num [Fp.toReal]

theorem toReal_Q_LO : (ofF32 Q_LO).toReal = 13421773 / 134217728 := by
  rw [show ofF32 Q_LO = .fin false 13421773 (-27) by decide +kernel]; norm_num [Fp.toReal]

theorem toReal_Q_HI : (ofF32 Q_HI).toReal = 10 := by
  rw [show ofF32 Q_HI = .fin false 10485760 (-20) by decide +kernel]; norm_num [Fp.toReal]

theorem toReal_FS_MIN : (ofF32 FS_MIN).toReal = 8000 := by
  rw [show ofF32 FS_MIN = .fin false 16384000 (-11) by decide +kernel]; norm_num [Fp.toReal]

theorem toReal_FS_MAX : (ofF32 FS_MAX).toReal = 384000 := by
  rw [show ofF32 FS_MAX = .fin false 12288000 (-5) by decide +kernel]; norm_num [Fp.toReal]

theorem K049_value : ofF32 K049 = .fin false 16441672 (-25) := by decide +kernel

theorem PI32_value : ofF32 PI32 = .fin false 13176795 (-22) := by decide +kernel

theorem TWO_PI32_value : ofF32 TWO_PI32 = .fin false 13176795 (-21) := by decide +kernel

theorem toReal_one : one.toReal = 1 := by simp [one, Fp.ofNat, Fp.toReal]

theorem toReal_two : two.toReal = 2 := by simp [two, Fp.ofNat, Fp.toReal]

theorem toReal_twenty : twenty.toReal = 20 := by simp [twenty, Fp.ofNat, Fp.toReal]

/-! ## Clamped parameters -/

/-- A legal rate, by its value (R8, R181). -/
theorem legalRate_within {w : Word} (h : legalRate w = true) : (ofF32 w).within 8000 384000 := by
  simp only [legalRate, Fp.le, Bool.and_eq_true, Bool.not_eq_true'] at h
  have := within_of_not_lt (a := ofF32 w) (lo := ofF32 FS_MIN) (hi := ofF32 FS_MAX) (by decide +kernel) (by decide +kernel)
    h.1.2.1.2 h.1.2.2 h.2.2
  rwa [toReal_FS_MIN, toReal_FS_MAX] at this

/-- A clamped field is finite and in its range (R113 to R116). -/
theorem clampFloat_within {lo hi dflt : Word} (v : Word) (hl : (ofF32 lo).isFinite = true) (hh : (ofF32 hi).isFinite = true)
    (hd : (ofF32 dflt).isNaN = false) (hle : (ofF32 lo).toReal ≤ (ofF32 hi).toReal) :
    (ofF32 (clampFloat lo hi dflt v).1).within (ofF32 lo).toReal (ofF32 hi).toReal := by
  unfold clampFloat
  simp only
  have hn : (ofF32 (if (ofF32 v).isNaN = true then dflt else v)).isNaN = false := by
    split
    · exact hd
    · rename_i h; simpa using h
  generalize (if (ofF32 v).isNaN = true then dflt else v) = u at hn
  split
  · exact ⟨hl, le_rfl, hle⟩
  · rename_i h1
    split
    · exact ⟨hh, hle, le_rfl⟩
    · rename_i h2
      exact within_of_not_lt hl hh hn (by simpa using h1) (by simpa using h2)

/-- The upper frequency bound at a legal rate (R112): at least 3920 hertz, at most 20000, and hardly above 0.49 of the
rate. -/
theorem upperFrequency_within {fs : Word} (h : legalRate fs = true) :
    (ofF32 (upperFrequency fs)).within 3920 20000
    ∧ (ofF32 (upperFrequency fs)).toReal ≤ 16441672 / 33554432 * (1 + 1 / 2 ^ 24) * (ofF32 fs).toReal := by
  have hfs := legalRate_within h
  have hk : (ofF32 K049).within (16441672 / 33554432) (16441672 / 33554432) := by
    rw [K049_value]; refine ⟨rfl, ?_, ?_⟩ <;> norm_num [Fp.toReal]
  have hr : f32.rounds _ (mul32 (ofF32 K049) (ofF32 fs)) := rounds_mul f32 _ _ hk.1 hfs.1
  have ek : (ofF32 K049).toReal = 16441672 / 33554432 := le_antisymm hk.2.2 hk.2.1
  have h3920 : f32.has 3920 := ⟨0x45750000, by decide, by
    rw [Fmt.magValue, show f32.unpackMag 0x45750000 = (16056320, -12) by decide +kernel, abs_of_pos (by norm_num)]
    norm_num⟩
  have hm := hr.within h3920 (f32_has_pow 18 (by omega)) (by rw [ek]; linarith [hfs.2.1]) (by rw [ek]; linarith [hfs.2.2])
  have hrel := f32_rounds_le hr (by rw [ek]; have : (2 : ℝ) ^ (-126 : Int) ≤ 1 := zpow_le_one_of_nonpos₀ (by norm_num) (by norm_num); linarith [hfs.2.1]) hm.1
  rw [ek] at hrel
  have hform : Fp.inFormat f32 (mul32 (ofF32 K049) (ofF32 fs)) := Fp.inFormat_mul _ _ _
  have hback : ofF32 (upperFrequency fs) = Fp.min (ofF32 F_HI) (mul32 (ofF32 K049) (ofF32 fs)) := by
    unfold upperFrequency Fp.min
    split
    · exact (finiteWord_toF32 0 _ hform hm.1).2
    · rw [show toF32 0 (ofF32 F_HI) = F_HI by decide +kernel]
  rw [hback]
  have hFHI : (ofF32 F_HI).isFinite = true := by decide +kernel
  unfold Fp.min
  split
  · rename_i hlt
    rw [Fp.lt_iff hm.1 hFHI, toReal_F_HI] at hlt
    exact ⟨⟨hm.1, hm.2.1, hlt.le⟩, by linarith⟩
  · rename_i hlt
    rw [Fp.lt_iff hm.1 hFHI, toReal_F_HI, not_lt] at hlt
    refine ⟨⟨hFHI, ?_, ?_⟩, ?_⟩ <;> rw [toReal_F_HI]
    · norm_num
    · linarith

/-! ## Angles -/

/-- What a design needs of its frequency and its rate. -/
structure InBand (f fs : Fp) : Prop where
  rate : fs.within 8000 384000
  freq : f.within 20 20000
  below : f.toReal ≤ 16441672 / 33554432 * (1 + 1 / 2 ^ 24) * fs.toReal

/-- A clamped frequency is in band. -/
theorem clampFloat_inBand {fs : Word} (h : legalRate fs = true) (dflt v : Word) (hd : (ofF32 dflt).isNaN = false) :
    InBand (ofF32 (clampFloat F_LO (upperFrequency fs) dflt v).1) (ofF32 fs) := by
  obtain ⟨hu, hb⟩ := upperFrequency_within h
  have hc := clampFloat_within (lo := F_LO) (hi := upperFrequency fs) v (by decide +kernel) hu.1 hd
    (by rw [toReal_F_LO]; linarith [hu.2.1])
  rw [toReal_F_LO] at hc
  exact ⟨legalRate_within h, hc.mono le_rfl hu.2.2, hc.2.2.trans hb⟩

/-- A multiple of the frequency over the rate (R119, R122): from 2⁻¹⁴ of it, to hardly above 0.49 of it. -/
theorem angle_within {c f fs : Fp} (h : InBand f fs) {k : ℝ} (hc : c.within k k) (k1 : 3 ≤ k) (k2 : k ≤ 7) (i : Nat)
    (hi : i ≤ 20) (hik : (2 : ℝ) ^ i ≤ 20 * k) :
    (div32 (mul32 c f) fs).within (2 ^ i / 2 ^ 19) (k * (16441672 / 33554432) * (1 + 1 / 2 ^ 24) ^ 3) := by
  have ek : c.toReal = k := le_antisymm hc.2.2 hc.2.1
  have hr : f32.rounds _ (mul32 c f) := rounds_mul f32 c f hc.1 h.freq.1
  rw [ek] at hr
  have hm := hr.within (f32_has_pow i (by omega)) (f32_has_pow 18 (by omega))
    (by nlinarith [h.freq.2.1]) (by nlinarith [h.freq.2.1, h.freq.2.2])
  have tiny : (2 : ℝ) ^ (-126 : Int) ≤ 1 / 2 ^ 19 := by
    rw [show (1 : ℝ) / 2 ^ 19 = 2 ^ (-19 : Int) by norm_num [zpow_neg]]
    exact zpow_le_zpow_right₀ (by norm_num) (by norm_num)
  have hp : (1 : ℝ) ≤ 2 ^ i := one_le_pow₀ (by norm_num)
  have t1 : (1 : ℝ) / 2 ^ 19 ≤ 60 := by norm_num
  have hmle := f32_rounds_le hr (tiny.trans (t1.trans (by nlinarith [h.freq.2.1]))) hm.1
  have hfs0 : 0 < fs.toReal := by linarith [h.rate.2.1]
  have hd : f32.rounds _ (div32 (mul32 c f) fs) := rounds_div f32 _ fs hm.1 h.rate.1 hfs0.ne'
  have hlow : (2 : ℝ) ^ i / 2 ^ 19 ≤ (mul32 c f).toReal / fs.toReal := by
    rw [div_le_div_iff₀ (by positivity) hfs0]
    have := hm.2.1
    have h2 := h.rate.2.2
    nlinarith
  have hmul0 : 0 ≤ (mul32 c f).toReal := by linarith [hm.2.1]
  have hupp : (mul32 c f).toReal / fs.toReal ≤ 2 ^ 6 := by
    rw [div_le_iff₀ hfs0]
    nlinarith [hm.2.2, h.rate.2.1]
  have hlo : f32.has ((2 : ℝ) ^ i / 2 ^ 19) := by
    have := f32_has_zpow ((i : Int) - 19) (by omega) (by omega)
    rwa [zpow_sub₀ (by norm_num), zpow_natCast, show ((2 : ℝ) ^ (19 : Int)) = 2 ^ 19 by norm_num] at this
  have hw := hd.within hlo (f32_has_pow 6 (by omega)) hlow hupp
  refine ⟨hw.1, hw.2.1, ?_⟩
  have hle := f32_rounds_le hd (by
    refine tiny.trans (le_trans ?_ hlow)
    gcongr) hw.1
  have hq : (mul32 c f).toReal / fs.toReal ≤ k * (16441672 / 33554432) * (1 + 1 / 2 ^ 24) ^ 2 := by
    rw [div_le_iff₀ hfs0]
    have hb := h.below
    have : k * f.toReal ≤ k * (16441672 / 33554432 * (1 + 1 / 2 ^ 24) * fs.toReal) :=
      mul_le_mul_of_nonneg_left hb (by linarith)
    calc (mul32 c f).toReal ≤ k * f.toReal * (1 + 1 / 2 ^ 24) := hmle
      _ ≤ k * (16441672 / 33554432 * (1 + 1 / 2 ^ 24) * fs.toReal) * (1 + 1 / 2 ^ 24) := by gcongr
      _ = k * (16441672 / 33554432) * (1 + 1 / 2 ^ 24) ^ 2 * fs.toReal := by ring
  calc _ ≤ (mul32 c f).toReal / fs.toReal * (1 + 1 / 2 ^ 24) := hle
    _ ≤ k * (16441672 / 33554432) * (1 + 1 / 2 ^ 24) ^ 2 * (1 + 1 / 2 ^ 24) := by gcongr
    _ = _ := by ring

/-- The angle of PEAK lies in (0, π) (R119, R126). -/
theorem peakAngle_within {f fs : Fp} (h : InBand f fs) : (peakAngle f fs).within (1 / 2 ^ 13) (31 / 10) := by
  have hc : (ofF32 TWO_PI32).within (13176795 / 2097152) (13176795 / 2097152) := by
    rw [TWO_PI32_value]; refine ⟨rfl, ?_, ?_⟩ <;> norm_num [Fp.toReal]
  exact (angle_within h hc (by norm_num) (by norm_num) 6 (by omega) (by norm_num)).mono (by norm_num) (by norm_num)

/-- The angle of a cut section lies in (0, π/2) (R122, R126). -/
theorem cutAngle_within {f fs : Fp} (h : InBand f fs) :
    (div32 (mul32 (ofF32 PI32) f) fs).within (1 / 2 ^ 14) (31 / 20) := by
  have hc : (ofF32 PI32).within (13176795 / 4194304) (13176795 / 4194304) := by
    rw [PI32_value]; refine ⟨rfl, ?_, ?_⟩ <;> norm_num [Fp.toReal]
  exact (angle_within h hc (by norm_num) (by norm_num) 5 (by omega) (by norm_num)).mono (by norm_num) (by norm_num)

/-! ## Designs -/

/-- A section that a slot may hold: five finite data of the format, b0 positive. -/
structure Section.Sound (c : Section) : Prop where
  b0 : c.b0.isFinite = true ∧ Fp.inFormat f32 c.b0 ∧ 0 < c.b0.toReal
  b1 : c.b1.isFinite = true ∧ Fp.inFormat f32 c.b1
  b2 : c.b2.isFinite = true ∧ Fp.inFormat f32 c.b2
  a1 : c.a1.isFinite = true ∧ Fp.inFormat f32 c.a1
  a2 : c.a2.isFinite = true ∧ Fp.inFormat f32 c.a2

theorem one_within : one.within 1 1 := ⟨rfl, toReal_one.ge, toReal_one.le⟩

theorem two_within : two.within 2 2 := ⟨rfl, toReal_two.ge, toReal_two.le⟩

theorem f32_ebits_pos : 0 < f32.ebits := by decide

/-- The width term of PEAK is positive (R119). -/
theorem peakAlpha_within {f q fs : Fp} (h : InBand f fs) (hq : q.within (1 / 2 ^ 4) (2 ^ 4)) :
    (peakAlpha f q fs).within (1 / 2 ^ 20) (2 ^ 3) := by
  have hs := sin32_within (peakAngle_within h)
  have hq2 : (mul32 q two).within (1 / 2 ^ 3) (2 ^ 5) :=
    mul32_within hq two_within (f32_has_inv_pow 3 (by omega)) (f32_has_pow 5 (by omega)) (by norm_num) (by norm_num)
      (by norm_num) (by norm_num)
  exact div32_within hs hq2 (f32_has_inv_pow 20 (by omega)) (f32_has_pow 3 (by omega)) (by norm_num) (by norm_num)
    (by norm_num) (by norm_num) (by norm_num)

/-- PEAK is sound on clamped parameters (R119, R126). -/
theorem peak_sound {f g q fs : Fp} (h : InBand f fs) (hg : g.within (-24) 24) (hq : q.within (1 / 2 ^ 4) (2 ^ 4)) :
    (peak f g q fs).Sound := by
  have h20 : twenty.within 20 20 := ⟨rfl, toReal_twenty.ge, toReal_twenty.le⟩
  have hhalf : f32.has (3 / 2) := ⟨0x3FC00000, by decide, by
    rw [Fmt.magValue, show f32.unpackMag 0x3FC00000 = (12582912, -23) by decide +kernel, abs_of_pos (by norm_num)]
    norm_num⟩
  have hx : (div32 g twenty).within (-(3 / 2)) (3 / 2) :=
    div32_within_abs (ha := 24) hg h20 hhalf (by norm_num) (by norm_num) (by norm_num)
  have hG := exp10_within hx
  have hA : (sqrt32 (exp10_32 (div32 g twenty))).within (1 / 2 ^ 6) (2 ^ 6) :=
    sqrt32_within (la := 1 / 2 ^ 5) (ha := 2 ^ 5) (hG.mono (by norm_num) (by norm_num)) (by norm_num) (by norm_num)
      (f32_has_inv_pow 6 (by omega)) (f32_has_pow 6 (by omega)) (by norm_num) (by norm_num)
  have hal := peakAlpha_within h hq
  have hcos := cos32_within _ (peakAngle_within h).1
  set a := sqrt32 (exp10_32 (div32 g twenty)) with ha
  have hc2 : (mul32 two.neg (cos32 (peakAngle f fs))).within (-2) 2 :=
    mul32_within_abs (ha := 2) (hb := 1) ((neg_within two_within).mono le_rfl (by norm_num)) hcos
      (by simpa using f32_has_pow 1 (by omega)) (by norm_num)
  have haA : (mul32 (peakAlpha f q fs) a).within (1 / 2 ^ 26) (2 ^ 9) :=
    mul32_within hal hA (f32_has_inv_pow 26 (by omega)) (f32_has_pow 9 (by omega)) (by norm_num) (by norm_num)
      (by norm_num) (by norm_num)
  have haoA : (div32 (peakAlpha f q fs) a).within (1 / 2 ^ 26) (2 ^ 9) :=
    div32_within hal hA (f32_has_inv_pow 26 (by omega)) (f32_has_pow 9 (by omega)) (by norm_num) (by norm_num)
      (by norm_num) (by norm_num) (by norm_num)
  have hplus : ∀ b : Fp, b.within (1 / 2 ^ 26) (2 ^ 9) → (add32 one b).within 1 (2 ^ 10) := fun b hb =>
    add32_within one_within hb f32_has_one (f32_has_pow 10 (by omega)) (by norm_num) (by norm_num)
  have hminus : ∀ b : Fp, b.within (1 / 2 ^ 26) (2 ^ 9) → (sub32 one b).within (-2 ^ 10) (2 ^ 10) := fun b hb =>
    sub32_within one_within hb (Fmt.has_neg (f32_has_pow 10 (by omega))) (f32_has_pow 10 (by omega)) (by norm_num) (by norm_num)
  have hden := hplus _ haoA
  have hquot : ∀ b : Fp, b.within (-2 ^ 10) (2 ^ 10) → (div32 b (add32 one (div32 (peakAlpha f q fs) a))).isFinite = true :=
    fun b hb => (div32_within_abs hb hden (f32_has_pow 10 (by omega)) (by norm_num) (by norm_num) (by norm_num)).1
  have hb0 := div32_within (hplus _ haA) hden (f32_has_inv_pow 10 (by omega)) (f32_has_pow 10 (by omega)) (by norm_num)
    (by norm_num) (by norm_num) (by norm_num) (by norm_num)
  have fmt : ∀ x y : Fp, Fp.inFormat f32 (div32 x y) := inFormat_div f32 f32_ebits_pos
  exact ⟨⟨hb0.1, fmt _ _, lt_of_lt_of_le (by positivity) hb0.2.1⟩,
    ⟨hquot _ (hc2.mono (by norm_num) (by norm_num)), fmt _ _⟩, ⟨hquot _ (hminus _ haA), fmt _ _⟩,
    ⟨hquot _ (hc2.mono (by norm_num) (by norm_num)), fmt _ _⟩, ⟨hquot _ (hminus _ haoA), fmt _ _⟩⟩

/-- What both cut sections make of their warped frequency `n` (R122, R123): the normaliser, and the three products. -/
theorem cut_within {n q : Fp} (hn : n.within (1 / 2 ^ 16) (2 ^ 16)) (hq : q.within (1 / 2) 4) :
    (div32 one (add32 (add32 one (mul32 (div32 one q) n)) (mul32 n n))).within (1 / 2 ^ 34) 1
    ∧ (sub32 (mul32 n n) one).within (-2 ^ 33) (2 ^ 33) ∧ (sub32 one (mul32 n n)).within (-2 ^ 33) (2 ^ 33)
    ∧ (add32 (sub32 one (mul32 (div32 one q) n)) (mul32 n n)).within (-2 ^ 34) (2 ^ 34) := by
  have hn2 : (mul32 n n).within (1 / 2 ^ 32) (2 ^ 32) :=
    mul32_within hn hn (f32_has_inv_pow 32 (by omega)) (f32_has_pow 32 (by omega)) (by norm_num) (by norm_num)
      (by norm_num) (by norm_num)
  have hiq : (div32 one q).within (1 / 2 ^ 2) (2 ^ 1) :=
    div32_within one_within hq (f32_has_inv_pow 2 (by omega)) (f32_has_pow 1 (by omega)) (by norm_num) (by norm_num)
      (by norm_num) (by norm_num) (by norm_num)
  have hiqn : (mul32 (div32 one q) n).within (1 / 2 ^ 18) (2 ^ 17) :=
    mul32_within hiq hn (f32_has_inv_pow 18 (by omega)) (f32_has_pow 17 (by omega)) (by norm_num) (by norm_num)
      (by norm_num) (by norm_num)
  have hs1 : (add32 one (mul32 (div32 one q) n)).within 1 (2 ^ 18) :=
    add32_within one_within hiqn f32_has_one (f32_has_pow 18 (by omega)) (by norm_num) (by norm_num)
  have hs2 : (add32 (add32 one (mul32 (div32 one q) n)) (mul32 n n)).within 1 (2 ^ 33) :=
    add32_within hs1 hn2 f32_has_one (f32_has_pow 33 (by omega)) (by norm_num) (by norm_num)
  have r33 := f32_has_pow 33 (by omega)
  have hd1 : (sub32 one (mul32 (div32 one q) n)).within (-2 ^ 18) (2 ^ 18) :=
    sub32_within one_within hiqn (Fmt.has_neg (f32_has_pow 18 (by omega))) (f32_has_pow 18 (by omega)) (by norm_num)
      (by norm_num)
  exact ⟨div32_within one_within hs2 (f32_has_inv_pow 34 (by omega)) f32_has_one (by norm_num) (by norm_num)
      (by norm_num) (by norm_num) (by norm_num),
    sub32_within hn2 one_within (Fmt.has_neg r33) r33 (by norm_num) (by norm_num),
    sub32_within one_within hn2 (Fmt.has_neg r33) r33 (by norm_num) (by norm_num),
    add32_within hd1 hn2 (Fmt.has_neg (f32_has_pow 34 (by omega))) (f32_has_pow 34 (by omega)) (by norm_num) (by norm_num)⟩

/-- The five coefficients of a cut section, from those bounds. -/
theorem cut_sound {c1 d e two' : Fp} (hc : c1.within (1 / 2 ^ 34) 1) (f1 : Fp.inFormat f32 c1)
    (hd : d.within (-2 ^ 33) (2 ^ 33)) (he : e.within (-2 ^ 34) (2 ^ 34)) (h2 : two'.within (-2) 2) :
    Section.Sound ⟨c1, mul32 c1 two', c1, mul32 (mul32 c1 two) d, mul32 c1 e⟩ := by
  have hc' : c1.within (-1) 1 := hc.mono (by norm_num) le_rfl
  have r1 : f32.has 2 := by simpa using f32_has_pow 1 (by omega)
  have hb1 := mul32_within_abs (ha := 1) (hb := 2) hc' h2 r1 (by norm_num)
  have hcc := mul32_within_abs (ha := 1) (hb := 2) hc' (two_within.mono (by norm_num) le_rfl) r1 (by norm_num)
  have ha1 := mul32_within_abs (ha := 2) (hb := 2 ^ 33) hcc hd (f32_has_pow 34 (by omega)) (by norm_num)
  have ha2 := mul32_within_abs (ha := 1) (hb := 2 ^ 34) hc' he (f32_has_pow 34 (by omega)) (by norm_num)
  have fmt : ∀ x y : Fp, Fp.inFormat f32 (mul32 x y) := Fp.inFormat_mul f32
  exact ⟨⟨hc.1, f1, lt_of_lt_of_le (by positivity) hc.2.1⟩, ⟨hb1.1, fmt _ _⟩, ⟨hc.1, f1⟩, ⟨ha1.1, fmt _ _⟩,
    ⟨ha2.1, fmt _ _⟩⟩

/-- HPSEC is sound on clamped parameters (R122, R126). -/
theorem hpSection_sound {f q fs : Fp} (h : InBand f fs) (hq : q.within (1 / 2) 4) : (hpSection f q fs).Sound := by
  have hn := tan32_within (cutAngle_within h)
  obtain ⟨h1, h2, -, h4⟩ := cut_within (hn.mono (by norm_num) (by norm_num)) hq
  exact cut_sound h1 (inFormat_div f32 f32_ebits_pos _ _) h2 h4 ((neg_within two_within).mono le_rfl (by norm_num))

/-- LPSEC is sound on clamped parameters (R123, R126). -/
theorem lpSection_sound {f q fs : Fp} (h : InBand f fs) (hq : q.within (1 / 2) 4) : (lpSection f q fs).Sound := by
  have ht := tan32_within (cutAngle_within h)
  have hn : (div32 one (tan32 (div32 (mul32 (ofF32 PI32) f) fs))).within (1 / 2 ^ 16) (2 ^ 16) :=
    div32_within one_within ht (f32_has_inv_pow 16 (by omega)) (f32_has_pow 16 (by omega)) (by norm_num) (by norm_num)
      (by norm_num) (by norm_num) (by norm_num)
  obtain ⟨h1, -, h3, h4⟩ := cut_within hn hq
  exact cut_sound h1 (inFormat_div f32 f32_ebits_pos _ _) h3 h4 (two_within.mono (by norm_num) le_rfl)

/-- The Q ROM's entries (R120). -/
theorem qrom_within (n : Nat) (w : Word) (h : w ∈ qrom n) : (ofF32 w).within (1 / 2) 4 := by
  have key : ([1, 2, 3, 4].flatMap qrom).all (fun w => !(ofF32 w).isNaN && !(ofF32 w).lt (ofF32 0x3F000000)
      && !(ofF32 0x40800000).lt (ofF32 w)) = true := by decide +kernel
  have hn : n = 1 ∨ n = 2 ∨ n = 3 ∨ n = 4 := by
    unfold qrom at h
    split at h <;> simp_all
  have hw : w ∈ [1, 2, 3, 4].flatMap qrom := List.mem_flatMap.mpr ⟨n, by simpa using hn, h⟩
  have hk := List.all_eq_true.mp key w hw
  simp only [Bool.and_eq_true, Bool.not_eq_true'] at hk
  have := within_of_not_lt (lo := ofF32 0x3F000000) (hi := ofF32 0x40800000) (by decide +kernel) (by decide +kernel)
    hk.1.1 hk.1.2 hk.2
  refine this.mono ?_ ?_
  · rw [show ofF32 0x3F000000 = .fin false 8388608 (-24) by decide +kernel]; norm_num [Fp.toReal]
  · rw [show ofF32 0x40800000 = .fin false 8388608 (-21) by decide +kernel]; norm_num [Fp.toReal]

/-! ## Slots -/

theorem store_sound {c : Section} (h : c.Sound) (inputs : List Word) (pos : Nat) : (c.store inputs pos).sound :=
  ⟨(finiteWord_toF32 _ _ h.b0.2.1 h.b0.1).1, (finiteWord_toF32 _ _ h.b1.2 h.b1.1).1,
    (finiteWord_toF32 _ _ h.b2.2 h.b2.1).1, (finiteWord_toF32 _ _ h.a1.2 h.a1.1).1,
    (finiteWord_toF32 _ _ h.a2.2 h.a2.1).1, toF32_sign _ _ h.b0.2.1 h.b0.2.2⟩

/-- At a legal rate every active slot after a derivation is sound, and so is a bypassed one that was before (R126, R131
item 5). -/
theorem derive_sound (p : Params) (fs : Word) (cur : Configuration) (hfs : legalRate fs = true) (i : Nat) (hi : i < 9)
    (h : (derive p fs cur).1.byp[i] = false ∨ cur.coef[i].sound) : ((derive p fs cur).1.coef[i]).sound := by
  rw [derive_byp p fs cur i hi] at h
  rw [derive_coef p fs cur i hi]
  split
  · rename_i hl
    refine store_sound ?_ _ _
    simp only [lowCut, List.getElem_map]
    exact hpSection_sound (clampFloat_inBand hfs _ _ (by decide +kernel)) (qrom_within _ _ (List.getElem_mem _))
  · split
    · refine store_sound (peak_sound (clampFloat_inBand hfs Params.reset.pf _ (by decide +kernel)) ?_ ?_) _ _
      · have := clampFloat_within (lo := G_LO) (hi := G_HI) (dflt := Params.reset.pg) p.pg (by decide +kernel)
          (by decide +kernel) (by decide +kernel) (by rw [toReal_G_LO, toReal_G_HI]; norm_num)
        rwa [toReal_G_LO, toReal_G_HI] at this
      · have := clampFloat_within (lo := Q_LO) (hi := Q_HI) (dflt := Params.reset.pq) p.pq (by decide +kernel)
          (by decide +kernel) (by decide +kernel) (by rw [toReal_Q_LO, toReal_Q_HI]; norm_num)
        rw [toReal_Q_LO, toReal_Q_HI] at this
        exact this.mono (by norm_num) (by norm_num)
    · split
      · refine store_sound ?_ _ _
        simp only [highCut, List.getElem_map]
        exact lpSection_sound (clampFloat_inBand hfs _ _ (by decide +kernel)) (qrom_within _ _ (List.getElem_mem _))
      · rename_i h1 h2 h3
        refine h.resolve_left ?_
        rw [Bool.not_eq_false]
        split
        · exact decide_eq_true (by omega)
        · exact decide_eq_true (by omega)

end Sys2Proof.Machine
end

