-- ==== Sys2Proof/Laws/PerInstr.lean ====
section
/-! SUPPORT. Statements made one command at a time (LAWS.json). -/

namespace Sys2Proof

/-- A command is well formed exactly when its argument fits (R98). -/
theorem Instr.wellFormed_iff (i : Instr) : i.wellFormed = true ↔ i.arg < 2 ^ 24 := decide_eq_true_iff

/-- The fields of a command word that fits: the opcode below the argument (R90). -/
theorem fields_of_word (arg opc : Nat) (ha : arg < 2 ^ 24) (ho : opc < 2 ^ 8) :
    opcField (BitVec.ofNat 32 (arg * 2 ^ 8 + opc)) = opc ∧ argField (BitVec.ofNat 32 (arg * 2 ^ 8 + opc)) = arg := by
  simp only [opcField, argField, BitVec.toNat_ofNat]
  constructor <;> omega

end Sys2Proof

/-- The word of a well-formed command has the command's opcode in bits 7:0 and its argument in bits 31:8 (R90, R92,
R93). -/
def Sys2Proof.Laws.EncodeFields.Statement (i : Sys2Proof.Instr) : Prop :=
  i.wellFormed = true →
    Sys2Proof.opcField (Sys2Proof.encode i) = Sys2Proof.opcode i ∧ Sys2Proof.argField (Sys2Proof.encode i) = i.arg

namespace Sys2Proof.Laws.EncodeFields

theorem aNop : Statement .aNop := fun _ => fields_of_word 0 0 (by decide) (by decide)

theorem aPrepare (m : Nat) : Statement (.aPrepare m) := fun h =>
  fields_of_word m 1 (of_decide_eq_true h) (by decide)

theorem aProcessBlock (n : Nat) : Statement (.aProcessBlock n) := fun h =>
  fields_of_word n 2 (of_decide_eq_true h) (by decide)

theorem cNop : Statement .cNop := fun _ => fields_of_word 0 0 (by decide) (by decide)

theorem cUpdate : Statement .cUpdate := fun _ => fields_of_word 0 16 (by decide) (by decide)

theorem cGetResponse (w : Nat) : Statement (.cGetResponse w) := fun h =>
  fields_of_word w 17 (of_decide_eq_true h) (by decide)

end Sys2Proof.Laws.EncodeFields
end

