-- ==== Sys2Proof/Tests/Slice0.lean ====
section
/-! SUPPORT. The model's own tests. Expected values are those of spec/95_test_vectors.md or of the rule that a test
names. The second half holds, for each statement with hypotheses, values that meet them. -/

namespace Sys2Proof.Tests

open Sys2Proof Sys2Proof.Machine

/-! ## Helpers -/

/-- A property of the next state that an outcome gives; false where it gives none. -/
def after (o : Out) (p : State → Bool) : Bool :=
  match o with
  | .next t => p t
  | .fault _ => false
  | .refused _ => false

/-- The configuration of program P1: the defaults at 48000 hertz (spec/95 §8). -/
def p1 : Configuration :=
  ⟨#v[false, true, true, true, false, false, true, true, true],
   #v[⟨0x3F7F86CB, 0xBFFF86CB, 0x3F7F86CB, 0xBFFF86AE, 0x3F7F0DCF⟩, Coefs.ident, Coefs.ident, Coefs.ident,
      ⟨0x3F800000, 0xBFEE42A1, 0x3F60A1E7, 0xBFEE42A1, 0x3F60A1E7⟩,
      ⟨0x3F307660, 0x3FB07660, 0x3F307660, 0x3FA3CB01, 0x3EF486FD⟩, Coefs.ident, Coefs.ident, Coefs.ident]⟩

/-- Prepared at 48000 hertz with block limit 4, as program P1 leaves it after its line 1. -/
def ready : State :=
  { State.reset with prepared := true, engFs := 0x473B8000, maxBlock := 4, active := p1, snap := p1 }

/-- A block of four frames in flight, three of them run. -/
def inFlight : State := { ready with blk := ⟨true, 4, 3⟩ }

/-- `ready` with a left sample 1.0 and a right sample NaN at index 0 (spec/95 S11, S6). -/
def loaded : State := (ready.storeSample (sampleAddr 0 0) 0x3F800000).storeSample (sampleAddr 1 0) 0x7FC00001

/-- The coefficients of vector S1. -/
def s1 : Coefs := ⟨0x3F000000, 0x3E800000, 0x3E000000, 0xBF000000, 0x3E800000⟩

/-- An outcome that gives a next state gives one. -/
theorem exists_next (o : Out) (p : State → Bool) (h : after o p = true) : ∃ t, o = .next t := by
  cases o with
  | next t => exact ⟨t, rfl⟩
  | fault r => cases r
  | refused r => simp [after] at h

/-! ## Well-formedness -/

/-- R98: an argument of 2 ^ 24 is refused, the largest below it is not. -/
theorem test_wellFormed :
    (Instr.aPrepare (2 ^ 24)).wellFormed = false ∧ (Instr.aProcessBlock (2 ^ 24)).wellFormed = false
    ∧ (Instr.cGetResponse (2 ^ 24)).wellFormed = false ∧ (Instr.cGetResponse (2 ^ 24 - 1)).wellFormed = true := by decide

/-! ## Decoding (spec/95 N1), each word as it is written out there, or bit by bit: ARG, then OPC -/

theorem test_decode_aNop : decode .a 0b000000000000000000000000_00000000 = .ok .aNop := by decide
theorem test_decode_aPrepare : decode .a 0b000000000000000001000000_00000001 = .ok (.aPrepare 64) := by decide
theorem test_decode_aPrepare_max : decode .a 0xFFFFFF01 = .ok (.aPrepare 16777215) := by decide
theorem test_decode_aProcessBlock : decode .a 0b000000000000000000000100_00000010 = .ok (.aProcessBlock 4) := by decide
theorem test_decode_cNop : decode .c 0b000000000000000000000000_00000000 = .ok .cNop := by decide
theorem test_decode_cUpdate : decode .c 0b000000000000000000000000_00010000 = .ok .cUpdate := by decide
theorem test_decode_cGetResponse : decode .c 0b000000000000001001011000_00010001 = .ok (.cGetResponse 600) := by decide
theorem test_decode_illegal_a :
    [0x00000100, 0x00000003, 0x00000010, 0x00000011, 0x000000FF].all
      (fun w => match decode .a w with | .ok _ => false | .error _ => true) = true := by decide
theorem test_decode_illegal_c :
    [0x00000100, 0x00000110, 0x00000001, 0x00000002, 0x00000012, 0x000000FF].all
      (fun w => match decode .c w with | .ok _ => false | .error _ => true) = true := by decide
/-- A.PROCESS_BLOCK 4 as four little-endian bytes (R66). -/
theorem test_decode_bytes : decodeBytes .a [0x02, 0x04, 0x00, 0x00, 0xAA] = .ok (.aProcessBlock 4, [0xAA]) := by decide
theorem test_table_words :
    decodeTableWord 32 0x00000010 = some .cUpdate ∧ decodeTableWord 32 0x00000401 = some (.aPrepare 4)
    ∧ decodeTableWord 32 0x000000FF = none := by decide

/-! ## Commands -/

/-- A1: the write of A.NOP completes and changes nothing the host can see. -/
theorem test_aNop : after (step (State.reset.withFetchWord 32 0x00000000)) (fun t =>
    t == { State.reset with repliesA := [.done] }) = true := by decide +kernel

/-- P1, line 1: the derived configuration. -/
theorem test_aPrepare : after (exec (.aPrepare 4) { State.reset with aFs := 0x473B8000 }) (fun t =>
    t.active == p1 && t.cBypass == 0x000001CE && t.aStatus == 0x00000001 && !t.paramClamped) = true := by decide +kernel

/-- A3: both errors at once. -/
theorem test_aPrepare_errors : after (exec (.aPrepare 0) { State.reset with aFs := 0x457A0000 }) (fun t =>
    t.aStatus == 0x00000C00 && !t.prepared) = true := by decide +kernel

/-- A2: unprepared alone, although 4 is above MAXBLOCK too. -/
theorem test_aProcessBlock_unprepared : after (exec (.aProcessBlock 4) State.reset) (fun t =>
    t.aStatus == 0x00000100 && t.blk == Blk.idle) = true := by decide +kernel

/-- S11, k = 0, on the left; on the right a NaN faults the low cut's first stage (FAULT bit 9) and becomes +0.0 (S12). -/
theorem test_frame :
    (frame 0 loaded).sampleWord (sampleAddr 0 0) = 0x3F3022D4 ∧ (frame 0 loaded).sampleWord (sampleAddr 1 0) = 0
    ∧ (frame 0 loaded).fault = 0x00200 := by decide +kernel

/-- R200: the write of C.NOP completes and leaves DIRTY and every other element as it is. -/
theorem test_cNop : after (perform .c (.write 0x000C 0x00000000) { ready with dirty := true }) (fun t =>
    t == { ready with dirty := true, repliesC := [.done] }) = true := by decide +kernel

/-- P2, line 4: the 6 dB peak at 44100 hertz. -/
theorem test_cUpdate : after (exec .cUpdate { ready with
      engFs := 0x472C4400, dirty := true, params := { Params.reset with pg := 0x40C00000 } }) (fun t =>
    t.active.coef[4] == ⟨0x3F8618BE, 0xBFF14765, 0x3F5B4DD8, 0xBFF14765, 0x3F677F52⟩
      && t.snap == t.active && !t.dirty && t.last.pg == 0x40C00000 && !t.paramClamped) = true := by decide +kernel

/-- U7: slope code 7 is clamped to 3, and LAST keeps the raw word. -/
theorem test_cUpdate_clamped : after (exec .cUpdate { ready with
      dirty := true, params := { Params.reset with ls := 7 } }) (fun t =>
    t.cBypass == 0x000001C0 && t.cStatus == 0x00000006 && t.last.ls == 7) = true := by decide +kernel

/-- V3, program P1: RESP[0], whose frequency is the same for every width (V1). -/
theorem test_cGetResponse : after (exec (.cGetResponse 1) { ready with cRespFs := 0x473B8000 }) (fun t =>
    t.respEntry 0 == 0xC0081510CFF1A4C6) = true := by decide +kernel

/-- V4: width 5000 at 1000 hertz. -/
theorem test_cGetResponse_errors : after (exec (.cGetResponse 5000) { State.reset with cRespFs := 0x447A0000 }) (fun t =>
    t.cStatus == 0x00000600 && t.ramC == []) = true := by decide +kernel

/-! ## Operations -/

/-- S1, step 2. -/
theorem test_stage : stage s1 ⟨0x3F000000, 0⟩ 0 = ⟨0x3F000000, ⟨0x3E800000, 0xBE000000⟩, false⟩ := by decide +kernel

/-- S3: IDENT returns +0.0 for −0.0 and leaves −0.0 in register 1 (notes/assumptions/10.md). -/
theorem test_stage_ident_minusZero :
    stage Coefs.ident ⟨0, 0⟩ 0x80000000 = ⟨0, ⟨0, 0x80000000⟩, false⟩ := by decide +kernel

/-- S8: an overflow in t0 alone. -/
theorem test_stage_overflow : stage ⟨0x3F800000, 0x7F7FFFFF, 0, 0, 0⟩ ⟨0, 0⟩ 0x40000000
    = ⟨0x40000000, ⟨0, 0⟩, true⟩ := by decide +kernel

/-- S10: a NaN passes bypassed positions and faults at the peak. -/
theorem test_chain_reset :
    (chain Configuration.reset 0 ⟨Vector.replicate 9 ⟨0, 0⟩, 0, 0x7FC00001⟩).x = 0
    ∧ (chain Configuration.reset 0 ⟨Vector.replicate 9 ⟨0, 0⟩, 0, 0x7FC00001⟩).fault = 0x10 := by decide +kernel

/-- K4 and K5. -/
theorem test_clamp :
    clamp ⟨0xFF800000, 0x7FC00000, 0x7FC00000, 0x7FC00000, 0x7FC00000, 4, 0xFFFFFFFF⟩ 0x473B8000
      = (⟨0x41A00000, 0, 0x3F800000, 0x41A00000, 0x469C4000, 3, 3⟩, true)
    ∧ clamp ⟨0x447A0000, 0x80000000, 0x00000001, 0x43FA0000, 0x43C80000, 1, 2⟩ 0x473B8000
      = (⟨0x447A0000, 0x80000000, 0x3DCCCCCD, 0x43FA0000, 0x43C80000, 1, 2⟩, true) := by decide +kernel

/-- R112's table and spec/95 E9. -/
theorem test_upperFrequency :
    [0x45FA0000, 0x46FA0000, 0x471F7000, 0x472C4400].map upperFrequency
      = [0x45750000, 0x46750000, 0x469C3FAE, 0x469C4000] := by decide +kernel

/-- Spec/95 §2.5: HP fs 48000 f 1000, and LP fs 384000 f 20. -/
theorem test_sections :
    (hpSection (ofF32 0x447A0000) (ofF32 0x3F3504F3) (ofF32 0x473B8000)).store [] 0
      = ⟨0x3F695DBE, 0xBFE95DBE, 0x3F695DBE, 0xBFE85D18, 0x3F54BCC8⟩
    ∧ (lpSection (ofF32 0x41A00000) (ofF32 0x3F3504F3) (ofF32 0x48BB8000)).store [] 0
      = ⟨0x32E5ECDF, 0x3365ECDF, 0x32E5ECDF, 0xBFFFF0D7, 0x3F7FE1AD⟩ := by decide +kernel

/-- V1 and V2. -/
theorem test_evaluator :
    toF64 0 (freq 340 600) = 0x408F52FEE8B01D8E ∧ toF64 0 (db (ofF64 0x3FE0000000000000)) = 0xC018151824C7587F
    ∧ db .nan = ofF64 0xC059000000000000 := by decide +kernel

/-- N2. -/
theorem test_accesses :
    (memRead .c 0x0000 State.reset).1 = 0x42514345 ∧ (memRead .c 0x0080 State.reset).1 = 0x000001EF
    ∧ memRead .a 0x0148 State.reset = (0, State.reset)
    ∧ (memRead .a 0x0002 State.reset).2.aStatus = 0x00001000 ∧ (memRead .a 0x30000 State.reset).2.aStatus = 0x00001000
    ∧ (memRead .c 0x002C State.reset).2.cStatus = 0x00000800 ∧ memRead .c 0x0214 State.reset = (0, State.reset) := by
  decide +kernel

/-- A13 and U9. -/
theorem test_w1c :
    after (memWrite .a 0x0014 0x00000010 { State.reset with fault := 0x00011 }) (fun t => t.fault == 0x00001) = true
    ∧ after (memWrite .c 0x0008 0xFFFFFFFD { ready with paramClamped := true }) (fun t => t.cStatus == 0x00000006) = true := by
  decide +kernel

/-- `f32(6)`, `f32(44100)` and `f32(0.1)` (R98, R17). -/
theorem test_f32Literal :
    f32Literal false 6 1 = 0x40C00000 ∧ f32Literal false 44100 1 = 0x472C4400 ∧ f32Literal false 1 10 = 0x3DCCCCCD := by
  decide +kernel

/-- Bases that are not zero (R80). -/
def bases : Bases := ⟨0x40000000, 0x80000000⟩

/-- `A.PREP 48000, 4`, `A.LOAD L, 2, …` and `C.RESP 4, 48000` (R99), at those bases. -/
theorem test_pseudo :
    aPrep bases 0x473B8000 4
      = some [⟨.a, .write 0x40000008 0x473B8000⟩, ⟨.a, .write 0x40000004 0x00000401⟩]
    ∧ aLoad bases 0 2 [1, 2] = [⟨.a, .write 0x40010008 1⟩, ⟨.a, .write 0x4001000C 2⟩]
    ∧ cResp bases 4 0x473B8000
      = some [⟨.c, .write 0x80000030 0x473B8000⟩, ⟨.c, .write 0x8000000C 0x00000411⟩] := by decide +kernel

/-- R80: C_ID reads at C_BASE plus its offset, and the bare offset is an illegal access. -/
theorem test_bases :
    after (perform .c (.read 0x80000000) { ready with bases := bases }) (fun t => t.repliesC == [.data 0x42514345]) = true
    ∧ after (perform .c (.read 0x00000000) { ready with bases := bases }) (fun t =>
        t.repliesC == [.data 0] && t.cErr.badAccess) = true := by decide +kernel

/-- R69, R98: the line after A.PROCESS_BLOCK waits for the block, whose frame runs before it: the loaded sample 1.0 reads as
the frame's output, and BLK is at rest. A port C line does not wait. -/
theorem test_issue :
    after (issue [⟨.a, .write 0x0004 0x00000102⟩, ⟨.a, .read 0x10000⟩] loaded) (fun t =>
      t.repliesA == [.data 0x3F3022D4, .done] && t.blk == Blk.idle) = true
    ∧ after (issue [⟨.c, .read 0x0000⟩] inFlight) (fun t => t.blk == inFlight.blk) = true := by decide +kernel

/-! ## Values that meet the hypotheses of the statements -/

theorem witness_DecodeOfEncode :
    (Instr.aProcessBlock (2 ^ 24 - 1)).wellFormed = true ∧ Instr.cUpdate.wellFormed = true := by decide
theorem witness_EncodeOfDecode : decode .c 0xFFFFFF11 = .ok (.cGetResponse (2 ^ 24 - 1)) := by decide
theorem witness_IllegalWords :
    decode .a 0x00000003 = .error .unknownOpcode ∧ decode .a 0x00000100 = .error .argumentNotZero
    ∧ decode .c 0x00000001 = .error .unknownOpcode ∧ decode .c 0x00000110 = .error .argumentNotZero := by decide
theorem witness_AssemblerExpansions :
    2 ^ 24 - 1 < 2 ^ 24 ∧ 2 ^ 24 ≤ 2 ^ 24 ∧ ([5, 6] : List Word)[1]? = some 6 ∧ State.reset.blk.busy = false := by decide

/-- Both ports' hosts have a command to write, at their platform addresses, and the audio host moves first. -/
def twoCommands : State :=
  { ready with
    bases := bases, turns := [.a, .c], pendingA := [.write 0x40000004 0x00000402],
    pendingC := [.write 0x8000000C 0x00000110] }

theorem witness_StepRunsDecodedCommand :
    twoCommands.turns = .a :: [.c]
    ∧ twoCommands.pendingA = .write (busAddress twoCommands.bases .a 0x0004) 0x00000402 :: []
    ∧ twoCommands.blk.busy = false ∧ decode .a 0x00000402 = .ok (.aProcessBlock 4)
    ∧ ({ twoCommands with turns := [.c] } : State).turns = .c :: []
    ∧ twoCommands.pendingC = .write (busAddress twoCommands.bases .c 0x000C) 0x00000110 :: []
    ∧ decode .c 0x00000110 = .error .argumentNotZero := by
  refine ⟨rfl, by decide, rfl, ?_, rfl, by decide, ?_⟩ <;> decide
theorem witness_PlacedWordRuns :
    decodeTableWord 32 0x00000402 = some (.aProcessBlock 4) ∧ decodeTableWord 32 0x00000411 = some (.cGetResponse 4) := by
  decide
theorem witness_PortSequencing :
    twoCommands.turns = .a :: [.c] ∧ twoCommands.pendingA = .write 0x40000004 0x00000402 :: []
    ∧ ({ twoCommands with blk := ⟨true, 4, 3⟩ } : State).blk.busy = true
    ∧ ({ twoCommands with turns := [.c] } : State).turns = .c :: []
    ∧ twoCommands.pendingC = .write 0x8000000C 0x00000110 :: []
    ∧ inFlight.pendingA = [] ∧ inFlight.pendingC = [] := ⟨rfl, rfl, rfl, rfl, rfl, rfl, rfl⟩
theorem witness_IllegalAccess :
    (0x00000002 : Word).toNat % 4 ≠ 0
    ∧ legalRead .a 0x01FC ∧ legalRead .a 0x13FFC ∧ legalRead .c 0x031C ∧ legalRead .c 0x17FFC
    ∧ ¬ legalRead .a 0x0200 ∧ ¬ legalRead .a 0x14000 ∧ ¬ legalRead .c 0x0320 ∧ ¬ legalRead .c 0x18000
    ∧ ¬ legalWrite .a 0x0000 ∧ ¬ legalWrite .c 0x0080 := by
  refine ⟨by decide, (itemA_isSome 0x01FC).mp (by decide), (itemA_isSome 0x13FFC).mp (by decide),
    (itemC_isSome 0x031C).mp (by decide), (itemC_isSome 0x17FFC).mp (by decide),
    fun h => absurd ((itemA_isSome 0x0200).mpr h) (by decide), fun h => absurd ((itemA_isSome 0x14000).mpr h) (by decide),
    fun h => absurd ((itemC_isSome 0x0320).mpr h) (by decide), fun h => absurd ((itemC_isSome 0x18000).mpr h) (by decide),
    ?_, ?_⟩
  · rintro (h | ⟨k, -, h⟩ | ⟨k, -, h⟩)
    · simp at h
    · omega
    · omega
  · rintro (h | ⟨k, hk, h⟩)
    · simp at h
    · omega
theorem witness_WriteEffects : 4095 < Config.bufDepth ∧ ¬ legalWrite .a 0x0000 ∧ ¬ legalWrite .c 0x10000 := by
  refine ⟨by decide, ?_, ?_⟩
  · rintro (h | ⟨k, -, h⟩ | ⟨k, -, h⟩)
    · simp at h
    · omega
    · omega
  · rintro (h | ⟨k, hk, h⟩)
    · simp at h
    · omega
theorem witness_StatusWords :
    (31 < 32 ∧ 16 < 32 ∧ 0 < 32) ∧ (0x00000002 : Word).getLsbD 1 = true ∧ (0xFFFFFFFD : Word).getLsbD 1 = false := by decide
theorem witness_AudioRegisters : (18 ≤ 18 ∧ 18 < 32) ∧ (18 ≤ 31 ∧ 31 < 32) ∧ 17 < 18 := by decide
theorem witness_ParameterRegisters :
    Field.hs ≠ Field.pf ∧ 3 < (4 : Word).toNat ∧ (3 : Word).toNat ≤ 3 ∧ 3 < (0xFFFFFFFF : Word).toNat := by decide
theorem witness_ConfigurationViews : (5 ≤ 5 ∧ 5 < 8) ∧ (5 ≤ 7 ∧ 7 < 8) ∧ 31 < 32 := by decide
theorem witness_SampleWrite :
    4095 < Config.bufDepth ∧ ((0 : Fin 2), 4095) ≠ (1, 4095)
    ∧ sampleAddr 0 4095 + 4 ≤ sampleAddr 1 0 ∧ sampleAddr 0 4094 + 3 < sampleAddr 0 4095 := by decide
theorem witness_ResponseRead : 4095 < Config.respDepth ∧ 0 < Config.respDepth := by decide
theorem witness_ResetEvent : ({ inFlight with turns := [.reset, .a] } : State).turns = .reset :: [.a] := rfl

/-- Every slot of P1 is sound. -/
theorem p1_sound (i : Nat) (h : i < 9) : p1.coef[i].sound := by
  have key : p1.coef.toList.all (fun c => finiteWord c.b0 && finiteWord c.b1 && finiteWord c.b2 && finiteWord c.a1
      && finiteWord c.a2 && !c.b0.getLsbD 31) = true := by decide +kernel
  have hc := List.all_eq_true.mp key _ (Vector.mem_toList_iff.mpr (Vector.getElem_mem h))
  simp only [Bool.and_eq_true, Bool.not_eq_true'] at hc
  exact ⟨hc.1.1.1.1.1, hc.1.1.1.1.2, hc.1.1.1.2, hc.1.1.2, hc.1.2, hc.2⟩

/-- States that meet the invariant, a block in flight in one of them. -/
theorem ready_inv (b : Blk) (hb : b = Blk.idle ∨ b = ⟨true, 4, 3⟩) : State.Inv { ready with blk := b } where
  sampleSorted := List.Pairwise.nil
  sampleMapped := by simp [ready, State.reset]
  respSorted := List.Pairwise.nil
  respMapped := by simp [ready, State.reset]
  snapIsActive := rfl
  peakActive := rfl
  lowPrefix := show ∀ k : Fin 3, p1.byp[k.val] = true → p1.byp[k.val + 1] = true by decide
  highPrefix := show ∀ k : Fin 3, p1.byp[5 + k.val] = true → p1.byp[6 + k.val] = true by decide
  unprepared := by simp [ready]
  prepared := fun _ => by
    refine ⟨show legalRate 0x473B8000 = true by decide +kernel, ?_, ?_, rfl, rfl⟩ <;> simp [ready, Config.bufDepth]
  idle := by rcases hb with rfl | rfl <;> simp [Blk.idle]
  inFlight := by rcases hb with rfl | rfl <;> simp [Blk.idle, ready]
  coefSound := fun pos => p1_sound pos.val pos.isLt
  delayFinite := show ∀ (ch : Fin 2) (pos : Fin 9),
    finiteWord zeroDelay[ch][pos].r0 = true ∧ finiteWord zeroDelay[ch][pos].r1 = true by decide +kernel

theorem witness_InvariantPreserved :
    ready.Inv ∧ (∃ t, step ready = .next t) ∧ inFlight.Inv ∧ (∃ t, step inFlight = .next t) :=
  ⟨ready_inv Blk.idle (.inl rfl), ⟨internalTurn ready, by simp [step, ready, State.reset]⟩, ready_inv _ (.inr rfl),
    ⟨internalTurn inFlight, by simp [step, inFlight, ready, State.reset]⟩⟩
theorem witness_Nops : State.reset.blk.busy = false ∧ opcField 0x00000100 = 0 ∧ argField 0x00000100 ≠ 0 := by decide
theorem witness_PrepareOutcome :
    legalRate 0x45FA0000 = true ∧ legalRate 0x48BB8000 = true ∧ 1 ≤ 1 ∧ 4096 ≤ Config.bufDepth
    ∧ legalRate 0x45F9FFFF = false ∧ legalRate 0x48BB8001 = false ∧ legalRate 0x7FC00000 = false
    ∧ Config.bufDepth < 4097 ∧ 2 ^ 24 - 1 < 2 ^ 24 := by decide +kernel
theorem witness_BlockStarts :
    (ready.prepared = true ∧ 0 < 4 ∧ 4 ≤ ready.maxBlock.toNat) ∧ ready.maxBlock.toNat < 5
    ∧ State.reset.prepared = false := by decide
theorem witness_BlockSteps :
    (inFlight.blk.busy = true ∧ inFlight.turns = [] ∧ inFlight.blk.k < inFlight.blk.n)
    ∧ ({ inFlight with turns := [.a], blk := ⟨true, 4, 4⟩ } : State).turns.head? = some .a ∧ 4 ≤ 4 := by decide
theorem witness_BlockRunsToCompletion :
    4 < 2 ^ 24 ∧ 0 < 4 ∧ 4 ≤ ready.maxBlock.toNat ∧ ready.prepared = true ∧ ready.blk.busy = false
    ∧ ([.write 0x40000004 (encode (.aProcessBlock 4)), .read 0x40000014] : List Txn)
        = .write (busAddress bases .a 0x0004) (encode (.aProcessBlock 4)) :: [.read 0x40000014]
    ∧ ([.a, .a, .a, .a, .a, .a, .c] : List Turn) = List.replicate (4 + 2) .a ++ [.c] ∧ 0 < 5 ∧ 5 ≤ 4 + 1 := by decide
theorem witness_BlockTerminatesInterleaved :
    inFlight.blk.busy = true ∧ inFlight.blk.k ≤ inFlight.blk.n
    ∧ ([.c, .a, .c, .a] : List Turn) = [.c, .a, .c] ++ .a :: [] ∧ Turn.reset ∉ [Turn.c, .a, .c]
    ∧ [Turn.c, .a, .c].count .a = inFlight.blk.n - inFlight.blk.k := by decide
theorem witness_FrameStep :
    4095 < Config.bufDepth ∧ 0x13FFB < sampleAddr 0 4095 ∧ 0x13FFB < sampleAddr 1 4095
    ∧ sampleAddr 0 4095 + 4 ≤ 0x14000 ∧ sampleAddr 1 4095 + 4 ≤ 0x24000 := by decide
theorem witness_BlockFrame :
    4096 ≤ Config.bufDepth ∧ sampleAddr 0 4096 ≤ 0x14000 ∧ 0x14000 < sampleAddr 1 0 ∧ sampleAddr 0 4096 ≤ 0x24000
    ∧ sampleAddr 1 4096 ≤ 0x24000 := by decide
theorem witness_BlockIsStream : 4096 ≤ Config.bufDepth := by decide

/-- S1 for the finite path, S6 for the fault path, and P1 for an active and a bypassed position. -/
theorem witness_StageAndBypass :
    (stage s1 ⟨0, 0⟩ 0x3F800000).faulted = false ∧ (ofF32 0x7FC00001).isFinite = false
    ∧ p1.byp[(0 : Fin 9)] = false ∧ p1.byp[(8 : Fin 9)] = true ∧ 17 < 18 := by decide +kernel
theorem witness_ChainOutputFinite : p1.byp[4] = false := by decide
theorem witness_ChannelsIndependent :
    let u := { loaded with delay := loaded.delay.set 1 (Vector.replicate 9 ⟨0x3F800000, 0⟩), fault := 0x20000 }
    4095 < Config.bufDepth ∧ loaded.active = u.active ∧ loaded.delay[(0 : Fin 2)] = u.delay[(0 : Fin 2)]
    ∧ loaded.sampleWord (sampleAddr 0 0) = u.sampleWord (sampleAddr 0 0)
    ∧ ∀ i : Fin 9, loaded.fault.getLsbD (0 * 9 + i.val) = u.fault.getLsbD (0 * 9 + i.val) := by decide +kernel
theorem witness_StageSilence :
    finiteWord s1.b0 = true ∧ finiteWord s1.b1 = true ∧ finiteWord s1.b2 = true ∧ finiteWord s1.a1 = true
    ∧ finiteWord s1.a2 = true ∧ s1.b0.getLsbD 31 = false := by decide +kernel
theorem witness_IdentityStage : finiteWord 0x00000001 = true ∧ (0x00000001 : Word) ≠ 0x80000000 := by decide +kernel

/-! Real values -/

theorem ofF32_F_LO : ofF32 F_LO = .fin false 10485760 (-19) := by decide +kernel
theorem ofF32_F_HI : ofF32 F_HI = .fin false 10240000 (-9) := by decide +kernel

theorem witness_ClampCases :
    finiteWord F_LO = true ∧ finiteWord F_HI = true ∧ (ofF32 F_LO).toReal ≤ (ofF32 F_HI).toReal
    ∧ ((ofF32 0x7FC00000).isNaN = true ∧ (ofF32 Params.reset.hf).isNaN = false)
    ∧ (finiteWord 0x419FFFFF = true ∧ (ofF32 0x419FFFFF).toReal < (ofF32 F_LO).toReal)
    ∧ (finiteWord 0x469C4001 = true ∧ (ofF32 F_HI).toReal < (ofF32 0x469C4001).toReal)
    ∧ ((ofF32 F_LO).toReal ≤ (ofF32 F_LO).toReal ∧ (ofF32 F_HI).toReal ≤ (ofF32 F_HI).toReal) := by
  have hl : ofF32 0x419FFFFF = .fin false 10485759 (-19) := by decide +kernel
  have hh : ofF32 0x469C4001 = .fin false 10240001 (-9) := by decide +kernel
  rw [ofF32_F_LO, ofF32_F_HI, hl, hh]
  refine ⟨by decide +kernel, by decide +kernel, ?_, by decide +kernel, ⟨by decide +kernel, ?_⟩, ⟨by decide +kernel, ?_⟩,
    le_refl _, le_refl _⟩ <;>
    simp [Fp.toReal] <;> norm_num
theorem witness_ClampInRange : legalRate 0x45FA0000 = true ∧ legalRate 0x48BB8000 = true := by decide +kernel

/-- The default peak at 48000 hertz, which is a legal rate. -/
theorem witness_PeakAtZeroGain :
    (peakAlpha (ofF32 0x447A0000) one (ofF32 0x473B8000)).isFinite = true
    ∧ 0 < (peakAlpha (ofF32 0x447A0000) one (ofF32 0x473B8000)).toReal ∧ legalRate 0x473B8000 = true := by
  have h : (match peakAlpha (ofF32 0x447A0000) one (ofF32 0x473B8000) with
      | .fin false m _ => decide (0 < m) | _ => false) = true := by decide +kernel
  split at h
  · rename_i m e he
    rw [he]
    refine ⟨rfl, ?_, by decide +kernel⟩
    have hm : (0 : ℝ) < m := by exact_mod_cast of_decide_eq_true h
    simp only [Fp.toReal, Bool.false_eq_true, if_false, one_mul]
    positivity
  · simp at h
theorem witness_CutSectionSymmetry :
    let h := hpSection (ofF32 0x447A0000) (ofF32 0x3F3504F3) (ofF32 0x473B8000)
    let l := lpSection (ofF32 0x447A0000) (ofF32 0x3F3504F3) (ofF32 0x473B8000)
    h.b0.isFinite = true ∧ h.b1.isFinite = true ∧ l.b0.isFinite = true ∧ l.b1.isFinite = true
    ∧ legalRate 0x473B8000 = true ∧ 0x3F3504F3 ∈ qrom 1 := by decide +kernel

/-- Slope codes 0 and 3, and one clamped to 3; a legal rate, with an active position. -/
theorem witness_DeriveContents :
    (clamp Params.reset 0x473B8000).1.ls < 1 ∧ 3 ≤ (clamp { Params.reset with ls := 3, hs := 9 } 0x473B8000).1.ls
    ∧ 3 ≤ (clamp { Params.reset with ls := 3, hs := 9 } 0x473B8000).1.hs
    ∧ (clamp Params.reset 0x473B8000).1.hs < 1
    ∧ legalRate 0x473B8000 = true
    ∧ (derive Params.reset 0x473B8000 Configuration.reset).1.byp[(0 : Fin 9)] = false := by decide +kernel
theorem witness_DeriveDependsOnSnapshot :
    (derive Params.reset 0x473B8000 Configuration.reset).1.byp[(5 : Fin 9)] = false := by decide +kernel
theorem witness_UpdateOutcome :
    State.reset.prepared = false ∧ ready.dirty = false ∧ ready.prepared = true
    ∧ ({ ready with dirty := true } : State).dirty = true := by decide
theorem witness_UpdatesCoalesce :
    ready.prepared = true ∧ ([(.pg, 0x40400000), (.pg, 0x40C00000), (.pg, 0)] : List (Field × Word)) ≠ [] := by decide
theorem witness_UpdateIdempotent :
    let s := { ready with dirty := true, params := { Params.reset with ls := 7 } }
    s.prepared = true ∧ s.dirty = true ∧ [Field.ls] ≠ [] ∧ ∃ t, exec .cUpdate s = .next t :=
  ⟨rfl, rfl, by decide, exists_next _ (fun t => t.last.ls == 7) (by decide +kernel)⟩
theorem witness_ResponseOutcome :
    (4096 ≤ Config.respDepth ∧ legalRate 0x473B8000 = true ∧ 4095 < 4096 ∧ respAddr 4096 ≤ 0x18000
      ∧ 0xFFFF < respAddr 0)
    ∧ Config.respDepth < 4097 ∧ legalRate State.reset.cRespFs = false ∧ 2 ^ 24 - 1 < 2 ^ 24 := by decide +kernel

/-- P1 with a stale slot 1 and without. -/
theorem witness_ResponseIgnoresStaleSlots :
    let d := { p1 with coef := p1.coef.set 1 s1 }
    p1.byp = d.byp ∧ (∀ pos : Fin 9, p1.byp[pos] = false → p1.coef[pos] = d.coef[pos])
    ∧ p1.coef[1] ≠ d.coef[1] := by decide
theorem witness_DecibelConversion :
    (Fp.fin false 0 0).lt (.fin true 0 0) = false ∧ (Fp.fin false 0 0).lt .nan = false
    ∧ (Fp.fin false 0 0).lt (.fin true 1 0) = false
    ∧ (Fp.fin false 1 (-9)).isFinite = true ∧ (Fp.fin false 0 0).lt (.fin false 1 (-9)) = true := by decide
theorem witness_FlatResponses :
    (div64 (mul64 (ofF64 TWO_PI64) twenty) (ofF32 0x473B8000)).isFinite = true
    ∧ (stageMag ⟨0x3F800000, 0xBFEE42A1, 0x3F60A1E7, 0xBFEE42A1, 0x3F60A1E7⟩ (Fp.ofNat 1234) (ofF32 0x473B8000)).isNaN
      = false := by decide +kernel

/-- A step that clears FAULT bit 0 and keeps bit 1 and an error bit; and one that clears PARAM_CLAMPED. -/
theorem witness_StickyBits :
    let s := { ready with turns := [.a], pendingA := [.write 0x0014 1], fault := 3, aErr := ⟨true, true, true, true, true⟩ }
    let u := { ready with turns := [.c], pendingC := [.write 0x0008 2], paramClamped := true }
    s.turns.head? = some .a ∧ s.blk.busy = false ∧ u.turns.head? = some .c
    ∧ after (step s) (fun t => !t.fault.getLsbD 0 && t.fault.getLsbD 1 && t.aErr.unprepared) = true
    ∧ after (step u) (fun t => !t.paramClamped) = true := by decide +kernel

/-- The control host's next step is a C.UPDATE that opens the low cut to four stages. -/
def slopeUpdate : State :=
  let p := { Params.reset with ls := 3 }
  { ready with turns := [.c], pendingC := [.write 0x000C 0x00000010], params := p, dirty := true }

/-- The audio host's next step is `A.PREPARE 4` at 48000 hertz. -/
def prepareNext (s : State) : State :=
  { s with turns := [.a], pendingA := [.write 0x0004 0x00000401], aFs := 0x473B8000 }

/-- A read, a C.UPDATE and an A.PREPARE. -/
theorem witness_CommitsOnly :
    after (step { ready with turns := [.c], pendingC := [.read 0x0080] }) (fun t => t.active == p1) = true
    ∧ after (step slopeUpdate) (fun t => t.cBypass == 0x1C0) = true
    ∧ after (step (prepareNext State.reset)) (fun t => t.cBypass == 0x1CE) = true := by decide +kernel
theorem witness_DirtyProtocol :
    after (step { ready with turns := [.c], pendingC := [.write 0x0028 0] }) (fun t => t.dirty) = true
    ∧ after (step slopeUpdate) (fun t => !t.dirty && t.last != Params.reset) = true := by decide +kernel

/-- A frame on a loaded sample, and an A.PREPARE over registers that are not zero. -/
theorem witness_DelayWriters :
    after (step { loaded with blk := ⟨true, 4, 0⟩ }) (fun t => t.delay[0][0] == ⟨0xBB723200, 0x3B71BE00⟩) = true
    ∧ after (step (prepareNext { ready with delay := Vector.replicate 2 (Vector.replicate 9 ⟨0x3F800000, 0⟩) })) (fun t => t.delay == zeroDelay) = true := by
  decide +kernel

theorem witness_RoundingIsNearestEven :
    0 < 1 ∧ 0 < 3 ∧ f32.roundMag 1 3 < f32.infCode ∧ f32.roundMag (2 ^ 128 - 2 ^ 103) 1 = f32.infCode
    ∧ f64.roundMag 1 (2 ^ 1075) < f64.infCode := by decide +kernel
theorem witness_BasicOperations :
    let a := Fp.fin false 2 0
    let b := Fp.fin true 3 0
    a.isFinite = true ∧ b.isFinite = true ∧ Fp.nan.isNaN = true
    ∧ (a.toReal + b.toReal ≠ 0 ∧ a.toReal - b.toReal ≠ 0 ∧ a.toReal * b.toReal ≠ 0 ∧ a.toReal ≠ 0 ∧ b.toReal ≠ 0
      ∧ 0 < a.toReal ∧ b.toReal < 0)
    ∧ a.toReal + a.neg.toReal = 0 ∧ a.toReal - a.toReal = 0 ∧ (Fp.fin true 0 0).toReal = 0
    ∧ a.toReal * (Fp.fin true 0 0).toReal = 0 := by
  refine ⟨rfl, rfl, rfl, ⟨?_, ?_, ?_, ?_, ?_, ?_, ?_⟩, ?_, ?_, ?_, ?_⟩ <;> norm_num [Fp.toReal, Fp.neg]

/-- R13: an overflow to −∞, an underflow to −0, an exact −0, and a division by zero. -/
theorem test_specialResults :
    mul32 (ofF32 0x7F7FFFFF) (ofF32 0xC0000000) = .inf true ∧ toF32 0 (mul32 (ofF32 0x00000001) (ofF32 0x80000001)) = 0x80000000
    ∧ toF32 0 (add32 (ofF32 0x80000000) (ofF32 0x80000000)) = 0x80000000
    ∧ toF32 0 (sub32 (ofF32 0x3F800000) (ofF32 0x3F800000)) = 0
    ∧ div32 (ofF32 0x3F800000) (ofF32 0x80000000) = .inf true ∧ div32 (ofF32 0) (ofF32 0) = .nan := by decide +kernel
theorem witness_Trigonometry :
    decides f32 (cosEncl 1 0) ∧ decides f32 (sinEncl 1 0) ∧ decides f64 (tanEncl 1 0)
    ∧ (Fp.tan f64 (.fin false 1 0)).isFinite = true :=
  ⟨⟨0, by decide, by decide +kernel⟩, ⟨0, by decide, by decide +kernel⟩, ⟨0, by decide, by decide +kernel⟩,
    by decide +kernel⟩

/-- log 2 and 10 ^ 0.5, and the exact 10 ^ 1. -/
theorem witness_Powers :
    ((Fp.fin false 2 0).toReal ≠ 1 ∧ decides f64 (log10Encl (0 + log10Shift 2) 2 (2 ^ log10Shift 2))
      ∧ (Fp.log10 f64 (.fin false 2 0)).isFinite = true)
    ∧ (Fp.fin false 1 0).toReal = 1
    ∧ (fractionalPart false 1 0 = 0 ∧ (Fp.exp10 f32 (.fin false 1 0)).isFinite = true)
    ∧ decides f32 (exp10Encl (wholePart false 1 (-1)) (fractionalPart false 1 (-1)) (fraction 1 (-1)).2)
    ∧ (Fp.exp10 f32 (.fin false 1 (-1))).isFinite = true := by
  refine ⟨⟨by norm_num [Fp.toReal], ⟨0, by decide, by decide +kernel⟩, by decide +kernel⟩, by norm_num [Fp.toReal],
    ⟨by decide +kernel, by decide +kernel⟩, ⟨0, by decide, by decide +kernel⟩, by decide +kernel⟩

end Sys2Proof.Tests
end

section
/-! PROOFS. Rounding to nearest, ties to even (spec/00_scope.md R12, R13): a real number's magnitude code is the one whose
neighbouring midpoints enclose it, and `roundMag` answers that code. -/

namespace Sys2Proof.Machine

/-- Both formats have exponent and fraction bits. -/
theorem formats_pos {f : Fmt} (h : f ∈ [f32, f64]) : 0 < f.ebits ∧ 0 < f.mbits := by
  revert f; decide

/-! ## Neighbouring magnitude codes -/

@[simp] theorem magValue_zero (f : Fmt) : f.magValue 0 = 0 := by simp [Fmt.magValue, Fmt.unpackMag]

theorem unpackMag_lt (f : Fmt) (c : Nat) : (f.unpackMag c).1 < 2 ^ (f.mbits + 1) := by
  rcases Nat.eq_zero_or_pos c with rfl | hc
  · simp [Fmt.unpackMag]
  · exact (unpackMag_spec f c hc).2.2.1

/-- The next code stands for one more unit in the last place. -/
theorem magValue_succ (f : Fmt) (c : Nat) : f.magValue (c + 1) = ((f.unpackMag c).1 + 1) * (2 : ℝ) ^ (f.unpackMag c).2 := by
  rcases Nat.eq_zero_or_pos c with rfl | hc
  · have h := magValue_code f 0 1 Nat.one_le_two_pow (by omega)
    simpa [Fmt.unpackMag] using h
  · obtain ⟨-, hq, hlt, hnorm, hcode⟩ := unpackMag_spec f c hc
    have h := magValue_code f ((f.unpackMag c).2 - f.qmin).toNat ((f.unpackMag c).1 + 1) hlt (by omega)
    rw [← add_assoc, ← hcode, Int.toNat_of_nonneg (by omega), add_sub_cancel] at h
    rw [h]; push_cast; rfl

theorem magValue_strictMono (f : Fmt) : StrictMono f.magValue := by
  refine strictMono_nat_of_lt_succ fun c => ?_
  rw [magValue_succ, Fmt.magValue]
  gcongr
  linarith

/-- From a positive code to the next the value at most doubles. -/
theorem magValue_succ_le (f : Fmt) (c : Nat) (hc : 0 < c) : f.magValue (c + 1) ≤ 2 * f.magValue c := by
  have h1 : (1 : ℝ) ≤ (f.unpackMag c).1 := by exact_mod_cast (unpackMag_spec f c hc).1
  rw [magValue_succ, Fmt.magValue, ← mul_assoc]
  gcongr
  linarith

/-- The midpoint of a code's value and the next one's. -/
noncomputable def Fmt.midpoint (f : Fmt) (c : Nat) : ℝ := (f.magValue c + f.magValue (c + 1)) / 2

theorem midpoint_mono (f : Fmt) : Monotone f.midpoint := by
  intro a b h
  have h1 := (magValue_strictMono f).monotone h
  have h2 := (magValue_strictMono f).monotone (Nat.succ_le_succ h)
  unfold Fmt.midpoint
  simp only [Nat.succ_eq_add_one] at h2
  linarith

theorem magValue_lt_midpoint (f : Fmt) (c : Nat) : f.magValue c < f.midpoint c := by
  have := magValue_strictMono f (Nat.lt_succ_self c)
  unfold Fmt.midpoint
  simp only [Nat.succ_eq_add_one] at this
  linarith

theorem midpoint_lt_magValue (f : Fmt) (c : Nat) : f.midpoint c < f.magValue (c + 1) := by
  have := magValue_strictMono f (Nat.lt_succ_self c)
  unfold Fmt.midpoint
  simp only [Nat.succ_eq_add_one] at this
  linarith

theorem overflow_eq_midpoint (f : Fmt) (h : 0 < f.infCode) : f.overflow = f.midpoint (f.infCode - 1) := by
  unfold Fmt.overflow Fmt.midpoint
  rw [Nat.sub_add_cancel h]

/-! ## The code of a real number -/

/-- `c` is the code nearest to `v`, ties to even, were there no largest one: `v` lies between the midpoints on either
side of it, and on one of them only if it is even. -/
structure Fmt.nearestCode (f : Fmt) (v : ℝ) (c : Nat) : Prop where
  lower : ∀ b, b + 1 = c → f.midpoint b ≤ v
  lowerTie : ∀ b, b + 1 = c → f.midpoint b = v → c % 2 = 0
  upper : v ≤ f.midpoint c
  upperTie : v = f.midpoint c → c % 2 = 0

/-- A number between two numbers of one code has that code. -/
theorem Fmt.nearestCode.between {f : Fmt} {u v w : ℝ} {c : Nat} (hu : f.nearestCode u c) (hw : f.nearestCode w c)
    (h1 : u ≤ v) (h2 : v ≤ w) : f.nearestCode v c where
  lower b hb := (hu.lower b hb).trans h1
  lowerTie b hb t := hu.lowerTie b hb (le_antisymm (hu.lower b hb) (t ▸ h1))
  upper := h2.trans hw.upper
  upperTie t := hw.upperTie (le_antisymm hw.upper (t ▸ h2))

/-- Below the first midpoint the code is 0. -/
theorem nearestCode_zero {f : Fmt} {v : ℝ} (h : v ≤ f.midpoint 0) : f.nearestCode v 0 :=
  ⟨fun b hb => by omega, fun _ _ _ => rfl, h, fun _ => rfl⟩

/-- A finite code between whose midpoints a number lies is the nearest one. -/
theorem Fmt.nearestCode.isNearest {f : Fmt} {v : ℝ} {c : Nat} (h : f.nearestCode v c) (hc : c < f.infCode) :
    f.isNearest v c := by
  refine ⟨hc, fun other _ hne => ?_⟩
  rcases Nat.lt_or_gt_of_ne hne with hlt | hgt
  · obtain ⟨b, rfl⟩ : ∃ b, c = b + 1 := ⟨c - 1, by omega⟩
    have hother := (magValue_strictMono f).monotone (show other ≤ b by omega)
    have hlow := h.lower b rfl
    have hb := magValue_lt_midpoint f b
    rw [abs_of_nonpos (show f.magValue other - v ≤ 0 by linarith)]
    have htie : f.magValue (b + 1) - v = -(f.magValue other - v) → f.midpoint b = v := by
      intro e; unfold Fmt.midpoint at hlow ⊢; linarith
    rcases le_or_gt (f.magValue (b + 1)) v with hv | hv
    · left; rw [abs_of_nonpos (by linarith)]; linarith [magValue_strictMono f (show other < b + 1 by omega)]
    · rw [abs_of_pos (by linarith)]
      have hle : f.magValue (b + 1) - v ≤ -(f.magValue other - v) := by unfold Fmt.midpoint at hlow; linarith
      exact hle.lt_or_eq.imp_right fun e => ⟨e, h.lowerTie b rfl (htie e)⟩
  · have hother := (magValue_strictMono f).monotone (show c + 1 ≤ other by omega)
    have hup := h.upper
    have hc' := midpoint_lt_magValue f c
    rw [abs_of_nonneg (show 0 ≤ f.magValue other - v by linarith)]
    have htie : -(f.magValue c - v) = f.magValue other - v → v = f.midpoint c := by
      intro e; unfold Fmt.midpoint at hup ⊢; linarith
    rcases le_or_gt v (f.magValue c) with hv | hv
    · left; rw [abs_of_nonneg (by linarith)]; linarith [magValue_strictMono f hgt]
    · rw [abs_of_neg (by linarith)]
      have hle : -(f.magValue c - v) ≤ f.magValue other - v := by unfold Fmt.midpoint at hup; linarith
      exact hle.lt_or_eq.imp_right fun e => ⟨e, h.upperTie (htie e)⟩

theorem infCode_even (f : Fmt) (hm : 0 < f.mbits) : f.infCode % 2 = 0 := by
  obtain ⟨k, hk⟩ : ∃ k, f.mbits = k + 1 := ⟨f.mbits - 1, by omega⟩
  rw [Fmt.infCode, hk, pow_succ, ← mul_assoc, Nat.mul_mod_left]

/-- A number's code is finite exactly below the midpoint of the largest finite datum and the next power of two. -/
theorem Fmt.nearestCode.lt_infCode_iff {f : Fmt} {v : ℝ} {c : Nat} (h : f.nearestCode v c) (he : 0 < f.ebits)
    (hm : 0 < f.mbits) : c < f.infCode ↔ v < f.overflow := by
  have hinf := f.infCode_pos he
  have heven := infCode_even f hm
  rw [overflow_eq_midpoint f hinf]
  constructor
  · intro hc
    have hmono := midpoint_mono f (show c ≤ f.infCode - 1 by omega)
    refine lt_of_le_of_ne (h.upper.trans hmono) fun t => ?_
    have htie : v = f.midpoint c := le_antisymm h.upper (t ▸ hmono)
    have hlast : c = f.infCode - 1 := by
      by_contra hne
      have h1 := midpoint_lt_magValue f c
      have h2 := (magValue_strictMono f).monotone (show c + 1 ≤ f.infCode - 1 by omega)
      linarith [magValue_lt_midpoint f (f.infCode - 1)]
    have := h.upperTie htie
    omega
  · intro hv
    by_contra hc
    have hmono := midpoint_mono f (show f.infCode - 1 ≤ c - 1 by omega)
    linarith [h.lower (c - 1) (by omega)]

/-! ## The code that `roundMag` answers -/

/-- The nearest integer to a quotient, by real values. -/
theorem roundDivEven_bounds (num den : Nat) (hd : 0 < den) :
    (num : ℝ) / den ≤ roundDivEven num den + 1 / 2 ∧ (roundDivEven num den : ℝ) - 1 / 2 ≤ (num : ℝ) / den
    ∧ ((num : ℝ) / den = roundDivEven num den + 1 / 2 → roundDivEven num den % 2 = 0)
    ∧ ((roundDivEven num den : ℝ) - 1 / 2 = (num : ℝ) / den → roundDivEven num den % 2 = 0) := by
  obtain ⟨h1, h2, h3, h4⟩ := roundDivEven_spec num den hd
  have hd' : (0 : ℝ) < den := by exact_mod_cast hd
  set n := roundDivEven num den
  have h1' : 2 * (num : ℝ) ≤ (2 * n + 1) * den := by exact_mod_cast h1
  have h2' : 2 * (n : ℝ) * den ≤ 2 * num + den := by exact_mod_cast h2
  refine ⟨?_, ?_, fun t => h3 ?_, fun t => h4 ?_⟩
  · rw [div_le_iff₀ hd']; linarith
  · rw [le_div_iff₀ hd']; linarith
  · rw [div_eq_iff hd'.ne'] at t
    have : 2 * (num : ℝ) = (2 * n + 1) * den := by linarith
    exact_mod_cast this
  · rw [eq_div_iff hd'.ne'] at t
    have : 2 * (n : ℝ) * den = 2 * num + den := by linarith
    exact_mod_cast this

/-- The units are the fraction over its quantum, to within a half and on the even side of a tie. -/
theorem units_bounds (f : Fmt) (num den : Nat) (hd : 0 < den) :
    (num : ℝ) / den ≤ (f.units num den + 1 / 2) * (2 : ℝ) ^ f.quantum num den
    ∧ (f.units num den - 1 / 2) * (2 : ℝ) ^ f.quantum num den ≤ (num : ℝ) / den
    ∧ ((num : ℝ) / den = (f.units num den + 1 / 2) * (2 : ℝ) ^ f.quantum num den → f.units num den % 2 = 0)
    ∧ ((f.units num den - 1 / 2) * (2 : ℝ) ^ f.quantum num den = (num : ℝ) / den → f.units num den % 2 = 0) := by
  have hq : (0 : ℝ) < (2 : ℝ) ^ f.quantum num den := by positivity
  have hscaled : ((num * 2 ^ (-f.quantum num den).toNat : Nat) : ℝ) / ((den * 2 ^ (f.quantum num den).toNat : Nat) : ℝ)
      = (num : ℝ) / den / (2 : ℝ) ^ f.quantum num den := by
    rw [Nat.cast_mul den, ← zpow_split, Nat.cast_mul num, ← mul_assoc, mul_div_mul_right _ _ (by positivity), div_div]
  have h := roundDivEven_bounds (num * 2 ^ (-f.quantum num den).toNat) _ (units_den_pos f num den hd)
  rw [hscaled, div_le_iff₀ hq, le_div_iff₀ hq, div_eq_iff hq.ne', eq_div_iff hq.ne'] at h
  exact h

/-- A fraction lies below the end of its binade. -/
theorem fraction_lt_binade_end (f : Fmt) (num den : Nat) (hn : 0 < num) (hd : 0 < den) :
    (num : ℝ) / den < ((2 ^ (f.mbits + 1) : Nat) : ℝ) * (2 : ℝ) ^ f.quantum num den := by
  refine lt_of_lt_of_le (floorLog2_spec num den hn hd).2 ?_
  push_cast
  rw [← zpow_natCast, ← zpow_add₀ (by norm_num)]
  refine zpow_le_zpow_right₀ (by norm_num) ?_
  have : floorLog2 num den - f.mbits ≤ f.quantum num den := le_max_left _ _
  push_cast; omega

/-- Above the subnormals a fraction lies at or above the start of its binade. -/
theorem binade_start_le_fraction (f : Fmt) (num den : Nat) (hn : 0 < num) (hd : 0 < den) (hb : 0 < f.binade num den) :
    ((2 ^ f.mbits : Nat) : ℝ) * (2 : ℝ) ^ f.quantum num den ≤ (num : ℝ) / den := by
  refine le_trans ?_ (floorLog2_spec num den hn hd).1
  push_cast
  rw [← zpow_natCast, ← zpow_add₀ (by norm_num)]
  refine zpow_le_zpow_right₀ (by norm_num) ?_
  unfold Fmt.binade Fmt.quantum at hb
  unfold Fmt.quantum
  omega

/-- The value of a code in a fraction's binade. -/
theorem magValue_binade (f : Fmt) (num den k : Nat) (h1 : k ≤ 2 ^ (f.mbits + 1))
    (h2 : 0 < f.binade num den → 2 ^ f.mbits ≤ k) :
    f.magValue (f.binade num den * 2 ^ f.mbits + k) = k * (2 : ℝ) ^ f.quantum num den := by
  rw [magValue_code f _ k h1 h2, quantum_eq]

/-- A fraction lies at or below the midpoint above its code: one unit away, or, at the end of the binade, beyond it. -/
theorem fraction_le_midpoint (f : Fmt) (num den : Nat) (hn : 0 < num) (hd : 0 < den) :
    (num : ℝ) / den ≤ f.midpoint (f.binade num den * 2 ^ f.mbits + f.units num den)
    ∧ ((num : ℝ) / den = f.midpoint (f.binade num den * 2 ^ f.mbits + f.units num den) → f.units num den % 2 = 0) := by
  obtain ⟨up, -, upTie, -⟩ := units_bounds f num den hd
  have hle := units_le f num den hn hd
  have hge := le_units f num den hn hd
  have hval := magValue_binade f num den _ hle hge
  rcases hle.lt_or_eq with hlt | heq
  · have hnext := magValue_binade f num den (f.units num den + 1) hlt (fun h => (hge h).trans (by omega))
    have hmid : f.midpoint (f.binade num den * 2 ^ f.mbits + f.units num den)
        = (f.units num den + 1 / 2) * (2 : ℝ) ^ f.quantum num den := by
      rw [Fmt.midpoint, hval, add_assoc, hnext]
      push_cast; ring
    rw [hmid]; exact ⟨up, upTie⟩
  · have hlt : (num : ℝ) / den < f.midpoint (f.binade num den * 2 ^ f.mbits + f.units num den) := by
      refine lt_trans ?_ (magValue_lt_midpoint f _)
      rw [hval, heq]
      exact fraction_lt_binade_end f num den hn hd
    exact ⟨hlt.le, fun t => absurd t hlt.ne⟩

/-- A fraction lies at or above the midpoint below its code: one unit away, or, at the start of the binade, beyond it. -/
theorem midpoint_le_fraction (f : Fmt) (num den : Nat) (hn : 0 < num) (hd : 0 < den) (b : Nat)
    (hb : b + 1 = f.binade num den * 2 ^ f.mbits + f.units num den) :
    f.midpoint b ≤ (num : ℝ) / den ∧ (f.midpoint b = (num : ℝ) / den → f.units num den % 2 = 0) := by
  obtain ⟨-, low, -, lowTie⟩ := units_bounds f num den hd
  have hle := units_le f num den hn hd
  have hge := le_units f num den hn hd
  have hval := magValue_binade f num den _ hle hge
  by_cases hstart : 0 < f.binade num den ∧ f.units num den = 2 ^ f.mbits
  · obtain ⟨hj, hn2⟩ := hstart
    have hgt : f.midpoint b < (num : ℝ) / den := by
      refine lt_of_lt_of_le (midpoint_lt_magValue f b) ?_
      rw [hb, hval, hn2]
      exact binade_start_le_fraction f num den hn hd hj
    exact ⟨hgt.le, fun t => absurd t hgt.ne⟩
  · have hp : 0 < 2 ^ f.mbits := by positivity
    have hpos : 1 ≤ f.units num den := by
      rcases Nat.eq_zero_or_pos (f.binade num den) with hj | hj
      · rw [hj] at hb; omega
      · exact hp.trans_le (hge hj)
    have hprev := magValue_binade f num den (f.units num den - 1) (by omega) (fun h => by have := hge h; omega)
    have hb' : b = f.binade num den * 2 ^ f.mbits + (f.units num den - 1) := by omega
    have hmid : f.midpoint b = (f.units num den - 1 / 2) * (2 : ℝ) ^ f.quantum num den := by
      rw [Fmt.midpoint, hb, hval, hb', hprev, Nat.cast_sub hpos]
      push_cast; ring
    rw [hmid]; exact ⟨low, lowTie⟩

/-- The fraction's binade and units together are its code. -/
theorem nearestCode_units (f : Fmt) (hm : 0 < f.mbits) (num den : Nat) (hn : 0 < num) (hd : 0 < den) :
    f.nearestCode ((num : ℝ) / den) (f.binade num den * 2 ^ f.mbits + f.units num den) := by
  have hparity : (f.binade num den * 2 ^ f.mbits + f.units num den) % 2 = f.units num den % 2 := by
    obtain ⟨k, hk⟩ : ∃ k, f.mbits = k + 1 := ⟨f.mbits - 1, by omega⟩
    rw [hk, pow_succ, ← mul_assoc, Nat.mul_add_mod_self_right]
  have hup := fraction_le_midpoint f num den hn hd
  have hlow := midpoint_le_fraction f num den hn hd
  exact ⟨fun b hb => (hlow b hb).1, fun b hb t => hparity ▸ (hlow b hb).2 t, hup.1, fun t => hparity ▸ hup.2 t⟩

/-- `roundMag` answers the fraction's code, or infinity's where there is no such finite one. -/
theorem roundMag_nearestCode (f : Fmt) (hm : 0 < f.mbits) (num den : Nat) (hn : 0 < num) (hd : 0 < den) :
    ∃ c, f.nearestCode ((num : ℝ) / den) c ∧ f.roundMag num den = min c f.infCode :=
  ⟨_, nearestCode_units f hm num den hn hd, roundMag_eq f num den hn⟩

/-- A finite answer of `roundMag` is the fraction's code. -/
theorem nearestCode_roundMag {f : Fmt} (hm : 0 < f.mbits) {num den : Nat} (hn : 0 < num) (hd : 0 < den)
    (hfin : f.roundMag num den < f.infCode) : f.nearestCode ((num : ℝ) / den) (f.roundMag num den) := by
  obtain ⟨c, hc, e⟩ := roundMag_nearestCode f hm num den hn hd
  have : f.roundMag num den = c := by omega
  rw [this]; exact hc

/-- Settles O57: a fraction lies between the midpoints on either side of its code, and `roundMag` answers that code. -/
theorem roundingIsNearestEven : Obligations.RoundingIsNearestEven := by
  intro f hf num den hn hd
  obtain ⟨he, hm⟩ := formats_pos hf
  refine ⟨fun hfin => (nearestCode_roundMag hm hn hd hfin).isNearest hfin, roundMag_le_infCode f num den, ?_⟩
  obtain ⟨c, hc, e⟩ := roundMag_nearestCode f hm num den hn hd
  have hiff := hc.lt_infCode_iff he hm
  have hinf : f.roundMag num den = f.infCode ↔ ¬ c < f.infCode := by omega
  rw [hinf, hiff, not_lt, Fmt.overflow]

/-! ## Legal rates -/

/-- The comparison `a ≤ b` of finite data is that of their values (R16). -/
theorem Fp.le_iff {a b : Fp} (ha : a.isFinite = true) (hb : b.isFinite = true) : a.le b = true ↔ a.toReal ≤ b.toReal := by
  have hnan : ∀ x : Fp, x.isFinite = true → x.isNaN = false := by
    intro x hx
    cases x <;> simp_all [Fp.isFinite, Fp.isNaN]
  rw [← Fp.not_lt_iff hb ha]
  simp [Fp.le, hnan a ha, hnan b hb]

/-- Settles O25: the two comparisons of the check are those of real values. -/
theorem legalRates : Obligations.LegalRates := by
  intro w
  have hmin : (ofF32 FS_MIN).isFinite = true := by decide +kernel
  have hmax : (ofF32 FS_MAX).isFinite = true := by decide +kernel
  rw [legalRate, Bool.and_eq_true, Bool.and_eq_true, and_assoc, finiteWord]
  refine and_congr_right fun hw => ?_
  rw [Fp.le_iff hmin hw, Fp.le_iff hw hmax, toReal_FS_MIN, toReal_FS_MAX]

end Sys2Proof.Machine
end

section
/-! PROOFS. The basic operations (spec/00_scope.md R13): a non-zero exact result is rounded once, and zeros, infinities and
NaNs answer as IEEE 754 has them. -/

namespace Sys2Proof.Machine

/-! ## Rounding a signed real number -/

/-- The datum of a non-zero number's code, or the infinity of its sign, is its rounding. -/
theorem Fmt.nearestCode.isRn {f : Fmt} (he : 0 < f.ebits) (hm : 0 < f.mbits) {v : ℝ} {c : Nat}
    (h : f.nearestCode |v| c) : Fp.isRn f v (Fp.ofMag f (decide (v < 0)) (min c f.infCode)) := by
  have hiff := h.lt_infCode_iff he hm
  refine ⟨fun hv => ⟨c, h.isNearest (hiff.mpr hv), ?_⟩, fun hv => ?_⟩
  · rw [min_eq_left (hiff.mpr hv).le]
  · rw [min_eq_right (not_lt.mp (hiff.not.mpr (not_lt.mpr hv)))]
    simp [Fp.ofMag]

/-- A rounded fraction that is not zero has its sign and its magnitude apart. -/
theorem Fmt.rounds.sign_mag {f : Fmt} {v : ℝ} {r : Fp} (h : f.rounds v r) (hv : v ≠ 0) :
    ∃ num den : Nat, 0 < num ∧ 0 < den ∧ |v| = (num : ℝ) / den ∧ r = Fp.round f (decide (v < 0)) num den := by
  obtain ⟨s, num, den, hd, rfl, rfl⟩ := h
  have hn : 0 < num := Nat.pos_of_ne_zero (by rintro rfl; simp at hv)
  have hpos : (0 : ℝ) < (num : ℝ) / den := by positivity
  refine ⟨num, den, hn, hd, ?_, ?_⟩
  · rw [abs_mul, abs_of_pos hpos]; cases s <;> simp
  · cases s <;> simp [hpos, hpos.not_gt]

theorem Fmt.rounds.isRn {f : Fmt} (he : 0 < f.ebits) (hm : 0 < f.mbits) {v : ℝ} {r : Fp} (h : f.rounds v r)
    (hv : v ≠ 0) : Fp.isRn f v r := by
  obtain ⟨num, den, hn, hd, habs, rfl⟩ := h.sign_mag hv
  obtain ⟨c, hc, e⟩ := roundMag_nearestCode f hm num den hn hd
  rw [Fp.round, e]
  exact Fmt.nearestCode.isRn he hm (habs ▸ hc)

/-! ## Square roots -/

/-- Midpoints of codes above `2 ^ d` times twice the precision are whole multiples of `2 ^ d`. -/
theorem midpoint_multiple (f : Fmt) (c : Nat) (d : Int) (h : (2 : ℝ) ^ (f.mbits + 1) * (2 : ℝ) ^ d < f.magValue (c + 1)) :
    ∃ z : Int, f.midpoint c = z * (2 : ℝ) ^ d := by
  set e := (f.unpackMag c).2 with he
  have hm : ((f.unpackMag c).1 : ℝ) + 1 ≤ (2 : ℝ) ^ (f.mbits + 1) := by exact_mod_cast unpackMag_lt f c
  rw [magValue_succ, ← he] at h
  have hlt : (2 : ℝ) ^ d < (2 : ℝ) ^ e := by
    refine lt_of_mul_lt_mul_left (lt_of_lt_of_le h ?_) (by positivity)
    gcongr
  have hde : d < e := (zpow_lt_zpow_iff_right₀ (by norm_num)).mp hlt
  obtain ⟨k, hk⟩ : ∃ k : Nat, e = d + (k + 1 : Nat) := ⟨(e - d - 1).toNat, by omega⟩
  refine ⟨(2 * (f.unpackMag c).1 + 1) * 2 ^ k, ?_⟩
  rw [Fmt.midpoint, magValue_succ, Fmt.magValue, ← he, hk, zpow_add₀ (by norm_num), zpow_natCast, pow_succ]
  push_cast; ring

/-- No code's boundary lies within a gap of `2 ^ d` far above `2 ^ d`: its numbers have one code. -/
theorem Fmt.nearestCode.of_gap {f : Fmt} {v w : ℝ} {c r : Nat} {d : Int} (h : f.nearestCode w c)
    (hr : 2 ^ (f.mbits + 3) ≤ r) (hv1 : r * (2 : ℝ) ^ d < v) (hv2 : v < (r + 1) * (2 : ℝ) ^ d)
    (hw1 : r * (2 : ℝ) ^ d < w) (hw2 : w < (r + 1) * (2 : ℝ) ^ d) : f.nearestCode v c := by
  have hd : (0 : ℝ) < (2 : ℝ) ^ d := by positivity
  have hlarge : 4 * ((2 : ℝ) ^ (f.mbits + 1) * (2 : ℝ) ^ d) < w := by
    refine lt_of_le_of_lt ?_ hw1
    have : ((2 : ℝ) ^ (f.mbits + 3)) ≤ r := by exact_mod_cast hr
    calc 4 * ((2 : ℝ) ^ (f.mbits + 1) * (2 : ℝ) ^ d) = (2 : ℝ) ^ (f.mbits + 3) * (2 : ℝ) ^ d := by ring
      _ ≤ r * (2 : ℝ) ^ d := by gcongr
  have hbig : 0 < (2 : ℝ) ^ (f.mbits + 1) * (2 : ℝ) ^ d := by positivity
  -- a boundary that is a multiple of the gap lies at or beyond one of its ends
  have side : ∀ k : Nat, (2 : ℝ) ^ (f.mbits + 1) * (2 : ℝ) ^ d < f.magValue (k + 1) →
      f.midpoint k ≤ r * (2 : ℝ) ^ d ∨ (r + 1) * (2 : ℝ) ^ d ≤ f.midpoint k := by
    intro k hk
    obtain ⟨z, hz⟩ := midpoint_multiple f k d hk
    rw [hz]
    rcases le_or_gt z r with hzr | hzr
    · left; gcongr; exact_mod_cast hzr
    · right; gcongr; exact_mod_cast hzr
  have hup : v < f.midpoint c := by
    have hk : (2 : ℝ) ^ (f.mbits + 1) * (2 : ℝ) ^ d < f.magValue (c + 1) := by
      linarith [h.upper, midpoint_lt_magValue f c]
    rcases side c hk with hs | hs
    · linarith [h.upper]
    · linarith
  have hlow : ∀ b, b + 1 = c → f.midpoint b < v := by
    rintro b rfl
    have hk : (2 : ℝ) ^ (f.mbits + 1) * (2 : ℝ) ^ d < f.magValue (b + 1) := by
      linarith [h.upper, midpoint_lt_magValue f (b + 1), magValue_succ_le f (b + 1) (by omega)]
    rcases side b hk with hs | hs
    · linarith
    · linarith [h.lower b rfl]
  exact ⟨fun b hb => (hlow b hb).le, fun b hb t => absurd t (hlow b hb).ne, hup.le, fun t => absurd t hup.ne⟩

/-- The root of the scaled significand that `Fp.sqrt` works on. -/
theorem sqrt_scaled (m : Nat) (e : Int) (k : Nat) :
    let odd := (e % 2).toNat
    Real.sqrt (m * (2 : ℝ) ^ e) = Real.sqrt ((m * 2 ^ (2 * k + odd) : Nat) : ℝ) * (2 : ℝ) ^ ((e - odd) / 2 - k) := by
  intro odd
  have he : e = ((2 * k + odd : Nat) : Int) + ((e - odd) / 2 - k) * 2 := by push_cast; omega
  rw [← Real.sqrt_sq (show 0 ≤ (2 : ℝ) ^ ((e - odd) / 2 - k) by positivity), ← Real.sqrt_mul (by positivity)]
  congr 1
  conv_lhs => rw [he, zpow_add₀ (by norm_num), zpow_natCast, zpow_mul]
  push_cast
  rw [mul_assoc]
  norm_cast

/-- The integer root of a number with at least `2 k` binary digits after the first. -/
theorem le_isqrt (n k : Nat) (h : 2 ^ (2 * k) ≤ n) : 2 ^ k ≤ Fp.isqrt n := by
  have hs := (isqrt_spec n).2
  rw [two_mul, pow_add] at h
  by_contra hlt
  nlinarith

/-- A root that is no whole number lies strictly between two. -/
theorem isqrt_lt_sqrt (n : Nat) (h : Fp.isqrt n * Fp.isqrt n ≠ n) :
    (Fp.isqrt n : ℝ) < Real.sqrt n ∧ Real.sqrt n < Fp.isqrt n + 1 := by
  obtain ⟨s1, s2⟩ := isqrt_spec n
  constructor
  · rw [Real.lt_sqrt (by positivity), sq]
    exact_mod_cast lt_of_le_of_ne s1 h
  · rw [Real.sqrt_lt' (by positivity), sq]
    exact_mod_cast s2

/-- The square root of a positive datum is the exact root rounded once. -/
theorem isRn_sqrt (f : Fmt) (he : 0 < f.ebits) (hm : 0 < f.mbits) (a : Fp) (ha : 0 < a.toReal) :
    Fp.isRn f (Real.sqrt a.toReal) (Fp.sqrt f a) := by
  obtain ⟨m, e, hm0, rfl, hv⟩ : ∃ m e, 0 < m ∧ a = .fin false m e ∧ a.toReal = m * (2 : ℝ) ^ e :=
    positive_fin ⟨by cases a <;> simp_all [Fp.toReal, Fp.isFinite], le_rfl, le_rfl⟩ ha
  have hpos := Real.sqrt_pos.mpr ha
  have hroot := sqrt_scaled m e (f.mbits + 3)
  simp only [Fp.sqrt, if_neg hm0.ne', Bool.false_eq_true, if_false]
  rw [hv] at hpos ⊢
  set v := Real.sqrt (m * (2 : ℝ) ^ e)
  set odd := (e % 2).toNat
  set n := m * 2 ^ (2 * (f.mbits + 3) + odd) with hn
  set r := Fp.isqrt n
  set d : Int := (e - odd) / 2 - (f.mbits + 3 : Nat) with hd
  have hroot : v = Real.sqrt n * (2 : ℝ) ^ d := hroot
  have hhalf : (2 : ℝ) ^ d = 2 * (2 : ℝ) ^ (d - 1) := by
    rw [zpow_sub_one₀ (by norm_num)]; ring
  by_cases hsq : r * r = n
  · rw [if_pos hsq]
    refine Fmt.rounds.isRn he hm ⟨false, _, _, fraction_den_pos _ _, ?_, rfl⟩ hpos.ne'
    rw [fraction_value, hroot, ← hsq, hhalf, Nat.cast_mul, Real.sqrt_mul_self (by positivity)]
    push_cast; simp; ring
  · rw [if_neg hsq]
    obtain ⟨c, hc, ec⟩ := roundMag_nearestCode f hm (fraction (2 * r + 1) (d - 1)).1 _
      (fraction_fst_pos _ _ (by omega)) (fraction_den_pos _ _)
    have hw : ((2 * r + 1 : Nat) : ℝ) * (2 : ℝ) ^ (d - 1) = (r + 1 / 2) * (2 : ℝ) ^ d := by
      rw [hhalf]; push_cast; ring
    rw [fraction_value, hw] at hc
    have hr : 2 ^ (f.mbits + 3) ≤ r := le_isqrt n _ <| by
      rw [hn, pow_add]
      calc 2 ^ (2 * (f.mbits + 3)) = 1 * (2 ^ (2 * (f.mbits + 3)) * 1) := by ring
        _ ≤ m * (2 ^ (2 * (f.mbits + 3)) * 2 ^ odd) := by gcongr <;> [exact hm0; exact Nat.one_le_two_pow]
    obtain ⟨hlow, hhigh⟩ := isqrt_lt_sqrt n hsq
    have hcode : f.nearestCode v c :=
      hc.of_gap (d := d) hr (by rw [hroot]; gcongr) (by rw [hroot]; gcongr) (by gcongr; linarith) (by gcongr; linarith)
    rw [← abs_of_pos hpos] at hcode
    have := hcode.isRn he hm
    rwa [decide_eq_false hpos.not_gt, ← ec] at this

/-! ## Zeros -/

theorem toReal_fin_eq_zero (s : Bool) (m : Nat) (e : Int) : (Fp.fin s m e).toReal = 0 ↔ m = 0 := by
  have : (2 : ℝ) ^ e ≠ 0 := by positivity
  cases s <;> simp [Fp.toReal, this]

theorem toReal_fin_neg (s : Bool) (m : Nat) (e : Int) (h : (Fp.fin s m e).toReal < 0) : s = true ∧ m ≠ 0 := by
  refine ⟨?_, fun h0 => h.ne ((toReal_fin_eq_zero s m e).mpr h0)⟩
  cases s with
  | true => rfl
  | false =>
    have : (0 : ℝ) ≤ m * (2 : ℝ) ^ e := by positivity
    simp only [Fp.toReal, Bool.false_eq_true, if_false, one_mul] at h
    linarith

theorem round_zero (f : Fmt) (he : 0 < f.ebits) (s : Bool) (den : Nat) : Fp.round f s 0 den = .fin s 0 f.qmin := by
  simp [Fp.round, roundMag_zero, Fp.ofMag, f.infCode_pos he, Fmt.unpackMag]

/-- An exact zero sum is `+0` unless both operands are negative. -/
theorem add_eq_zero (f : Fmt) {a b : Fp} (ha : a.isFinite = true) (hb : b.isFinite = true)
    (h : a.toReal + b.toReal = 0) : Fp.add f a b = .fin (a.sign && b.sign) 0 f.qmin := by
  cases a <;> cases b <;> simp only [Fp.isFinite, Bool.false_eq_true] at ha hb
  case fin.fin s m e t n d =>
    rw [← aligned_value s m e (Min.min e d) (min_le_left _ _), ← aligned_value t n d (Min.min e d) (min_le_right _ _),
      ← add_mul, mul_eq_zero_iff_right (by positivity)] at h
    have hsum : Fp.aligned s m e (Min.min e d) + Fp.aligned t n d (Min.min e d) = 0 := by exact_mod_cast h
    simp [Fp.add, Fp.sign, hsum]

theorem Fp.sign_neg {a : Fp} (ha : a.isFinite = true) : a.neg.sign = !a.sign := by
  cases a <;> simp_all [Fp.isFinite, Fp.neg, Fp.sign]

/-- An exact zero product has the operands' signs combined. -/
theorem mul_eq_zero_sign (f : Fmt) (he : 0 < f.ebits) {a b : Fp} (ha : a.isFinite = true) (hb : b.isFinite = true)
    (h : a.toReal * b.toReal = 0) : Fp.mul f a b = .fin (a.sign != b.sign) 0 f.qmin := by
  cases a <;> cases b <;> simp only [Fp.isFinite, Bool.false_eq_true] at ha hb
  case fin.fin s m e t n d =>
    rw [mul_eq_zero, toReal_fin_eq_zero, toReal_fin_eq_zero, ← Nat.mul_eq_zero] at h
    simp [Fp.mul, Fp.sign, fraction, h, round_zero f he]

/-- A quotient whose dividend or divisor is a zero. -/
theorem div_zeros (f : Fmt) (he : 0 < f.ebits) {a b : Fp} (ha : a.isFinite = true) (hb : b.isFinite = true) :
    (a.toReal = 0 → b.toReal ≠ 0 → Fp.div f a b = .fin (a.sign != b.sign) 0 f.qmin)
    ∧ (a.toReal ≠ 0 → b.toReal = 0 → Fp.div f a b = .inf (a.sign != b.sign))
    ∧ (a.toReal = 0 → b.toReal = 0 → Fp.div f a b = .nan) := by
  cases a <;> cases b <;> simp only [Fp.isFinite, Bool.false_eq_true] at ha hb
  case fin.fin s m e t n d =>
    simp only [ne_eq, toReal_fin_eq_zero, Fp.div, Fp.sign]
    refine ⟨fun h1 h2 => ?_, fun h1 h2 => ?_, fun h1 h2 => ?_⟩
    · simp [h1, h2, fraction, round_zero f he]
    · simp [h1, h2]
    · simp [h1, h2]

/-- The square root of a zero is that zero, and of a negative number a NaN. -/
theorem sqrt_nonpos (f : Fmt) {a : Fp} (ha : a.isFinite = true) :
    (a.toReal = 0 → Fp.sqrt f a = .fin a.sign 0 f.qmin) ∧ (a.toReal < 0 → Fp.sqrt f a = .nan) := by
  cases a <;> simp only [Fp.isFinite, Bool.false_eq_true] at ha
  case fin s m e =>
    refine ⟨fun h => ?_, fun h => ?_⟩
    · rw [toReal_fin_eq_zero] at h
      simp [Fp.sqrt, Fp.sign, h]
    · obtain ⟨hs, hm⟩ := toReal_fin_neg s m e h
      simp [Fp.sqrt, hs, hm]

/-! ## Infinities and NaNs -/

/-- Operations on one infinity and one finite datum. -/
theorem inf_fin_ops (f : Fmt) {a : Fp} (s : Bool) (ha : a.isFinite = true) :
    Fp.add f (.inf s) a = .inf s ∧ Fp.add f a (.inf s) = .inf s
    ∧ Fp.sub f (.inf s) a = .inf s ∧ Fp.sub f a (.inf s) = .inf (!s)
    ∧ Fp.mul f (.inf s) a = (if a.toReal = 0 then .nan else .inf (s != a.sign))
    ∧ Fp.mul f a (.inf s) = (if a.toReal = 0 then .nan else .inf (a.sign != s))
    ∧ Fp.div f (.inf s) a = .inf (s != a.sign) ∧ Fp.div f a (.inf s) = .fin (a.sign != s) 0 f.qmin := by
  cases a <;> simp only [Fp.isFinite, Bool.false_eq_true] at ha
  case fin t m e => simp [toReal_fin_eq_zero, Fp.add, Fp.sub, Fp.neg, Fp.mul, Fp.div, Fp.sign]

/-- Operations on infinities alone. -/
theorem inf_inf_ops (f : Fmt) (s t : Bool) :
    Fp.add f (.inf s) (.inf t) = (if s = t then .inf s else .nan)
    ∧ Fp.sub f (.inf s) (.inf t) = (if s = t then .nan else .inf s)
    ∧ Fp.mul f (.inf s) (.inf t) = .inf (s != t) ∧ Fp.div f (.inf s) (.inf t) = .nan
    ∧ Fp.sqrt f (.inf s) = (if s then .nan else .inf false) ∧ (Fp.inf s).neg = .inf (!s) := by
  refine ⟨rfl, ?_, rfl, rfl, rfl, rfl⟩
  cases s <;> cases t <;> rfl

/-- A NaN operand makes a NaN. -/
theorem nan_ops (f : Fmt) {a b : Fp} (h : a.isNaN = true ∨ b.isNaN = true) :
    Fp.add f a b = .nan ∧ Fp.sub f a b = .nan ∧ Fp.mul f a b = .nan ∧ Fp.div f a b = .nan := by
  rcases h with h | h
  · obtain rfl : a = .nan := by cases a <;> simp_all [Fp.isNaN]
    exact ⟨rfl, rfl, rfl, rfl⟩
  · obtain rfl : b = .nan := by cases b <;> simp_all [Fp.isNaN]
    cases a <;> exact ⟨rfl, rfl, rfl, rfl⟩

/-- Settles O58: every operation rounds its exact result once, and the special operands are taken apart one by one. -/
theorem basicOperationsCorrectlyRounded : Obligations.BasicOperationsCorrectlyRounded := by
  intro f hf
  obtain ⟨he, hm⟩ := formats_pos hf
  have hinf := f.infCode_pos he
  refine ⟨fun a b ha hb => ?_, fun a s ha => inf_fin_ops f s ha, inf_inf_ops f, fun a b h => nan_ops f h, rfl, rfl⟩
  obtain ⟨div1, div2, div3⟩ := div_zeros f he ha hb
  obtain ⟨sqrt1, sqrt2⟩ := sqrt_nonpos f ha
  refine ⟨(rounds_add f hinf a b ha hb).isRn he hm, (rounds_sub f hinf a b ha hb).isRn he hm,
    (rounds_mul f a b ha hb).isRn he hm,
    fun h1 h2 => (rounds_div f a b ha hb h2).isRn he hm (div_ne_zero h1 h2), isRn_sqrt f he hm a,
    add_eq_zero f ha hb, fun h => ?_, mul_eq_zero_sign f he ha hb, div1, div2, div3, sqrt1, sqrt2,
    Fp.toReal_neg a, Fp.sign_neg ha, (Fp.isFinite_neg a).trans ha⟩
  rw [← Fp.sign_neg hb]
  exact add_eq_zero f ha ((Fp.isFinite_neg b).trans hb) (by rw [Fp.toReal_neg, ← sub_eq_add_neg]; exact h)

end Sys2Proof.Machine
end

section
/-! PROOFS. The elementary functions (spec/00_scope.md R14): where a working precision decides, both ends of an enclosure of
the exact result have one code, and so has the exact result (notes/assumptions/5.md). -/

namespace Sys2Proof.Machine

/-! ## Decided enclosures -/

/-- A number between two fractions that round to one finite code has that code as its nearest. -/
theorem isNearest_of_bracket {f : Fmt} (hm : 0 < f.mbits) {lo hi den : Nat} {v : ℝ} (hlo : 0 < lo) (hd : 0 < den)
    (h1 : (lo : ℝ) / den ≤ v) (h2 : v ≤ (hi : ℝ) / den) (heq : f.roundMag lo den = f.roundMag hi den)
    (hfin : f.roundMag lo den < f.infCode) : f.isNearest v (f.roundMag lo den) := by
  have hd' : (0 : ℝ) < den := by exact_mod_cast hd
  have hle : lo ≤ hi := by exact_mod_cast (div_le_div_iff_of_pos_right hd').mp (h1.trans h2)
  have c1 := nearestCode_roundMag hm hlo hd hfin
  have c2 := nearestCode_roundMag hm (hlo.trans_le hle) hd (heq ▸ hfin)
  exact (c1.between (heq ▸ c2) h1 h2).isNearest hfin

/-- What an enclosure can decide on: the one datum that both its ends round to, of their common sign. -/
theorem Encl.rounded_cases {f : Fmt} {x : Encl} {r : Fp} (h : x.rounded f = some r) :
    (0 < x.lo ∧ f.roundMag x.lo.toNat x.den = f.roundMag x.hi.toNat x.den
      ∧ r = Fp.ofMag f false (f.roundMag x.lo.toNat x.den))
    ∨ (x.hi < 0 ∧ f.roundMag (-x.hi).toNat x.den = f.roundMag (-x.lo).toNat x.den
      ∧ r = Fp.ofMag f true (f.roundMag (-x.hi).toNat x.den)) := by
  unfold Encl.rounded at h
  split at h
  · rename_i hlo
    simp only [Option.ite_none_right_eq_some, Option.some.injEq] at h
    exact Or.inl ⟨hlo, h.1, h.2.symm⟩
  · split at h
    · rename_i hhi
      simp only [Option.ite_none_right_eq_some, Option.some.injEq] at h
      exact Or.inr ⟨hhi, h.1, h.2.symm⟩
    · simp at h

/-- The datum that an enclosure decides on is, if finite, the rounding of the number it holds, which is not zero. -/
theorem Encl.rounded_isRounding {f : Fmt} (hm : 0 < f.mbits) {x : Encl} {v : ℝ} {r : Fp} (hx : x.holds v)
    (hr : x.rounded f = some r) : v ≠ 0 ∧ (r.isFinite = true → Fp.isRounding f v r) := by
  obtain ⟨hd, h1, h2⟩ := hx
  have hd' : (0 : ℝ) < x.den := by exact_mod_cast hd
  have hle : x.lo ≤ x.hi := by exact_mod_cast (div_le_div_iff_of_pos_right hd').mp (h1.trans h2)
  have cast : ∀ z : Int, 0 < z → ((z.toNat : Nat) : ℝ) = z := fun z hz => by
    exact_mod_cast Int.toNat_of_nonneg hz.le
  rcases Encl.rounded_cases hr with ⟨hlo, heq, rfl⟩ | ⟨hhi, heq, rfl⟩
  · have hv : 0 < v := lt_of_lt_of_le (div_pos (by exact_mod_cast hlo) hd') h1
    refine ⟨hv.ne', fun hfin => ⟨_, ?_, by rw [decide_eq_false hv.not_gt]⟩⟩
    rw [Fp.isFinite_ofMag, decide_eq_true_eq] at hfin
    rw [abs_of_pos hv]
    refine isNearest_of_bracket hm (by omega) hd ?_ ?_ heq hfin
    · rw [cast _ hlo]; exact h1
    · rw [cast _ (by omega)]; exact h2
  · have hv : v < 0 := lt_of_le_of_lt h2 (div_neg_of_neg_of_pos (by exact_mod_cast hhi) hd')
    refine ⟨hv.ne, fun hfin => ⟨_, ?_, by rw [decide_eq_true hv]⟩⟩
    rw [Fp.isFinite_ofMag, decide_eq_true_eq] at hfin
    rw [abs_of_neg hv]
    refine isNearest_of_bracket hm (by omega) hd ?_ ?_ heq hfin
    · rw [cast _ (by omega), Int.cast_neg, neg_div]; linarith
    · rw [cast _ (by omega), Int.cast_neg, neg_div]; linarith

theorem roundMag_one_lt {f : Fmt} (hf : f ∈ [f32, f64]) : f.roundMag 1 1 < f.infCode := by
  revert f; decide

/-- An enclosure between -1 and 1 decides on a finite datum. -/
theorem Encl.rounded_isFinite {f : Fmt} (hf : f ∈ [f32, f64]) {x : Encl} {r : Fp} (hd : 0 < x.den)
    (h1 : -(x.den : Int) ≤ x.lo) (h2 : x.hi ≤ x.den) (hr : x.rounded f = some r) : r.isFinite = true := by
  have hle : ∀ z : Int, z ≤ x.den → f.roundMag z.toNat x.den < f.infCode := fun z hz =>
    (roundMag_mono f _ _ 1 1 hd one_pos (by omega)).trans_lt (roundMag_one_lt hf)
  rcases Encl.rounded_cases hr with ⟨-, heq, rfl⟩ | ⟨-, heq, rfl⟩
  · rw [heq]; simpa using hle _ h2
  · rw [heq]; simpa using hle _ (by omega)

/-- Refinement answers what the first precision that decides does. -/
theorem refine_eq_rounded (f : Fmt) (upper : Bool) (encl : Nat → Encl) : ∀ fuel p,
    (∃ i, i < fuel ∧ ((encl (p * 2 ^ i)).rounded f).isSome = true) →
    ∃ q, (encl q).rounded f = some (refine f upper encl fuel p) := by
  intro fuel
  induction fuel with
  | zero => rintro p ⟨i, hi, -⟩; omega
  | succ fuel ih =>
    rintro p ⟨i, hi, hsome⟩
    rw [refine]
    cases hp : (encl p).rounded f with
    | some r => exact ⟨p, hp⟩
    | none =>
      cases i with
      | zero => rw [pow_zero, mul_one, hp] at hsome; simp at hsome
      | succ i => exact ih (2 * p) ⟨i, by omega, by rwa [show 2 * p * 2 ^ i = p * 2 ^ (i + 1) by ring]⟩

/-- Where a working precision decides, a finite result of refinement is the enclosed number rounded once. -/
theorem refine_isRounding {f : Fmt} (hm : 0 < f.mbits) (upper : Bool) {encl : Nat → Encl} {v : ℝ}
    (hold : ∀ p, encl p = Encl.undecided ∨ (encl p).holds v) (hdec : decides f encl) :
    v ≠ 0 ∧ ((refine f upper encl refineFuel (basePrecision f)).isFinite = true →
      Fp.isRounding f v (refine f upper encl refineFuel (basePrecision f))) := by
  obtain ⟨q, hq⟩ := refine_eq_rounded f upper encl _ _ hdec
  rcases hold q with hu | hh
  · rw [hu] at hq; simp [Encl.rounded, Encl.undecided] at hq
  · exact Encl.rounded_isRounding hm hh hq

/-- Where enclosures between -1 and 1 decide, the result of refinement is finite. -/
theorem refine_isFinite {f : Fmt} (hf : f ∈ [f32, f64]) (upper : Bool) {encl : Nat → Encl}
    (h : ∀ p, 0 < (encl p).den ∧ -((encl p).den : Int) ≤ (encl p).lo ∧ (encl p).hi ≤ (encl p).den)
    (hdec : decides f encl) : (refine f upper encl refineFuel (basePrecision f)).isFinite = true := by
  obtain ⟨q, hq⟩ := refine_eq_rounded f upper encl _ _ hdec
  obtain ⟨hd, h1, h2⟩ := h q
  exact Encl.rounded_isFinite hf hd h1 h2 hq

/-! ## Sine, cosine and tangent -/

/-- Rounding is symmetric about zero. -/
theorem Fp.isRounding.neg {f : Fmt} {v : ℝ} {r : Fp} (h : Fp.isRounding f v r) (hv : v ≠ 0) : Fp.isRounding f (-v) r.neg := by
  obtain ⟨mag, hn, rfl⟩ := h
  refine ⟨mag, by rwa [abs_neg], ?_⟩
  have hs : decide (-v < 0) = !decide (v < 0) := by
    rcases lt_or_gt_of_ne hv with h | h <;> simp [h, h.le]
  rw [hs, Fp.ofMag, Fp.ofMag]
  split <;> rfl

theorem toReal_fin (s : Bool) (m : Nat) (e : Int) :
    (Fp.fin s m e).toReal = if s then -(m * (2 : ℝ) ^ e) else m * (2 : ℝ) ^ e := by
  cases s <;> simp [Fp.toReal]

/-- An odd function's rounding, taken at the magnitude and given the argument's sign. -/
theorem isRounding_odd {f : Fmt} {g : ℝ → ℝ} (hg : ∀ x, g (-x) = -g x) (s : Bool) (m : Nat) (e : Int) {r : Fp}
    (h : Fp.isRounding f (g (m * (2 : ℝ) ^ e)) r) (h0 : g (m * (2 : ℝ) ^ e) ≠ 0) :
    Fp.isRounding f (g (Fp.fin s m e).toReal) (if s then r.neg else r) := by
  rw [toReal_fin]
  cases s with
  | false => simpa using h
  | true => simpa [hg] using h.neg h0

/-- The enclosures of cosine and sine lie between -1 and 1. -/
theorem toEncl_unit_bounds (p : Nat) (a : Ival) : 0 < ((a.unit p).toEncl p).den
    ∧ -(((a.unit p).toEncl p).den : Int) ≤ ((a.unit p).toEncl p).lo
    ∧ ((a.unit p).toEncl p).hi ≤ ((a.unit p).toEncl p).den :=
  ⟨Nat.two_pow_pos p, le_max_right _ _, min_le_right _ _⟩

/-- Settles O59: where a precision decides, the enclosed sine, cosine or tangent is rounded once; sine and tangent are odd
and cosine is even, so the argument's sign is put on last. -/
theorem trigonometryCorrectlyRounded : Obligations.TrigonometryCorrectlyRounded := by
  intro f hf s m e hm0
  obtain ⟨-, hm⟩ := formats_pos hf
  refine ⟨fun hdec => ?_, fun hdec => ?_, fun hdec hfin => ?_⟩
  · obtain ⟨-, hr⟩ := refine_isRounding hm (Config.undecided 0 m e) (fun p => Or.inr (cosEncl_holds m e p hm0)) hdec
    have heven : Real.cos (Fp.fin s m e).toReal = Real.cos (m * (2 : ℝ) ^ e) := by
      rw [toReal_fin]; cases s <;> simp
    rw [heven, Fp.cos, if_neg hm0.ne']
    exact hr (refine_isFinite hf _ (fun p => toEncl_unit_bounds _ _) hdec)
  · obtain ⟨h0, hr⟩ := refine_isRounding hm (Config.undecided 1 m e) (fun p => Or.inr (sinEncl_holds m e p hm0)) hdec
    rw [Fp.sin, if_neg hm0.ne']
    exact isRounding_odd Real.sin_neg s m e (hr (refine_isFinite hf _ (fun p => toEncl_unit_bounds _ _) hdec)) h0
  · obtain ⟨h0, hr⟩ := refine_isRounding hm (Config.undecided 2 m e) (fun p => tanEncl_holds m e p hm0) hdec
    rw [Fp.tan, if_neg hm0.ne'] at hfin ⊢
    refine isRounding_odd Real.tan_neg s m e (hr ?_) h0
    cases s <;> simpa using hfin

/-! ## Logarithm and power of ten -/

/-- A datum is 1 exactly where its fraction's terms are equal. -/
theorem fraction_eq_iff (m : Nat) (e : Int) : (fraction m e).1 = (fraction m e).2 ↔ (Fp.fin false m e).toReal = 1 := by
  have hd : ((fraction m e).2 : ℝ) ≠ 0 := by exact_mod_cast (fraction_den_pos m e).ne'
  rw [toReal_fin, if_neg (by simp), ← fraction_value, div_eq_one_iff_eq hd]
  exact_mod_cast Iff.rfl

/-- The logarithm's enclosure holds the logarithm of the datum. -/
theorem log10Encl_holds_datum (m : Nat) (e : Int) (hm0 : 0 < m) (p : Nat) :
    log10Encl (e + log10Shift m) m (2 ^ log10Shift m) p = Encl.undecided
    ∨ (log10Encl (e + log10Shift m) m (2 ^ log10Shift m) p).holds (Real.logb 10 (Fp.fin false m e).toReal) := by
  obtain ⟨l1, l2⟩ := log2_bounds m hm0
  have hshift : 2 ^ log10Shift m ≤ 3 * m ∧ m ≤ 3 * 2 ^ log10Shift m := by
    unfold log10Shift
    rw [pow_succ] at l2
    split
    · rw [pow_succ]; omega
    · omega
  have hval : (2 : ℝ) ^ (e + log10Shift m) * ((m : ℝ) / ((2 ^ log10Shift m : Nat) : ℝ)) = (Fp.fin false m e).toReal := by
    rw [toReal_fin, if_neg (by simp), zpow_add₀ (by norm_num), zpow_natCast]
    push_cast
    field_simp
  rw [← hval]
  exact log10Encl_holds _ _ _ p (by positivity) hshift.1 hshift.2

/-- Below -400 the power of ten is less than half the least positive datum of either format. -/
theorem rpow_ten_lt_midpoint {f : Fmt} (hf : f ∈ [f32, f64]) {x : ℝ} (hx : x < -400) : (10 : ℝ) ^ x < f.midpoint 0 := by
  have hq : -1074 ≤ f.qmin := by revert f; decide
  have hmid : f.midpoint 0 = (2 : ℝ) ^ (f.qmin - 1) := by
    have : (f.unpackMag 0) = (0, f.qmin) := by simp [Fmt.unpackMag]
    rw [Fmt.midpoint, magValue_succ, this, magValue_zero, zpow_sub_one₀ (by norm_num)]
    push_cast; ring
  calc (10 : ℝ) ^ x < (10 : ℝ) ^ (-400 : ℝ) := Real.rpow_lt_rpow_of_exponent_lt (by norm_num) hx
    _ = ((10 : ℝ) ^ 400)⁻¹ := by
      rw [Real.rpow_neg (by norm_num)]; norm_cast
    _ ≤ ((2 : ℝ) ^ 1075)⁻¹ := by
      gcongr ?_⁻¹
      calc (2 : ℝ) ^ 1075 = (2 ^ 43) ^ 25 := by rw [← pow_mul]
        _ ≤ (10 ^ 16) ^ 25 := by gcongr; norm_num
        _ = 10 ^ 400 := by rw [← pow_mul]
    _ = (2 : ℝ) ^ (-1075 : Int) := by rw [zpow_neg]; norm_cast
    _ ≤ f.midpoint 0 := by rw [hmid]; exact zpow_le_zpow_right₀ (by norm_num) (by omega)

/-- An exact power of ten is rounded once. -/
theorem rounds_zpow_ten (f : Fmt) (n : Int) : f.rounds ((10 : ℝ) ^ n) (Fp.round f false (10 ^ n.toNat) (10 ^ (-n).toNat)) := by
  refine ⟨false, _, _, by positivity, ?_, rfl⟩
  rcases le_total 0 n with hn | hn
  · lift n to Nat using hn
    simp
  · obtain ⟨k, rfl⟩ : ∃ k : Nat, n = -(k : Int) := ⟨(-n).toNat, by omega⟩
    simp

/-- A finite rounding of a non-zero fraction is the nearest finite datum. -/
theorem Fmt.rounds.isRounding {f : Fmt} (hm : 0 < f.mbits) {v : ℝ} {r : Fp} (h : f.rounds v r) (hv : v ≠ 0)
    (hfin : r.isFinite = true) : Fp.isRounding f v r := by
  obtain ⟨num, den, hn, hd, habs, rfl⟩ := h.sign_mag hv
  rw [Fp.round, Fp.isFinite_ofMag, decide_eq_true_eq] at hfin
  exact ⟨_, habs ▸ (nearestCode_roundMag hm hn hd hfin).isNearest hfin, rfl⟩

/-- The logarithm of a positive datum other than 1. -/
theorem log10_isRounding {f : Fmt} (hm : 0 < f.mbits) (m : Nat) (e : Int) (hm0 : 0 < m) (h1 : (Fp.fin false m e).toReal ≠ 1)
    (hdec : decides f (log10Encl (e + log10Shift m) m (2 ^ log10Shift m)))
    (hfin : (Fp.log10 f (.fin false m e)).isFinite = true) :
    Fp.isRounding f (Real.logb 10 (Fp.fin false m e).toReal) (Fp.log10 f (.fin false m e)) := by
  have hne := mt (fraction_eq_iff m e).mp h1
  simp only [Fp.log10, if_neg hm0.ne', if_neg hne, Bool.false_eq_true, if_false] at hfin ⊢
  exact (refine_isRounding hm _ (log10Encl_holds_datum m e hm0) hdec).2 hfin

/-- The power of ten of a datum: past -400 it is below every datum but 0, at a whole exponent it is a fraction, and else
its enclosure is rounded. -/
theorem exp10_isRounding {f : Fmt} (hf : f ∈ [f32, f64]) (s : Bool) (m : Nat) (e : Int)
    (h : fractionalPart s m e = 0
      ∨ decides f (exp10Encl (wholePart s m e) (fractionalPart s m e) (fraction m e).2))
    (hfin : (Fp.exp10 f (.fin s m e)).isFinite = true) :
    Fp.isRounding f ((10 : ℝ) ^ (Fp.fin s m e).toReal) (Fp.exp10 f (.fin s m e)) := by
  obtain ⟨he, hm⟩ := formats_pos hf
  obtain ⟨hparts, hfrac⟩ := parts_value s m e
  have hpos : 0 < (10 : ℝ) ^ (Fp.fin s m e).toReal := by positivity
  simp only [Fp.exp10] at hfin ⊢
  by_cases hbig : 400 * (fraction m e).2 < (fraction m e).1
  · rw [if_pos hbig] at hfin ⊢
    cases s with
    | false => simp [Fp.isFinite] at hfin
    | true =>
      have hx : (Fp.fin true m e).toReal < -400 := by
        rw [toReal_fin, if_pos rfl, neg_lt_neg_iff, ← fraction_value,
          lt_div_iff₀ (by exact_mod_cast fraction_den_pos m e)]
        exact_mod_cast hbig
      have hzero := (nearestCode_zero (rpow_ten_lt_midpoint hf hx).le).isNearest (f.infCode_pos he)
      exact ⟨0, by rwa [abs_of_pos hpos], by simp [hpos.not_gt, Fp.ofMag, f.infCode_pos he, Fmt.unpackMag]⟩
  · rw [if_neg hbig] at hfin ⊢
    by_cases hwhole : fractionalPart s m e = 0
    · rw [if_pos hwhole] at hfin ⊢
      rw [hwhole, Nat.cast_zero, zero_div, add_zero] at hparts
      rw [← hparts, Real.rpow_intCast] at hpos ⊢
      exact (rounds_zpow_ten f _).isRounding hm hpos.ne' hfin
    · rw [if_neg hwhole] at hfin ⊢
      rw [← hparts]
      exact (refine_isRounding hm _ (fun p => Or.inr (exp10Encl_holds _ _ _ p (fraction_den_pos m e) hfrac.le))
        (h.resolve_left hwhole)).2 hfin

/-- Settles O60: each result is zero, an exact fraction or an enclosed number, and is rounded once. -/
theorem powersCorrectlyRounded : Obligations.PowersCorrectlyRounded := by
  intro f hf m e hm0
  obtain ⟨-, hm⟩ := formats_pos hf
  refine ⟨log10_isRounding hm m e hm0, fun h1 => ?_, fun s => exp10_isRounding hf s m e⟩
  simp [Fp.log10, hm0.ne', (fraction_eq_iff m e).mpr h1]

end Sys2Proof.Machine
end

section
/-! PROOFS. What a step makes of the block (spec/20_memory.md R69, R70), said once as an inductive relation, and the
whole-state invariant, which every one of its cases keeps. -/

namespace Sys2Proof.Machine

/-! ## The effect of a step -/

/-- The hosts' side of the bus as `b` has it: who moves next, what is pending and what was answered. -/
def State.withBus (s b : State) : State :=
  { s with
    turns := b.turns, pendingA := b.pendingA, pendingC := b.pendingC, repliesA := b.repliesA, repliesC := b.repliesC }

/-- Agent A has the next turn, no block is in flight, and `x` is its host's next transaction (R69). -/
def State.audioNext (s : State) (x : Txn) : Prop :=
  s.turns.head? = some .a ∧ s.blk.busy = false ∧ ∃ rest, s.pendingA = x :: rest

/-- Agent C has the next turn, and `x` is its host's next transaction (R69). -/
def State.controlNext (s : State) (x : Txn) : Prop :=
  s.turns.head? = some .c ∧ ∃ rest, s.pendingC = x :: rest

/-- What one step from `s` makes of the block, the hosts' side of the bus left aside. What a frame and a derivation
compute stands under a name of its own, so that reading off another field never evaluates it. -/
inductive Effect (s : State) : State → Prop where
  /-- A read, a NOP, a command with nothing to do, or no one to move. -/
  | nothing : Effect s s
  /-- The error bits of a bus access, an illegal word or a command's checks (R65, R94, R244). -/
  | errors (b c : Bool) (d e : ErrorBit) : Effect s (raiseIf b d (raiseIf c e s))
  | frame (delay : Vector (Vector Delay 9) 2) (fault : BitVec 18) (ramA : Memory) (busy : s.blk.busy = true)
      (turn : s.turns.head? ≠ some .c) (more : s.blk.k < s.blk.n) (delay_eq : delay = (frame s.blk.k s).delay)
      (fault_eq : fault = (frame s.blk.k s).fault) (ramA_eq : ramA = (frame s.blk.k s).ramA) :
      Effect s (advanceBlock { s with delay := delay, fault := fault, ramA := ramA })
  | blockEnd (busy : s.blk.busy = true) (turn : s.turns.head? ≠ some .c) (done : s.blk.n ≤ s.blk.k) :
      Effect s (endBlock s)
  | startBlock (n : Nat) (x : Txn) (next : s.audioNext x) (prepared : s.prepared = true) (pos : 0 < n)
      (le : n ≤ s.maxBlock.toNat) : Effect s (startBlock n s)
  | prepare (m : Nat) (x : Txn) (cfg : Configuration × Bool) (next : s.audioNext x) (rate : legalRate s.aFs = true)
      (pos : 0 < m) (le : m ≤ Config.bufDepth) (cfg_eq : cfg = derive s.last s.aFs s.active) :
      Effect s (commit cfg.1 cfg.2
        { s with engFs := s.aFs, maxBlock := BitVec.ofNat 32 m, prepared := true, delay := zeroDelay })
  | setRate (v : Word) (x : Txn) (next : s.audioNext x) : Effect s { s with aFs := v }
  | clearFaults (v : Word) (next : s.audioNext (.write (busAddress s.bases .a 0x0014) v)) : Effect s (clearFaults v s)
  | storeSample (ch : Fin 2) (k : Nat) (v : Word) (x : Txn) (next : s.audioNext x) (lt : k < Config.bufDepth) :
      Effect s (s.storeSample (sampleAddr ch k) v)
  | update (cfg : Configuration × Bool) (next : s.controlNext (.write (busAddress s.bases .c 0x000C) 0x00000010))
      (prepared : s.prepared = true) (dirty : s.dirty = true) (cfg_eq : cfg = derive s.params s.engFs s.active) :
      Effect s (commit cfg.1 cfg.2 { s with dirty := false, last := s.params })
  | respond (w : Nat) (x : Txn) (next : s.controlNext x) (rate : legalRate s.cRespFs = true) (le : w ≤ Config.respDepth) :
      Effect s { s with ramC := writeResponses (response s.snap s.cRespFs w) w 0 s.ramC }
  | setRespRate (v : Word) (x : Txn) (next : s.controlNext x) : Effect s { s with cRespFs := v }
  | setParam (f : Field) (v : Word) (next : s.controlNext (.write (busAddress s.bases .c (paramAddr f)) v)) :
      Effect s (setParam f v s)
  | clearClamped (v : Word) (next : s.controlNext (.write (busAddress s.bases .c 0x0008) v)) :
      Effect s (clearClamped v s)
  | reset (turn : s.turns.head? = some .reset) : Effect s (resetEvent s)

/-- A transaction is the next one of its port's host. -/
def State.nextOf (s : State) : Port → Txn → Prop
  | .a => s.audioNext
  | .c => s.controlNext

/-- One error bit is a case of several. -/
theorem Effect.error (s : State) (e : ErrorBit) : Effect s (raiseError e s) := .errors false true e e

theorem Effect.access (s : State) (p : Port) : Effect s (raiseAccess p s) := by
  cases p with
  | a => exact .error s .aBadAccess
  | c => exact .error s .cBadAccess

theorem Effect.illegal (s : State) (p : Port) : Effect s (raiseIllegal p s) := by
  cases p with
  | a => exact .error s .aIllegalCmd
  | c => exact .error s .cIllegalCmd

/-- C.UPDATE has one word (R90, R93). -/
theorem decode_cUpdate (p : Port) (v : Word) (h : decode p v = .ok .cUpdate) : v = 0x00000010 := by
  obtain rfl : Port.c = p := decode_port p v _ h
  have hfields : opcField v = 0x10 ∧ argField v = 0 := by
    simp only [decode, decodeC, withoutArgument] at h
    by_contra hne
    split_ifs at h <;> simp_all
  obtain ⟨hopc, harg⟩ := hfields
  unfold opcField at hopc
  unfold argField at harg
  exact BitVec.eq_of_toNat_eq (by simp; omega)

/-- The effect of a command that a port's next transaction writes. -/
theorem Effect.of_exec {s u : State} {p : Port} {addr v : Word} {i : Instr} (next : s.nextOf p (.write addr v))
    (hcmd : p = .a ∧ itemA (portOffset s.bases p addr) = some .cmd ∨ p = .c ∧ itemC (portOffset s.bases p addr) = some .cmd)
    (hd : decode p v = .ok i) (h : exec i s = .next u) : Effect s u := by
  have hp := decode_port p v i hd
  rcases exec_cases i s u h with rfl | ⟨e, rfl⟩ | ⟨b, d, c, e, rfl⟩ | ⟨n, rfl, h1, h2, h3, rfl⟩ | ⟨m, rfl, h1, h2, h3, rfl⟩
    | ⟨rfl, h1, h2, rfl⟩ | ⟨w, rfl, h1, h2, rfl⟩
  · exact .nothing
  · exact .error s e
  · exact .errors b c d e
  · obtain rfl : Port.a = p := hp
    exact .startBlock n _ next h1 h2 h3
  · obtain rfl : Port.a = p := hp
    exact .prepare m _ _ next h1 h2 h3 rfl
  · obtain rfl : Port.c = p := hp
    obtain rfl := decode_cUpdate .c v hd
    have haddr := itemC_eq_cmd _ (hcmd.resolve_left (by simp)).2
    rw [← busAddress_portOffset s.bases .c addr, haddr] at next
    exact .update _ next h1 h2 rfl
  · obtain rfl : Port.c = p := hp
    exact .respond w _ next h2 h1

/-- The effect of a port's next write. -/
theorem Effect.of_memWrite {s u : State} {p : Port} {addr v : Word} (next : s.nextOf p (.write addr v))
    (h : memWrite p (portOffset s.bases p addr) v s = .next u) : Effect s u := by
  have hback := busAddress_portOffset s.bases p addr
  rcases memWrite_cases p _ v s u h with rfl | rfl | ⟨i, hd, hcmd, hx⟩ | ⟨rfl, rfl⟩ | ⟨rfl, hi, rfl⟩ | ⟨ch, k, rfl, hk, rfl⟩
    | ⟨rfl, rfl⟩ | ⟨f, rfl, hi, rfl⟩ | ⟨rfl, hi, rfl⟩
  · exact .access s p
  · exact .illegal s p
  · exact .of_exec next hcmd hd hx
  · exact .setRate v _ next
  · rw [itemA_eq_fault _ hi] at hback
    exact .clearFaults v (hback ▸ next)
  · exact .storeSample ch k v _ next hk
  · exact .setRespRate v _ next
  · rw [itemC_eq_param _ f hi] at hback
    exact .setParam f v (hback ▸ next)
  · rw [itemC_eq_status _ hi] at hback
    exact .clearClamped v (hback ▸ next)

/-- A completion is on the hosts' side. -/
theorem completeWrite_eq_withBus (p : Port) (u : State) : completeWrite p u = u.withBus (completeWrite p u) := by
  cases p with
  | a => unfold completeWrite; simp only; split <;> rfl
  | c => rfl

/-- The effect of a port's next transaction. -/
theorem Effect.of_perform {s t : State} {p : Port} {x : Txn} (next : s.nextOf p x) (h : perform p x s = .next t) :
    ∃ u, Effect s u ∧ t = u.withBus t := by
  rcases perform_cases p x s t h with ⟨addr, rfl, rfl⟩ | ⟨addr, v, u, rfl, hu, rfl⟩
  · have e : ∀ r v, reply p r v = v.withBus (reply p r v) := fun r v => by cases p <;> rfl
    rcases memRead_cases p (portOffset s.bases p addr) s with hs | ⟨-, hs⟩
    · exact ⟨s, .nothing, by rw [hs]; exact e _ _⟩
    · exact ⟨_, .access s p, by rw [hs]; exact e _ _⟩
  · exact ⟨u, .of_memWrite next hu, completeWrite_eq_withBus p u⟩

/-- The same of a transaction that finds the schedule and the queues already moved on. -/
theorem Effect.of_perform_queued {s t : State} {p : Port} {x : Txn} {ts : List Turn} {qa qc : List Txn}
    (next : s.nextOf p x) (h : perform p x (s.queued ts qa qc) = .next t) : ∃ u b, Effect s u ∧ t = u.withBus b := by
  rw [perform_queued] at h
  obtain ⟨v, hv, rfl⟩ := onNext_eq_next h
  obtain ⟨u, hu, hvu⟩ := Effect.of_perform next hv
  exact ⟨u, v.queued ts qa qc, hu, by rw [hvu]; rfl⟩

theorem queued_eq_withBus (u : State) (ts : List Turn) (qa qc : List Txn) :
    u.queued ts qa qc = u.withBus (u.queued ts qa qc) := rfl

/-- Every step has one of the effects, and beside it moves only the hosts' side of the bus. -/
theorem step_effect {s t : State} (h : step s = .next t) : ∃ u b, Effect s u ∧ t = u.withBus b := by
  rcases step_cases s t h with ⟨rfl, -⟩ | ⟨hb, ht, rfl⟩ | ⟨x, rest, hturn, hb, hq, hp⟩ | ⟨x, rest, hturn, hq, hp⟩
    | ⟨hr, rfl⟩
  · exact ⟨s, { s with turns := s.turns.tail }, .nothing, rfl⟩
  · have hturn : s.turns.head? ≠ some .c := by rcases ht with ht | ht <;> simp [ht]
    rw [show { s with turns := s.turns.tail } = s.queued s.turns.tail s.pendingA s.pendingC from rfl, blockStep_queued]
    rcases Nat.lt_or_ge s.blk.k s.blk.n with hk | hk
    · rw [blockStep_frame s hk, frame_eq]
      exact ⟨_, _, .frame _ _ _ hb hturn hk rfl rfl rfl, queued_eq_withBus _ _ _ _⟩
    · rw [blockStep_end s hk]
      exact ⟨_, (reply .a .done (endBlock s)).queued s.turns.tail s.pendingA s.pendingC, .blockEnd hb hturn hk, rfl⟩
  · exact Effect.of_perform_queued (p := .a) ⟨hturn, hb, rest, hq⟩ hp
  · exact Effect.of_perform_queued (p := .c) ⟨hturn, rest, hq⟩ hp
  · exact ⟨_, resetEvent { s with turns := s.turns.tail }, .reset hr, rfl⟩

/-! ## The invariant -/

theorem reset_coef (pos : Fin 9) : State.reset.active.coef[pos] = Coefs.ident := Vector.getElem_replicate _

/-- IDENT is five finite words with a positive b0 (R25). -/
theorem ident_sound : Coefs.ident.sound := by
  refine ⟨?_, ?_, ?_, ?_, ?_, ?_⟩ <;> decide +kernel

/-- Settles O21: each clause is a fact about the reset values. -/
theorem invariantAtReset : Obligations.InvariantAtReset where
  sampleSorted := Memory.wf_nil
  sampleMapped := fun _ h => absurd h List.not_mem_nil
  respSorted := Memory.wf_nil
  respMapped := fun _ h => absurd h List.not_mem_nil
  snapIsActive := rfl
  peakActive := rfl
  lowPrefix := show ∀ k : Fin 3, Configuration.reset.byp[k.val] = true → Configuration.reset.byp[k.val + 1] = true by
    decide
  highPrefix := show ∀ k : Fin 3, Configuration.reset.byp[5 + k.val] = true → Configuration.reset.byp[6 + k.val] = true by
    decide
  unprepared := fun _ => ⟨rfl, rfl, rfl⟩
  prepared := fun h => absurd h Bool.false_ne_true
  idle := fun _ => rfl
  inFlight := fun h => absurd h Bool.false_ne_true
  coefSound := fun pos => reset_coef pos ▸ ident_sound
  delayFinite := zeroDelay_finite

/-- The hosts' side of the bus has no part in the invariant. -/
theorem State.Inv.withBus {s : State} (h : s.Inv) (b : State) : (s.withBus b).Inv := { h with }

theorem State.Inv.raiseIf {s : State} (h : s.Inv) (b : Bool) (e : ErrorBit) : (raiseIf b e s).Inv := by
  cases b with
  | false => exact h
  | true => cases e <;> exact { h with }

/-- The reset event puts every element that the invariant speaks of at its reset value. -/
theorem resetEvent_inv (s : State) : (resetEvent s).Inv := { invariantAtReset with }

/-! ### Sample words -/

/-- The four bytes of a sample word lie in the sample RAM (R81). -/
theorem sampleByteAddress_of_sampleAddr {ch : Fin 2} {k a : Nat} (hk : k < Config.bufDepth) (h1 : sampleAddr ch k ≤ a)
    (h2 : a < sampleAddr ch k + 4) : sampleByteAddress a := by
  unfold sampleByteAddress
  unfold sampleAddr at h1 h2
  omega

theorem sampleMapped_storeWord {m : Memory} (hm : ∀ c ∈ m, sampleByteAddress c.1) (ch : Fin 2) {k : Nat} (v : Word)
    (hk : k < Config.bufDepth) : ∀ c ∈ m.storeWord (sampleAddr ch k) v, sampleByteAddress c.1 := fun c hc =>
  (Memory.mem_storeWord _ _ _ c hc).elim (fun ha => sampleByteAddress_of_sampleAddr hk ha.1 ha.2) (hm c)

/-- What the datapath writes may hold anything that is well placed and finite. -/
theorem State.Inv.datapath {s : State} (h : s.Inv) {d : Vector (Vector Delay 9) 2} {m : Memory} (f : BitVec 18)
    (hsorted : m.wf) (hmapped : ∀ c ∈ m, sampleByteAddress c.1) (hfinite : ∀ ch : Fin 2, finiteDelays d[ch]) :
    State.Inv { s with delay := d, fault := f, ramA := m } :=
  { h with sampleSorted := hsorted, sampleMapped := hmapped, delayFinite := hfinite }

theorem State.Inv.storeSample {s : State} (h : s.Inv) (ch : Fin 2) {k : Nat} (v : Word) (hk : k < Config.bufDepth) :
    (s.storeSample (sampleAddr ch k) v).Inv :=
  h.datapath s.fault (Memory.wf_storeWord _ _ _ h.sampleSorted) (sampleMapped_storeWord h.sampleMapped ch v hk)
    h.delayFinite

/-- A frame writes two sample words, and registers that a chain keeps finite (R151, R156). -/
theorem State.Inv.frame {s : State} (h : s.Inv) {k : Nat} (hk : k < Config.bufDepth) : (frame k s).Inv := by
  rw [frame_eq]
  refine h.datapath _ ?_ ?_ fun ch => ?_
  · rw [frame_ramA]
    exact Memory.wf_storeWord _ _ _ (Memory.wf_storeWord _ _ _ h.sampleSorted)
  · rw [frame_ramA]
    exact sampleMapped_storeWord (sampleMapped_storeWord h.sampleMapped 0 _ hk) 1 _ hk
  · rw [frame_delay_getElem]
    exact chain_finiteDelays _ _ _ (h.delayFinite ch)

/-! ### Blocks -/

/-- The frames of a block in flight lie within the sample RAM (R182). -/
theorem State.Inv.blk_n_le {s : State} (h : s.Inv) (hb : s.blk.busy = true) : s.blk.n ≤ Config.bufDepth := by
  obtain ⟨hp, -, -, hn⟩ := h.inFlight hb
  obtain ⟨-, -, hm, -⟩ := h.prepared hp
  exact hn.trans hm

theorem State.Inv.advanceBlock {s : State} (h : s.Inv) (hb : s.blk.busy = true) (hk : s.blk.k < s.blk.n) :
    (advanceBlock s).Inv := by
  obtain ⟨hp, -, hn, hm⟩ := h.inFlight hb
  exact { h with
    idle := fun hi => absurd (hb.symm.trans hi) Bool.noConfusion
    inFlight := fun _ => ⟨hp, hk, hn, hm⟩ }

theorem State.Inv.endBlock {s : State} (h : s.Inv) : (endBlock s).Inv :=
  { h with idle := fun _ => rfl, inFlight := fun hb => absurd hb Bool.false_ne_true }

theorem State.Inv.startBlock {s : State} (h : s.Inv) {n : Nat} (hp : s.prepared = true) (h0 : 0 < n)
    (hn : n ≤ s.maxBlock.toNat) : (startBlock n s).Inv :=
  { h with idle := fun hb => absurd hb Bool.noConfusion, inFlight := fun _ => ⟨hp, Nat.zero_le n, h0, hn⟩ }

/-! ### Responses -/

theorem State.Inv.respond {s : State} (h : s.Inv) (f : Nat → DWord) {w : Nat} (hw : w ≤ Config.respDepth) :
    State.Inv { s with ramC := writeResponses f w 0 s.ramC } :=
  { h with
    respSorted := wf_writeResponses _ _ _ _ h.respSorted
    respMapped := fun c hc => (mem_writeResponses _ _ _ _ c hc).elim
      (fun hm => by unfold respByteAddress; unfold respAddr at hm; omega) (h.respMapped c) }

/-! ### Commits -/

/-- A configuration that a commit may publish: the peak and each cut's first stage active, after a bypassed stage of a cut
only bypassed ones (R28, R29), and every slot sound (R126). -/
structure Configuration.Publishable (cfg : Configuration) : Prop where
  lowActive : cfg.byp[0] = false
  peakActive : cfg.byp[4] = false
  highActive : cfg.byp[5] = false
  lowPrefix : ∀ k : Fin 3, cfg.byp[k.val] = true → cfg.byp[k.val + 1] = true
  highPrefix : ∀ k : Fin 3, cfg.byp[5 + k.val] = true → cfg.byp[6 + k.val] = true
  coefSound : ∀ pos : Fin 9, cfg.coef[pos].sound

/-- At a legal rate a derivation over sound slots is publishable (R130, R131). -/
theorem derive_publishable (p : Params) {fs : Word} {cur : Configuration} (hfs : legalRate fs = true)
    (hcur : ∀ pos : Fin 9, cur.coef[pos].sound) : (derive p fs cur).1.Publishable where
  lowActive := by simp [derive_byp]
  peakActive := by simp [derive_byp]
  highActive := by simp [derive_byp]
  lowPrefix k := by
    have := k.isLt
    rw [derive_byp, derive_byp, if_pos (by omega), if_pos (by omega), decide_eq_true_eq, decide_eq_true_eq]
    omega
  highPrefix k := by
    have := k.isLt
    rw [derive_byp, derive_byp, if_neg (by omega), if_neg (by omega), if_neg (by omega), if_neg (by omega),
      decide_eq_true_eq, decide_eq_true_eq]
    omega
  coefSound pos := derive_sound p fs cur hfs pos.val pos.isLt (.inr (hcur pos))

/-- A.PREPARE with no block in flight (R181). -/
theorem State.Inv.prepare {s : State} (h : s.Inv) {cfg : Configuration} {m : Nat} (hcfg : cfg.Publishable)
    (hb : s.blk.busy = false) (hfs : legalRate s.aFs = true) (h0 : 0 < m) (hm : m ≤ Config.bufDepth) (c : Bool) :
    (commit cfg c
      { s with engFs := s.aFs, maxBlock := BitVec.ofNat 32 m, prepared := true, delay := zeroDelay }).Inv := by
  have hmax : (BitVec.ofNat 32 m).toNat = m := toNat_ofNat_32 m (hm.trans_lt (by decide))
  exact { h with
    snapIsActive := rfl
    peakActive := hcfg.peakActive
    lowPrefix := hcfg.lowPrefix
    highPrefix := hcfg.highPrefix
    unprepared := fun hp => absurd hp Bool.noConfusion
    prepared := fun _ => ⟨hfs, hmax.symm ▸ h0, hmax.symm ▸ hm, hcfg.lowActive, hcfg.highActive⟩
    inFlight := fun hi => absurd (hb.symm.trans hi) Bool.noConfusion
    coefSound := hcfg.coefSound
    delayFinite := zeroDelay_finite }

/-- C.UPDATE of a prepared engine (R201). -/
theorem State.Inv.update {s : State} (h : s.Inv) {cfg : Configuration} (hcfg : cfg.Publishable)
    (hp : s.prepared = true) (c : Bool) : (commit cfg c { s with dirty := false, last := s.params }).Inv := by
  obtain ⟨hfs, h1, hm, -, -⟩ := h.prepared hp
  exact { h with
    snapIsActive := rfl
    peakActive := hcfg.peakActive
    lowPrefix := hcfg.lowPrefix
    highPrefix := hcfg.highPrefix
    unprepared := fun hu => absurd (hp.symm.trans hu) Bool.noConfusion
    prepared := fun _ => ⟨hfs, h1, hm, hcfg.lowActive, hcfg.highActive⟩
    coefSound := hcfg.coefSound }

theorem State.Inv.effect {s u : State} (h : s.Inv) (hu : Effect s u) : u.Inv := by
  cases hu with
  | nothing => exact h
  | errors b c d e => exact (h.raiseIf c e).raiseIf b d
  | frame delay fault ramA busy turn more delay_eq fault_eq ramA_eq =>
    have hf := h.frame (more.trans_le (h.blk_n_le busy))
    rw [frame_eq, ← delay_eq, ← fault_eq, ← ramA_eq] at hf
    exact hf.advanceBlock busy more
  | blockEnd busy turn done => exact h.endBlock
  | startBlock n x next prepared pos le => exact h.startBlock prepared pos le
  | prepare m x cfg next rate pos le cfg_eq =>
    obtain ⟨-, hidle, -⟩ := next
    exact h.prepare (cfg_eq ▸ derive_publishable s.last rate h.coefSound) hidle rate pos le _
  | setRate v x next => exact { h with }
  | clearFaults v next => exact { h with }
  | storeSample ch k v x next lt => exact h.storeSample ch v lt
  | update cfg next prepared dirty cfg_eq =>
    obtain ⟨hfs, -⟩ := h.prepared prepared
    exact h.update (cfg_eq ▸ derive_publishable s.params hfs h.coefSound) prepared _
  | respond w x next rate le => exact h.respond _ le
  | setRespRate v x next => exact { h with }
  | setParam f v next => exact { h with }
  | clearClamped v next => exact { h with }
  | reset turn => exact resetEvent_inv s

/-- Settles O22: every effect of a step keeps the invariant, and the hosts' side has no part in it. -/
theorem invariantPreserved : Obligations.InvariantPreserved := by
  intro s t h hstep
  obtain ⟨u, b, hu, rfl⟩ := step_effect hstep
  exact (h.effect hu).withBus b

end Sys2Proof.Machine
end

section
/-! PROOFS. Who writes what (spec/10_state.md R23, R26, R31, R32, R36 to R38): each claim read off the effects of a step. -/

namespace Sys2Proof.Machine

/-! ## Error bits -/

/-- A sticky error bit by its name (R242, R243). -/
def State.error (s : State) : ErrorBit → Bool
  | .aUnprepared => s.aErr.unprepared
  | .aIllegalCmd => s.aErr.illegalCmd
  | .aBadFs => s.aErr.badFs
  | .aBadBlock => s.aErr.badBlock
  | .aBadAccess => s.aErr.badAccess
  | .cIllegalCmd => s.cErr.illegalCmd
  | .cBadWidth => s.cErr.badWidth
  | .cBadFs => s.cErr.badFs
  | .cBadAccess => s.cErr.badAccess

theorem error_raiseError (e f : ErrorBit) (s : State) : (raiseError e s).error f = (decide (e = f) || s.error f) := by
  cases e <;> cases f <;> rfl

theorem error_raiseIf (b : Bool) (e f : ErrorBit) (s : State) :
    (raiseIf b e s).error f = (b && decide (e = f) || s.error f) := by
  cases b with
  | false => simp
  | true => simp [error_raiseError]

theorem error_congr {s u : State} (ha : u.aErr = s.aErr) (hc : u.cErr = s.cErr) (f : ErrorBit) : u.error f = s.error f := by
  cases f <;> simp only [State.error, ha, hc]

/-- Only the reset event clears an error bit (R37, R38). -/
theorem Effect.error_kept {s u : State} (h : Effect s u) (hr : s.turns.head? ≠ some .reset) (f : ErrorBit)
    (hs : s.error f = true) : u.error f = true := by
  cases h with
  | errors b c d e => simp [error_raiseIf, hs]
  | reset turn => exact absurd turn hr
  | _ => exact (error_congr (by simp) (by simp) f).trans hs

/-! ## FAULT and PARAM_CLAMPED -/

/-- A FAULT bit is cleared by a 1 written to it in A_FAULT (R36, R43). -/
theorem Effect.fault_cleared {s u : State} (h : Effect s u) (hr : s.turns.head? ≠ some .reset) {i : Nat}
    (hs : s.fault.getLsbD i = true) (hu : u.fault.getLsbD i = false) :
    ∃ v, s.audioNext (.write (busAddress s.bases .a 0x0014) v) ∧ v.getLsbD i = true := by
  cases h with
  | frame delay fault ramA busy turn more delay_eq fault_eq ramA_eq =>
    rw [advanceBlock_fault, fault_eq, frame_fault] at hu
    simp [hs] at hu
  | clearFaults v next =>
    refine ⟨v, next, ?_⟩
    simp only [clearFaults_fault, BitVec.getLsbD_and, BitVec.getLsbD_not, BitVec.getLsbD_setWidth, hs] at hu
    have hi := BitVec.lt_of_getLsbD hs
    simpa [hi] using hu
  | reset turn => exact absurd turn hr
  | _ => simp [hs] at hu

/-- PARAM_CLAMPED is cleared by a 1 in bit 1 of a C_STATUS write (R33, R45). -/
theorem Effect.paramClamped_cleared {s u : State} (h : Effect s u) (hr : s.turns.head? ≠ some .reset)
    (hs : s.paramClamped = true) (hu : u.paramClamped = false) :
    ∃ v, s.controlNext (.write (busAddress s.bases .c 0x0008) v) ∧ v.getLsbD 1 = true := by
  cases h with
  | clearClamped v next => exact ⟨v, next, by simpa [hs] using hu⟩
  | reset turn => exact absurd turn hr
  | _ => simp [hs] at hu

/-- Settles O52: no effect but the reset event clears an error bit, and FAULT and PARAM_CLAMPED each have the one effect
that clears them. -/
theorem stickyBits : Obligations.StickyBits := by
  intro s t hr hstep
  obtain ⟨u, b, hu, rfl⟩ := step_effect hstep
  have kept := hu.error_kept hr
  refine ⟨kept .aUnprepared, kept .aIllegalCmd, kept .aBadFs, kept .aBadBlock, kept .aBadAccess, kept .cIllegalCmd,
    kept .cBadWidth, kept .cBadFs, kept .cBadAccess, fun i _ hs ht => ?_, fun hs ht => ?_⟩
  · obtain ⟨v, ⟨hturn, hidle, rest, hq⟩, hv⟩ := hu.fault_cleared hr hs ht
    exact ⟨hturn, hidle, v, rest, hq, hv⟩
  · obtain ⟨v, ⟨hturn, rest, hq⟩, hv⟩ := hu.paramClamped_cleared hr hs ht
    exact ⟨hturn, v, rest, hq, hv⟩

/-! ## The configuration -/

/-- Settles O53: of the effects only the two commits write the configuration or the engine's state. -/
theorem commitsOnly : Obligations.CommitsOnly := by
  intro s t hr hstep
  obtain ⟨u, b, hu, rfl⟩ := step_effect hstep
  cases hu with
  | prepare m x cfg next rate pos le cfg_eq =>
    obtain ⟨hturn, -⟩ := next
    have hmax := toNat_ofNat_32 m (le.trans_lt (by decide))
    exact .inr (.inr ⟨hturn, rfl, rate, rfl, hmax.symm ▸ pos, hmax.symm ▸ le, rfl, rfl, congrArg Prod.fst cfg_eq, rfl⟩)
  | update cfg next prepared dirty cfg_eq =>
    obtain ⟨hturn, -⟩ := next
    exact .inr (.inl ⟨hturn, prepared, dirty, rfl, congrArg Prod.fst cfg_eq, rfl, rfl, rfl, rfl⟩)
  | reset turn => exact absurd turn hr
  | _ => left; simp [State.withBus]

/-! ## DIRTY and LAST -/

/-- Settles O54: DIRTY is set by the effect of a P_* write alone, and cleared, with LAST written, by C.UPDATE's alone. -/
theorem dirtyProtocol : Obligations.DirtyProtocol := by
  intro s t hr hstep
  obtain ⟨u, b, hu, rfl⟩ := step_effect hstep
  cases hu with
  | update cfg next prepared dirty cfg_eq =>
    obtain ⟨hturn, hq⟩ := next
    exact ⟨fun h => absurd h.1 Bool.false_ne_true, fun _ => ⟨hturn, prepared, dirty, rfl, rfl, hq⟩⟩
  | setParam f v next =>
    obtain ⟨hturn, rest, hq⟩ := next
    exact ⟨fun _ => ⟨hturn, f, v, rest, hq, rfl⟩, fun h => by simp [State.withBus] at h⟩
  | reset turn => exact absurd turn hr
  | _ => exact ⟨fun h => by simp [State.withBus] at h, fun h => by simp [State.withBus] at h⟩

/-! ## The delay registers -/

/-- Settles O55: the registers are written by the effects of a frame and of A.PREPARE alone. -/
theorem delayWriters : Obligations.DelayWriters := by
  intro s t hr hstep
  obtain ⟨u, b, hu, rfl⟩ := step_effect hstep
  cases hu with
  | frame delay fault ramA busy turn more delay_eq fault_eq ramA_eq =>
    exact .inr (.inl ⟨busy, more, turn, delay_eq⟩)
  | prepare m x cfg next rate pos le cfg_eq =>
    obtain ⟨hturn, hidle, -⟩ := next
    exact .inr (.inr ⟨hturn, hidle, fun ch pos => by simp [State.withBus, zeroDelay]⟩)
  | reset turn => exact absurd turn hr
  | _ => left; simp [State.withBus]

end Sys2Proof.Machine
end

section
/-! PROOFS. The registers of both ports, each read and written through the item that stands at its address
(spec/10_state.md R42 to R52). -/

namespace Sys2Proof.Machine

/-! ## Transactions at an item -/

theorem memRead_itemA {addr : Word} {it : ItemA} (h : itemA addr = some it) (s : State) :
    memRead .a addr s = (readItemA s it, s) := by
  simp only [memRead, h]

theorem memRead_itemC {addr : Word} {it : ItemC} (h : itemC addr = some it) (s : State) :
    memRead .c addr s = (readItemC s it, s) := by
  simp only [memRead, h]

theorem memWrite_itemA {addr : Word} {it : ItemA} (h : itemA addr = some it) (v : Word) (s : State) :
    memWrite .a addr v s = writeItemA it v s := by
  simp only [memWrite, h]

theorem memWrite_itemC {addr : Word} {it : ItemC} (h : itemC addr = some it) (v : Word) (s : State) :
    memWrite .c addr v s = writeItemC it v s := by
  simp only [memWrite, h]

/-- A write to a mapped item that is not writable is an illegal access (R64, R65). -/
theorem memWrite_readOnlyA {addr : Word} {it : ItemA} (h : itemA addr = some it) (hw : it.writable = false) (v : Word)
    (s : State) : memWrite .a addr v s = .next (raiseAccess .a s) := by
  rw [memWrite_itemA h, writeItemA_readOnly it v s hw]

theorem memWrite_readOnlyC {addr : Word} {it : ItemC} (h : itemC addr = some it) (hw : it.writable = false) (v : Word)
    (s : State) : memWrite .c addr v s = .next (raiseAccess .c s) := by
  rw [memWrite_itemC h, writeItemC_readOnly it v s hw]

/-! ## Status words -/

theorem bitAt_le (b : Bool) (i : Nat) : bitAt b i ≤ 2 ^ i := by
  cases b <;> simp [bitAt]

/-- A sum of flags, bit by bit: one more flag above the others. -/
theorem testBit_add_bitAt {n i : Nat} (h : n < 2 ^ i) (b : Bool) (j : Nat) :
    (n + bitAt b i).testBit j = if j = i then b else n.testBit j := by
  cases b with
  | false =>
    by_cases hj : j = i
    · simp [bitAt, hj, Nat.testBit_lt_two_pow h]
    · simp [bitAt, hj]
  | true =>
    rw [bitAt, if_pos rfl, Nat.add_comm]
    by_cases hj : j = i
    · rw [hj, Nat.testBit_two_pow_add_eq, Nat.testBit_lt_two_pow h, if_pos rfl]; rfl
    · rw [if_neg hj]
      rcases Nat.lt_or_gt_of_ne hj with hlt | hgt
      · exact Nat.testBit_two_pow_add_gt hlt n
      · have hle : 2 ^ (i + 1) ≤ 2 ^ j := Nat.pow_le_pow_right (by decide) hgt
        rw [pow_succ] at hle
        rw [Nat.testBit_lt_two_pow (by omega), Nat.testBit_lt_two_pow (by omega)]

theorem testBit_bitAt (b : Bool) (i j : Nat) : (bitAt b i).testBit j = if j = i then b else false := by
  simpa using testBit_add_bitAt (n := 0) (by positivity) b j

/-- A_STATUS bit by bit, from the highest flag down (R42). -/
theorem aStatus_getLsbD (s : State) (i : Nat) (hi : i < 32) :
    s.aStatus.getLsbD i
      = if i = 16 then s.faultAny else if i = 12 then s.aErr.badAccess else if i = 11 then s.aErr.badBlock
        else if i = 10 then s.aErr.badFs else if i = 9 then s.aErr.illegalCmd else if i = 8 then s.aErr.unprepared
        else if i = 0 then s.prepared else false := by
  have h0 := bitAt_le s.prepared 0
  have h8 := bitAt_le s.aErr.unprepared 8
  have h9 := bitAt_le s.aErr.illegalCmd 9
  have h10 := bitAt_le s.aErr.badFs 10
  have h11 := bitAt_le s.aErr.badBlock 11
  have h12 := bitAt_le s.aErr.badAccess 12
  rw [State.aStatus, BitVec.getLsbD_ofNat, decide_eq_true hi, Bool.true_and, testBit_add_bitAt (by omega),
    testBit_add_bitAt (by omega), testBit_add_bitAt (by omega), testBit_add_bitAt (by omega),
    testBit_add_bitAt (by omega), testBit_add_bitAt (by omega), testBit_bitAt]

/-- C_STATUS bit by bit, from the highest flag down (R45). -/
theorem cStatus_getLsbD (s : State) (i : Nat) (hi : i < 32) :
    s.cStatus.getLsbD i
      = if i = 11 then s.cErr.badAccess else if i = 10 then s.cErr.badFs else if i = 9 then s.cErr.badWidth
        else if i = 8 then s.cErr.illegalCmd else if i = 2 then s.prepared else if i = 1 then s.paramClamped
        else if i = 0 then s.dirty else false := by
  have h0 := bitAt_le s.dirty 0
  have h1 := bitAt_le s.paramClamped 1
  have h2 := bitAt_le s.prepared 2
  have h8 := bitAt_le s.cErr.illegalCmd 8
  have h9 := bitAt_le s.cErr.badWidth 9
  have h10 := bitAt_le s.cErr.badFs 10
  rw [State.cStatus, BitVec.getLsbD_ofNat, decide_eq_true hi, Bool.true_and, testBit_add_bitAt (by omega),
    testBit_add_bitAt (by omega), testBit_add_bitAt (by omega), testBit_add_bitAt (by omega),
    testBit_add_bitAt (by omega), testBit_add_bitAt (by omega), testBit_bitAt]

theorem faultAny_eq (s : State) : s.faultAny = decide (s.fault ≠ 0) := by
  simp [State.faultAny, bne, beq_eq_decide]

/-- Settles O11: the bits are those of the sum of flags, whose order does not matter. -/
theorem audioStatusWord : Obligations.AudioStatusWord := by
  refine ⟨fun s i hi => ?_, by decide, fun v s => memWrite_readOnlyA itemA_status rfl v s⟩
  rw [memRead_itemA itemA_status]
  simp only [readItemA]
  rw [aStatus_getLsbD s i hi, faultAny_eq]
  grind

/-- Settles O12: the bits are those of the sum of flags, and the write is the named update `clearClamped`. -/
theorem controlStatusWord : Obligations.ControlStatusWord := by
  refine ⟨fun s i hi => ?_, by decide, fun v s => ?_⟩
  · rw [memRead_itemC itemC_status]
    simp only [readItemC]
    rw [cStatus_getLsbD s i hi]
    grind
  · rw [memWrite_itemC itemC_status]
    exact ⟨fun hv => by simp only [writeItemC, clearClamped, hv, Bool.not_true, Bool.and_false],
      fun hv => by simp only [writeItemC, clearClamped, hv, Bool.not_false, Bool.and_true]⟩

/-! ## Port A registers -/

/-- A delay register by its address, in the two spellings of R43. -/
theorem itemA_delay_r0 (ch : Fin 2) (pos : Fin 9) :
    itemA (BitVec.ofNat 32 (0x0100 + ch.val * 0x80 + pos.val * 8)) = some (.delay ch pos 0) := itemA_delay ch pos 0

theorem itemA_delay_r1 (ch : Fin 2) (pos : Fin 9) :
    itemA (BitVec.ofNat 32 (0x0100 + ch.val * 0x80 + pos.val * 8 + 4)) = some (.delay ch pos 1) := itemA_delay ch pos 1

/-- The words of a channel's window above its 18 registers (R51). -/
theorem itemA_delay_above (ch : Fin 2) {j : Nat} (h1 : 18 ≤ j) (h2 : j < 32) :
    itemA (BitVec.ofNat 32 (0x0100 + ch.val * 0x80 + j * 4)) = some .delayReserved := by
  have h := itemA_delayReserved ch ⟨j - 18, by omega⟩
  rwa [show 18 + (⟨j - 18, by omega⟩ : Fin 14).val = j by simp only; omega] at h

/-- A_FAULT's write, bit by bit (R43). -/
theorem clearFaults_getLsbD (v : Word) (s : State) {i : Nat} (hi : i < 18) :
    (clearFaults v s).fault.getLsbD i = (s.fault.getLsbD i && !v.getLsbD i) := by
  simp [hi]

theorem reset_delay (ch : Fin 2) (pos : Fin 9) : State.reset.delay[ch][pos] = ⟨0x00000000, 0x00000000⟩ := by
  simp [State.reset, zeroDelay]

/-- Settles O13: each register is the item at its address. -/
theorem audioRegisters : Obligations.AudioRegisters := by
  refine ⟨fun s => ?_, fun s ch pos => ?_, fun s v => ?_, fun s v ch pos r => ?_, rfl, rfl, rfl, rfl, reset_delay,
    fun s v ch j h1 h2 => ?_⟩
  · exact ⟨memRead_itemA itemA_cmd s, memRead_itemA itemA_fs s, memRead_itemA itemA_engFs s,
      memRead_itemA itemA_maxBlock s, memRead_itemA itemA_fault s, memRead_itemA itemA_bufDepth s⟩
  · exact ⟨memRead_itemA (itemA_delay_r0 ch pos) s, memRead_itemA (itemA_delay_r1 ch pos) s⟩
  · exact ⟨memWrite_itemA itemA_cmd v s, memWrite_itemA itemA_fs v s,
      ⟨clearFaults v s, memWrite_itemA itemA_fault v s, rfl, fun i => clearFaults_getLsbD v s⟩,
      memWrite_readOnlyA itemA_engFs rfl v s, memWrite_readOnlyA itemA_maxBlock rfl v s,
      memWrite_readOnlyA itemA_bufDepth rfl v s⟩
  · exact memWrite_readOnlyA (itemA_delay ch pos r) rfl v s
  · exact ⟨memRead_itemA (itemA_delay_above ch h1 h2) s, memWrite_readOnlyA (itemA_delay_above ch h1 h2) rfl v s⟩

/-! ## Port C registers -/

/-- Settles O14: each register is the item at its address. -/
theorem controlRegisters : Obligations.ControlRegisters := fun s v =>
  ⟨memRead_itemC itemC_id s, memRead_itemC itemC_version s, memWrite_readOnlyC itemC_id rfl v s,
    memWrite_readOnlyC itemC_version rfl v s, memRead_itemC itemC_cmd s, memWrite_itemC itemC_cmd v s,
    memRead_itemC itemC_respFs s, memWrite_itemC itemC_respFs v s, memRead_itemC itemC_respDepth s,
    memWrite_readOnlyC itemC_respDepth rfl v s, rfl⟩

/-- A clamped slope code is the smaller of the code and 3 (R117). -/
theorem clampSlope_eq_min (v : Word) : (clampSlope v).1 = min v.toNat 3 := by
  unfold clampSlope
  split <;> simp only <;> omega

/-- Settles O15: a P_* write is the named update, and the L_* view is the item 0x40 above. -/
theorem parameterRegisters : Obligations.ParameterRegisters := by
  refine ⟨fun f v s => ?_, rfl, rfl, fun p fs => ?_⟩
  · refine ⟨setParam f v s, memWrite_itemC (itemC_param f) v s, ?_, rfl, fun g hg => ?_, rfl⟩
    · rw [memRead_itemC (itemC_param f)]
      simp [readItemC, Params.get_set]
    · simp [Params.get_set, hg]
  · simp only [clamp_ls, clamp_hs, clampSlope_eq_min]
    exact ⟨by omega, by omega, by omega, by omega,
      fun f v s => ⟨memRead_itemC (itemC_lastParam f) s, memWrite_readOnlyC (itemC_lastParam f) rfl v s⟩, rfl⟩

/-- The bits of a list of flags written as a number, the first flag lowest. -/
theorem testBit_flags (l : List Bool) : ∀ i, (l.foldr (fun (b : Bool) rest => b.toNat + 2 * rest) 0).testBit i = l.getD i false := by
  induction l with
  | nil => simp
  | cons b l ih =>
    intro i
    cases i with
    | zero => cases b <;> simp [Nat.testBit_zero]
    | succ i =>
      rw [List.foldr_cons, Nat.testBit_succ, List.getD_cons_succ, ← ih i]
      congr 1
      cases b <;> simp only [Bool.toNat_true, Bool.toNat_false] <;> omega

/-- C_BYPASS bit by bit (R49). -/
theorem cBypass_getLsbD (s : State) (i : Nat) (hi : i < 32) :
    s.cBypass.getLsbD i = if h : i < 9 then s.active.byp[i] else false := by
  rw [State.cBypass, BitVec.getLsbD_ofNat, decide_eq_true hi, Bool.true_and, testBit_flags]
  by_cases h : i < 9 <;> simp [List.getD, h]

/-- A word of the C_COEF window by its slot and its number in the slot (R50, R51). -/
theorem itemC_coefWindow (pos : Fin 9) {j : Nat} (hj : j < 8) :
    itemC (BitVec.ofNat 32 (0x0200 + pos.val * 0x20 + j * 4))
      = some (if h : j < 5 then .coef pos ⟨j, h⟩ else .coefReserved) := by
  split
  · rename_i h
    exact itemC_coef pos ⟨j, h⟩
  · have h := itemC_coefReserved pos ⟨j - 5, by omega⟩
    rwa [show 5 + (⟨j - 5, by omega⟩ : Fin 3).val = j by simp only; omega] at h

/-- Settles O16: C_BYPASS is the list of flags as a number, and the window shows the slots word by word. -/
theorem configurationViews : Obligations.ConfigurationViews := by
  refine ⟨fun s i hi => ?_, by decide, fun v s => memWrite_readOnlyC itemC_bypass rfl v s, fun s pos => ?_,
    fun s pos j h5 h8 => ?_, fun s v pos j h8 => ?_, reset_coef⟩
  · rw [memRead_itemC itemC_bypass]
    exact cBypass_getLsbD s i hi
  · have read (j : Fin 5) := congrArg Prod.fst (memRead_itemC (itemC_coef pos j) s)
    exact ⟨read 0, read 1, read 2, read 3, read 4⟩
  · rw [memRead_itemC (itemC_coefWindow pos h8), dif_neg (by omega)]
    rfl
  · refine memWrite_readOnlyC (itemC_coefWindow pos h8) ?_ v s
    split <;> rfl

/-! ## Reset values -/

/-- Settles O19: every element is read off the reset state. -/
theorem resetValues : Obligations.ResetValues :=
  ⟨reset_delay, rfl, reset_coef, rfl, rfl, rfl, rfl, rfl, rfl, rfl, rfl, rfl, rfl, rfl, rfl, rfl, rfl,
    congrArg Prod.fst (memRead_itemC itemC_id _), congrArg Prod.fst (memRead_itemC itemC_version _),
    congrArg Prod.fst (memRead_itemA itemA_bufDepth _), congrArg Prod.fst (memRead_itemC itemC_respDepth _)⟩

end Sys2Proof.Machine
end

section
/-! PROOFS. The identity stage (spec/10_state.md R25; spec/41_biquad_stage_and_cascade.md R150, R157): a product with 1 and
a sum with +0 are exact, and the registers' terms are zeros. -/

namespace Sys2Proof.Machine

/-- The rounding of a number of the format is its datum. -/
theorem Fmt.rounds.eq_ofMag {f : Fmt} {v : ℝ} {r : Fp} (h : f.rounds v r) (hv : v ≠ 0) {mag : Nat} (hm : mag < f.infCode)
    (hval : f.magValue mag = |v|) : r = Fp.ofMag f (decide (v < 0)) mag := by
  obtain ⟨num, den, -, hd, habs, rfl⟩ := h.sign_mag hv
  rw [habs] at hval
  rw [Fp.round, le_antisymm (roundMag_le_of_le f num den mag hd hm hval.ge) (le_roundMag_of_le f num den mag hd hm hval.le)]

/-- A non-zero finite datum of the format is what its value rounds to. -/
theorem Fmt.rounds.eq_self {f : Fmt} {a r : Fp} (h : f.rounds a.toReal r) (hf : Fp.inFormat f a) (ha : a.isFinite = true)
    (h0 : a.toReal ≠ 0) : r = a := by
  rcases hf with rfl | ⟨s, mag, -, rfl⟩
  · simp [Fp.isFinite] at ha
  · have hm : mag < f.infCode := by simpa using ha
    have hval := Fp.toReal_ofMag f s mag hm
    have hpos : 0 < f.magValue mag := by
      refine lt_of_le_of_ne (magValue_nonneg f mag) fun he => h0 ?_
      rw [hval, ← he, mul_zero]
    have hsign : decide ((Fp.ofMag f s mag).toReal < 0) = s := by
      rw [hval]
      cases s <;> simp [hpos, hpos.le]
    have habs : f.magValue mag = |(Fp.ofMag f s mag).toReal| := by
      rw [hval]
      cases s <;> simp [abs_of_pos hpos]
    rw [h.eq_ofMag h0 hm habs, hsign]

/-- A word that is not a NaN is stored as it was read (R12). -/
theorem toF32_ofF32 (nb : Nat) {w : Word} (h : (ofF32 w).isNaN = false) : toF32 nb (ofF32 w) = w := by
  have hw := w.isLt
  unfold ofF32 Fp.decodeBits at h ⊢
  simp only at h ⊢
  split at h
  · rename_i hle
    rw [if_pos hle, toF32, Fp.encodeBits_ofMag f32 nb _ _ hle]
    apply BitVec.eq_of_toNat_eq
    have hbits : f32.ebits + f32.mbits = 31 := rfl
    rw [hbits, BitVec.toNat_ofNat]
    by_cases hs : w.toNat / 2 ^ 31 % 2 = 1
    · rw [decide_eq_true hs, Bool.toNat_true]; omega
    · rw [decide_eq_false hs, Bool.toNat_false]; omega
  · simp [Fp.isNaN] at h

/-- A finite word of value 0 is one of the two zeros (R12). -/
theorem zero_word {w : Word} (hw : finiteWord w = true) (h : (ofF32 w).toReal = 0) : w = 0x00000000 ∨ w = 0x80000000 := by
  rcases ofF32_cases w with hn | ⟨s, mag, -, he⟩
  · simp [finiteWord, hn, Fp.isFinite] at hw
  · have hm : mag < f32.infCode := by simpa [finiteWord, he] using hw
    have hval : f32.magValue mag = f32.magValue 0 := by
      rw [he, Fp.toReal_ofMag f32 s mag hm] at h
      cases s <;> simpa using h
    obtain rfl := (magValue_strictMono f32).injective hval
    have hback := toF32_ofF32 0 (w := w) (by rw [he, Fp.isNaN_ofMag])
    rw [he] at hback
    rw [← hback]
    cases s <;> decide +kernel

/-- The word 0 reads as +0. -/
theorem ofF32_zero : ofF32 0 = .fin false 0 f32.qmin := by decide +kernel

/-- Multiplying by 1 and adding +0 give a non-zero datum back (R150, R157). -/
theorem ident_output {x : Fp} (hf : Fp.inFormat f32 x) (hx : x.isFinite = true) (h0 : x.toReal ≠ 0) :
    add32 (mul32 (ofF32 Coefs.ident.b0) x) (ofF32 0) = x := by
  have hmul : mul32 (ofF32 Coefs.ident.b0) x = x := by
    have h := rounds_mul f32 (ofF32 Coefs.ident.b0) x (by decide +kernel) hx
    rw [show ofF32 Coefs.ident.b0 = .fin false 8388608 (-23) by decide +kernel] at h ⊢
    rw [show (Fp.fin false 8388608 (-23)).toReal = 1 by norm_num [Fp.toReal], one_mul] at h
    exact h.eq_self hf hx h0
  have h := rounds_add f32 f32_infCode_pos x (ofF32 0) hx (by decide +kernel)
  rw [ofF32_zero] at h ⊢
  rw [show (Fp.fin false 0 f32.qmin).toReal = 0 by simp [Fp.toReal], add_zero] at h
  rw [hmul]
  exact h.eq_self hf hx h0

/-- The difference of two equal products with +0 is +0 (R13, R150). -/
theorem zero_products_sub {x : Fp} (hx : x.isFinite = true) :
    sub32 (mul32 (ofF32 0) x) (mul32 (ofF32 0) x) = .fin false 0 f32.qmin := by
  have hprod : mul32 (ofF32 0) x = .fin (false != x.sign) 0 f32.qmin := by
    rw [ofF32_zero]
    exact mul_eq_zero_sign f32 f32_ebits_pos rfl hx (by simp [Fp.toReal])
  rw [hprod]
  cases x.sign <;> decide +kernel

/-- A stage with IDENT and zero registers on a finite word that is no zero. -/
theorem stage_ident {w : Word} (hw : finiteWord w = true) (h0 : (ofF32 w).toReal ≠ 0) :
    stage Coefs.ident ⟨0, 0⟩ w = ⟨w, ⟨0, 0⟩, false⟩ := by
  have hy := ident_output (ofF32_cases w) hw h0
  have hz := zero_products_sub hw
  have ht : add32 (.fin false 0 f32.qmin) (ofF32 0) = .fin false 0 f32.qmin := by decide +kernel
  have hstore : toF32 0 (.fin false 0 f32.qmin) = 0 := by decide +kernel
  have hn : (ofF32 w).isNaN = false := by
    unfold finiteWord at hw
    cases h : ofF32 w <;> simp_all [Fp.isFinite, Fp.isNaN]
  have hfin : (ofF32 w).isFinite = true := hw
  simp only [stage, show Coefs.ident.b1 = 0 from rfl, show Coefs.ident.b2 = 0 from rfl, show Coefs.ident.a1 = 0 from rfl,
    show Coefs.ident.a2 = 0 from rfl, hy, hz, ht, hfin, hstore, toF32_ofF32 0 hn]
  rfl

/-- Settles O37: the two zeros are evaluated, and any other finite word is a non-zero datum of the format. -/
theorem identityStage : Obligations.IdentityStage := by
  refine ⟨rfl, fun w hw hne => ?_, by decide +kernel, reset_coef⟩
  by_cases h0 : (ofF32 w).toReal = 0
  · obtain rfl := (zero_word hw h0).resolve_right hne
    decide +kernel
  · exact stage_ident hw h0

end Sys2Proof.Machine
end

section
/-! PROOFS. The two address spaces (spec/20_memory.md R61 to R66, R81, R82): what an access outside the maps does, what a
write does item by item, and the words of the two RAMs. -/

namespace Sys2Proof.Machine

/-! ## Illegal accesses -/

/-- Every mapped word of either port is aligned (R61, R62). -/
theorem legalRead_aligned {p : Port} {a : Nat} (h : legalRead p a) : a % 4 = 0 := by
  cases p with
  | a =>
    rcases h with h | ⟨j, -, rfl⟩ | ⟨j, -, rfl⟩ | ⟨j, -, rfl⟩
    · simp only [List.mem_cons, List.not_mem_nil, or_false] at h
      omega
    all_goals omega
  | c =>
    rcases h with h | ⟨j, -, rfl⟩ | ⟨j, -, rfl⟩ | ⟨j, -, rfl⟩ | ⟨j, -, rfl | rfl⟩
    · simp only [List.mem_cons, List.not_mem_nil, or_false] at h
      omega
    all_goals omega

/-- Every writable word is a mapped one (R64). -/
theorem legalRead_of_legalWrite {p : Port} {a : Nat} (h : legalWrite p a) : legalRead p a := by
  cases p with
  | a =>
    rcases h with h | h | h
    · left
      simp only [List.mem_cons, List.not_mem_nil, or_false] at h ⊢
      omega
    · exact .inr (.inr (.inl h))
    · exact .inr (.inr (.inr h))
  | c =>
    rcases h with h | h
    · left
      simp only [List.mem_cons, List.not_mem_nil, or_false] at h ⊢
      omega
    · exact .inr (.inl h)

/-- A read of a mapped word changes nothing (R63). -/
theorem memRead_legal {p : Port} {addr : Word} (h : legalRead p addr.toNat) (s : State) : (memRead p addr s).2 = s := by
  cases p with
  | a =>
    obtain ⟨it, hit⟩ := Option.isSome_iff_exists.mp ((itemA_isSome addr).mpr h)
    rw [memRead_itemA hit]
  | c =>
    obtain ⟨it, hit⟩ := Option.isSome_iff_exists.mp ((itemC_isSome addr).mpr h)
    rw [memRead_itemC hit]

/-- A read of an unmapped word returns 0 and raises ERR_BAD_ACCESS (R65). -/
theorem memRead_illegal {p : Port} {addr : Word} (h : ¬ legalRead p addr.toNat) (s : State) :
    memRead p addr s = (0, raiseAccess p s) := by
  cases p with
  | a =>
    have hit : itemA addr = none := Option.not_isSome_iff_eq_none.mp fun hs => h ((itemA_isSome addr).mp hs)
    simp only [memRead, hit]
  | c =>
    have hit : itemC addr = none := Option.not_isSome_iff_eq_none.mp fun hs => h ((itemC_isSome addr).mp hs)
    simp only [memRead, hit]

/-- A write to a word that is not writable raises ERR_BAD_ACCESS and does nothing else, whether the word is mapped or
not (R64, R65). -/
theorem memWrite_illegal {p : Port} {addr : Word} (h : ¬ legalWrite p addr.toNat) (v : Word) (s : State) :
    memWrite p addr v s = .next (raiseAccess p s) := by
  cases p with
  | a =>
    cases hit : itemA addr with
    | none => simp only [memWrite, hit]
    | some it => exact memWrite_readOnlyA hit (Bool.eq_false_iff.mpr fun hw => h (writableA_item addr it hit hw)) v s
  | c =>
    cases hit : itemC addr with
    | none => simp only [memWrite, hit]
    | some it => exact memWrite_readOnlyC hit (Bool.eq_false_iff.mpr fun hw => h (writableC_item addr it hit hw)) v s

/-- Settles O9: the accesses outside the listed words are those that find no item, or one that is not writable. -/
theorem illegalAccess : Obligations.IllegalAccess := by
  refine ⟨fun p addr hmis => ?_, fun p addr s h => memRead_legal h s, fun addr v s => ?_, fun s => ?_⟩
  · have hread : ¬ legalRead p addr.toNat := fun h => hmis (legalRead_aligned h)
    exact ⟨hread, fun h => hread (legalRead_of_legalWrite h)⟩
  · exact ⟨fun h => memRead_illegal h s, fun h => memWrite_illegal h v s, fun h => memRead_illegal h s,
      fun h => memWrite_illegal h v s⟩
  · exact ⟨aStatus_getLsbD s 12 (by decide), cStatus_getLsbD s 11 (by decide)⟩

/-! ## Writes -/

/-- Settles O10: each writable item stands at its address and has one named update. -/
theorem writeEffects : Obligations.WriteEffects := by
  refine ⟨fun v s => ?_, fun f v s => memWrite_itemC (itemC_param f) v s, fun ch k v s hk => ?_,
    fun p addr v s h => memWrite_illegal h v s⟩
  · exact ⟨memWrite_itemA itemA_cmd v s, memWrite_itemC itemC_cmd v s, memWrite_itemA itemA_fs v s,
      memWrite_itemC itemC_respFs v s, memWrite_itemA itemA_fault v s, memWrite_itemC itemC_status v s⟩
  · exact memWrite_itemA (itemA_sampleAddr ch k hk) v s

/-! ## The sample RAM -/

theorem memWrite_sample (ch : Fin 2) {k : Nat} (hk : k < Config.bufDepth) (v : Word) (s : State) :
    memWrite .a (BitVec.ofNat 32 (sampleAddr ch k)) v s = .next (s.storeSample (sampleAddr ch k) v) :=
  memWrite_itemA (itemA_sampleAddr ch k hk) v s

theorem memRead_sample (ch : Fin 2) {k : Nat} (hk : k < Config.bufDepth) (s : State) :
    memRead .a (BitVec.ofNat 32 (sampleAddr ch k)) s = (s.sampleWord (sampleAddr ch k), s) :=
  memRead_itemA (itemA_sampleAddr ch k hk) s

theorem sampleWord_storeSample_same (s : State) (a : Nat) (v : Word) : (s.storeSample a v).sampleWord a = v :=
  Memory.loadWord_storeWord_same _ _ _ _

theorem sampleWord_storeSample_other (s : State) {a b : Nat} (v : Word) (h : b + 4 ≤ a ∨ a + 4 ≤ b) :
    (s.storeSample a v).sampleWord b = s.sampleWord b :=
  Memory.loadWord_storeWord_other _ _ _ _ _ h

/-- The bytes of a stored word, least significant first (R66). -/
theorem sampleByteAt_storeSample_same (s : State) (a : Nat) (v : Word) {j : Nat} (hj : j < 4) :
    (s.storeSample a v).sampleByteAt (a + j) = byteOf v j := by
  have hbyte := Memory.byteAt_storeWord s.ramA (Config.sampleByte s.run) a (a + j) v
  rwa [if_pos (by omega), Nat.add_sub_cancel_left] at hbyte

theorem sampleByteAt_storeSample_outside (s : State) {a b : Nat} (v : Word) (h : b < a ∨ a + 4 ≤ b) :
    (s.storeSample a v).sampleByteAt b = s.sampleByteAt b :=
  Memory.byteAt_storeWord_outside _ _ _ _ _ h

/-- Two sample words do not overlap (R81): within a channel they are a word apart, and each channel's array ends below
the next one. -/
theorem sampleAddr_apart {c ch : Fin 2} {j k : Nat} (hj : j < Config.bufDepth) (hk : k < Config.bufDepth)
    (hne : (c, j) ≠ (ch, k)) : sampleAddr c j + 4 ≤ sampleAddr ch k ∨ sampleAddr ch k + 4 ≤ sampleAddr c j := by
  have hne' : c.val ≠ ch.val ∨ j ≠ k := by
    by_contra hboth
    obtain ⟨hc, rfl⟩ : c.val = ch.val ∧ j = k := by omega
    exact hne (by rw [Fin.ext hc])
  simp only [Config.bufDepth] at hj hk
  simp only [sampleAddr]
  omega

/-- Settles O17: the write is one store, whose bytes and words the RAM's laws give. -/
theorem sampleWrite : Obligations.SampleWrite := by
  intro ch k v s hk
  refine ⟨s.storeSample (sampleAddr ch k) v, memWrite_sample ch hk v s, ?_, fun j => ?_, fun a ha => ?_,
    fun c j hj hne => ?_, rfl⟩
  · rw [memRead_sample ch hk, sampleWord_storeSample_same]
  · exact sampleByteAt_storeSample_same s _ v j.isLt
  · exact sampleByteAt_storeSample_outside s v ha
  · exact sampleWord_storeSample_other s v (sampleAddr_apart hj hk hne)

/-! ## The response RAM -/

/-- Where the two words of an entry stand (R66, R82). -/
theorem itemC_respLow {i : Nat} (hi : i < Config.respDepth) :
    itemC (BitVec.ofNat 32 (0x10000 + 8 * i)) = some (.resp i false) := itemC_respAddr i false hi

theorem itemC_respHigh {i : Nat} (hi : i < Config.respDepth) :
    itemC (BitVec.ofNat 32 (0x10004 + 8 * i)) = some (.resp i true) := by
  have haddr : 0x10004 + 8 * i = respAddr i + 4 := by unfold respAddr; omega
  rw [haddr]
  exact itemC_respAddr i true hi

/-- An entry's two halves (R66). -/
theorem respEntry_low (s : State) (i : Nat) : (s.respEntry i).extractLsb' 0 32 = s.respWord (respAddr i) :=
  BitVec.extractLsb'_append_eq_right

theorem respEntry_high (s : State) (i : Nat) : (s.respEntry i).extractLsb' 32 32 = s.respWord (respAddr i + 4) :=
  BitVec.extractLsb'_append_eq_left

/-- Settles O18: the two words of an entry are read-only items, each a half of the entry. -/
theorem responseRead : Obligations.ResponseRead := by
  intro i v s hi
  refine ⟨?_, ?_, memWrite_readOnlyC (itemC_respLow hi) rfl v s, memWrite_readOnlyC (itemC_respHigh hi) rfl v s⟩
  · rw [memRead_itemC (itemC_respLow hi), respEntry_low]
    rfl
  · rw [memRead_itemC (itemC_respHigh hi), respEntry_high]
    rfl

end Sys2Proof.Machine
end

section
/-! PROOFS. The separation of the two agents (spec/20_memory.md R83; spec/60_exceptions.md R252): a turn commutes with any
change of what belongs to the other agent alone, shown of each operation that the turn is made of. -/

namespace Sys2Proof.Machine

/-- The state with what belongs to the agent of the other port than `p` alone (R83) as `o` has it. -/
def State.withOther (p : Port) (s o : State) : State :=
  match p with
  | .a => { s with params := o.params, dirty := o.dirty, ramC := o.ramC, cErr := o.cErr, cRespFs := o.cRespFs }
  | .c =>
    { s with
      delay := o.delay, blk := o.blk, ramA := o.ramA, fault := o.fault, aErr := o.aErr, aFs := o.aFs,
      maxBlock := o.maxBlock }

@[simp] theorem withOther_bases (p : Port) (s o : State) : (s.withOther p o).bases = s.bases := by cases p <;> rfl

/-! ## Commands -/

theorem raiseIf_aErr_withOther (b : Bool) {e : ErrorBit} (he : e = .aBadFs ∨ e = .aBadBlock) (s o : State) :
    raiseIf b e (s.withOther .a o) = (raiseIf b e s).withOther .a o := by
  rcases he with rfl | rfl <;> cases b <;> rfl

theorem raiseIf_cErr_withOther (b : Bool) {e : ErrorBit} (he : e = .cBadWidth ∨ e = .cBadFs) (s o : State) :
    raiseIf b e (s.withOther .c o) = (raiseIf b e s).withOther .c o := by
  rcases he with rfl | rfl <;> cases b <;> rfl

theorem exec_withOther {p : Port} {i : Instr} (hi : i.port = p) (s o : State) :
    exec i (s.withOther p o) = onNext (exec i s) fun t => t.withOther p o := by
  cases i with
  | aNop | cNop => rfl
  | aPrepare m =>
    obtain rfl : Port.a = p := hi
    have hfs : (s.withOther .a o).aFs = s.aFs := rfl
    simp only [exec, execAPrepare, hfs]
    split
    · simp only [raiseIf_aErr_withOther _ (.inl rfl), raiseIf_aErr_withOther _ (.inr rfl), onNext_next]
    · rfl
  | aProcessBlock n =>
    obtain rfl : Port.a = p := hi
    have hp : (s.withOther .a o).prepared = s.prepared := rfl
    have hm : (s.withOther .a o).maxBlock = s.maxBlock := rfl
    simp only [exec, execAProcessBlock, hp, hm]
    split
    · rfl
    · split
      · rfl
      · split <;> rfl
  | cUpdate =>
    obtain rfl : Port.c = p := hi
    have hp : (s.withOther .c o).prepared = s.prepared := rfl
    have hd : (s.withOther .c o).dirty = s.dirty := rfl
    simp only [exec, execCUpdate, hp, hd]
    split
    · rfl
    · split <;> rfl
  | cGetResponse w =>
    obtain rfl : Port.c = p := hi
    have hfs : (s.withOther .c o).cRespFs = s.cRespFs := rfl
    simp only [exec, execCGetResponse, hfs]
    split
    · simp only [raiseIf_cErr_withOther _ (.inl rfl), raiseIf_cErr_withOther _ (.inr rfl), onNext_next]
    · rfl

/-! ## Transactions -/

theorem writeCommand_withOther (p : Port) (v : Word) (s o : State) :
    writeCommand p v (s.withOther p o) = onNext (writeCommand p v s) fun t => t.withOther p o := by
  unfold writeCommand
  cases hd : decode p v with
  | error e => cases p <;> rfl
  | ok i => exact exec_withOther (decode_port p v i hd) s o

theorem memWrite_withOther (p : Port) (addr v : Word) (s o : State) :
    memWrite p addr v (s.withOther p o) = onNext (memWrite p addr v s) fun t => t.withOther p o := by
  cases p with
  | a =>
    simp only [memWrite]
    cases itemA addr with
    | none => rfl
    | some it =>
      cases it with
      | cmd => exact writeCommand_withOther .a v s o
      | _ => rfl
  | c =>
    simp only [memWrite]
    cases itemC addr with
    | none => rfl
    | some it =>
      cases it with
      | cmd => exact writeCommand_withOther .c v s o
      | _ => rfl

theorem memRead_withOther (p : Port) (addr : Word) (s o : State) :
    memRead p addr (s.withOther p o) = ((memRead p addr s).1, (memRead p addr s).2.withOther p o) := by
  cases p with
  | a =>
    simp only [memRead]
    cases itemA addr with
    | none => rfl
    | some it => cases it <;> rfl
  | c =>
    simp only [memRead]
    cases itemC addr with
    | none => rfl
    | some it => cases it <;> rfl

theorem reply_withOther (p : Port) (r : Reply) (s o : State) :
    reply p r (s.withOther p o) = (reply p r s).withOther p o := by cases p <;> rfl

/-- A completion looks at BLK on port A alone, whose agent it belongs to. -/
theorem completeWrite_withOther (p : Port) (s o : State) :
    completeWrite p (s.withOther p o) = (completeWrite p s).withOther p o := by
  cases p with
  | a =>
    have hb : (s.withOther .a o).blk = s.blk := rfl
    simp only [completeWrite, hb]
    split <;> rfl
  | c => rfl

theorem perform_withOther (p : Port) (x : Txn) (s o : State) :
    perform p x (s.withOther p o) = onNext (perform p x s) fun t => t.withOther p o := by
  cases x with
  | read addr => simp only [perform, withOther_bases, memRead_withOther, reply_withOther, onNext_next]
  | write addr v =>
    simp only [perform, withOther_bases, memWrite_withOther]
    cases memWrite p (portOffset s.bases p addr) v s with
    | next u => simp only [onNext_next, completeWrite_withOther]
    | fault r | refused r => rfl

/-! ## Turns -/

/-- Agent C neither reads nor writes what belongs to agent A alone. -/
theorem controlTurn_withOther (s o : State) :
    controlTurn (s.withOther .c o) = onNext (controlTurn s) fun t => t.withOther .c o := by
  have hq : (s.withOther .c o).pendingC = s.pendingC := rfl
  simp only [controlTurn, hq]
  cases s.pendingC with
  | nil => rfl
  | cons x q => exact perform_withOther .c x { s with pendingC := q } o

theorem advanceBlock_withOther (s o : State) :
    advanceBlock (s.withOther .a o) = (advanceBlock s).withOther .a o := rfl

theorem frame_withOther (k : Nat) (s o : State) : frame k (s.withOther .a o) = (frame k s).withOther .a o := by
  unfold frame channelFlow State.sampleWord State.storeSample
  rfl

/-- A frame or end step of the block in flight (R182). -/
theorem blockStep_withOther (s o : State) : blockStep (s.withOther .a o) = (blockStep s).withOther .a o := by
  rcases Nat.lt_or_ge s.blk.k s.blk.n with hk | hk
  · rw [blockStep_frame s hk, ← advanceBlock_withOther, ← frame_withOther]
    exact blockStep_frame (s.withOther .a o) hk
  · rw [blockStep_end s hk]
    exact blockStep_end (s.withOther .a o) hk

/-- Agent A neither reads nor writes what belongs to agent C alone. -/
theorem audioTurn_withOther (s o : State) :
    audioTurn (s.withOther .a o) = onNext (audioTurn s) fun t => t.withOther .a o := by
  have hb : (s.withOther .a o).blk = s.blk := rfl
  have hq : (s.withOther .a o).pendingA = s.pendingA := rfl
  simp only [audioTurn, hb, hq]
  split
  · simp only [onNext_next, blockStep_withOther]
  · cases s.pendingA with
    | nil => rfl
    | cons x q => exact perform_withOther .a x { s with pendingA := q } o

/-- Settles O56: each agent's turn commutes with a change of what is the other's alone. -/
theorem agentSeparation : Obligations.AgentSeparation :=
  ⟨fun s d b m f e fs n => controlTurn_withOther s
      { s with delay := d, blk := b, ramA := m, fault := f, aErr := e, aFs := fs, maxBlock := n },
    fun s p b m e fs => audioTurn_withOther s { s with params := p, dirty := b, ramC := m, cErr := e, cRespFs := fs }⟩

end Sys2Proof.Machine
end

section
/-! PROOFS. The order of steps (spec/20_memory.md R69, R70, R74): a port serves its host's next transaction, a block in
flight moves on at agent A's turns whatever agent C does, and a program text is one run of the machine. -/

namespace Sys2Proof.Machine

/-! ## Commands and transactions complete -/

theorem exec_next (i : Instr) (s : State) : ∃ t, exec i s = .next t := by
  cases i with
  | aNop | cNop => exact ⟨s, rfl⟩
  | aPrepare m =>
    simp only [exec, execAPrepare]
    split <;> exact ⟨_, rfl⟩
  | aProcessBlock n =>
    simp only [exec, execAProcessBlock]
    split
    · exact ⟨_, rfl⟩
    · split
      · exact ⟨_, rfl⟩
      · split <;> exact ⟨_, rfl⟩
  | cUpdate =>
    simp only [exec, execCUpdate]
    split
    · exact ⟨_, rfl⟩
    · split <;> exact ⟨_, rfl⟩
  | cGetResponse w =>
    simp only [exec, execCGetResponse]
    split <;> exact ⟨_, rfl⟩

theorem writeCommand_next (p : Port) (v : Word) (s : State) : ∃ t, writeCommand p v s = .next t := by
  unfold writeCommand
  cases decode p v with
  | error e => exact ⟨_, rfl⟩
  | ok i => exact exec_next i s

theorem memWrite_next (p : Port) (addr v : Word) (s : State) : ∃ t, memWrite p addr v s = .next t := by
  cases p with
  | a =>
    simp only [memWrite]
    cases itemA addr with
    | none => exact ⟨_, rfl⟩
    | some it =>
      cases it with
      | cmd => exact writeCommand_next .a v s
      | _ => exact ⟨_, rfl⟩
  | c =>
    simp only [memWrite]
    cases itemC addr with
    | none => exact ⟨_, rfl⟩
    | some it =>
      cases it with
      | cmd => exact writeCommand_next .c v s
      | _ => exact ⟨_, rfl⟩

theorem perform_next (p : Port) (x : Txn) (s : State) : ∃ t, perform p x s = .next t := by
  cases x with
  | read addr => exact ⟨_, rfl⟩
  | write addr v =>
    obtain ⟨u, hu⟩ := memWrite_next p (portOffset s.bases p addr) v s
    exact ⟨completeWrite p u, by simp only [perform, hu, onNext_next]⟩

/-! ## The hosts' side of the bus -/

theorem raiseIf_withBus (b : Bool) (e : ErrorBit) (s o : State) :
    (raiseIf b e s).withBus o = raiseIf b e (s.withBus o) := by
  cases b
  · rfl
  · cases e <;> rfl

theorem raiseAccess_withBus (p : Port) (s : State) : (raiseAccess p s).withBus s = raiseAccess p s := by
  cases p <;> rfl

/-- A command leaves the hosts' side alone. -/
theorem exec_withBus {i : Instr} {s t : State} (h : exec i s = .next t) : t.withBus s = t := by
  rcases exec_cases i s t h with rfl | ⟨e, rfl⟩ | ⟨b, c, d, e, rfl⟩ | ⟨n, -, -, -, -, rfl⟩ | ⟨m, -, -, -, -, rfl⟩
    | ⟨-, -, -, rfl⟩ | ⟨w, -, -, -, rfl⟩
  · rfl
  · exact raiseIf_withBus true e s s
  · rw [raiseIf_withBus, raiseIf_withBus]; rfl
  all_goals rfl

/-- So does a write, before its completion. -/
theorem memWrite_withBus {p : Port} {addr v : Word} {s t : State} (h : memWrite p addr v s = .next t) :
    t.withBus s = t := by
  rcases memWrite_cases p addr v s t h with rfl | rfl | ⟨i, -, -, hx⟩ | ⟨-, rfl⟩ | ⟨-, -, rfl⟩ | ⟨ch, k, -, -, rfl⟩
    | ⟨-, rfl⟩ | ⟨f, -, -, rfl⟩ | ⟨-, -, rfl⟩
  · exact raiseAccess_withBus p s
  · cases p <;> rfl
  · exact exec_withBus hx
  all_goals rfl

theorem memRead_withBus (p : Port) (addr : Word) (s : State) :
    (memRead p addr s).2.withBus s = (memRead p addr s).2 := by
  rcases memRead_cases p addr s with hs | ⟨-, hs⟩
  · rw [hs]; rfl
  · rw [hs]; exact raiseAccess_withBus p s

/-- Port C's transaction completes with one reply, and moves the hosts' side no further. -/
theorem perform_control {x : Txn} {s t : State} (h : perform .c x s = .next t) :
    ∃ u r, u.withBus s = u ∧ t = reply .c r u := by
  rcases perform_cases .c x s t h with ⟨addr, -, rfl⟩ | ⟨addr, v, u, -, hu, rfl⟩
  · exact ⟨_, _, memRead_withBus .c _ s, rfl⟩
  · exact ⟨u, .done, memWrite_withBus hu, rfl⟩

/-- BLK is agent A's alone, so agent C leaves it as it was. -/
theorem perform_control_blk {x : Txn} {s t : State} (h : perform .c x s = .next t) : t.blk = s.blk := by
  have hsep := perform_withOther .c x s s
  rw [h, onNext_next] at hsep
  have ht : t = t.withOther .c s := (Host.Outcome.next.injEq _ _).mp (h.symm.trans hsep)
  rw [ht]; rfl

/-- A port C transaction completes, adds one reply on its port, and leaves BLK, both queues, the schedule and port A's
replies alone (R69). -/
theorem perform_control_next (x : Txn) (s : State) :
    ∃ t r, perform .c x s = .next t ∧ t.blk = s.blk ∧ t.turns = s.turns ∧ t.pendingA = s.pendingA
      ∧ t.pendingC = s.pendingC ∧ t.repliesA = s.repliesA ∧ t.repliesC = r :: s.repliesC := by
  obtain ⟨t, ht⟩ := perform_next .c x s
  have hblk := perform_control_blk ht
  obtain ⟨u, r, hu, rfl⟩ := perform_control ht
  refine ⟨_, r, ht, hblk, ?_⟩
  rw [← hu]
  exact ⟨rfl, rfl, rfl, rfl, rfl⟩

/-! ## One turn -/

theorem step_audio {s : State} {ts : List Turn} {x : Txn} {q : List Txn} (hturns : s.turns = .a :: ts)
    (hq : s.pendingA = x :: q) (hb : s.blk.busy = false) :
    step s = perform .a x { s with turns := ts, pendingA := q } := by
  simp only [step, hturns, audioTurn, hb, Bool.false_eq_true, if_false, hq]

theorem step_control {s : State} {ts : List Turn} {x : Txn} {q : List Txn} (hturns : s.turns = .c :: ts)
    (hq : s.pendingC = x :: q) : step s = perform .c x { s with turns := ts, pendingC := q } := by
  simp only [step, hturns, controlTurn, hq]

theorem step_control_nil {s : State} {ts : List Turn} (hturns : s.turns = .c :: ts) (hq : s.pendingC = []) :
    step s = .next { s with turns := ts } := by
  simp only [step, hturns, controlTurn, hq]

/-- A block's step leaves what is pending and the schedule alone. -/
theorem blockStep_queues (s : State) :
    (blockStep s).turns = s.turns ∧ (blockStep s).pendingA = s.pendingA ∧ (blockStep s).pendingC = s.pendingC := by
  rcases Nat.lt_or_ge s.blk.k s.blk.n with hk | hk
  · rw [blockStep_frame s hk]; simp
  · rw [blockStep_end s hk]; simp

/-! ## A block in flight -/

/-- A frame step at agent A's turn. -/
theorem step_frame {s : State} {ts : List Turn} {n k : Nat} (hturns : s.turns = .a :: ts) (hblk : s.blk = ⟨true, n, k⟩)
    (hk : k < n) :
    ∃ t, step s = .next t ∧ t.turns = ts ∧ t.blk = ⟨true, n, k + 1⟩ ∧ t.repliesA = s.repliesA := by
  refine ⟨_, step_block s ts hturns (by rw [hblk]), ?_⟩
  rw [blockStep_frame _ (by simpa only [hblk] using hk)]
  simp [advanceBlock, hblk]

/-- The end step at agent A's turn. -/
theorem step_blockEnd {s : State} {ts : List Turn} {n : Nat} (hturns : s.turns = .a :: ts)
    (hblk : s.blk = ⟨true, n, n⟩) :
    ∃ t, step s = .next t ∧ t.blk = ⟨false, 0, 0⟩ ∧ t.repliesA = .done :: s.repliesA := by
  refine ⟨_, step_block s ts hturns (by rw [hblk]), ?_⟩
  rw [blockStep_end _ (by simp only [hblk, le_refl])]
  exact ⟨rfl, rfl⟩

/-- Agent C's turn does not touch a block in flight. -/
theorem step_control_beside {s : State} {ts : List Turn} (hturns : s.turns = .c :: ts) :
    ∃ t, step s = .next t ∧ t.turns = ts ∧ t.blk = s.blk ∧ t.repliesA = s.repliesA := by
  cases hq : s.pendingC with
  | nil => exact ⟨_, step_control_nil hturns hq, rfl, rfl, rfl⟩
  | cons x q =>
    obtain ⟨t, r, ht, hblk, hts, -, -, hra, -⟩ := perform_control_next x { s with turns := ts, pendingC := q }
    exact ⟨t, (step_control hturns hq).trans ht, hts, hblk, hra⟩

/-- The frames left of a block run while agent A has its turns, with any number of agent C's between them. -/
theorem run_frames {n : Nat} (ts rest : List Turn) {s : State} {k : Nat} (hblk : s.blk = ⟨true, n, k⟩) (hk : k ≤ n)
    (hturns : s.turns = ts ++ rest) (hr : .reset ∉ ts) (hcount : ts.count .a = n - k) :
    ∃ u, core.run ts.length s = .next u ∧ u.turns = rest ∧ u.blk = ⟨true, n, n⟩ ∧ u.repliesA = s.repliesA := by
  induction ts generalizing s k with
  | nil =>
    obtain rfl : k = n := by simp only [List.count_nil] at hcount; omega
    exact ⟨s, run_zero s, hturns, hblk, rfl⟩
  | cons turn ts ih =>
    obtain ⟨hne, hrest⟩ := not_or.mp (List.mem_cons.not.mp hr)
    rw [List.length_cons]
    cases turn with
    | a =>
      rw [List.count_cons_self] at hcount
      obtain ⟨t, ht, hts, htb, hta⟩ := step_frame hturns hblk (by omega)
      rw [run_step _ _ _ ht, ← hta]
      exact ih htb (by omega) hts hrest (by omega)
    | c =>
      rw [List.count_cons_of_ne (by decide)] at hcount
      obtain ⟨t, ht, hts, htb, hta⟩ := step_control_beside hturns
      rw [run_step _ _ _ ht, ← hta]
      exact ih (htb.trans hblk) hk hts hrest hcount
    | reset => exact absurd rfl hne

/-- Settles O29: the frames left run, by induction on the schedule, and agent A's last turn is the end step. -/
theorem blockTerminatesInterleaved : Obligations.BlockTerminatesInterleaved := by
  intro ts rest s hb hk hturns hr hcount
  have hblk : s.blk = ⟨true, s.blk.n, s.blk.k⟩ := by rw [← hb]
  obtain ⟨u, hu, hut, hub, hua⟩ := run_frames ts (.a :: rest) hblk hk hturns hr hcount
  obtain ⟨t, ht, htb, hta⟩ := step_blockEnd hut hub
  exact ⟨u, t, hu, hub, hua, run_succ _ s u t hu ht, htb, hua ▸ hta⟩

/-! ## Waiting for the block in flight -/

theorem drain_idle {s : State} (hb : s.blk.busy = false) (count : Nat) : drain count s = s := by
  cases count with
  | zero => rfl
  | succ count => rw [drain, hb, if_neg Bool.false_ne_true]

theorem drain_busy {s : State} (hb : s.blk.busy = true) (count : Nat) :
    drain (count + 1) s = drain count (blockStep s) := by
  rw [drain, if_pos hb]

/-- Enough steps bring the block in flight to its end. -/
theorem drain_not_busy (count : Nat) (s : State) (hcount : s.blk.n - s.blk.k < count) :
    (drain count s).blk.busy = false := by
  induction count generalizing s with
  | zero => omega
  | succ count ih =>
    cases hb : s.blk.busy with
    | false => rw [drain_idle hb, hb]
    | true =>
      rw [drain_busy hb]
      rcases Nat.lt_or_ge s.blk.k s.blk.n with hk | hk
      · refine ih _ ?_
        rw [blockStep_frame s hk]
        simp only [advanceBlock, frame_blk]
        omega
      · rw [blockStep_end s hk, drain_idle rfl]
        rfl

theorem wait_not_busy (s : State) : (wait .a s).blk.busy = false := drain_not_busy _ s (Nat.lt_succ_self _)

theorem drain_queued (count : Nat) (s : State) (ts : List Turn) (qa qc : List Txn) :
    drain count (s.queued ts qa qc) = (drain count s).queued ts qa qc := by
  induction count generalizing s with
  | zero => rfl
  | succ count ih =>
    cases hb : s.blk.busy with
    | false =>
      rw [drain_idle hb]
      exact drain_idle (s := s.queued ts qa qc) hb _
    | true =>
      rw [drain_busy hb, ← ih, ← blockStep_queued]
      exact drain_busy (s := s.queued ts qa qc) hb count

theorem wait_queued (p : Port) (s : State) (ts : List Turn) (qa qc : List Txn) :
    wait p (s.queued ts qa qc) = (wait p s).queued ts qa qc := by
  cases p with
  | a => exact drain_queued _ s ts qa qc
  | c => rfl

/-- Waiting is a number of agent A's turns. -/
theorem run_drain (count : Nat) (s : State) : ∃ m, ∀ us qa qc,
    core.run m (s.queued (List.replicate m .a ++ us) qa qc) = .next ((drain count s).queued us qa qc) := by
  induction count generalizing s with
  | zero => exact ⟨0, fun us qa qc => rfl⟩
  | succ count ih =>
    cases hb : s.blk.busy with
    | false => exact ⟨0, fun us qa qc => by rw [drain_idle hb]; rfl⟩
    | true =>
      obtain ⟨m, hm⟩ := ih (blockStep s)
      refine ⟨m + 1, fun us qa qc => ?_⟩
      have hstep := step_block (s.queued (.a :: (List.replicate m .a ++ us)) qa qc) _ rfl hb
      rw [drain_busy hb, ← hm us qa qc, ← blockStep_queued]
      exact run_step m _ _ hstep

/-! ## A program text -/

theorem runLine_queued (l : Line) (s : State) (ts : List Turn) (qa qc : List Txn) :
    runLine l (s.queued ts qa qc) = onNext (runLine l s) fun t => t.queued ts qa qc := by
  unfold runLine
  rw [wait_queued, perform_queued]
  cases perform l.port l.txn (wait l.port s) with
  | next u => simp only [onNext_next, wait_queued]
  | fault r | refused r => rfl

theorem runLine_next (l : Line) (s : State) : ∃ u, runLine l s = .next u := by
  obtain ⟨t, ht⟩ := perform_next l.port l.txn (wait l.port s)
  exact ⟨wait l.port t, by rw [runLine, ht, onNext_next]⟩

/-- A line is a run: the turns of the block in flight before it, its own, and those of the block that it starts. -/
theorem run_line (l : Line) {s u : State} (h : runLine l s = .next u) : ∃ τ : List Turn, .reset ∉ τ ∧ ∀ us qa qc,
    core.run τ.length (s.queued (τ ++ us) (portTxns .a [l] ++ qa) (portTxns .c [l] ++ qc)) = .next (u.queued us qa qc) := by
  obtain ⟨p, x⟩ := l
  obtain ⟨t, ht, rfl⟩ := onNext_eq_next h
  simp only at ht
  have hperform (us qa qc) : perform p x ((wait p s).queued us qa qc) = .next (t.queued us qa qc) := by
    rw [perform_queued, ht, onNext_next]
  cases p with
  | a =>
    obtain ⟨m, hm⟩ := run_drain (s.blk.n - s.blk.k + 1) s
    obtain ⟨j, hj⟩ := run_drain (t.blk.n - t.blk.k + 1) t
    refine ⟨List.replicate m .a ++ .a :: List.replicate j .a, by simp, fun us qa qc => ?_⟩
    rw [List.length_append, List.length_cons, List.length_replicate, List.length_replicate, List.append_assoc,
      run_add _ _ _ _ (hm _ _ _)]
    have hstep := step_audio (s := (wait .a s).queued (.a :: (List.replicate j .a ++ us)) (x :: qa) qc) rfl rfl
      (wait_not_busy s)
    exact (run_step j _ _ (hstep.trans (hperform _ qa qc))).trans (hj us qa qc)
  | c =>
    refine ⟨[.c], by simp, fun us qa qc => ?_⟩
    have hstep := step_control (s := s.queued (.c :: us) qa (x :: qc)) rfl rfl
    exact run_step 0 _ _ (hstep.trans (hperform us qa qc))

theorem portTxns_cons (p : Port) (l : Line) (ls : List Line) :
    portTxns p (l :: ls) = portTxns p [l] ++ portTxns p ls := by
  simp only [portTxns]
  split <;> rfl

theorem issue_cons {l : Line} {s u : State} (h : runLine l s = .next u) (ls : List Line) :
    issue (l :: ls) s = issue ls u := by
  simp only [issue, h]

/-- The lines of a text, one after another, are a run of the machine (R70, R98). -/
theorem run_issue (ls : List Line) (s : State) : ∃ τ : List Turn, .reset ∉ τ ∧ ∀ us,
    core.run τ.length (s.queued (τ ++ us) (portTxns .a ls) (portTxns .c ls)) = issue ls (s.queued us [] []) := by
  induction ls generalizing s with
  | nil => exact ⟨[], List.not_mem_nil, fun us => rfl⟩
  | cons l ls ih =>
    obtain ⟨u, hu⟩ := runLine_next l s
    obtain ⟨τ, hτ, hrun⟩ := run_line l hu
    obtain ⟨σ, hσ, hrest⟩ := ih u
    refine ⟨τ ++ σ, List.mem_append.not.mpr (not_or.mpr ⟨hτ, hσ⟩), fun us => ?_⟩
    have hline : runLine l (s.queued us [] []) = .next (u.queued us [] []) := by rw [runLine_queued, hu, onNext_next]
    rw [List.length_append, List.append_assoc, portTxns_cons .a, portTxns_cons .c, run_add _ _ _ _ (hrun _ _ _), hrest,
      issue_cons hline]

/-- Settles O8: one turn is one transaction of its port or a step of the block in flight, and the lines of a text are
scheduled one after another. -/
theorem portSequencing : Obligations.PortSequencing := by
  refine ⟨fun s ts x q hturns hq => ⟨step_audio hturns hq, fun hb => ?_⟩, fun s ts x q hturns hq => ?_,
    fun p off v s => ⟨rfl, rfl, ?_, ?_⟩, fun ls s ha hc => ?_⟩
  · obtain ⟨hts, hpa, hpc⟩ := blockStep_queues { s with turns := ts }
    exact ⟨_, step_block s ts hturns hb, hpa.trans hq, hpc, hts⟩
  · have hstep := step_control hturns hq
    obtain ⟨t, r, ht, hblk, -, hpa, hpc, -, hrc⟩ := perform_control_next x { s with turns := ts, pendingC := q }
    exact ⟨hstep, t, r, hstep.trans ht, hpc, hrc, hblk, hpa⟩
  · simp only [perform, portOffset_busAddress]
    cases p with
    | a => rw [← memRead_withBus .a off s]; rfl
    | c => rw [← memRead_withBus .c off s]; rfl
  · simp only [perform, portOffset_busAddress]
  · obtain ⟨τ, hτ, hrun⟩ := run_issue ls s
    have hload : ({ s.load ls with turns := τ ++ s.turns } : State)
        = s.queued (τ ++ s.turns) (portTxns .a ls) (portTxns .c ls) := by
      simp only [State.load, State.queued, ha, hc, List.nil_append]
    have hself : s.queued s.turns s.pendingA s.pendingC = s := rfl
    rw [ha, hc] at hself
    exact ⟨τ, hτ, by rw [hload, hrun, hself]⟩

end Sys2Proof.Machine
end

section
/-! PROOFS. The encoding of the commands (spec/30_encoding.md R90 to R101): a word is its two fields, a decoder reads
nothing else, and a write to a command register runs what its word decodes to. -/

namespace Sys2Proof.Machine

/-! ## The two fields of a word -/

/-- A word is its ARG above its OPC (R90). -/
theorem ofNat_fields (w : Word) : BitVec.ofNat 32 (argField w * 2 ^ 8 + opcField w) = w := by
  have hsum : argField w * 2 ^ 8 + opcField w = w.toNat := by
    unfold argField opcField
    omega
  rw [hsum, BitVec.ofNat_toNat, BitVec.setWidth_eq]

theorem argField_lt (w : Word) : argField w < 2 ^ 24 := by
  have hw := w.isLt
  unfold argField
  omega

/-- The word of two fields as a shift and a bitwise or (R90). -/
theorem ofNat_fields_eq_or (arg : Nat) {opc : Nat} (hopc : opc < 2 ^ 8) :
    BitVec.ofNat 32 (arg * 2 ^ 8 + opc) = BitVec.ofNat 32 arg <<< 8 ||| BitVec.ofNat 32 opc := by
  rw [Nat.mul_comm, Nat.two_pow_add_eq_or_of_lt hopc, BitVec.ofNat_or, Nat.mul_comm, BitVec.ofNat_mul,
    BitVec.shiftLeft_eq_mul_twoPow]
  rfl

theorem opcode_lt (i : Instr) : opcode i < 2 ^ 8 := by
  unfold opcode
  split <;> decide

theorem encode_fields (i : Instr) : Laws.EncodeFields.Statement i := by
  cases i with
  | aNop => exact Laws.EncodeFields.aNop
  | aPrepare m => exact Laws.EncodeFields.aPrepare m
  | aProcessBlock n => exact Laws.EncodeFields.aProcessBlock n
  | cNop => exact Laws.EncodeFields.cNop
  | cUpdate => exact Laws.EncodeFields.cUpdate
  | cGetResponse w => exact Laws.EncodeFields.cGetResponse w

/-! ## The decoders -/

theorem withoutArgument_eq_ok {arg : Nat} {i j : Instr} (h : withoutArgument arg i = .ok j) : arg = 0 ∧ i = j := by
  unfold withoutArgument at h
  split at h
  · exact ⟨‹_›, Except.ok.inj h⟩
  · cases h

theorem decodeA_fields {w : Word} {i : Instr} (h : decodeA w = .ok i) : opcField w = opcode i ∧ argField w = i.arg := by
  unfold decodeA at h
  split at h
  · obtain ⟨harg, rfl⟩ := withoutArgument_eq_ok h
    exact ⟨‹_›, harg⟩
  · split at h
    · cases h; exact ⟨‹_›, rfl⟩
    · split at h
      · cases h; exact ⟨‹_›, rfl⟩
      · cases h

theorem decodeC_fields {w : Word} {i : Instr} (h : decodeC w = .ok i) : opcField w = opcode i ∧ argField w = i.arg := by
  unfold decodeC at h
  split at h
  · obtain ⟨harg, rfl⟩ := withoutArgument_eq_ok h
    exact ⟨‹_›, harg⟩
  · split at h
    · obtain ⟨harg, rfl⟩ := withoutArgument_eq_ok h
      exact ⟨‹_›, harg⟩
    · split at h
      · cases h; exact ⟨‹_›, rfl⟩
      · cases h

/-- A word with a command's fields decodes to it on the command's port (R92, R93). -/
theorem decode_of_fields {w : Word} {i : Instr} (hopc : opcField w = opcode i) (harg : argField w = i.arg) :
    decode i.port w = .ok i := by
  cases i with
  | aNop | cNop | cUpdate => simp [Instr.port, decode, decodeA, decodeC, hopc, opcode, withoutArgument, harg, Instr.arg]
  | aPrepare _ | aProcessBlock _ | cGetResponse _ =>
    simp [Instr.port, decode, decodeA, decodeC, hopc, opcode, harg, Instr.arg]

/-- What a decoder reads: the command of its port with the word's opcode and argument (R90, R96). -/
theorem decode_eq_ok_iff (p : Port) (w : Word) (i : Instr) :
    decode p w = .ok i ↔ i.port = p ∧ opcField w = opcode i ∧ argField w = i.arg := by
  constructor
  · intro h
    refine ⟨decode_port p w i h, ?_⟩
    cases p with
    | a => exact decodeA_fields h
    | c => exact decodeC_fields h
  · rintro ⟨rfl, hopc, harg⟩
    exact decode_of_fields hopc harg

/-- A word's four bytes decode as the word does, and leave the bytes after them (R66). -/
theorem decodeBytes_byteOf {p : Port} {w : Word} {i : Instr} (h : decode p w = .ok i) (rest : List Byte) :
    decodeBytes p (byteOf w 0 :: byteOf w 1 :: byteOf w 2 :: byteOf w 3 :: rest) = .ok (i, rest) := by
  simp only [decodeBytes, Memory.wordOfBytes_byteOf, h]

/-- Settles O1: the fields of the encoder's word are the command's, and the decoder reads the fields. -/
theorem decodeOfEncode : Obligations.DecodeOfEncode := by
  intro i hi
  have hword : decode i.port (encode i) = .ok i := (decode_eq_ok_iff _ _ _).mpr ⟨rfl, encode_fields i hi⟩
  exact ⟨hword, decodeBytes_byteOf hword⟩

/-- Settles O2: the word's fields are the command's, and a word is its fields. -/
theorem encodeOfDecode : Obligations.EncodeOfDecode := by
  intro p w i h
  obtain ⟨hport, hopc, harg⟩ := (decode_eq_ok_iff p w i).mp h
  refine ⟨hport, (Instr.wellFormed_iff i).mpr (harg ▸ argField_lt w), ?_⟩
  rw [encode, ← hopc, ← harg, ofNat_fields]

/-! ## Illegal words -/

theorem withoutArgument_illegal_iff (arg : Nat) (i : Instr) : (∃ e, withoutArgument arg i = .error e) ↔ arg ≠ 0 := by
  unfold withoutArgument
  split <;> simp [*]

theorem decodeA_illegal_iff (w : Word) : (∃ e, decode .a w = .error e) ↔
    (opcField w ∉ [0x00, 0x01, 0x02] ∨ (opcField w = 0x00 ∧ argField w ≠ 0)) := by
  simp only [decode, decodeA]
  split
  · simp [withoutArgument_illegal_iff, *]
  · split
    · simp [*]
    · split <;> simp [*]

theorem decodeC_illegal_iff (w : Word) : (∃ e, decode .c w = .error e) ↔
    (opcField w ∉ [0x00, 0x10, 0x11] ∨ ((opcField w = 0x00 ∨ opcField w = 0x10) ∧ argField w ≠ 0)) := by
  simp only [decode, decodeC]
  split
  · simp [withoutArgument_illegal_iff, *]
  · split
    · simp [withoutArgument_illegal_iff, *]
    · split <;> simp [*]

theorem writeCommand_legal {p : Port} {w : Word} {i : Instr} (h : decode p w = .ok i) (s : State) :
    writeCommand p w s = exec i s := by
  simp only [writeCommand, h]

theorem writeCommand_illegal {p : Port} {w : Word} {e : DecodeError} (h : decode p w = .error e) (s : State) :
    writeCommand p w s = .next (raiseIllegal p s) := by
  simp only [writeCommand, h]

/-- Settles O3: the decoders' branches give the lists, and the write is the command register's. -/
theorem illegalWords : Obligations.IllegalWords := by
  refine ⟨decodeA_illegal_iff, decodeC_illegal_iff, fun w s hw => ?_, fun w s hw => ?_⟩
  · obtain ⟨e, he⟩ := hw
    exact (memWrite_itemA itemA_cmd w s).trans (writeCommand_illegal he s)
  · obtain ⟨e, he⟩ := hw
    exact (memWrite_itemC itemC_cmd w s).trans (writeCommand_illegal he s)

/-! ## The spec's sample words -/

/-- A block limit of 0 is an error of A.PREPARE, whatever the rate (R181). -/
theorem exec_aPrepare_zero (s : State) :
    exec (.aPrepare 0) s = .next (raiseError .aBadBlock (raiseIf (!legalRate s.aFs) .aBadFs s)) := by
  simp [exec, execAPrepare]

/-- Settles O4: the words are read by evaluation, and A.PREPARE 0 raises ERR_BAD_BLOCK. -/
theorem encodingExamples : Obligations.EncodingExamples :=
  ⟨by decide, by decide, by decide, by decide, by decide, by decide, by decide, by decide, by decide,
    fun s => ⟨_, exec_aPrepare_zero s, rfl⟩⟩

/-! ## Command writes -/

/-- A write transaction at a port's command register (R80, R101). -/
theorem perform_command (p : Port) (w : Word) (s : State) :
    perform p (.write (busAddress s.bases p (cmdAddr p)) w) s = onNext (writeCommand p w s) (completeWrite p) := by
  simp only [perform, portOffset_busAddress]
  cases p with
  | a => exact congrArg (onNext · _) (memWrite_itemA itemA_cmd w s)
  | c => exact congrArg (onNext · _) (memWrite_itemC itemC_cmd w s)

theorem step_audio_command {s : State} {w : Word} {ts : List Turn} {q : List Txn} (hturns : s.turns = .a :: ts)
    (hq : s.pendingA = .write (busAddress s.bases .a 0x0004) w :: q) (hb : s.blk.busy = false) :
    step s = onNext (writeCommand .a w { s with turns := ts, pendingA := q }) (completeWrite .a) :=
  (step_audio hturns hq hb).trans (perform_command .a w _)

theorem step_control_command {s : State} {w : Word} {ts : List Turn} {q : List Txn} (hturns : s.turns = .c :: ts)
    (hq : s.pendingC = .write (busAddress s.bases .c 0x000C) w :: q) :
    step s = onNext (writeCommand .c w { s with turns := ts, pendingC := q }) (completeWrite .c) :=
  (step_control hturns hq).trans (perform_command .c w _)

/-- Settles O6: the step is the command register's write, legal or not. -/
theorem stepRunsDecodedCommand : Obligations.StepRunsDecodedCommand := by
  refine ⟨fun s w ts q hturns hq hb => ?_, fun s w ts q hturns hq => ?_⟩
  · rw [step_audio_command hturns hq hb]
    cases h : decode .a w with
    | ok i => simp only [writeCommand_legal h]
    | error e => simp only [writeCommand_illegal h, onNext_next]
  · rw [step_control_command hturns hq]
    cases h : decode .c w with
    | ok i => simp only [writeCommand_legal h]
    | error e => simp only [writeCommand_illegal h, onNext_next]

/-! ## Placed words -/

/-- A table word is read by the decoder of the port that it is written to. -/
theorem decode_of_decodeTableWord {w : Nat} {i : Instr} (h : decodeTableWord 32 w = some i) :
    decode (tablePort (tableWord 32 w)) (tableWord 32 w) = .ok i := by
  cases hd : decode (tablePort (tableWord 32 w)) (tableWord 32 w) with
  | ok j =>
    simp only [decodeTableWord, decodeBytes_byteOf hd, Option.some.injEq] at h
    rw [h]
  | error e =>
    simp only [decodeTableWord, decodeBytes, Memory.wordOfBytes_byteOf, hd, reduceCtorEq] at h

/-- The state with no block in flight that would stall the port (R69). -/
def State.unstalled (p : Port) (s : State) : State :=
  match p with
  | .a => { s with blk := Blk.idle }
  | .c => s

/-- The step after a word is placed is its port's command write on the state before. -/
theorem step_withFetchWord (s : State) {w : Nat} {p : Port} (hp : tablePort (tableWord 32 w) = p) :
    step (s.withFetchWord 32 w) = onNext (writeCommand p (tableWord 32 w) (s.unstalled p)) (completeWrite p) := by
  simp only [State.withFetchWord, hp]
  cases p with
  | a => exact step_audio_command rfl rfl rfl
  | c => exact step_control_command rfl rfl

/-- Settles O7: the placed word is written to the port whose decoder reads it. -/
theorem placedWordRuns : Obligations.PlacedWordRuns := by
  intro s w i h
  have hword := decode_of_decodeTableWord h
  have hport := decode_port _ _ _ hword
  rw [← hport] at hword
  rw [step_withFetchWord s hport.symm, writeCommand_legal hword]
  rfl

/-! ## The assembler -/

/-- A command mnemonic with an argument that fits is the write of its fields (R90, R98). -/
theorem command_of_lt {i : Instr} (h : i.arg < 2 ^ 24) (b : Bases) :
    command b i = some ⟨i.port, .write (busAddress b i.port (cmdAddr i.port))
      (BitVec.ofNat 32 i.arg <<< 8 ||| BitVec.ofNat 32 (opcode i))⟩ := by
  rw [command, if_pos ((Instr.wellFormed_iff i).mpr h), wr, encode, ofNat_fields_eq_or _ (opcode_lt i)]

/-- One with a larger argument is refused (R98). -/
theorem command_of_ge {i : Instr} (h : 2 ^ 24 ≤ i.arg) (b : Bases) : command b i = none :=
  if_neg fun hw => Nat.not_lt_of_ge h ((Instr.wellFormed_iff i).mp hw)

theorem length_aLoad (b : Bases) (ch : Fin 2) (k : Nat) (vs : List Word) : (aLoad b ch k vs).length = vs.length := by
  induction vs generalizing k with
  | nil => rfl
  | cons v vs ih => rw [aLoad, List.length_cons, List.length_cons, ih]

/-- A.LOAD writes its values to consecutive sample words (R99). -/
theorem getElem?_aLoad (b : Bases) (ch : Fin 2) (k : Nat) (vs : List Word) (j : Nat) :
    (aLoad b ch k vs)[j]? = vs[j]?.map (wr b .a (BitVec.ofNat 32 (sampleAddr ch (k + j)))) := by
  induction vs generalizing k j with
  | nil => rfl
  | cons v vs ih =>
    cases j with
    | zero => rfl
    | succ j => rw [aLoad, List.getElem?_cons_succ, List.getElem?_cons_succ, ih, Nat.add_right_comm, Nat.add_assoc]

/-! ## Running the pseudo-instructions -/

theorem issue_nil (s : State) : issue [] s = .next s := rfl

/-- A text's first line on port C, where it is a write (R69, R98). -/
theorem issue_wr_control {b : Bases} {off v : Word} {s t : State} (hb : s.bases = b) (h : memWrite .c off v s = .next t)
    (ls : List Line) : issue (wr b .c off v :: ls) s = issue ls (reply .c .done t) := by
  refine issue_cons ?_ ls
  simp only [runLine, wr, wait, perform, ← hb, portOffset_busAddress, h, onNext_next, completeWrite]

/-- A text's first line on port A, where it is a write that finds and leaves no block in flight (R69, R98). -/
theorem issue_wr_audio {b : Bases} {off v : Word} {s t : State} (hb : s.bases = b) (h : memWrite .a off v s = .next t)
    (hs : s.blk.busy = false) (ht : t.blk.busy = false) (ls : List Line) :
    issue (wr b .a off v :: ls) s = issue ls (reply .a .done t) := by
  have hr : (reply .a .done t).blk.busy = false := ht
  refine issue_cons ?_ ls
  simp only [runLine, wr, wait, drain_idle hs, perform, ← hb, portOffset_busAddress, h, onNext_next, completeWrite, ht,
    Bool.false_eq_true, if_false, drain_idle hr]

theorem issue_cSetP {b : Bases} {s : State} (hb : s.bases = b) (f : Field) (v : Word) (ls : List Line) :
    issue (cSetP b f v :: ls) s = issue ls (reply .c .done (setParam f v s)) :=
  issue_wr_control hb (memWrite_itemC (itemC_param f) v s) ls

/-- C.SETPARAMS replaces the seven words, whatever they were (R99). -/
theorem issue_cSetParams (p : Params) (s : State) :
    issue (cSetParams s.bases p) s
      = .next { s with params := p, dirty := true, repliesC := List.replicate 7 Reply.done ++ s.repliesC } := by
  simp only [cSetParams, issue_cSetP, reply_bases, setParam_bases, issue_nil]
  simp only [reply, setParam, Params.set]
  rfl

theorem issue_cClrClamp (s : State) :
    issue [cClrClamp s.bases] s = .next { s with paramClamped := false, repliesC := .done :: s.repliesC } := by
  have hclear : clearClamped 0x00000002 s = { s with paramClamped := false } := by simp [clearClamped]
  rw [cClrClamp, issue_wr_control rfl (memWrite_itemC itemC_status 0x00000002 s), hclear]
  rfl

theorem issue_aClrFault {s : State} (hs : s.blk.busy = false) :
    issue [aClrFault s.bases] s = .next { s with fault := 0, repliesA := .done :: s.repliesA } := by
  have hclear : clearFaults 0x0003FFFF s = { s with fault := 0 } := by simp [clearFaults]
  rw [aClrFault, issue_wr_audio rfl (memWrite_itemA itemA_fault 0x0003FFFF s) hs hs, hclear]
  rfl

/-- Settles O5: a mnemonic is the write of its fields, and a pseudo-instruction its lines, run one after another. -/
theorem assemblerExpansions : Obligations.AssemblerExpansions := by
  refine ⟨fun b => ⟨rfl, rfl, rfl, rfl, rfl⟩, fun b n fs => ⟨fun hn => ?_, fun hn => ?_⟩,
    fun b ch k vs => ⟨length_aLoad b ch k vs, fun j v hv => ?_⟩, fun b p => rfl, fun b f v => rfl, issue_cSetParams,
    issue_cClrClamp, fun s hs => issue_aClrFault hs⟩
  · have hprepare := command_of_lt (i := .aPrepare n) hn b
    have hresponse := command_of_lt (i := .cGetResponse n) hn b
    exact ⟨hprepare, command_of_lt (i := .aProcessBlock n) hn b, hresponse, congrArg (Option.map _) hprepare,
      congrArg (Option.map _) hresponse⟩
  · have hprepare := command_of_ge (i := .aPrepare n) hn b
    have hresponse := command_of_ge (i := .cGetResponse n) hn b
    exact ⟨hprepare, command_of_ge (i := .aProcessBlock n) hn b, hresponse, congrArg (Option.map _) hprepare,
      congrArg (Option.map _) hresponse⟩
  · rw [getElem?_aLoad, hv]
    rfl

end Sys2Proof.Machine
end

section
/-! PROOFS. Clamping (spec/40_coefficient_calculator.md R112 to R118): a field's clamp case by case, and the clamped
parameters at a legal rate in the domains of the calculator's operations (R126). -/

namespace Sys2Proof.Machine

/-! ## One field -/

theorem Fp.isNaN_of_isFinite {a : Fp} (h : a.isFinite = true) : a.isNaN = false := by
  cases a <;> simp_all [Fp.isFinite, Fp.isNaN]

/-- A NaN is clamped as the default is, and counts as a change (R113, R116). -/
theorem clampFloat_nan {lo hi dflt v : Word} (hv : (ofF32 v).isNaN = true) (hd : (ofF32 dflt).isNaN = false) :
    clampFloat lo hi dflt v = ((clampFloat lo hi dflt dflt).1, true) := by
  simp only [clampFloat, hv, hd, if_true, Bool.false_eq_true, if_false]
  split
  · rfl
  · split <;> rfl

/-- A number below the range becomes its low end (R114, R116). -/
theorem clampFloat_below {lo hi dflt v : Word} (hv : (ofF32 v).isNaN = false) (h : (ofF32 v).lt (ofF32 lo) = true) :
    clampFloat lo hi dflt v = (lo, true) := by
  simp [clampFloat, hv, h]

/-- A number above the range, and not below it, becomes its high end (R114, R116). -/
theorem clampFloat_above {lo hi dflt v : Word} (hv : (ofF32 v).isNaN = false) (hl : (ofF32 v).lt (ofF32 lo) = false)
    (h : (ofF32 hi).lt (ofF32 v) = true) : clampFloat lo hi dflt v = (hi, true) := by
  simp [clampFloat, hv, hl, h]

/-- A number in range is kept bit for bit (R115). -/
theorem clampFloat_inRange {lo hi dflt v : Word} (hv : (ofF32 v).isNaN = false)
    (hl : (ofF32 v).lt (ofF32 lo) = false) (hh : (ofF32 hi).lt (ofF32 v) = false) :
    clampFloat lo hi dflt v = (v, false) := by
  simp [clampFloat, hv, hl, hh]

theorem Fp.lt_irrefl {a : Fp} (h : a.isFinite = true) : a.lt a = false := (Fp.not_lt_iff h h).mpr le_rfl

/-- The infinities lie outside every finite bound (R16). -/
theorem Fp.inf_lt_of_isFinite {a : Fp} (h : a.isFinite = true) :
    (Fp.inf true).lt a = true ∧ (Fp.inf false).lt a = false ∧ a.lt (.inf false) = true := by
  cases a <;> simp_all [Fp.isFinite, Fp.lt]

/-- Settles O38: the comparisons of the clamp are those of real values, and the infinities lie beyond both bounds. -/
theorem clampCases : Obligations.ClampCases := by
  refine ⟨fun lo hi dflt v hlo hhi hle => ⟨clampFloat_nan, fun hv h => ?_, fun hv h => ?_, fun hv hl hh => ?_, ?_, ?_⟩,
    fun p fs => ⟨rfl, rfl, rfl, rfl, rfl, clampSlope_eq_min p.ls, clampSlope_eq_min p.hs⟩⟩
  · exact clampFloat_below (Fp.isNaN_of_isFinite hv) ((Fp.lt_iff hv hlo).mpr h)
  · exact clampFloat_above (Fp.isNaN_of_isFinite hv) ((Fp.not_lt_iff hv hlo).mpr (hle.trans h.le))
      ((Fp.lt_iff hhi hv).mpr h)
  · exact clampFloat_inRange (Fp.isNaN_of_isFinite hv) ((Fp.not_lt_iff hv hlo).mpr hl) ((Fp.not_lt_iff hhi hv).mpr hh)
  · have hinf : ofF32 0xFF800000 = .inf true := by decide +kernel
    exact clampFloat_below (by rw [hinf]; rfl) (by rw [hinf]; exact (Fp.inf_lt_of_isFinite hlo).1)
  · have hinf : ofF32 0x7F800000 = .inf false := by decide +kernel
    exact clampFloat_above (by rw [hinf]; rfl) (by rw [hinf]; exact (Fp.inf_lt_of_isFinite hlo).2.1)
      (by rw [hinf]; exact (Fp.inf_lt_of_isFinite hhi).2.2)

/-- The flag of a field says whether its word changed (R116). -/
theorem clampFloat_unchanged_iff {lo hi dflt : Word} (v : Word) (hlo : (ofF32 lo).isFinite = true)
    (hhi : (ofF32 hi).isFinite = true) (hd : (ofF32 dflt).isNaN = false)
    (hle : (ofF32 lo).toReal ≤ (ofF32 hi).toReal) :
    (clampFloat lo hi dflt v).2 = false ↔ (clampFloat lo hi dflt v).1 = v := by
  by_cases hv : (ofF32 v).isNaN = true
  · have hres := Fp.isNaN_of_isFinite (clampFloat_within v hlo hhi hd hle).1
    have hne : (clampFloat lo hi dflt v).1 ≠ v := fun he => by rw [he, hv] at hres; cases hres
    rw [clampFloat_nan hv hd] at hne ⊢
    simp [hne]
  · rw [Bool.not_eq_true] at hv
    by_cases hl : (ofF32 v).lt (ofF32 lo) = true
    · have hne : lo ≠ v := by rintro rfl; rw [Fp.lt_irrefl hlo] at hl; cases hl
      simp [clampFloat_below hv hl, hne]
    · rw [Bool.not_eq_true] at hl
      by_cases hh : (ofF32 hi).lt (ofF32 v) = true
      · have hne : hi ≠ v := by rintro rfl; rw [Fp.lt_irrefl hhi] at hh; cases hh
        simp [clampFloat_above hv hl hh, hne]
      · simp [clampFloat_inRange hv hl (Bool.eq_false_of_not_eq_true hh)]

/-- The flag of a slope code says whether it changed (R116, R117). -/
theorem clampSlope_unchanged_iff (v : Word) : (clampSlope v).2 = false ↔ (clampSlope v).1 = v.toNat := by
  unfold clampSlope
  split
  · simp only [Bool.true_eq_false, false_iff]; omega
  · simp

/-! ## The upper frequency bound -/

theorem Fp.toReal_min {a b : Fp} (ha : a.isFinite = true) (hb : b.isFinite = true) :
    (Fp.min a b).toReal = Min.min a.toReal b.toReal := by
  unfold Fp.min
  split
  · rename_i h
    exact (min_eq_right ((Fp.lt_iff hb ha).mp h).le).symm
  · rename_i h
    exact (min_eq_left ((Fp.not_lt_iff hb ha).mp (Bool.eq_false_of_not_eq_true h))).symm

/-- At a legal rate the bound is the smaller of 20000 and the rounded product of 0.49 and the rate (R112). -/
theorem toReal_upperFrequency {fs : Word} (h : legalRate fs = true) :
    (ofF32 (upperFrequency fs)).toReal = min 20000 (mul32 (ofF32 K049) (ofF32 fs)).toReal := by
  have hk : (ofF32 K049).within (1 / 4) 1 := by
    rw [K049_value]; refine ⟨rfl, ?_, ?_⟩ <;> norm_num [Fp.toReal]
  have hm : (mul32 (ofF32 K049) (ofF32 fs)).within 1 (2 ^ 19) :=
    mul32_within hk (legalRate_within h) f32_has_one (f32_has_pow 19 (by omega)) (by norm_num) (by norm_num)
      (by norm_num) (by norm_num)
  have hF : (ofF32 F_HI).isFinite = true := by decide +kernel
  have hback : ofF32 (upperFrequency fs) = Fp.min (ofF32 F_HI) (mul32 (ofF32 K049) (ofF32 fs)) := by
    unfold upperFrequency Fp.min
    split
    · exact (finiteWord_toF32 0 _ (Fp.inFormat_mul _ _ _) hm.1).2
    · exact (finiteWord_toF32 0 _ (ofF32_cases _) hF).2
  rw [hback, Fp.toReal_min hF hm.1, toReal_F_HI]

/-! ## The clamped parameters -/

/-- A frequency clamped at a legal rate lies between 20 and the upper bound (R112, R118). -/
theorem clampFloat_frequency_within {fs : Word} (h : legalRate fs = true) {dflt : Word} (v : Word) (hd : (ofF32 dflt).isNaN = false) :
    (ofF32 (clampFloat F_LO (upperFrequency fs) dflt v).1).within 20 (ofF32 (upperFrequency fs)).toReal := by
  obtain ⟨⟨hfin, hlow, -⟩, -⟩ := upperFrequency_within h
  rw [← toReal_F_LO]
  exact clampFloat_within v (by decide +kernel) hfin hd (by rw [toReal_F_LO]; linarith)

/-- Each clamped frequency is in band (R118, R126). -/
theorem clamp_inBand (p : Params) {fs : Word} (h : legalRate fs = true) {w : Word} (hw : w ∈ [(clamp p fs).1.pf, (clamp p fs).1.lf, (clamp p fs).1.hf]) :
    InBand (ofF32 w) (ofF32 fs) := by
  simp only [List.mem_cons, List.not_mem_nil, or_false] at hw
  obtain rfl | rfl | rfl := hw <;> exact clampFloat_inBand h _ _ (by decide +kernel)

/-- The clamped gain (R118). -/
theorem clamp_pg_within (p : Params) (fs : Word) : (ofF32 (clamp p fs).1.pg).within (-24) 24 := by
  rw [← toReal_G_LO, ← toReal_G_HI]
  exact clampFloat_within p.pg (by decide +kernel) (by decide +kernel) (by decide +kernel)
    (by rw [toReal_G_LO, toReal_G_HI]; norm_num)

/-- The clamped quality (R118). -/
theorem clamp_pq_within (p : Params) (fs : Word) : (ofF32 (clamp p fs).1.pq).within (ofF32 Q_LO).toReal 10 := by
  rw [← toReal_Q_HI]
  exact clampFloat_within p.pq (by decide +kernel) (by decide +kernel) (by decide +kernel)
    (by rw [toReal_Q_LO, toReal_Q_HI]; norm_num)

/-- The clamp flag is clear exactly when no field changed (R116, R118). -/
theorem clamp_unchanged_iff (p : Params) {fs : Word} (h : legalRate fs = true) : (clamp p fs).2 = false ↔
    (clamp p fs).1.pf = p.pf ∧ (clamp p fs).1.pg = p.pg ∧ (clamp p fs).1.pq = p.pq ∧ (clamp p fs).1.lf = p.lf
    ∧ (clamp p fs).1.hf = p.hf ∧ (clamp p fs).1.ls = p.ls.toNat ∧ (clamp p fs).1.hs = p.hs.toNat := by
  obtain ⟨⟨hfin, hlow, -⟩, -⟩ := upperFrequency_within h
  have hle : (ofF32 F_LO).toReal ≤ (ofF32 (upperFrequency fs)).toReal := by rw [toReal_F_LO]; linarith
  have freq (dflt v : Word) (hd : (ofF32 dflt).isNaN = false) :=
    clampFloat_unchanged_iff (dflt := dflt) v (show (ofF32 F_LO).isFinite = true by decide +kernel) hfin hd hle
  have gain := clampFloat_unchanged_iff (lo := G_LO) (hi := G_HI) (dflt := Params.reset.pg) p.pg (by decide +kernel)
    (by decide +kernel) (by decide +kernel) (by rw [toReal_G_LO, toReal_G_HI]; norm_num)
  have quality := clampFloat_unchanged_iff (lo := Q_LO) (hi := Q_HI) (dflt := Params.reset.pq) p.pq (by decide +kernel)
    (by decide +kernel) (by decide +kernel) (by rw [toReal_Q_LO, toReal_Q_HI]; norm_num)
  simp only [clamp, Bool.or_eq_false_iff, and_assoc, gain, quality, clampSlope_unchanged_iff,
    freq Params.reset.pf p.pf (by decide +kernel), freq Params.reset.lf p.lf (by decide +kernel),
    freq Params.reset.hf p.hf (by decide +kernel)]

/-- The exponent of PEAK's power of ten: at most the datum nearest to 1.2 in size (R119, R126). -/
theorem gainOverTwenty_within {g : Fp} (hg : g.within (-24) 24) :
    (div32 g twenty).within (-(Fp.round f32 false 12 10).toReal) (Fp.round f32 false 12 10).toReal := by
  have hval : (Fp.round f32 false 12 10).toReal = 10066330 / 8388608 := by
    rw [show Fp.round f32 false 12 10 = .fin false 10066330 (-23) by decide +kernel]; norm_num [Fp.toReal]
  have hhas : f32.has (10066330 / 8388608) := ⟨0x3F99999A, by decide, by
    rw [Fmt.magValue, show f32.unpackMag 0x3F99999A = (10066330, -23) by decide +kernel, abs_of_pos (by norm_num)]
    norm_num⟩
  rw [hval]
  exact div32_within_abs hg ⟨rfl, toReal_twenty.ge, toReal_twenty.le⟩ hhas (by norm_num) (by norm_num) (by norm_num)

/-- Settles O39: each field lies within its bounds, and the angles and the exponent are roundings between bounds inside the
domains. -/
theorem clampInRange : Obligations.ClampInRange := by
  intro p fs h
  have hupper := (upperFrequency_within h).1
  have hpi := Real.pi_gt_d2
  have hpeak := peakAngle_within (clamp_inBand p h (w := (clamp p fs).1.pf) (by simp))
  have hgain := gainOverTwenty_within (clamp_pg_within p fs)
  refine ⟨toReal_upperFrequency h, hupper.2.1, hupper.2.2, ?_, clamp_pg_within p fs, clamp_pq_within p fs,
    clampSlope_le p.ls, clampSlope_le p.hs, clamp_unchanged_iff p h, hpeak.1, ?_, ?_, fun w hw => ?_, hgain.1,
    abs_le.mpr hgain.2⟩
  · simp only [List.forall_mem_cons]
    exact ⟨clampFloat_frequency_within h p.pf (by decide +kernel), clampFloat_frequency_within h p.lf (by decide +kernel),
      clampFloat_frequency_within h p.hf (by decide +kernel), by simp⟩
  · exact lt_of_lt_of_le (by positivity) hpeak.2.1
  · linarith [hpeak.2.2]
  · have hcut := cutAngle_within (clamp_inBand p h (List.mem_cons_of_mem _ hw))
    exact ⟨hcut.1, lt_of_lt_of_le (by positivity) hcut.2.1, by linarith [hcut.2.2]⟩

end Sys2Proof.Machine
end

section
/-! PROOFS. The designs (spec/40_coefficient_calculator.md R119 to R124): roundings of one real number agree, a number of
the format is its own rounding, and twice one is a number of the format wherever it does not overflow. -/

namespace Sys2Proof.Machine

/-! ## Exact roundings -/

/-- A number that rounds to a finite datum lies below infinity's boundary (R13). -/
theorem Fmt.rounds.lt_overflow {f : Fmt} (he : 0 < f.ebits) (hm : 0 < f.mbits) {v : ℝ} {r : Fp} (h : f.rounds v r)
    (hv : v ≠ 0) (hr : r.isFinite = true) : |v| < f.overflow := by
  by_contra hlt
  rw [(h.isRn he hm hv).2 (not_lt.mp hlt)] at hr
  simp [Fp.isFinite] at hr

/-- A number below infinity's boundary rounds to a finite datum (R13). -/
theorem Fmt.rounds.isFinite {f : Fmt} (he : 0 < f.ebits) (hm : 0 < f.mbits) {v : ℝ} {r : Fp} (h : f.rounds v r)
    (hv : v ≠ 0) (hlt : |v| < f.overflow) : r.isFinite = true := by
  obtain ⟨mag, ⟨hmag, -⟩, rfl⟩ := (h.isRn he hm hv).1 hlt
  simpa using hmag

/-- A rounding is exact where it is finite and its number is that of a code, infinity's or a higher one too. -/
theorem Fmt.rounds.exact {f : Fmt} (he : 0 < f.ebits) (hm : 0 < f.mbits) {v : ℝ} {r : Fp} (h : f.rounds v r)
    (hv : v ≠ 0) (hr : r.isFinite = true) {c : Nat} (hc : f.magValue c = |v|) : r.toReal = v := by
  have hinf := f.infCode_pos he
  have hlt := h.lt_overflow he hm hv hr
  have hmid := midpoint_lt_magValue f (f.infCode - 1)
  rw [← overflow_eq_midpoint f hinf, Nat.sub_add_cancel hinf] at hmid
  have hcode : c < f.infCode := (magValue_strictMono f).lt_iff_lt.mp (by rw [hc]; exact hlt.trans hmid)
  rw [h.eq_ofMag hv hcode hc, Fp.toReal_ofMag f _ _ hcode, hc]
  rcases lt_or_ge v 0 with hneg | hpos
  · simp [hneg, abs_of_neg hneg]
  · simp [not_lt.mpr hpos, abs_of_nonneg hpos]

/-- A finite rounding of a number at or above a positive number of the format is at or above that (R13). -/
theorem Fmt.rounds.le_toReal {f : Fmt} {v lo : ℝ} {r : Fp} (h : f.rounds v r) (hr : r.isFinite = true) (hlo : f.has lo)
    (h0 : 0 < lo) (h1 : lo ≤ v) : lo ≤ r.toReal := by
  obtain ⟨num, den, -, hd, habs, rfl⟩ := h.sign_mag (by linarith)
  obtain ⟨mag, hmag, hval⟩ := hlo
  rw [abs_of_pos h0] at hval
  rw [abs_of_pos (by linarith)] at habs
  rw [decide_eq_false (by linarith), Fp.round] at hr ⊢
  have hfin : f.roundMag num den < f.infCode := by simpa using hr
  rw [Fp.toReal_ofMag f _ _ hfin, ← hval]
  simpa using magValue_mono f hfin (le_roundMag_of_le f num den mag hd hmag (by linarith))

/-- Twice the number of a code is the number of a code: a subnormal's significand doubles, a normal one's exponent rises. -/
theorem magValue_double (f : Fmt) (c : Nat) : ∃ d, f.magValue d = 2 * f.magValue c := by
  rcases Nat.eq_zero_or_pos c with rfl | hc
  · exact ⟨0, by simp⟩
  obtain ⟨-, hq, hlt, hnorm, -⟩ := unpackMag_spec f c hc
  rcases Nat.lt_or_ge (f.unpackMag c).1 (2 ^ f.mbits) with hsub | hnormal
  · refine ⟨2 * (f.unpackMag c).1, ?_⟩
    have h := magValue_code f 0 (2 * (f.unpackMag c).1) (by omega) (by omega)
    rw [zero_mul, zero_add] at h
    rw [h, Fmt.magValue, hnorm.resolve_right (by omega)]
    push_cast; simp; ring
  · refine ⟨((f.unpackMag c).2 + 1 - f.qmin).toNat * 2 ^ f.mbits + (f.unpackMag c).1, ?_⟩
    rw [magValue_code f _ _ hlt.le fun _ => hnormal, Int.toNat_of_nonneg (by omega), add_sub_cancel, Fmt.magValue,
      zpow_add_one₀ (by norm_num)]
    ring

/-- A finite product of a datum of the format with 2 or -2 is exact (R122, R123). -/
theorem mul_two_exact {c t : Fp} (hf : Fp.inFormat f32 c) (hc : c.isFinite = true) (ht : t.isFinite = true)
    (h2 : |t.toReal| = 2) (hr : (mul32 c t).isFinite = true) : (mul32 c t).toReal = c.toReal * t.toReal := by
  by_cases h0 : c.toReal * t.toReal = 0
  · rw [mul32, mul_eq_zero_sign f32 f32_ebits_pos hc ht h0, h0]
    simp [Fp.toReal]
  · obtain ⟨s, mag, -, rfl⟩ := hf.resolve_left (by rintro rfl; simp [Fp.isFinite] at hc)
    obtain ⟨d, hd⟩ := magValue_double f32 mag
    refine (rounds_mul f32 _ _ hc ht).exact f32_ebits_pos (by decide) h0 hr (c := d) ?_
    rw [abs_mul, h2, Fp.toReal_ofMag f32 s mag (by simpa using hc), hd, abs_mul, abs_of_nonneg (magValue_nonneg f32 mag)]
    cases s <;> simp [mul_comm]

/-! ## PEAK at 0 dB -/

/-- The datum 1 of binary32 and its code. -/
theorem round_one_eq_ofMag : Fp.round f32 false 1 1 = Fp.ofMag f32 false 0x3F800000 := by decide +kernel

theorem magValue_one : f32.magValue 0x3F800000 = 1 := by
  rw [Fmt.magValue, show f32.unpackMag 0x3F800000 = (8388608, -23) by decide +kernel]; norm_num

theorem toReal_round_one : (Fp.round f32 false 1 1).toReal = 1 := by
  rw [round_one_eq_ofMag, Fp.toReal_ofMag f32 _ _ (by decide), magValue_one]; simp

/-- The gain factor at 0 dB of either sign is exactly 1 (R119). -/
theorem sqrt32_exp10_zeroGain (s : Bool) (e : Int) :
    sqrt32 (exp10_32 (div32 (.fin s 0 e) twenty)) = Fp.round f32 false 1 1 := by
  have hone : ∀ t : Bool, sqrt32 (exp10_32 (.fin t 0 f32.qmin)) = Fp.round f32 false 1 1 := by decide +kernel
  rw [div32, (div_zeros f32 f32_ebits_pos rfl rfl).1 (by simp [Fp.toReal]) (by rw [toReal_twenty]; norm_num)]
  exact hone _

theorem isFinite_round_one : (Fp.round f32 false 1 1).isFinite = true := by decide +kernel

/-- A non-zero datum of the format over 1 is the datum (R119). -/
theorem div32_one {a : Fp} (hf : Fp.inFormat f32 a) (ha : a.isFinite = true) (h0 : a.toReal ≠ 0) :
    div32 a (Fp.round f32 false 1 1) = a := by
  have hd := rounds_div f32 a _ ha isFinite_round_one (by rw [toReal_round_one]; norm_num)
  rw [toReal_round_one, div_one] at hd
  exact hd.eq_self hf ha h0

/-- A product with 1 and a quotient by 1 are equal: a non-zero datum's are the datum, and zeros, infinities and NaNs
answer alike (R119). -/
theorem mul32_one_eq_div32_one {a : Fp} (hf : Fp.inFormat f32 a) :
    mul32 a (Fp.round f32 false 1 1) = div32 a (Fp.round f32 false 1 1) := by
  by_cases ha : a.isFinite = true
  · by_cases h0 : a.toReal = 0
    · rw [mul32, div32, mul_eq_zero_sign f32 f32_ebits_pos ha isFinite_round_one (by rw [h0, zero_mul]),
        (div_zeros f32 f32_ebits_pos ha isFinite_round_one).1 h0 (by rw [toReal_round_one]; norm_num)]
    · have hm := rounds_mul f32 a _ ha isFinite_round_one
      rw [toReal_round_one, mul_one] at hm
      exact (hm.eq_self hf ha h0).trans (div32_one hf ha h0).symm
  · cases a with
    | nan => rfl
    | inf s => cases s <;> decide +kernel
    | fin s m e => exact absurd rfl ha

/-- A finite non-zero datum over itself is 1 (R13). -/
theorem div32_self {a : Fp} (ha : a.isFinite = true) (h0 : a.toReal ≠ 0) : div32 a a = Fp.round f32 false 1 1 := by
  have hd := rounds_div f32 a a ha ha h0
  rw [div_self h0] at hd
  have hmag := hd.eq_ofMag one_ne_zero (mag := 0x3F800000) (by decide) (by rw [magValue_one, abs_one])
  rwa [decide_eq_false (by norm_num), ← round_one_eq_ofMag] at hmag

theorem f32_overflow_gt : f32.magValue (f32.infCode - 1) + 1 < f32.overflow := by
  rw [Fmt.overflow, Fmt.magValue, Fmt.magValue, show f32.unpackMag (f32.infCode - 1) = (16777215, 104) by decide +kernel,
    show f32.unpackMag f32.infCode = (8388608, 105) by decide +kernel]
  norm_num

/-- 1 and a positive datum of the format have a finite sum of at least 1 (R119). -/
theorem one_add32_ge_one {a : Fp} (hf : Fp.inFormat f32 a) (ha : a.isFinite = true) (h0 : 0 < a.toReal) :
    (add32 one a).isFinite = true ∧ 1 ≤ (add32 one a).toReal := by
  have hr := rounds_add f32 f32_infCode_pos one a rfl ha
  rw [toReal_one] at hr
  have hne : 1 + a.toReal ≠ 0 := by linarith
  obtain ⟨s, mag, -, rfl⟩ := hf.resolve_left (by rintro rfl; simp [Fp.isFinite] at ha)
  have hmag : mag < f32.infCode := by simpa using ha
  have hle : (Fp.ofMag f32 s mag).toReal ≤ f32.magValue (f32.infCode - 1) := by
    refine le_trans ?_ ((magValue_strictMono f32).monotone (show mag ≤ f32.infCode - 1 by omega))
    have := magValue_nonneg f32 mag
    rw [Fp.toReal_ofMag f32 s mag hmag]
    cases s
    · simp
    · simp only [if_true]; linarith
  have hfin := hr.isFinite f32_ebits_pos (by decide) hne (by rw [abs_of_pos (by linarith)]; linarith [f32_overflow_gt])
  exact ⟨hfin, hr.le_toReal hfin f32_has_one one_pos (by linarith)⟩

/-- Settles O40: at 0 dB the product and the quotient of alpha with the gain factor are one datum, and b0 is a positive
finite number over itself. -/
theorem peakAtZeroGain : Obligations.PeakAtZeroGain := by
  refine ⟨fun f gdB q fs => ⟨rfl, rfl, rfl, rfl, rfl, rfl⟩, fun f gdB q fs => rfl, fun f q fs s e => ?_, fun p fs h => ?_⟩
  · have hgain := sqrt32_exp10_zeroGain s e
    have hform : Fp.inFormat f32 (peakAlpha f q fs) := inFormat_div f32 f32_ebits_pos _ _
    refine ⟨?_, fun hfin hpos => ?_⟩
    · simp only [peak, hgain, mul32_one_eq_div32_one hform]
    · simp only [peak, hgain, mul32_one_eq_div32_one hform, div32_one hform hfin hpos.ne']
      obtain ⟨hsum, hge⟩ := one_add32_ge_one hform hfin hpos
      exact div32_self hsum (by linarith)
  · have hq := (clamp_pq_within p fs).mono (lo' := 1 / 2 ^ 4) (hi' := 2 ^ 4) (by rw [toReal_Q_LO]; norm_num) (by norm_num)
    have halpha := peakAlpha_within (clamp_inBand p h (w := (clamp p fs).1.pf) (by simp)) hq
    exact ⟨halpha.1, lt_of_lt_of_le (by positivity) halpha.2.1⟩

/-! ## The cut sections -/

/-- At a legal rate a clamped frequency and a Q of the ROM make sound sections (R122, R123, R126). -/
theorem cutSections_sound (p : Params) {fs q : Word} {n : Nat} (h : legalRate fs = true) (hq : q ∈ qrom n) :
    (hpSection (ofF32 (clamp p fs).1.lf) (ofF32 q) (ofF32 fs)).Sound
    ∧ (lpSection (ofF32 (clamp p fs).1.hf) (ofF32 q) (ofF32 fs)).Sound :=
  ⟨hpSection_sound (clamp_inBand p h (by simp)) (qrom_within n q hq),
    lpSection_sound (clamp_inBand p h (by simp)) (qrom_within n q hq)⟩

/-- Settles O41: b0 and b2 are one datum, b1 is its product with -2 or 2, which is exact where it is finite. -/
theorem cutSectionSymmetry : Obligations.CutSectionSymmetry := by
  refine ⟨fun f q fs n => ⟨fun hn => by subst hn; rfl, fun hn => by subst hn; rfl⟩, rfl, fun f fs c => ⟨rfl, rfl⟩,
    fun f q fs => ⟨⟨rfl, rfl⟩, fun h0 h1 => ?_, fun h0 h1 => ?_⟩, fun p fs q n h hq c hc => ?_⟩
  · have hneg : two.neg.toReal = -2 := by rw [Fp.toReal_neg, toReal_two]
    have hexact := mul_two_exact (inFormat_div f32 f32_ebits_pos _ _) h0 (t := two.neg) rfl (by rw [hneg]; norm_num) h1
    rwa [hneg, mul_comm] at hexact
  · have hexact := mul_two_exact (inFormat_div f32 f32_ebits_pos _ _) h0 (t := two) rfl (by rw [toReal_two]; norm_num) h1
    rwa [toReal_two, mul_comm] at hexact
  · obtain ⟨hlow, hhigh⟩ := cutSections_sound p h hq
    simp only [List.mem_cons, List.not_mem_nil, or_false] at hc
    obtain rfl | rfl := hc
    · exact ⟨hlow.b0.1, hlow.b1.1, hlow.b0.2.2⟩
    · exact ⟨hhigh.b0.1, hhigh.b1.1, hhigh.b0.2.2⟩

end Sys2Proof.Machine
end

section
/-! PROOFS. The derivation (spec/40_coefficient_calculator.md R130, R131; spec/43_update_protocol.md R207): each flag and
each slot of the result, read off once. -/

namespace Sys2Proof.Machine

/-- A low-cut position (R28, R130): active with its section's words up to the slope code, above it bypassed and kept. -/
theorem derive_low (p : Params) (fs : Word) (cur : Configuration) {k : Nat} (hk : k < 4) :
    (k ≤ (clamp p fs).1.ls → (derive p fs cur).1.byp[k] = false ∧
      ∃ c, (lowCut (ofF32 (clamp p fs).1.lf) (clamp p fs).1.ls (ofF32 fs))[k]? = some c
        ∧ (derive p fs cur).1.coef[k] = c.store (fs :: p.toList) k)
    ∧ ((clamp p fs).1.ls < k → (derive p fs cur).1.byp[k] = true ∧ (derive p fs cur).1.coef[k] = cur.coef[k]) := by
  rw [derive_byp, derive_coef, if_pos hk, clamp_ls]
  refine ⟨fun h => ?_, fun h => ?_⟩
  · rw [dif_pos (by omega)]
    exact ⟨decide_eq_false (by omega), _, List.getElem?_eq_getElem (by rw [lowCut_length]; omega), rfl⟩
  · rw [dif_neg (by omega), if_neg (by omega), dif_neg (by omega)]
    exact ⟨decide_eq_true (by omega), rfl⟩

/-- A high-cut position (R28, R130): active with its section's words up to the slope code, above it bypassed and kept. -/
theorem derive_high (p : Params) (fs : Word) (cur : Configuration) {k : Nat} (hk : k < 4) :
    (k ≤ (clamp p fs).1.hs → (derive p fs cur).1.byp[5 + k] = false ∧
      ∃ c, (highCut (ofF32 (clamp p fs).1.hf) (clamp p fs).1.hs (ofF32 fs))[k]? = some c
        ∧ (derive p fs cur).1.coef[5 + k] = c.store (fs :: p.toList) (5 + k))
    ∧ ((clamp p fs).1.hs < k →
      (derive p fs cur).1.byp[5 + k] = true ∧ (derive p fs cur).1.coef[5 + k] = cur.coef[5 + k]) := by
  have hls := clampSlope_le p.ls
  rw [derive_byp, derive_coef, if_neg (by omega), if_neg (by omega), dif_neg (by omega), if_neg (by omega), clamp_hs]
  simp only [Nat.add_sub_cancel_left]
  refine ⟨fun h => ?_, fun h => ?_⟩
  · rw [dif_pos (by omega)]
    exact ⟨decide_eq_false (by omega), _, List.getElem?_eq_getElem (by rw [highCut_length]; omega), rfl⟩
  · rw [dif_neg (by omega)]
    exact ⟨decide_eq_true (by omega), rfl⟩

/-- The peak's position (R29, R130). -/
theorem derive_peak (p : Params) (fs : Word) (cur : Configuration) :
    (derive p fs cur).1.byp[4] = false ∧ (derive p fs cur).1.coef[4]
      = (peak (ofF32 (clamp p fs).1.pf) (ofF32 (clamp p fs).1.pg) (ofF32 (clamp p fs).1.pq) (ofF32 fs)).store
        (fs :: p.toList) 4 := by
  have hls := clampSlope_le p.ls
  rw [derive_byp, derive_coef, dif_neg (by omega)]
  exact ⟨rfl, rfl⟩

/-- Settles O42: the two cuts and the peak position by position, and sound slots at a legal rate. -/
theorem deriveContents : Obligations.DeriveContents := fun p fs cur =>
  ⟨fun _ hk => derive_low p fs cur hk, derive_peak p fs cur, fun _ hk => derive_high p fs cur hk, rfl,
    by decide +kernel, fun hfs pos h => derive_sound p fs cur hfs pos.val pos.isLt (.inl h)⟩

/-- A slot after a derivation is the same over every configuration, or it is bypassed and kept (R130, R131 item 1). -/
theorem derive_coef_active_or_kept (p : Params) (fs : Word) {i : Nat} (hi : i < 9) :
    (∀ c d : Configuration, (derive p fs c).1.coef[i] = (derive p fs d).1.coef[i])
    ∨ ∀ c : Configuration, (derive p fs c).1.byp[i] = true ∧ (derive p fs c).1.coef[i] = c.coef[i] := by
  simp only [derive_byp, derive_coef]
  by_cases hlow : i < (clampSlope p.ls).1 + 1
  · left; simp [hlow]
  by_cases h4 : i = 4
  · left; simp [h4]
  by_cases hhigh : 5 ≤ i ∧ i - 5 < (clampSlope p.hs).1 + 1
  · left; simp [hlow, h4, hhigh]
  right
  intro c
  rw [dif_neg hlow, if_neg h4, if_neg h4, dif_neg hhigh]
  refine ⟨?_, rfl⟩
  split
  · exact decide_eq_true (by omega)
  · exact decide_eq_true (by omega)

/-- Settles O43: a slot that depends on the configuration before is bypassed, and a derivation keeps it. -/
theorem deriveDependsOnSnapshot : Obligations.DeriveDependsOnSnapshot := by
  have hbyp (p : Params) (fs : Word) (c d : Configuration) (i : Nat) (hi : i < 9) :
      (derive p fs c).1.byp[i] = (derive p fs d).1.byp[i] := by rw [derive_byp, derive_byp]
  refine ⟨fun p fs c d => ⟨Vector.ext (hbyp p fs c d), rfl, fun pos hactive => ?_⟩, fun p fs c => ?_⟩
  · obtain h | h := derive_coef_active_or_kept p fs pos.isLt
    · exact h c d
    · exact absurd (hactive.symm.trans (h c).1) Bool.false_ne_true
  · refine Prod.ext (Configuration.ext_getElem _ _ (hbyp p fs _ c) fun i hi => ?_) (by simp only [derive_clamped])
    obtain h | h := derive_coef_active_or_kept p fs hi
    · exact h _ c
    · exact (h _).2

end Sys2Proof.Machine
end

section
/-! PROOFS. The stage, the position, the chain and the frame (spec/41_biquad_stage_and_cascade.md R150 to R157). -/

namespace Sys2Proof.Machine

/-! ## The stage -/

/-- A stage's result y before it is stored (R150). -/
def stageY (c : Coefs) (d : Delay) (w : Word) : Fp := add32 (mul32 (ofF32 c.b0) (ofF32 w)) (ofF32 d.r0)

/-- A stage's result t0 before it is stored (R150). -/
def stageT0 (c : Coefs) (d : Delay) (w : Word) : Fp :=
  add32 (sub32 (mul32 (ofF32 c.b1) (ofF32 w)) (mul32 (ofF32 c.a1) (stageY c d w))) (ofF32 d.r1)

/-- A stage's result t1 before it is stored (R150). -/
def stageT1 (c : Coefs) (d : Delay) (w : Word) : Fp :=
  sub32 (mul32 (ofF32 c.b2) (ofF32 w)) (mul32 (ofF32 c.a2) (stageY c d w))

/-- The input and the three results of a stage are finite, so that it does not fault (R150, R151). -/
def stageFinite (c : Coefs) (d : Delay) (w : Word) : Prop :=
  (ofF32 w).isFinite = true ∧ (stageY c d w).isFinite = true ∧ (stageT0 c d w).isFinite = true
    ∧ (stageT1 c d w).isFinite = true

/-- A stage on its finite path (R150). -/
theorem stage_of_finite {c : Coefs} {d : Delay} {w : Word} (h : stageFinite c d w) :
    stage c d w = ⟨toF32 0 (stageY c d w), ⟨toF32 0 (stageT0 c d w), toF32 0 (stageT1 c d w)⟩, false⟩ := by
  obtain ⟨hx, hy, h0, h1⟩ := h
  refine if_pos ?_
  simp only [Bool.and_eq_true]
  exact ⟨⟨⟨hx, hy⟩, h0⟩, h1⟩

/-- A stage that meets a non-finite value (R151). -/
theorem stage_of_not_finite {c : Coefs} {d : Delay} {w : Word} (h : ¬ stageFinite c d w) :
    stage c d w = ⟨if finiteWord w then w else 0, d, true⟩ := by
  refine if_neg fun hall => h ?_
  simp only [Bool.and_eq_true] at hall
  obtain ⟨⟨⟨hx, hy⟩, h0⟩, h1⟩ := hall
  exact ⟨hx, hy, h0, h1⟩

/-- What a stage stores on its finite path reads back as its three results: nothing is rounded a second time. -/
theorem stage_results_of_finite {c : Coefs} {d : Delay} {w : Word} (h : stageFinite c d w) :
    ofF32 (stage c d w).y = stageY c d w ∧ ofF32 (stage c d w).delay.r0 = stageT0 c d w
    ∧ ofF32 (stage c d w).delay.r1 = stageT1 c d w ∧ (stage c d w).faulted = false := by
  rw [stage_of_finite h]
  obtain ⟨-, hy, h0, h1⟩ := h
  exact ⟨(finiteWord_toF32 0 _ (Fp.inFormat_add f32 f32_ebits_pos _ _) hy).2,
    (finiteWord_toF32 0 _ (Fp.inFormat_add f32 f32_ebits_pos _ _) h0).2,
    (finiteWord_toF32 0 _ (Fp.inFormat_sub f32 f32_ebits_pos _ _) h1).2, rfl⟩

/-! ## Positions -/

section Active
variable {cfg : Configuration} {pos : Fin 9} (h : cfg.byp[pos] = false) (ch : Fin 2) (v : Flow)
include h

/-- An active position is its stage, on its own registers, with its own FAULT bit (R150, R151). -/
theorem position_active : position cfg ch v pos =
    ⟨v.delay.set pos (stage cfg.coef[pos] v.delay[pos] v.x).delay,
      if (stage cfg.coef[pos] v.delay[pos] v.x).faulted then v.fault ||| faultBit ch pos else v.fault,
      (stage cfg.coef[pos] v.delay[pos] v.x).y⟩ := by
  simp [position, h]

theorem position_active_delay (q : Fin 9) : (position cfg ch v pos).delay[q]
    = if q = pos then (stage cfg.coef[pos] v.delay[pos] v.x).delay else v.delay[q] := by
  rw [position_active h]
  simp [Vector.getElem_set, Fin.ext_iff, eq_comm]

theorem position_active_fault {i : Nat} (hi : i < 18) : (position cfg ch v pos).fault.getLsbD i
    = (v.fault.getLsbD i
        || ((stage cfg.coef[pos] v.delay[pos] v.x).faulted && decide (i = ch.val * 9 + pos.val))) := by
  rw [position_active h]
  cases (stage cfg.coef[pos] v.delay[pos] v.x).faulted with
  | false => simp
  | true => simp [faultBit_getLsbD ch pos i hi]

end Active

/-- Settles O33: a stage has two paths and a position two cases, and the cascades are folds over their positions. -/
theorem stageAndBypass : Obligations.StageAndBypass := by
  refine ⟨fun c d w => ⟨fun h => stage_results_of_finite h, fun h => ?_⟩, fun cfg ch v pos => ⟨?_, fun h => ?_⟩,
    fun cfg ch v => ⟨rfl, rfl, rfl, chain_eq_foldl cfg ch v⟩⟩
  · rw [stage_of_not_finite h]
    exact ⟨rfl, rfl, rfl⟩
  · exact position_bypassed cfg ch v pos
  · exact ⟨by rw [position_active h], position_active_delay h ch v, fun i hi => position_active_fault h ch v hi⟩

/-! ## Chains -/

/-- Settles O34: the active peak's output is finite, and every position after it keeps a finite sample finite. -/
theorem chainOutputFinite : Obligations.ChainOutputFinite := fun cfg ch v hpeak =>
  foldl_x_finite cfg ch [5, 6, 7, 8] _ (position_x_finite cfg ch (lowCascade cfg ch v) 4 (.inl hpeak))

/-! ## Frames -/

/-- Settles O30: the two words are distinct, and a chain neither reads nor clears the FAULT bits it is given. -/
theorem frameStep : Obligations.FrameStep := fun k s hk =>
  ⟨fun ch => ⟨frame_sampleWord k s hk ch, frame_delay_getElem k s ch⟩, frame_fault k s, frame_sampleByteAt k s,
    frame_eq k s⟩

/-- A channel's flow depends on its own registers and word, and on ACTIVE (R155). -/
theorem channelFlow_congr {s u : State} {ch : Fin 2} {k : Nat} (hactive : s.active = u.active)
    (hdelay : s.delay[ch] = u.delay[ch]) (hword : s.sampleWord (sampleAddr ch k) = u.sampleWord (sampleAddr ch k))
    (f : BitVec 18) : channelFlow s ch k f = channelFlow u ch k f := by
  rw [channelFlow, hactive, hdelay, hword, channelFlow]

/-- A frame sets among the FAULT bits of a channel only those of the channel's own flow (R155, R245). -/
theorem frame_fault_getLsbD (k : Nat) (s : State) (ch : Fin 2) (i : Fin 9) :
    (frame k s).fault.getLsbD (ch.val * 9 + i.val)
      = (s.fault.getLsbD (ch.val * 9 + i.val) || (channelFlow s ch k 0).fault.getLsbD (ch.val * 9 + i.val)) := by
  have hother {c : Fin 2} (hne : c ≠ ch) : (channelFlow s c k 0).fault.getLsbD (ch.val * 9 + i.val) = false :=
    channelFlow_fault_other s c k _ (by omega) (by omega)
  rw [frame_fault, BitVec.getLsbD_or, BitVec.getLsbD_or]
  obtain rfl | rfl : ch = 0 ∨ ch = 1 := by omega
  · rw [hother (c := 1) one_ne_zero, Bool.or_false]
  · rw [hother (c := 0) zero_ne_one, Bool.or_false]

/-- Settles O35: the word, the registers and the FAULT bits of a channel come from its flow alone. -/
theorem channelsIndependent : Obligations.ChannelsIndependent := by
  intro s u k ch hk hactive hdelay hword hfault
  have hflow := channelFlow_congr hactive hdelay hword 0
  refine ⟨?_, ?_, fun i => ?_⟩
  · rw [frame_sampleWord k s hk, frame_sampleWord k u hk, hflow]
  · rw [frame_delay_getElem, frame_delay_getElem, hflow]
  · rw [frame_fault_getLsbD, frame_fault_getLsbD, hfault, hflow]

end Sys2Proof.Machine
end

section
/-! PROOFS. The channels of a block as streams (spec/41_biquad_stage_and_cascade.md R155, R156, R159;
spec/42_audio_port_commands.md R183). -/

namespace Sys2Proof.Machine

/-- A stream over two stretches of input is the streams over each, the registers carried over (R183). -/
theorem channelStream_append (cfg : Configuration) (ch : Fin 2) (d : Vector Delay 9) (xs ys : List Word) :
    channelStream cfg ch d (xs ++ ys)
      = ((channelStream cfg ch d xs).1 ++ (channelStream cfg ch (channelStream cfg ch d xs).2 ys).1,
         (channelStream cfg ch (channelStream cfg ch d xs).2 ys).2) := by
  induction xs generalizing d with
  | nil => rfl
  | cons x xs ih => simp only [List.cons_append, channelStream, ih]

@[simp] theorem advanceBlock_sampleWord (s : State) (a : Nat) : (advanceBlock s).sampleWord a = s.sampleWord a := rfl

@[simp] theorem framesRun_active (n : Nat) (s : State) : (framesRun n s).active = s.active := by
  induction n with
  | zero => rfl
  | succ n ih => rw [framesRun_succ, advanceBlock_active, frame_active, ih]

/-- The frames before index `j` leave the words at `j` as they were (R156). -/
theorem framesRun_sampleWord_ahead {n j : Nat} (hnj : n ≤ j) (hj : j < Config.bufDepth) (s : State) (ch : Fin 2) :
    (framesRun n s).sampleWord (sampleAddr ch j) = s.sampleWord (sampleAddr ch j) := by
  induction n with
  | zero => rfl
  | succ n ih =>
    rw [framesRun_succ, advanceBlock_sampleWord, frame_sampleWord_other n j _ (by omega) hj (by omega), ih (by omega)]

/-- The last of a block's frames is the chain on the word before the block (R156). -/
theorem channelFlow_framesRun {n : Nat} (hn : n < Config.bufDepth) (s : State) (ch : Fin 2) :
    channelFlow (framesRun n s) ch n 0
      = chain s.active ch ⟨(framesRun n s).delay[ch], 0, s.sampleWord (sampleAddr ch n)⟩ := by
  rw [channelFlow, framesRun_active, framesRun_sampleWord_ahead le_rfl hn]

/-- One more frame appends its output to those of the frames before (R156). -/
theorem framesRun_succ_outputs {n : Nat} (hn : n < Config.bufDepth) (s : State) (ch : Fin 2) :
    (List.range (n + 1)).map (fun k => (framesRun (n + 1) s).sampleWord (sampleAddr ch k))
      = (List.range n).map (fun k => (framesRun n s).sampleWord (sampleAddr ch k))
        ++ [(channelFlow (framesRun n s) ch n 0).x] := by
  rw [List.range_succ, List.map_append, List.map_singleton, framesRun_succ, advanceBlock_sampleWord,
    frame_sampleWord n _ hn]
  refine congrArg (· ++ _) (List.map_congr_left fun k hk => ?_)
  have hkn := List.mem_range.mp hk
  rw [advanceBlock_sampleWord, frame_sampleWord_other n k _ hn (by omega) (by omega)]

/-- The outputs and the registers of a channel after `n` frames are its stream's (R155, R156). -/
theorem framesRun_eq_channelStream {n : Nat} (hn : n ≤ Config.bufDepth) (s : State) (ch : Fin 2) :
    ((List.range n).map (fun k => (framesRun n s).sampleWord (sampleAddr ch k)), (framesRun n s).delay[ch])
      = channelStream s.active ch s.delay[ch] ((List.range n).map fun k => s.sampleWord (sampleAddr ch k)) := by
  induction n with
  | zero => rfl
  | succ n ih =>
    have hdelay : (framesRun (n + 1) s).delay[ch] = (channelFlow (framesRun n s) ch n 0).delay := by
      rw [framesRun_succ, advanceBlock_delay, frame_delay_getElem]
    rw [framesRun_succ_outputs hn, hdelay, channelFlow_framesRun hn, List.range_succ, List.map_append,
      channelStream_append, ← ih (by omega)]
    rfl

/-- Settles O32: a block is its frames in order, each of which reads a word that none before it has written. -/
theorem blockIsStream : Obligations.BlockIsStream :=
  ⟨fun _ s ch hn => ⟨congrArg Prod.fst (framesRun_eq_channelStream hn s ch),
    congrArg Prod.snd (framesRun_eq_channelStream hn s ch)⟩, channelStream_append⟩

end Sys2Proof.Machine
end

section
/-! PROOFS. Silence through a stage (spec/41_biquad_stage_and_cascade.md R157): every product with a zero and every sum of
zeros is a zero, whose sign is known. -/

namespace Sys2Proof.Machine

/-- The zero of binary32 with a given sign. -/
def zero32 (s : Bool) : Fp := .fin s 0 f32.qmin

theorem ofF32_zeroWord {w : Word} (h : w = 0x00000000 ∨ w = 0x80000000) : ∃ s, ofF32 w = zero32 s := by
  obtain rfl | rfl := h
  · exact ⟨false, ofF32_zero⟩
  · exact ⟨true, by decide +kernel⟩

theorem toF32_zero32_false : toF32 0 (zero32 false) = 0x00000000 := by decide +kernel

theorem toF32_zero32 (s : Bool) : toF32 0 (zero32 s) = 0x00000000 ∨ toF32 0 (zero32 s) = 0x80000000 := by
  cases s with
  | false => exact .inl toF32_zero32_false
  | true => exact .inr (by decide +kernel)

theorem toReal_zero32 (s : Bool) : (zero32 s).toReal = 0 := (toReal_fin_eq_zero _ _ _).mpr rfl

theorem mul32_zero32 {a : Fp} (ha : a.isFinite = true) (s : Bool) : mul32 a (zero32 s) = zero32 (a.sign != s) :=
  mul_eq_zero_sign f32 f32_ebits_pos ha rfl (by rw [toReal_zero32, mul_zero])

theorem add32_zero32 (s t : Bool) : add32 (zero32 s) (zero32 t) = zero32 (s && t) :=
  add_eq_zero f32 rfl rfl (by rw [toReal_zero32, toReal_zero32, add_zero])

theorem sub32_zero32 (s t : Bool) : sub32 (zero32 s) (zero32 t) = zero32 (s && !t) := add32_zero32 s (!t)

theorem Fp.sign_ofMag (f : Fmt) (s : Bool) (mag : Nat) : (Fp.ofMag f s mag).sign = s := by
  unfold Fp.ofMag
  split
  · rfl
  · rfl

/-- The sign of a finite word is its bit 31 (R12). -/
theorem sign_ofF32 {w : Word} (h : finiteWord w = true) : (ofF32 w).sign = w.getLsbD 31 := by
  unfold finiteWord at h
  unfold ofF32 Fp.decodeBits at h ⊢
  simp only at h ⊢
  split at h
  · rename_i hle
    rw [if_pos hle, Fp.sign_ofMag]
    exact (Nat.testBit_eq_decide_div_mod_eq).symm
  · exact absurd h Bool.false_ne_true

/-- Settles O36: the three results are zeros, and y is +0 because `b0 * 0` is. -/
theorem stageSilence : Obligations.StageSilence := by
  intro c d hb0 hb1 hb2 ha1 ha2 hsign hr0 hr1
  obtain ⟨s0, hs0⟩ := ofF32_zeroWord hr0
  obtain ⟨s1, hs1⟩ := ofF32_zeroWord hr1
  have hx : ofF32 0x00000000 = zero32 false := ofF32_zero
  have hy : stageY c d 0x00000000 = zero32 false := by
    rw [stageY, hx, mul32_zero32 hb0, hs0, add32_zero32, sign_ofF32 hb0, hsign]
    rfl
  obtain ⟨t0, ht0⟩ : ∃ t, stageT0 c d 0x00000000 = zero32 t :=
    ⟨_, by rw [stageT0, hx, hy, mul32_zero32 hb1, mul32_zero32 ha1, sub32_zero32, hs1, add32_zero32]⟩
  obtain ⟨t1, ht1⟩ : ∃ t, stageT1 c d 0x00000000 = zero32 t :=
    ⟨_, by rw [stageT1, hx, hy, mul32_zero32 hb2, mul32_zero32 ha2, sub32_zero32]⟩
  have hfinite : stageFinite c d 0x00000000 := by
    rw [stageFinite, hx, hy, ht0, ht1]
    exact ⟨rfl, rfl, rfl, rfl⟩
  rw [stage_of_finite hfinite, hy, ht0, ht1]
  exact ⟨toF32_zero32_false, rfl, toF32_zero32 t0, toF32_zero32 t1⟩

end Sys2Proof.Machine
end

section
/-! PROOFS. The port A commands (spec/42_audio_port_commands.md R180 to R182; spec/43_update_protocol.md R200): what each
decodes from, what it answers on every path, and what a command with nothing to do leaves to its port. -/

namespace Sys2Proof.Machine

/-! ## NOPs -/

/-- A command that changes nothing leaves its write nothing but the completion (R69). -/
theorem perform_inert {p : Port} {w : Word} {i : Instr} {s : State} (hd : decode p w = .ok i) (hx : exec i s = .next s) :
    perform p (.write (busAddress s.bases p (cmdAddr p)) w) s = .next (completeWrite p s) := by
  rw [perform_command, writeCommand_legal hd, hx, onNext_next]

theorem withoutArgument_of_ne {arg : Nat} (h : arg ≠ 0) (i : Instr) :
    withoutArgument arg i = .error .argumentNotZero := if_neg h

/-- Port A's write of a command that starts no block completes in its own step (R69, R182). -/
theorem completeWrite_a_idle {s : State} (hb : s.blk.busy = false) : completeWrite .a s = reply .a .done s := by
  simp only [completeWrite, hb, Bool.false_eq_true, if_false]

/-- Settles O23: both decoders read the word 0 as a command that answers its own state. -/
theorem nops : Obligations.Nops := by
  have ha : decode .a 0x00000000 = .ok .aNop := decode_of_fields (i := .aNop) rfl rfl
  have hc : decode .c 0x00000000 = .ok .cNop := decode_of_fields (i := .cNop) rfl rfl
  refine ⟨ha, hc, fun s => ⟨rfl, rfl⟩, fun s hb => ?_, fun s => perform_inert hc rfl, fun w hopc harg => ?_⟩
  · exact (perform_inert ha rfl).trans (congrArg _ (completeWrite_a_idle hb))
  · simp only [decode, decodeA, decodeC, hopc, if_true, withoutArgument_of_ne harg, and_self]

/-! ## A.PREPARE -/

/-- A word of a command's fields, the argument shifted above the opcode, decodes to it (R90). -/
theorem decode_shifted {i : Instr} (h : i.arg < 2 ^ 24) :
    decode i.port (BitVec.ofNat 32 i.arg <<< 8 ||| BitVec.ofNat 32 (opcode i)) = .ok i := by
  obtain ⟨hopc, harg⟩ := encode_fields i ((Instr.wellFormed_iff i).mpr h)
  rw [← ofNat_fields_eq_or _ (opcode_lt i)]
  exact decode_of_fields hopc harg

theorem raiseIf_aBadFs (b : Bool) (s : State) :
    raiseIf b .aBadFs s = { s with aErr := { s.aErr with badFs := s.aErr.badFs || b } } := by
  cases b <;> simp [raiseError]

theorem raiseIf_aBadBlock (b : Bool) (s : State) :
    raiseIf b .aBadBlock s = { s with aErr := { s.aErr with badBlock := s.aErr.badBlock || b } } := by
  cases b <;> simp [raiseError]

theorem exec_aPrepare_legal {m : Nat} {s : State} (hrate : legalRate s.aFs = true)
    (hm : ¬ (m = 0 ∨ Config.bufDepth < m)) :
    exec (.aPrepare m) s = .next (commit (derive s.last s.aFs s.active).1 (derive s.last s.aFs s.active).2
      { s with engFs := s.aFs, maxBlock := BitVec.ofNat 32 m, prepared := true, delay := zeroDelay }) := by
  rw [exec, execAPrepare, hrate, decide_eq_false hm]
  rfl

theorem exec_aPrepare_illegal {m : Nat} {s : State} (h : legalRate s.aFs = false ∨ m = 0 ∨ Config.bufDepth < m) :
    exec (.aPrepare m) s = .next (raiseIf (decide (m = 0 ∨ Config.bufDepth < m)) .aBadBlock
      (raiseIf (!legalRate s.aFs) .aBadFs s)) := by
  rw [exec, execAPrepare]
  refine if_pos ?_
  rcases h with hrate | hm
  · rw [hrate]; rfl
  · rw [decide_eq_true hm, Bool.or_true]

/-- Settles O24: the two checks are independent, and each error bit is the outcome of its own. -/
theorem prepareOutcome : Obligations.PrepareOutcome := by
  refine ⟨fun m hm => decode_shifted (i := .aPrepare m) hm, fun m s hrate h1 h2 => ?_, fun m s h => ?_⟩
  · rw [exec_aPrepare_legal hrate (by omega)]
    rfl
  · rw [exec_aPrepare_illegal h, raiseIf_aBadFs, raiseIf_aBadBlock]

/-! ## The start of A.PROCESS_BLOCK -/

theorem exec_aProcessBlock_unprepared {s : State} (hp : s.prepared = false) (n : Nat) :
    exec (.aProcessBlock n) s = .next (raiseError .aUnprepared s) := by
  rw [exec, execAProcessBlock, hp]
  rfl

/-- Prepared, only the length is left to check (R182, R244). -/
theorem exec_aProcessBlock_prepared {s : State} (hp : s.prepared = true) (n : Nat) :
    exec (.aProcessBlock n) s
      = if s.maxBlock.toNat < n then .next (raiseError .aBadBlock s)
        else if n = 0 then .next s else .next (startBlock n s) := by
  rw [exec, execAProcessBlock, hp]
  rfl

theorem exec_aProcessBlock_start {n : Nat} {s : State} (hp : s.prepared = true) (hpos : 0 < n)
    (hle : n ≤ s.maxBlock.toNat) : exec (.aProcessBlock n) s = .next (startBlock n s) := by
  rw [exec_aProcessBlock_prepared hp, if_neg (by omega), if_neg (by omega)]

/-- Settles O26: PREPARED is checked before the length, and the length before it is compared with 0. -/
theorem blockStarts : Obligations.BlockStarts := by
  intro n s
  refine ⟨exec_aProcessBlock_start, fun hp hn => ?_, fun hp hn => ?_, fun hp => exec_aProcessBlock_unprepared hp n⟩
  · rw [exec_aProcessBlock_prepared hp, if_neg (by omega), if_pos hn]
  · rw [exec_aProcessBlock_prepared hp, if_pos hn]
    rfl

end Sys2Proof.Machine
end

section
/-! PROOFS. A.PROCESS_BLOCK from its start to its completion (spec/42_audio_port_commands.md R182; spec/20_memory.md R69,
R74; spec/70_reset_and_hazards.md R277, R280): one step, the frames in a row, and what they leave alone. -/

namespace Sys2Proof.Machine

/-! ## One step -/

/-- A block in flight moves at agent A's turn, and where no one is scheduled (R74). -/
theorem step_busy {s : State} (hb : s.blk.busy = true) (hturn : s.turns = [] ∨ s.turns.head? = some .a) :
    step s = .next (blockStep { s with turns := s.turns.tail }) := by
  rcases hturn with hnil | ha
  · have hs : { s with turns := s.turns.tail } = s := by rw [hnil, List.tail_nil, ← hnil]
    rw [hs]
    simp only [step, hnil, internalTurn, hb, if_true]
  · exact step_block s _ (List.eq_cons_of_mem_head? ha) hb

/-- A frame step writes the frame's results and counts it (R182). -/
theorem blockStep_eq_frame {s : State} (hb : s.blk.busy = true) (hk : s.blk.k < s.blk.n) :
    blockStep s = { frame s.blk.k s with blk := ⟨true, s.blk.n, s.blk.k + 1⟩ } := by
  rw [blockStep_frame s hk, ← hb]
  rfl

/-- Settles O27: the step is the block's own, and it is a frame exactly while one is left. -/
theorem blockSteps : Obligations.BlockSteps := by
  intro s hb hturn
  rw [step_busy hb hturn]
  refine ⟨fun hk => ?_, fun hk => ?_⟩
  · exact congrArg _ (blockStep_eq_frame (s := { s with turns := s.turns.tail }) hb hk)
  · exact congrArg _ (blockStep_end { s with turns := s.turns.tail } hk)

/-! ## A run of frames -/

/-- The state in which agent A has `j` turns before those of the schedule. -/
def State.audioTurns (j : Nat) (s : State) : State := { s with turns := List.replicate j .a ++ s.turns }

theorem audioTurns_audioTurns (i j : Nat) (s : State) : (s.audioTurns i).audioTurns j = s.audioTurns (j + i) := by
  simp only [State.audioTurns, ← List.append_assoc, List.replicate_append_replicate]

/-- The frames of a block do not look at agent A's turns to come. -/
theorem framesRun_audioTurns (n j : Nat) (s : State) : framesRun n (s.audioTurns j) = (framesRun n s).audioTurns j := by
  rw [State.audioTurns, State.audioTurns, framesRun_turns, (framesRun_bus n s).1]

/-- One of those turns is the block's own step (R69). -/
theorem step_audioTurns {s : State} (hb : s.blk.busy = true) : step (s.audioTurns 1) = .next (blockStep s) :=
  step_block (s.audioTurns 1) s.turns rfl hb

theorem framesRun_blk {n : Nat} {s : State} (hblk : s.blk = ⟨true, n, 0⟩) (j : Nat) :
    (framesRun j s).blk = ⟨true, n, j⟩ := by
  obtain ⟨-, -, -, hk⟩ := framesRun_bus j s
  rw [hk, hblk, Nat.zero_add]

/-- The first `j` turns of a block are its first `j` frames, in rising order (R182). -/
theorem run_audioTurns {n j : Nat} (hj : j ≤ n) {s : State} (hblk : s.blk = ⟨true, n, 0⟩) :
    core.run j (s.audioTurns j) = .next (framesRun j s) := by
  induction j generalizing s with
  | zero => exact run_zero s
  | succ j ih =>
    have hrun := ih (by omega) (s := s.audioTurns 1) hblk
    rw [audioTurns_audioTurns, framesRun_audioTurns] at hrun
    have hk := framesRun_blk hblk j
    rw [run_succ j _ _ _ hrun (step_audioTurns (by rw [hk])), blockStep_frame _ (by rw [hk]; exact hj), hk,
      framesRun_succ]

/-- One turn more, and the block has ended (R182). -/
theorem run_audioTurns_end {n : Nat} {s : State} (hblk : s.blk = ⟨true, n, 0⟩) :
    core.run (n + 1) (s.audioTurns (n + 1)) = .next (reply .a .done (endBlock (framesRun n s))) := by
  have hrun := run_audioTurns le_rfl (s := s.audioTurns 1) hblk
  rw [audioTurns_audioTurns, framesRun_audioTurns] at hrun
  have hk := framesRun_blk hblk n
  rw [run_succ n _ _ _ hrun (step_audioTurns (by rw [hk])), blockStep_end _ (by rw [hk])]

/-- While turns are left, BLK counts the frames, and the host's side stands still (R69, R182). -/
theorem run_audioTurns_within {n j m : Nat} (hjn : j ≤ n) (hjm : j ≤ m) {s : State} (hblk : s.blk = ⟨true, n, 0⟩) :
    ∃ u, core.run j (s.audioTurns m) = .next u ∧ u.blk = ⟨true, n, j⟩ ∧ u.repliesA = s.repliesA
      ∧ u.pendingA = s.pendingA := by
  obtain ⟨i, rfl⟩ := Nat.exists_eq_add_of_le hjm
  rw [← audioTurns_audioTurns, run_audioTurns hjn (s := s.audioTurns i) hblk]
  obtain ⟨-, hq, hr, -⟩ := framesRun_bus j (s.audioTurns i)
  exact ⟨_, rfl, framesRun_blk (s := s.audioTurns i) hblk j, hr, hq⟩

/-! ## The whole block -/

/-- The write of A.PROCESS_BLOCK's word starts the block and does not complete (R69, R182). -/
theorem step_startBlock {n : Nat} {s : State} {q : List Txn} {ts : List Turn} (hn : n < 2 ^ 24) (hpos : 0 < n)
    (hle : n ≤ s.maxBlock.toNat) (hp : s.prepared = true) (hb : s.blk.busy = false)
    (hq : s.pendingA = .write (busAddress s.bases .a 0x0004) (encode (.aProcessBlock n)) :: q)
    (hturns : s.turns = .a :: ts) : step s = .next (startBlock n { s with pendingA := q, turns := ts }) := by
  have hword : decode .a (encode (.aProcessBlock n)) = .ok (.aProcessBlock n) :=
    (decodeOfEncode (.aProcessBlock n) ((Instr.wellFormed_iff _).mpr hn)).1
  have hexec := exec_aProcessBlock_start (s := { s with pendingA := q, turns := ts }) hp hpos hle
  rw [step_audio_command hturns hq hb, writeCommand_legal hword, hexec]
  rfl

/-- Settles O28: the first turn is the start, each of the next `n` is a frame, and the last is the end step. -/
theorem blockRunsToCompletion : Obligations.BlockRunsToCompletion := by
  intro n s q ts hn hpos hle hp hb hq hturns
  have hstart : step s = .next ((startBlock n { s with pendingA := q, turns := ts }).audioTurns (n + 1)) :=
    step_startBlock hn hpos hle hp hb hq hturns
  refine ⟨fun j h0 hj => ?_, ?_⟩
  · obtain ⟨j, rfl⟩ := Nat.exists_eq_add_one.mpr h0
    rw [run_step j _ _ hstart]
    exact run_audioTurns_within (by omega) (by omega) rfl
  · obtain ⟨-, -, hr, -⟩ := framesRun_bus n (startBlock n { s with pendingA := q, turns := ts })
    rw [run_step (n + 1) _ _ hstart, run_audioTurns_end rfl, reply, endBlock, hr]
    rfl

/-! ## What the frames leave alone -/

@[simp] theorem advanceBlock_sampleByteAt (s : State) (a : Nat) :
    (advanceBlock s).sampleByteAt a = s.sampleByteAt a := rfl

/-- Frames 0 to `n - 1` write the first `n` words of each channel and no other byte (R156, R277). -/
theorem framesRun_sampleByteAt {n a : Nat} (s : State) (h0 : a < sampleAddr 0 0 ∨ sampleAddr 0 n ≤ a)
    (h1 : a < sampleAddr 1 0 ∨ sampleAddr 1 n ≤ a) : (framesRun n s).sampleByteAt a = s.sampleByteAt a := by
  induction n with
  | zero => rfl
  | succ n ih =>
    unfold sampleAddr at h0 h1 ih
    rw [framesRun_succ, advanceBlock_sampleByteAt,
      frame_sampleByteAt n _ a (by unfold sampleAddr; omega) (by unfold sampleAddr; omega), ih (by omega) (by omega)]

/-- Frames change registers, FAULT bits and sample words, and count themselves in BLK (R156, R182). -/
theorem framesRun_eq_update (n : Nat) (s : State) : ∃ delay fault ramA,
    framesRun n s = { s with delay := delay, fault := fault, ramA := ramA, blk := { s.blk with k := s.blk.k + n } } := by
  induction n with
  | zero => exact ⟨s.delay, s.fault, s.ramA, rfl⟩
  | succ n ih =>
    obtain ⟨delay, fault, ramA, h⟩ := ih
    rw [framesRun_succ, frame_eq, h]
    exact ⟨_, _, _, rfl⟩

/-- Settles O31: by induction on the frames, each of which writes only at its own index. -/
theorem blockFrame : Obligations.BlockFrame := by
  intro n s _
  refine ⟨fun a => framesRun_sampleByteAt s, ?_⟩
  obtain ⟨delay, fault, ramA, h⟩ := framesRun_eq_update n s
  rw [h]

end Sys2Proof.Machine
end

section
/-! PROOFS. C.UPDATE (spec/43_update_protocol.md R201, R203 to R205): what it answers on every path, what it makes of any
number of P_* writes before it, and why a second one changes nothing. -/

namespace Sys2Proof.Machine

/-! ## C.UPDATE -/

/-- The state after a C.UPDATE that runs and derives the configuration and clamp flag `d` (R201, R203). -/
def State.publish (s : State) (d : Configuration × Bool) : State :=
  commit d.1 d.2 { s with dirty := false, last := s.params }

theorem exec_cUpdate_unprepared {s : State} (hp : s.prepared = false) : exec .cUpdate s = .next s := by
  rw [exec, execCUpdate, hp]
  rfl

theorem exec_cUpdate_clean {s : State} (hd : s.dirty = false) : exec .cUpdate s = .next s := by
  rw [exec, execCUpdate, hd]
  exact ite_self _

theorem exec_cUpdate_dirty {s : State} {d : Configuration × Bool} (hp : s.prepared = true) (hd : s.dirty = true)
    (hder : derive s.params s.engFs s.active = d) : exec .cUpdate s = .next (s.publish d) := by
  rw [← hder]
  exact (if_neg (by simp [hp])).trans (if_neg (by simp [hd]))

/-- Settles O44: each early return is one check, and the effect is the named commit. -/
theorem updateOutcome : Obligations.UpdateOutcome :=
  ⟨decode_of_fields (i := .cUpdate) rfl rfl,
    fun _ => ⟨exec_cUpdate_unprepared, exec_cUpdate_clean, fun hp hd => exec_cUpdate_dirty hp hd rfl⟩⟩

/-! ## Coalescing -/

/-- A text of P_* writes stores its words in order, sets DIRTY if it has any, and changes nothing else of the block
(R32, R47). -/
theorem issue_cSetP_map {b : Bases} (ws : List (Field × Word)) {s : State} (hb : s.bases = b) :
    issue (ws.map fun w => cSetP b w.1 w.2) s
      = .next { s with
          params := ws.foldl (fun p w => p.set w.1 w.2) s.params, dirty := s.dirty || !ws.isEmpty,
          repliesC := List.replicate ws.length Reply.done ++ s.repliesC } := by
  induction ws generalizing s with
  | nil => simp [issue_nil]
  | cons w ws ih =>
    rw [List.map_cons, issue_cSetP hb, ih (s := reply .c .done (setParam w.1 w.2 s)) hb]
    simp [reply, setParam, List.replicate_succ']

/-- Settles O45: the writes change P and DIRTY alone, so the update finds the last words and the old ACTIVE. -/
theorem updatesCoalesce : Obligations.UpdatesCoalesce := by
  intro ws s hp hne
  have hdirty : (s.dirty || !ws.isEmpty) = true := by
    rw [List.isEmpty_eq_false_iff.mpr hne, Bool.not_false, Bool.or_true]
  exact ⟨_, issue_cSetP_map ws rfl, rfl, rfl, rfl, _, exec_cUpdate_dirty hp hdirty rfl, rfl, rfl, rfl, rfl⟩

/-! ## Idempotence -/

theorem Params.set_get (p : Params) (f : Field) : p.set f (p.get f) = p := by
  cases f <;> rfl

/-- Writing to P_* registers the words that they hold only sets DIRTY (R32, R206). -/
theorem foldl_setParam_get {fs : List Field} (hne : fs ≠ []) (s : State) :
    fs.foldl (fun u f => setParam f (u.params.get f) u) s = { s with dirty := true } := by
  induction fs generalizing s with
  | nil => exact absurd rfl hne
  | cons f fs ih =>
    have hset : setParam f (s.params.get f) s = { s with dirty := true } := by rw [setParam, Params.set_get]
    rw [List.foldl_cons, hset]
    cases fs with
    | nil => rfl
    | cons g fs => exact ih (List.cons_ne_nil g fs) _

/-- C.UPDATE is idempotent: it has an early return, or it leaves DIRTY clear for the second (R205). -/
theorem exec_cUpdate_twice {s t : State} (h : exec .cUpdate s = .next t) : exec .cUpdate t = .next t := by
  cases hp : s.prepared with
  | false =>
    rw [exec_cUpdate_unprepared hp] at h
    cases h
    exact exec_cUpdate_unprepared hp
  | true =>
    cases hd : s.dirty with
    | false =>
      rw [exec_cUpdate_clean hd] at h
      cases h
      exact exec_cUpdate_clean hd
    | true =>
      rw [exec_cUpdate_dirty hp hd rfl] at h
      cases h
      exact exec_cUpdate_clean rfl

/-- A published state, made dirty again, publishes what it holds if the derivation over it is the same again; only the
clamp flag can change (R203, R205). -/
theorem exec_cUpdate_published {s : State} {d : Configuration × Bool} (hp : s.prepared = true)
    (hder : derive s.params s.engFs d.1 = d) (clamped : Bool) :
    exec .cUpdate { s.publish d with dirty := true, paramClamped := clamped }
      = .next { s.publish d with paramClamped := clamped || d.2 } :=
  exec_cUpdate_dirty (s := { s.publish d with dirty := true, paramClamped := clamped }) hp rfl hder

/-- Settles O46: rewritten words derive what was published, so only PARAM_CLAMPED could change, and it is set already
unless it was cleared. -/
theorem updateIdempotent : Obligations.UpdateIdempotent := by
  refine ⟨fun s t => exec_cUpdate_twice, fun s t fs hp hd hne h => ?_⟩
  have hagain := deriveDependsOnSnapshot.2 s.params s.engFs s.active
  generalize hder : derive s.params s.engFs s.active = d at hagain ⊢
  rw [exec_cUpdate_dirty hp hd hder] at h
  cases h
  rw [foldl_setParam_get hne, foldl_setParam_get hne]
  refine ⟨(exec_cUpdate_published hp hagain (s.paramClamped || d.2)).trans ?_, exec_cUpdate_published hp hagain false⟩
  rw [Bool.or_assoc, Bool.or_self]
  rfl

end Sys2Proof.Machine
end

section
/-! PROOFS. C.GET_RESPONSE (spec/44_response_evaluator.md R221): what the entries written read as, and what it answers on
every path. -/

namespace Sys2Proof.Machine

/-! ## The entries of the response RAM -/

theorem loadWord_writeResponses_outside (f : Nat → DWord) (free : Nat → Byte) (n i : Nat) (m : Memory) (a : Nat)
    (h : a + 4 ≤ respAddr i) : (writeResponses f n i m).loadWord free a = m.loadWord free a := by
  unfold Memory.loadWord
  rw [byteAt_writeResponses_outside _ _ _ _ _ _ (by omega), byteAt_writeResponses_outside _ _ _ _ _ _ (by omega),
    byteAt_writeResponses_outside _ _ _ _ _ _ (by omega), byteAt_writeResponses_outside _ _ _ _ _ _ (by omega)]

/-- An entry written reads back as its two words: it is stored once, and later stores lie above it (R66, R221). -/
theorem loadWord_writeResponses (f : Nat → DWord) (free : Nat → Byte) (n : Nat) : ∀ (i j : Nat) (m : Memory), i ≤ j →
    j < i + n → (writeResponses f n i m).loadWord free (respAddr j) = (f j).extractLsb' 0 32
      ∧ (writeResponses f n i m).loadWord free (respAddr j + 4) = (f j).extractLsb' 32 32 := by
  induction n with
  | zero => intro i j m h1 h2; omega
  | succ n ih =>
    intro i j m h1 h2
    rcases h1.eq_or_lt with rfl | hlt
    · have hnext : respAddr i + 8 = respAddr (i + 1) := by unfold respAddr; omega
      obtain ⟨hlow, hhigh⟩ := Memory.loadWord_storeDWord m free (respAddr i) (f i)
      refine ⟨(loadWord_writeResponses_outside f free n (i + 1) _ _ (by omega)).trans hlow, ?_⟩
      exact (loadWord_writeResponses_outside f free n (i + 1) _ _ (by omega)).trans hhigh
    · exact ih (i + 1) j _ hlt (by omega)

theorem respEntry_writeResponses (f : Nat → DWord) (s : State) {n i : Nat} (h : i < n) :
    State.respEntry { s with ramC := writeResponses f n 0 s.ramC } i = f i := by
  obtain ⟨hlow, hhigh⟩ := loadWord_writeResponses f (Config.respByte s.run) n 0 i s.ramC (Nat.zero_le i) (by omega)
  exact (congrArg₂ (· ++ ·) hhigh hlow).trans BitVec.extractLsb'_append_extractLsb'

/-! ## C.GET_RESPONSE -/

theorem raiseIf_cBadWidth (b : Bool) (s : State) :
    raiseIf b .cBadWidth s = { s with cErr := { s.cErr with badWidth := s.cErr.badWidth || b } } := by
  cases b <;> simp [raiseError]

theorem raiseIf_cBadFs (b : Bool) (s : State) :
    raiseIf b .cBadFs s = { s with cErr := { s.cErr with badFs := s.cErr.badFs || b } } := by
  cases b <;> simp [raiseError]

theorem exec_cGetResponse_legal {w : Nat} {s : State} (hw : w ≤ Config.respDepth) (hrate : legalRate s.cRespFs = true) :
    exec (.cGetResponse w) s
      = .next { s with ramC := writeResponses (response s.snap s.cRespFs w) w 0 s.ramC } := by
  rw [exec, execCGetResponse, hrate, decide_eq_false (not_lt.mpr hw)]
  rfl

theorem exec_cGetResponse_illegal {w : Nat} {s : State} (h : Config.respDepth < w ∨ legalRate s.cRespFs = false) :
    exec (.cGetResponse w) s
      = .next (raiseIf (!legalRate s.cRespFs) .cBadFs (raiseIf (decide (Config.respDepth < w)) .cBadWidth s)) := by
  rw [exec, execCGetResponse]
  refine if_pos ?_
  rcases h with hw | hrate
  · rw [decide_eq_true hw, Bool.true_or]
  · rw [hrate, Bool.not_false, Bool.or_true]

/-- Settles O47: the legal path is the named write of the entries, and each error bit is the outcome of its own check. -/
theorem responseOutcome : Obligations.ResponseOutcome := by
  refine ⟨fun w hw => decode_shifted (i := .cGetResponse w) hw, fun w s hw hrate => ?_, fun w s h => ?_⟩
  · refine ⟨_, exec_cGetResponse_legal hw hrate, fun i hi => respEntry_writeResponses _ s hi, fun a ha => ?_, rfl⟩
    exact byteAt_writeResponses_outside _ _ w 0 s.ramC a (by rwa [Nat.zero_add])
  · rw [exec_cGetResponse_illegal h, raiseIf_cBadWidth, raiseIf_cBadFs]

end Sys2Proof.Machine
end

section
/-! PROOFS. The evaluator's functions (spec/44_response_evaluator.md R222 to R225, R227): the order of their operations, the
floor of the decibel conversion, and the configurations and stages whose magnitude is exactly 1. -/

namespace Sys2Proof.Machine

/-! ## MAG -/

/-- One factor depends on the flag, and on the slot only where it is active (R224). -/
theorem magFactor_congr {c d : Configuration} (f fsE m : Fp) {pos : Fin 9} (hbyp : c.byp = d.byp)
    (hcoef : c.byp[pos] = false → c.coef[pos] = d.coef[pos]) : magFactor c f fsE m pos = magFactor d f fsE m pos := by
  cases hp : c.byp[pos] with
  | true => rw [magFactor, magFactor, ← hbyp, hp]; rfl
  | false => rw [magFactor, magFactor, ← hbyp, hp, hcoef hp]

/-- Settles O48: the formulas are the definitions', and magnitudes agree factor by factor. -/
theorem responseIgnoresStaleSlots : Obligations.ResponseIgnoresStaleSlots := by
  refine ⟨fun i w => rfl, fun c f fsE => rfl, fun c f fsE => rfl, fun c d f fsE hbyp hcoef => ?_⟩
  exact List.foldl_ext _ _ _ fun m pos _ => magFactor_congr f fsE m hbyp (hcoef pos)

/-! ## DB -/

/-- The larger of a finite datum and any other is a number at or above it: a NaN never compares as larger (R16). -/
theorem Fp.le_max {a : Fp} (ha : a.isFinite = true) (b : Fp) : a.le (a.max b) = true := by
  unfold Fp.max
  cases hlt : a.lt b with
  | false => simpa using (Fp.le_iff ha ha).mpr le_rfl
  | true =>
    cases b with
    | nan => cases a <;> simp [Fp.lt] at hlt
    | inf s => cases a <;> simp_all [Fp.le, Fp.lt, Fp.isNaN, Fp.isFinite]
    | fin s m e => simpa using (Fp.le_iff ha rfl).mpr ((Fp.lt_iff ha rfl).mp hlt).le

theorem isFinite_DB_FLOOR : (ofF64 DB_FLOOR).isFinite = true := by decide +kernel

theorem db_of_not_pos {m : Fp} (h : (Fp.fin false 0 0).lt m = false) : db m = ofF64 DB_FLOOR :=
  if_neg (Bool.eq_false_iff.mp h)

theorem db_of_pos {m : Fp} (hfin : m.isFinite = true) (h : (Fp.fin false 0 0).lt m = true) :
    db m = (ofF64 DB_FLOOR).max (mul64 (log10_64 m) twenty) := by
  cases m with
  | fin s m e => exact if_pos h
  | _ => exact absurd hfin Bool.false_ne_true

theorem db_inf : db (.inf false) = .inf false := rfl

/-- No result lies below the floor (R225). -/
theorem floor_le_db (m : Fp) : (ofF64 DB_FLOOR).le (db m) = true := by
  cases hpos : (Fp.fin false 0 0).lt m with
  | false => rw [db_of_not_pos hpos]; exact (Fp.le_iff isFinite_DB_FLOOR isFinite_DB_FLOOR).mpr le_rfl
  | true =>
    cases m with
    | nan => simp [Fp.lt] at hpos
    | inf s =>
      obtain rfl : s = false := by simpa [Fp.lt] using hpos
      rw [db_inf]; decide +kernel
    | fin s m e => rw [db_of_pos rfl hpos]; exact Fp.le_max isFinite_DB_FLOOR _

/-- Settles O49: the three paths of DB, and the floor below each of them. -/
theorem decibelConversion : Obligations.DecibelConversion :=
  ⟨rfl, fun _ => db_of_not_pos, fun _ => db_of_pos, db_inf, floor_le_db, by decide +kernel⟩

/-! ## Cosine and sine -/

theorem neg_within_one {a : Fp} (h : a.within (-1) 1) : a.neg.within (-1) 1 := by
  simpa using neg_within h

section
variable {f : Fmt} (h1 : f.has 1)
include h1

/-- A number between -1 and 1 rounds to a datum between them (R13). -/
theorem Fmt.rounds.within_one {v : ℝ} {r : Fp} (h : f.rounds v r) (hv : |v| ≤ 1) : r.within (-1) 1 :=
  h.within (Fmt.has_neg h1) h1 (abs_le.mp hv).1 (abs_le.mp hv).2

theorem ofMag_within_one (s : Bool) {num den : Nat} (hd : 0 < den) (h : num ≤ den) :
    (Fp.ofMag f s (f.roundMag num den)).within (-1) 1 := by
  refine Fmt.rounds.within_one h1 ⟨s, num, den, hd, rfl, rfl⟩ ?_
  have hle : (num : ℝ) / den ≤ 1 := div_le_one_of_le₀ (by exact_mod_cast h) (by positivity)
  have habs : |(num : ℝ) / den| ≤ 1 := by rwa [abs_of_nonneg (by positivity)]
  cases s <;> simpa using habs

end

/-- An enclosure with its ends in order and between -1 and 1. -/
def Encl.InUnit (x : Encl) : Prop := 0 < x.den ∧ -(x.den : Int) ≤ x.lo ∧ x.lo ≤ x.hi ∧ x.hi ≤ x.den

theorem Encl.holds.lo_le_hi {x : Encl} {v : ℝ} (h : x.holds v) : x.lo ≤ x.hi := by
  obtain ⟨hd, hlo, hhi⟩ := h
  exact_mod_cast (div_le_div_iff_of_pos_right (by exact_mod_cast hd)).mp (hlo.trans hhi)

theorem cosEncl_inUnit {m : Nat} (hm : 0 < m) (e : Int) (p : Nat) : (cosEncl m e p).InUnit := by
  obtain ⟨hd, hlo, hhi⟩ := toEncl_unit_bounds _ _
  exact ⟨hd, hlo, (cosEncl_holds m e p hm).lo_le_hi, hhi⟩

theorem sinEncl_inUnit {m : Nat} (hm : 0 < m) (e : Int) (p : Nat) : (sinEncl m e p).InUnit := by
  obtain ⟨hd, hlo, hhi⟩ := toEncl_unit_bounds _ _
  exact ⟨hd, hlo, (sinEncl_holds m e p hm).lo_le_hi, hhi⟩

section
variable {f : Fmt} (h1 : f.has 1)
include h1

/-- Refinement answers the rounding of an end of an enclosure, whether a precision decides or the last one does not. -/
theorem refine_within_one (upper : Bool) {encl : Nat → Encl} (h : ∀ p, (encl p).InUnit) (fuel p : Nat) :
    (refine f upper encl fuel p).within (-1) 1 := by
  induction fuel generalizing p with
  | zero =>
    obtain ⟨hd, hlo, hle, hhi⟩ := h p
    exact ofMag_within_one h1 _ hd (by split <;> omega)
  | succ fuel ih =>
    obtain ⟨hd, hlo, hle, hhi⟩ := h p
    rw [refine]
    cases hr : (encl p).rounded f with
    | none => exact ih (2 * p)
    | some r =>
      rcases Encl.rounded_cases hr with ⟨-, -, rfl⟩ | ⟨-, -, rfl⟩
      · exact ofMag_within_one h1 false hd (by omega)
      · exact ofMag_within_one h1 true hd (by omega)

/-- The cosine of every finite angle is a number between -1 and 1 (R14). -/
theorem cos_within_one {a : Fp} (ha : a.isFinite = true) : (Fp.cos f a).within (-1) 1 := by
  cases a <;> simp only [Fp.isFinite, Bool.false_eq_true] at ha
  case fin s m e =>
    by_cases hm : m = 0
    · rw [Fp.cos, if_pos hm]
      exact ofMag_within_one h1 false one_pos le_rfl
    · rw [Fp.cos, if_neg hm]
      exact refine_within_one h1 _ (cosEncl_inUnit (Nat.pos_of_ne_zero hm) e) _ _

/-- The sine of every finite angle is a number between -1 and 1 (R14). -/
theorem sin_within_one {a : Fp} (ha : a.isFinite = true) : (Fp.sin f a).within (-1) 1 := by
  cases a <;> simp only [Fp.isFinite, Bool.false_eq_true] at ha
  case fin s m e =>
    by_cases hm : m = 0
    · rw [Fp.sin, if_pos hm]
      exact ⟨rfl, by simp [Fp.toReal], by simp [Fp.toReal]⟩
    · rw [Fp.sin, if_neg hm]
      have hr := refine_within_one h1 (Config.undecided 1 m e) (sinEncl_inUnit (Nat.pos_of_ne_zero hm) e) refineFuel
        (basePrecision f)
      cases s with
      | false => exact hr
      | true => exact neg_within_one hr

end

/-! ## Data of binary64 -/

theorem f64_ebits_pos : 0 < f64.ebits := by decide

theorem f64_infCode_pos : 0 < f64.infCode := by decide

theorem f64_magValue_one : f64.magValue 0x3FF0000000000000 = 1 := by
  rw [Fmt.magValue, show f64.unpackMag 0x3FF0000000000000 = (2 ^ 52, -52) by decide +kernel]; norm_num

theorem f64_has_one : f64.has 1 := ⟨0x3FF0000000000000, by decide, by rw [f64_magValue_one, abs_one]⟩

theorem f64_has_two : f64.has 2 := ⟨0x4000000000000000, by decide, by
  rw [Fmt.magValue, show f64.unpackMag 0x4000000000000000 = (2 ^ 52, -51) by decide +kernel]; norm_num⟩

theorem mul64_within_one {a b : Fp} (ha : a.within (-1) 1) (hb : b.within (-1) 1) : (mul64 a b).within (-1) 1 := by
  refine Fmt.rounds.within_one f64_has_one (rounds_mul f64 a b ha.1 hb.1) ?_
  rw [abs_mul]
  exact mul_le_one₀ (abs_le.mpr ha.2) (abs_nonneg _) (abs_le.mpr hb.2)

theorem add64_isFinite {a b : Fp} (ha : a.within (-1) 1) (hb : b.within (-1) 1) : (add64 a b).isFinite = true := by
  obtain ⟨hfa, hal, hah⟩ := ha
  obtain ⟨hfb, hbl, hbh⟩ := hb
  exact ((rounds_add f64 f64_infCode_pos a b hfa hfb).within (Fmt.has_neg f64_has_two) f64_has_two (by linarith)
    (by linarith)).1

theorem sub64_isFinite {a b : Fp} (ha : a.within (-1) 1) (hb : b.within (-1) 1) : (sub64 a b).isFinite = true :=
  add64_isFinite ha (neg_within_one hb)

/-- A product of +0 with a finite datum is the zero of its sign (R13). -/
theorem mul64_zeroWord {a : Fp} (ha : a.isFinite = true) : ∃ s, mul64 (w64 0) a = .fin s 0 f64.qmin :=
  ⟨_, mul_eq_zero_sign f64 f64_ebits_pos (by decide +kernel) ha (by rw [w64, ofF32_zero]; simp [Fp.toReal])⟩

/-! ## Stages of magnitude 1 -/

/-- A non-zero number has one rounding, however it is written as a fraction (R13). -/
theorem Fmt.rounds.unique {f : Fmt} {v : ℝ} {r t : Fp} (hr : f.rounds v r) (ht : f.rounds v t) (hv : v ≠ 0) : r = t := by
  obtain ⟨num, den, -, hd, h, rfl⟩ := hr.sign_mag hv
  obtain ⟨num', den', -, hd', h', rfl⟩ := ht.sign_mag hv
  rw [h, div_eq_div_iff (by exact_mod_cast hd.ne') (by exact_mod_cast hd'.ne')] at h'
  rw [Fp.round, Fp.round, roundMag_congr f num den num' den' hd hd' (by exact_mod_cast h')]

theorem toReal_w64_one : (w64 0x3F800000).toReal = 1 := by
  rw [w64, show ofF32 0x3F800000 = .fin false 8388608 (-23) by decide +kernel]; norm_num [Fp.toReal]

/-- The word 1.0 and the constant 1.0, which are written apart, have one sum with any datum (R13, R223). -/
theorem add64_w64_one (c : Fp) : add64 (w64 0x3F800000) c = add64 one c := by
  cases hc : c.isFinite with
  | false =>
    cases c with
    | fin s m e => cases hc
    | _ => rfl
  | true =>
    have hword : (w64 0x3F800000).isFinite = true := by decide +kernel
    have hsumWord := rounds_add f64 f64_infCode_pos _ c hword hc
    have hsumOne := rounds_add f64 f64_infCode_pos one c rfl hc
    rw [toReal_w64_one] at hsumWord
    rw [toReal_one] at hsumOne
    by_cases h0 : 1 + c.toReal = 0
    · rw [add64, add_eq_zero f64 hword hc (by rwa [toReal_w64_one]), add_eq_zero f64 rfl hc (by rwa [toReal_one]),
        show (w64 0x3F800000).sign = one.sign by decide +kernel]
    · exact hsumWord.unique hsumOne h0

/-- A stage whose two polynomials agree divides one square by itself (R223, R227). -/
theorem stageMag_of_equal (a1 a2 : Word) (f fsE : Fp) :
    ∃ d, stageMag ⟨0x3F800000, a1, a2, a1, a2⟩ f fsE = sqrt64 (div64 d d) := by
  simp only [stageMag, add64_w64_one]
  exact ⟨_, rfl⟩

theorem sqrt64_round_one : sqrt64 (Fp.round f64 false 1 1) = Fp.round f64 false 1 1 := by decide +kernel

/-- A datum over itself has the root 1, or is a NaN: a zero's, an infinity's or a NaN's quotient (R13). -/
theorem sqrt64_div64_self {d : Fp} (h : (sqrt64 (div64 d d)).isNaN = false) :
    sqrt64 (div64 d d) = Fp.round f64 false 1 1 := by
  cases d with
  | nan => cases h
  | inf s => cases h
  | fin s m e =>
    by_cases h0 : (Fp.fin s m e).toReal = 0
    · rw [div64, (div_zeros f64 f64_ebits_pos rfl rfl).2.2 h0 h0] at h
      cases h
    · have hdiv := rounds_div f64 (.fin s m e) _ rfl rfl h0
      rw [div_self h0] at hdiv
      have hone : div64 (.fin s m e) (.fin s m e) = Fp.round f64 false 1 1 :=
        hdiv.unique ⟨false, 1, 1, one_pos, by simp, rfl⟩ one_ne_zero
      rw [hone, sqrt64_round_one]

/-- 1 and zeros of any sign add up to 1 (R223). -/
theorem add64_one_zeros (s t : Bool) :
    add64 (add64 one (.fin s 0 f64.qmin)) (.fin t 0 f64.qmin) = Fp.round f64 false 1 1 := by
  revert s t; decide +kernel

/-- The square of the complex number 1 whose imaginary part is a sum of zeros (R223). -/
theorem square_one_zeros (s t : Bool) :
    add64 (mul64 (Fp.round f64 false 1 1) (Fp.round f64 false 1 1))
      (mul64 (add64 (.fin s 0 f64.qmin) (.fin t 0 f64.qmin)) (add64 (.fin s 0 f64.qmin) (.fin t 0 f64.qmin)))
      = Fp.round f64 false 1 1 := by
  revert s t; decide +kernel

/-- IDENT has magnitude 1 at every finite angle: its zero coefficients make zeros of the powers of z, which are finite,
so both squares are 1 (R223, R227). -/
theorem stageMag_ident {f fsE : Fp} (h : (div64 (mul64 (ofF64 TWO_PI64) f) fsE).isFinite = true) :
    stageMag Coefs.ident f fsE = Fp.round f64 false 1 1 := by
  have hzr : (cos64 _).within (-1) 1 := cos_within_one f64_has_one h
  have hzi : (sin64 _).neg.within (-1) 1 := neg_within_one (sin_within_one f64_has_one h)
  obtain ⟨_, hzeroR⟩ := mul64_zeroWord hzr.1
  obtain ⟨_, hzeroI⟩ := mul64_zeroWord hzi.1
  obtain ⟨_, hzero2R⟩ := mul64_zeroWord (sub64_isFinite (mul64_within_one hzr hzr) (mul64_within_one hzi hzi))
  obtain ⟨_, hzero2I⟩ := mul64_zeroWord (add64_isFinite (mul64_within_one hzr hzi) (mul64_within_one hzi hzr))
  simp only [stageMag, Coefs.ident, add64_w64_one, hzeroR, hzeroI, hzero2R, hzero2I, add64_one_zeros, square_one_zeros]
  decide +kernel

/-- The reset configuration multiplies 1 by the peak's IDENT alone (R52, R224). -/
theorem mag_reset {f fsE : Fp} (h : (div64 (mul64 (ofF64 TWO_PI64) f) fsE).isFinite = true) :
    mag Configuration.reset f fsE = Fp.round f64 false 1 1 := by
  have hproduct : mag Configuration.reset f fsE = mul64 one (stageMag Coefs.ident f fsE) := rfl
  rw [hproduct, stageMag_ident h]
  decide +kernel

/-- Settles O50: the peak's IDENT is the one factor at reset, and equal polynomials make a quotient of a datum by itself. -/
theorem flatResponses : Obligations.FlatResponses := by
  refine ⟨fun f fsE h => ⟨mag_reset h, ?_⟩, fun a1 a2 f fsE h => ?_⟩
  · rw [mag_reset h]
    decide +kernel
  · obtain ⟨d, hd⟩ := stageMag_of_equal a1 a2 f fsE
    rw [hd] at h ⊢
    exact sqrt64_div64_self h

end Sys2Proof.Machine
end

section
/-! PROOFS. Nothing faults, is refused or hangs (spec/60_exceptions.md R241, R249), and the ports' bases stay where the
platform put them (spec/20_memory.md R80). -/

namespace Sys2Proof.Machine

theorem audioTurn_next (s : State) : ∃ t, audioTurn s = .next t := by
  unfold audioTurn
  split
  · exact ⟨_, rfl⟩
  · split
    · exact ⟨_, rfl⟩
    · exact perform_next .a _ _

theorem controlTurn_next (s : State) : ∃ t, controlTurn s = .next t := by
  unfold controlTurn
  split
  · exact ⟨_, rfl⟩
  · exact perform_next .c _ _

theorem step_next (s : State) : ∃ t, step s = .next t := by
  unfold step
  split
  · exact ⟨_, rfl⟩
  · exact audioTurn_next _
  · exact controlTurn_next _
  · exact ⟨_, rfl⟩

/-- No effect moves the bases, not even the reset event's (R80, R270). -/
theorem Effect.bases_eq {s u : State} (h : Effect s u) : u.bases = s.bases := by
  cases h with
  | errors b c d e => rw [raiseIf_bases, raiseIf_bases]
  | _ => rfl

/-- Settles O51: a step's next state is an effect's, beside the hosts' side of the bus, and no effect moves the bases. -/
theorem everyStepCompletes : Obligations.EveryStepCompletes := by
  refine ⟨exec_next, fun s => ?_⟩
  obtain ⟨t, ht⟩ := step_next s
  obtain ⟨u, b, hu, rfl⟩ := step_effect ht
  exact ⟨_, ht, hu.bases_eq⟩

end Sys2Proof.Machine
end

section
/-! PROOFS. The reset event (spec/70_reset_and_hazards.md R270; spec/10_state.md R52). -/

namespace Sys2Proof.Machine

/-- The reset input's turn is the reset event, whatever the block and the hosts are at (R70, R270). -/
theorem step_reset {s : State} {ts : List Turn} (hturns : s.turns = .reset :: ts) :
    step s = .next (resetEvent { s with turns := ts }) := by
  simp only [step, hturns]

/-- Settles O20: the reset turn's step is the reset event, which keeps only the hosts' side of the bus and the bases. -/
theorem resetEventHolds : Obligations.ResetEvent := fun _ _ hturns => step_reset hturns

end Sys2Proof.Machine
end
